-- ==== Sys2Proof/Word.lean ====
section
/-! DEFINITION. The word types of the SEthernet-AUX control core (spec/00_scope.md R18): `u8` and `u16`.
Counters, lengths and addresses being computed are natural numbers or integers (R18: "mathematical
integers unless a width is stated"); only register contents and command words are bit vectors. -/

namespace Sys2Proof

/-- `u8` of R18. -/
abbrev Byte := BitVec 8

/-- `u16` of R18: a command word, a register's content, a ring pointer. -/
abbrev Word := BitVec 16

end Sys2Proof
end

