-- ==== Sys2Proof/Syntax.lean ====
section
/-! DEFINITION. The operand types and the nineteen commands of spec/30_encoding.md R93, one constructor of
`Instr` per row of spec/opcode_table.json. -/

namespace Sys2Proof

/-- The symbolic registers of the chip's window (spec/10_state.md R35 to R46). -/
inductive Reg where
  | rxst | rxtail | rxhead | iflag | ien | ctl | stat | txst | txlen | maccfg | ipg | fc
  | ht0 | ht1 | ht2 | ht3 | maadr0 | maadr1 | maadr2
  deriving DecidableEq, Repr

/-- Every register of the window, in the order of spec/95_test_vectors.md section 1. -/
def Reg.all : List Reg :=
  [.rxst, .rxtail, .rxhead, .iflag, .ien, .ctl, .stat, .txst, .txlen, .maccfg, .ipg, .fc,
   .ht0, .ht1, .ht2, .ht3, .maadr0, .maadr1, .maadr2]

/-- The named one-bit fields of the registers (R38 `IFLAG`, R39 `IEN`, R40 `CTL`, R41 `STAT`,
R43 `MACCFG`, R44 `FC`). The counter field `STAT.PKTCNT` is no single bit and is kept apart. -/
inductive BitName where
  | iflagLink | iflagTxdone | iflagTxabt | iflagRxabt | iflagPkt
  | ienLink | ienTxdone | ienTxabt | ienRxabt | ienPkt | ienGlobal
  | ctlRxen | ctlTxrts | ctlPktdec
  | statRxbusy | statFcidle | statPhydpx | statPhylnk
  | maccfgFuldpx
  | fcAutofc | fcFcassert
  deriving DecidableEq, Repr

/-- The named bits of one register; empty for a register that is one 16-bit field. -/
def Reg.bits : Reg → List BitName
  | .iflag => [.iflagLink, .iflagTxdone, .iflagTxabt, .iflagRxabt, .iflagPkt]
  | .ien => [.ienLink, .ienTxdone, .ienTxabt, .ienRxabt, .ienPkt, .ienGlobal]
  | .ctl => [.ctlRxen, .ctlTxrts, .ctlPktdec]
  | .stat => [.statRxbusy, .statFcidle, .statPhydpx, .statPhylnk]
  | .maccfg => [.maccfgFuldpx]
  | .fc => [.fcAutofc, .fcFcassert]
  | .rxst | .rxtail | .rxhead | .txst | .txlen | .ipg | .ht0 | .ht1 | .ht2 | .ht3
  | .maadr0 | .maadr1 | .maadr2 => []

/-- A 6-byte address, `b0` the first byte on the wire (format A of R92; `a[0..5]` of R195). -/
structure MacAddr where
  b0 : Byte
  b1 : Byte
  b2 : Byte
  b3 : Byte
  b4 : Byte
  b5 : Byte
  deriving DecidableEq, Repr, Inhabited

/-- A command of the block (R93). `INITIALIZE` is spelled `initialise` because Lean reserves the other word. -/
inductive Instr where
  /-- `REG_READ reg` (R110). -/
  | regRead (reg : Reg)
  /-- `REG_WRITE reg, value` (R111). -/
  | regWrite (reg : Reg) (value : Word)
  /-- `REG_SET_BITS reg, mask` (R112). -/
  | regSetBits (reg : Reg) (mask : Word)
  /-- `REG_CLEAR_BITS reg, mask` (R113). -/
  | regClearBits (reg : Reg) (mask : Word)
  /-- `READ_BYTES length` (R120). -/
  | readBytes (length : Word)
  /-- `RECEIVE_ONE` (R131). -/
  | receiveOne
  /-- `ENQUEUE_AND_KICK packet` (R150); format P carries the frame as one flat byte sequence. -/
  | enqueueAndKick (bytes : List Byte)
  /-- `KICK` (R151). -/
  | kick
  /-- `DISPATCH` (R165). -/
  | dispatch
  /-- `RECOVER` (R180). -/
  | recover
  /-- `SUBSCRIBE addr` (R196). -/
  | subscribe (addr : MacAddr)
  /-- `UNSUBSCRIBE addr` (R198). -/
  | unsubscribe (addr : MacAddr)
  /-- `HASH addr` (R195). -/
  | hash (addr : MacAddr)
  /-- `RECONCILE` (R205). -/
  | reconcile
  /-- `INITIALIZE` (R213). -/
  | initialise
  /-- `TRANSMIT framed, ptype, dest, bytes` (R214). -/
  | transmit (framed : Bool) (ptype : Word) (dest : BitVec 32) (bytes : List Byte)
  /-- `SET_MULTICAST addr, subscribe` (R215). -/
  | setMulticast (addr : MacAddr) (subscribe : Bool)
  /-- `SET_FLAGS up` (R216). -/
  | setFlags (up : Bool)
  /-- `GET_STATUS` (R217). -/
  | getStatus
  deriving DecidableEq, Repr

end Sys2Proof
end

