-- ==== Sys2Proof/Config.lean ====
section
/-! DEFINITION. The parameters of spec/00_scope.md section 3 (R7 to R17; "A model takes every OPEN parameter below
as an argument of its configuration") and the free values of the model.

`Params` holds every parameter as plain data, `Params.Valid` the constraints of R7, R8, R12, R13, R14, and `Config`
pairs the two, so that no machine with an invalid configuration can be written down. The state carries one
`Config`, which no step changes; every claim about a state is thereby a claim about every configuration. `Config.tc`
is the spec's own worked configuration TC (spec/92_eei_decisions.md D34, spec/95_test_vectors.md section 1).

The `free…` constants have no body: nothing can be proved about their values. -/

namespace Sys2Proof

/-- `REGMAP` (R13): a 16-bit number per register and a bit index per named bit. `STAT.PKTCNT` is a counter, so it has
a lowest bit and a width (assumption 6). -/
structure RegMap where
  rxst : Word
  rxtail : Word
  rxhead : Word
  iflag : Word
  ien : Word
  ctl : Word
  stat : Word
  txst : Word
  txlen : Word
  maccfg : Word
  ipg : Word
  fc : Word
  ht0 : Word
  ht1 : Word
  ht2 : Word
  ht3 : Word
  maadr0 : Word
  maadr1 : Word
  maadr2 : Word
  iflagLink : Fin 16
  iflagTxdone : Fin 16
  iflagTxabt : Fin 16
  iflagRxabt : Fin 16
  iflagPkt : Fin 16
  ienLink : Fin 16
  ienTxdone : Fin 16
  ienTxabt : Fin 16
  ienRxabt : Fin 16
  ienPkt : Fin 16
  ienGlobal : Fin 16
  ctlRxen : Fin 16
  ctlTxrts : Fin 16
  ctlPktdec : Fin 16
  statRxbusy : Fin 16
  statFcidle : Fin 16
  statPhydpx : Fin 16
  statPhylnk : Fin 16
  statPktcntLow : Nat
  statPktcntWidth : Nat
  maccfgFuldpx : Fin 16
  fcAutofc : Fin 16
  fcFcassert : Fin 16
  deriving DecidableEq, Repr

/-- The register number of a symbolic register (R13). -/
def RegMap.number (m : RegMap) : Reg → Word
  | .rxst => m.rxst
  | .rxtail => m.rxtail
  | .rxhead => m.rxhead
  | .iflag => m.iflag
  | .ien => m.ien
  | .ctl => m.ctl
  | .stat => m.stat
  | .txst => m.txst
  | .txlen => m.txlen
  | .maccfg => m.maccfg
  | .ipg => m.ipg
  | .fc => m.fc
  | .ht0 => m.ht0
  | .ht1 => m.ht1
  | .ht2 => m.ht2
  | .ht3 => m.ht3
  | .maadr0 => m.maadr0
  | .maadr1 => m.maadr1
  | .maadr2 => m.maadr2

/-- The bit index of a named bit within its register (R13). -/
def RegMap.index (m : RegMap) : BitName → Fin 16
  | .iflagLink => m.iflagLink
  | .iflagTxdone => m.iflagTxdone
  | .iflagTxabt => m.iflagTxabt
  | .iflagRxabt => m.iflagRxabt
  | .iflagPkt => m.iflagPkt
  | .ienLink => m.ienLink
  | .ienTxdone => m.ienTxdone
  | .ienTxabt => m.ienTxabt
  | .ienRxabt => m.ienRxabt
  | .ienPkt => m.ienPkt
  | .ienGlobal => m.ienGlobal
  | .ctlRxen => m.ctlRxen
  | .ctlTxrts => m.ctlTxrts
  | .ctlPktdec => m.ctlPktdec
  | .statRxbusy => m.statRxbusy
  | .statFcidle => m.statFcidle
  | .statPhydpx => m.statPhydpx
  | .statPhylnk => m.statPhylnk
  | .maccfgFuldpx => m.maccfgFuldpx
  | .fcAutofc => m.fcAutofc
  | .fcFcassert => m.fcFcassert

/-- `index` is in the field `STAT.PKTCNT`. -/
abbrev RegMap.inPktcnt (m : RegMap) (index : Nat) : Prop :=
  m.statPktcntLow ≤ index ∧ index < m.statPktcntLow + m.statPktcntWidth

/-- R13: the map is injective on registers and, within one register, on bits; the field `STAT.PKTCNT` lies in the
register and meets no named bit of it. -/
abbrev RegMap.Valid (m : RegMap) : Prop :=
  (Reg.all.map m.number).Nodup
  ∧ (∀ r ∈ Reg.all, (r.bits.map m.index).Nodup)
  ∧ 1 ≤ m.statPktcntWidth
  ∧ m.statPktcntLow + m.statPktcntWidth ≤ 16
  ∧ ∀ b ∈ Reg.stat.bits, ¬ m.inPktcnt (m.index b)

/-- The two CRC conventions of spec/93_implementation_defined.md GK4; `CRC32_VARIANT` of R195 picks one. -/
inductive CrcVariant where
  /-- GK4 (i), the one R195 adopts: reflected, initial value all ones, final complement. -/
  | frameChecksum
  /-- GK4 (ii): same polynomial and initial value, no reflection of the result, no final complement. -/
  | controllerHash
  deriving DecidableEq, Repr

/-- Every parameter of R7 to R17. -/
structure Params where
  /-- `REGMAP` (R13). -/
  regmap : RegMap
  /-- `RX_START` (R7). -/
  rxStart : Nat
  /-- `RX_END` (R7). -/
  rxEnd : Nat
  /-- `TX_START` (R8). -/
  txStart : Nat
  /-- `TX_CAPACITY` (R8). -/
  txCapacity : Nat
  /-- `MEM_SIZE` (R8). -/
  memSize : Nat
  /-- `RESET_COUNT_TIME` (R12). -/
  resetCountTime : Nat
  /-- `MAX_RESETS` (R12). -/
  maxResets : Nat
  /-- `SENDQ_MAX` (R14). -/
  sendqMax : Nat
  /-- `CHUNK_SMALL` (R14). -/
  chunkSmall : Nat
  /-- `CHUNK_LARGE` (R14). -/
  chunkLarge : Nat
  /-- `TAG_SIZE` (R14). -/
  tagSize : Nat
  /-- `PKTCNT_MAX` (spec/10_state.md R41). -/
  pktcntMax : Nat
  /-- `IPG_FULL` (R15). -/
  ipgFull : Word
  /-- `IPG_HALF` (R15). -/
  ipgHalf : Word
  /-- `SPIN_LIMIT` (R15); `none` is no bound. -/
  spinLimit : Option Nat
  /-- `ETH_HDR_SIZE` (R11). -/
  ethHdrSize : Nat
  /-- `ETHER_MIN` (R11). -/
  etherMin : Nat
  /-- `ETHER_MAX` (R11). -/
  etherMax : Nat
  /-- `ETYPE_IP` (R17). -/
  etypeIp : Word
  /-- `ETYPE_ARP` (R17). -/
  etypeArp : Word
  /-- `ETYPE_RARP` (R17). -/
  etypeRarp : Word
  /-- `CHIP_LE` (R10). -/
  chipLE : Bool
  /-- `CRC32_VARIANT` (spec/46_multicast_filter.md R195). -/
  crcVariant : CrcVariant
  deriving DecidableEq, Repr

/-- `RBH_SIZE` (R9). -/
def rbhSize : Nat := 8

/-- `CRC_LEN` (R11). -/
def crcLen : Nat := 4

/-- `RING_SIZE = RX_END - RX_START` (R7). -/
def Params.ringSize (p : Params) : Nat := p.rxEnd - p.rxStart

/-- The constraints on the parameters: R7 (ring), R8 (transmit region), R12, R13, R14, `PKTCNT_MAX` of R41, and the order
of the frame-length constants that spec/42_rx_engine.md R139 relies on (assumption 7). -/
abbrev Params.Valid (p : Params) : Prop :=
  p.regmap.Valid
  ∧ p.rxStart % 2 = 0 ∧ p.rxEnd % 2 = 0 ∧ p.rxStart < p.rxEnd ∧ p.rxEnd ≤ p.memSize ∧ p.rxEnd < 65536
  ∧ p.memSize ≤ 65536
  ∧ rbhSize + p.etherMax + crcLen ≤ p.ringSize
  ∧ p.txStart + p.txCapacity ≤ p.memSize
  ∧ (p.txStart + p.txCapacity ≤ p.rxStart ∨ p.rxEnd ≤ p.txStart)
  ∧ p.etherMax ≤ p.txCapacity
  ∧ 1 ≤ p.resetCountTime
  ∧ 3 ≤ p.sendqMax
  ∧ p.tagSize + p.ethHdrSize ≤ p.chunkSmall ∧ p.chunkSmall < p.chunkLarge ∧ 2 ≤ p.chunkSmall
  ∧ 1 ≤ p.pktcntMax ∧ p.pktcntMax < 2 ^ p.regmap.statPktcntWidth
  ∧ 14 ≤ p.ethHdrSize ∧ p.ethHdrSize < p.etherMin ∧ p.etherMin ≤ p.etherMax

/-- A configuration: parameters that meet their constraints. -/
structure Config extends Params where
  valid : toParams.Valid
  deriving DecidableEq, Repr

/-- `TC_REGMAP` of spec/95_test_vectors.md section 1. -/
def RegMap.tc : RegMap where
  rxst := 0
  rxtail := 1
  rxhead := 2
  iflag := 3
  ien := 4
  ctl := 5
  stat := 6
  txst := 7
  txlen := 8
  maccfg := 9
  ipg := 10
  fc := 11
  ht0 := 12
  ht1 := 13
  ht2 := 14
  ht3 := 15
  maadr0 := 16
  maadr1 := 17
  maadr2 := 18
  iflagLink := 0
  iflagTxdone := 1
  iflagTxabt := 2
  iflagRxabt := 3
  iflagPkt := 4
  ienLink := 0
  ienTxdone := 1
  ienTxabt := 2
  ienRxabt := 3
  ienPkt := 4
  ienGlobal := 15
  ctlRxen := 0
  ctlTxrts := 1
  ctlPktdec := 2
  statRxbusy := 0
  statFcidle := 1
  statPhydpx := 2
  statPhylnk := 3
  statPktcntLow := 8
  statPktcntWidth := 8
  maccfgFuldpx := 0
  fcAutofc := 0
  fcFcassert := 1

/-- The parameters of TC (D34). TC leaves `IPG_FULL` and `IPG_HALF` symbolic; the two values here are those of GK8
(assumption 5, PRESUMED, and no rule looks at them). -/
def Params.tc : Params where
  regmap := RegMap.tc
  rxStart := 0x0600
  rxEnd := 0x1000
  txStart := 0x0000
  txCapacity := 0x0600
  memSize := 0x1000
  resetCountTime := 50
  maxResets := 5
  sendqMax := 3
  chunkSmall := 112
  chunkLarge := 1024
  tagSize := 4
  pktcntMax := 255
  ipgFull := 0x0015
  ipgHalf := 0x0012
  spinLimit := none
  ethHdrSize := 14
  etherMin := 60
  etherMax := 1514
  etypeIp := 0x0800
  etypeArp := 0x0806
  etypeRarp := 0x8035
  chipLE := true
  crcVariant := .frameChecksum

/-- The test configuration TC (D34; assumption 1, DESIGN CHOICE: the configuration that `State.reset` carries). -/
def Config.tc : Config where
  toParams := Params.tc
  valid := by decide

/-- Free value: bits that no rule names, as one register read returns them (R110: "read as free values"; U7). -/
opaque Config.freeBits : Nat → Word

/-- Free value: whether the allocator grants a chunk once the host's listed answers are used up (R219). -/
opaque Config.freeGrant : Nat → Bool

/-- Free value: what the resolver answers once the host's listed answers are used up (R221). -/
opaque Config.freeResolve : Nat → Option MacAddr

/-- Free value: a byte the chip sends from an address outside chip memory (U6 and R236; reached only by direct
commands that move `TXST` or `TXLEN`). -/
opaque Config.freeByte : Nat → Byte

end Sys2Proof
end

