-- ==== Sys2Proof/Machine/State.lean ====
section
/-! DEFINITION. All the state of spec/10_state.md, as plain data: the DeviceContext (R21 to R27), the sequencer and
the rest of the block's state (R28 to R34), the chip's registers (R35 to R46), chip memory (R47), the records R49, and
what the model itself needs: the command port, the output trace, and the inputs of the other agents. -/

namespace Sys2Proof.Machine

/-- Chip memory (R47) as address and byte pairs in the canonical form of `Memory.wf`: addresses strictly rising, no
entry equal to what an unlisted address reads as. -/
abbrev Memory := List Host.Cell

/-- The interrupt priority level (R29). -/
inductive Ipl where
  | low
  | device
  deriving DecidableEq, Repr

/-- Which agent started the bottom frame of `seq` (R29, R269). -/
inductive Context where
  | request
  | interrupt
  deriving DecidableEq, Repr

/-- The watchdog state machine (R32, R182). -/
inductive WdState where
  | healthy
  | recovering
  | disabled
  deriving DecidableEq, Repr

/-- The class of a chunk (R49); `flat` is the one chunk of a command-form packet, which no allocator granted
(R150; assumption 9). -/
inductive ChunkClass where
  | small
  | large
  | flat
  deriving DecidableEq, Repr

/-- A chunk `(class, tag_room, data)` (R49). The `tag_room` reserved bytes have no content in the model (U9). -/
structure Chunk where
  cls : ChunkClass
  tagRoom : Nat
  data : List Byte
  deriving DecidableEq, Repr

/-- A packet buffer: an ordered sequence of chunks (R49). -/
abbrev Packet := List Chunk

/-- A delivery lane (R17). -/
inductive Lane where
  | ip
  | arp
  | rarp
  | raw
  deriving DecidableEq, Repr

/-- The twelve exceptions of R250. -/
inductive Exn where
  | ringPointerInvalid
  | nextOffsetInvalid
  | frameLengthInvalid
  | allocFail
  | sendQueueFull
  | resetThresholdExceeded
  | addressUnknown
  | txTooLong
  | badCommand
  | hardwareFault
  | notProbed
  | notInitialized
  deriving DecidableEq, Repr

/-- What a `raise` records with the exception (R250, column "info recorded"). -/
inductive Info where
  | none
  | number (n : Nat)
  | flag (b : BitName)
  deriving DecidableEq, Repr

/-- The five interrupt flags as one register read shows them (R38). -/
structure IFlags where
  link : Bool
  txdone : Bool
  txabt : Bool
  rxabt : Bool
  pkt : Bool
  deriving DecidableEq, Repr

/-- The record `GET_STATUS` returns (R217). -/
structure Status where
  adminUp : Bool
  initialized : Bool
  wdState : WdState
  packetsIn : Nat
  packetsOut : Nat
  errorsIn : Nat
  errorsOut : Nat
  deriving DecidableEq, Repr

/-- The typed result of a command (R96). -/
inductive Result where
  /-- "Every other command: no value." -/
  | unit
  /-- `REG_READ`. -/
  | word (v : Word)
  /-- `READ_BYTES`. -/
  | bytes (bs : List Byte)
  /-- `RECEIVE_ONE`. -/
  | packet (p : Option Packet)
  /-- `HASH`. -/
  | bucket (k : Fin 64)
  /-- `Ok`. -/
  | ok
  /-- `Err(code)`. -/
  | err (x : Exn)
  /-- `GET_STATUS`. -/
  | status (r : Status)
  /-- `READ_BYTES` with the read pointer outside the ring: the command is refused, no state changes (U1, R121). -/
  | refusedOutsideRing
  deriving DecidableEq, Repr

/-- One entry of the trace: the output events of R96, and, in the same order, the block's accesses to the chip (the
atomic events of R28) and its exchanges with the allocator and the resolver (R219, R221). -/
inductive TraceEvent where
  /-- `RegRead(r)`. -/
  | regRead (r : Reg)
  /-- `RegWrite(r, v)`. -/
  | regWrite (r : Reg) (v : Word)
  /-- `RegSet(r, mask)`. -/
  | regSet (r : Reg) (mask : Word)
  /-- `RegClear(r, mask)`. -/
  | regClear (r : Reg) (mask : Word)
  /-- `MemRead(addr, n)`. -/
  | memRead (addr n : Nat)
  /-- `MemWrite(addr, n, v)`. -/
  | memWrite (addr : Nat) (bytes : List Byte)
  /-- `Alloc(class)` and whether a chunk was granted. -/
  | alloc (cls : ChunkClass) (granted : Bool)
  /-- `Release(chunks)`. -/
  | release (chunks : List Chunk)
  /-- `Resolve(dest)` and the answer; `none` is "deferred", after which the resolver keeps the packet (R214). -/
  | resolve (dest : BitVec 32) (answer : Option MacAddr) (kept : List Byte)
  /-- `Deliver(lane, pkt)`. -/
  | deliver (lane : Lane) (p : Packet)
  /-- `raise X(info)`. -/
  | raised (x : Exn) (info : Info)
  /-- `Wire(bytes)`, emitted by the chip (R236). -/
  | wire (bytes : List Byte)
  deriving DecidableEq, Repr

/-- An operation that a frame of `seq` can name (R28): the nineteen of R93. -/
inductive OpName where
  | regRead | regWrite | regSetBits | regClearBits | readBytes | receiveOne | enqueueAndKick | kick | dispatch
  | recover | subscribe | unsubscribe | hash | reconcile | initialise | transmit | setMulticast | setFlags | getStatus
  deriving DecidableEq, Repr

/-- A frame `(operation, step)` of the sequencer (R28), with the one local value that outlives a busy-wait: the
snapshot `f` of `DISPATCH` (R165 step 0). -/
structure Frame where
  op : OpName
  step : Nat
  snapshot : Option IFlags
  deriving DecidableEq, Repr

/-- The writable flags of `IFLAG` (R38); `PKT` is computed from `PKTCNT` and is not stored. -/
structure StoredFlags where
  link : Bool
  txdone : Bool
  txabt : Bool
  rxabt : Bool
  deriving DecidableEq, Repr

/-- `IEN` (R39). -/
structure Enables where
  link : Bool
  txdone : Bool
  txabt : Bool
  rxabt : Bool
  pkt : Bool
  global : Bool
  deriving DecidableEq, Repr

/-- The chip's registers (R35 to R46), by named bit and field. -/
structure Chip where
  /-- `RXST` (R35). -/
  rxst : Word
  /-- `RXTAIL` (R36). -/
  rxtail : Word
  /-- `RXHEAD` (R37). -/
  rxhead : Word
  /-- `IFLAG`, its four writable bits (R38). -/
  flags : StoredFlags
  /-- `IEN` (R39). -/
  enables : Enables
  /-- `CTL.RXEN` (R40). -/
  rxen : Bool
  /-- `CTL.TXRTS` (R40). -/
  txrts : Bool
  /-- `STAT.RXBUSY` (R41). -/
  rxbusy : Bool
  /-- `STAT.FCIDLE` (R41). -/
  fcidle : Bool
  /-- `STAT.PHYDPX` (R41). -/
  phydpx : Bool
  /-- `STAT.PHYLNK` (R41). -/
  phylnk : Bool
  /-- `STAT.PKTCNT` (R41). -/
  pktcnt : Nat
  /-- `TXST` (R42). -/
  txst : Word
  /-- `TXLEN` (R42). -/
  txlen : Word
  /-- `MACCFG.FULDPX` (R43). -/
  fuldpx : Bool
  /-- `IPG` (R43). -/
  ipg : Word
  /-- `FC.AUTOFC` (R44). -/
  autofc : Bool
  /-- `FC.FCASSERT` (R44). -/
  fcassert : Bool
  /-- `HT0` (R45). -/
  ht0 : Word
  /-- `HT1` (R45). -/
  ht1 : Word
  /-- `HT2` (R45). -/
  ht2 : Word
  /-- `HT3` (R45). -/
  ht3 : Word
  /-- `MAADR0` (R46). -/
  maadr0 : Word
  /-- `MAADR1` (R46). -/
  maadr1 : Word
  /-- `MAADR2` (R46). -/
  maadr2 : Word
  deriving DecidableEq, Repr

/-- The DeviceContext (R21 to R27). -/
structure Ctx where
  /-- `ctx.base_address` is non-null (R22). -/
  probed : Bool
  /-- `ctx.rx_read_pointer` (R23). -/
  rxReadPointer : Word
  /-- `ctx.reset_counter` (R24). -/
  resetCounter : Nat
  /-- `ctx.last_reset_time` (R25). -/
  lastResetTime : Nat
  /-- `ctx.multicast_refcount[0..63]` (R26). -/
  multicastRefcount : Vector Nat 64
  /-- `ctx.link_address[0..5]` (R27). -/
  linkAddress : MacAddr
  /-- `ctx.addr_known` (R27). -/
  addrKnown : Bool
  deriving DecidableEq, Repr

/-- The values that R52 and R53 leave unspecified at reset ("a free input of the launch"), and the factory address. -/
structure Launch where
  rxReadPointer : Word
  lastResetTime : Nat
  linkAddress : MacAddr
  now : Nat
  phydpx : Bool
  phylnk : Bool
  fuldpx : Bool
  ipg : Word
  rxst : Word
  rxtail : Word
  rxhead : Word
  txst : Word
  txlen : Word
  maadr0 : Word
  maadr1 : Word
  maadr2 : Word
  mem : Memory
  deriving DecidableEq, Repr

/-- The outcomes of device discovery (R281). -/
inductive Discovery where
  | success
  | failure
  | addressUnknown
  deriving DecidableEq, Repr

/-- One move of another agent: the chip's steps R231 to R239, the timer's R245 and R246, reset R280, discovery R281, and
the host presenting a command (R20 (e)). Its arguments are what the rule lets the agent choose. -/
inductive EnvMove where
  /-- `CHIP_RX_BEGIN` (R231). -/
  | rxBegin
  /-- `CHIP_RX_END(hdr, payload)` (R232), with the rest of the status vector, the checksum and the pad byte. -/
  | rxEnd (hdr payload : List Byte) (rest fcs : BitVec 32) (pad : Byte)
  /-- `CHIP_RX_OVERFLOW` (R233) for a frame of `payloadLen` payload bytes. -/
  | rxOverflow (payloadLen : Nat)
  /-- `CHIP_RX_END_CORRUPT` (R234): bytes written, the new `RXHEAD` if it moves, and by how much `PKTCNT` rises. -/
  | rxEndCorrupt (writes : List (Nat × Byte)) (head : Option Word) (raise : Nat)
  /-- `CHIP_TX_COMPLETE` (R236); `andAbort` also sets `TXABT` (R237, envelope). -/
  | txComplete (andAbort : Bool)
  /-- `CHIP_TX_ABORT` (R237); `andDone` also sets `TXDONE` (envelope). -/
  | txAbort (andDone : Bool)
  /-- `CHIP_LINK_CHANGE(dpx, lnk)` (R238). -/
  | linkChange (dpx lnk : Bool)
  /-- `CHIP_FC` (R239): the new `FCIDLE`, and the new `FCASSERT` if the chip changes it. -/
  | flowControl (fcidle : Bool) (fcassert : Option Bool)
  /-- `TIMER_TICK` (R245). -/
  | timerTick
  /-- `TIMER_FIRE`, that is `QUIET_EXPIRE` (R183, R246). -/
  | timerFire
  /-- Reset (R280). -/
  | reset (launch : Launch)
  /-- Device discovery (R281). -/
  | discover (outcome : Discovery)
  /-- The host presents one command at the command port (R90). -/
  | present (words : List Word)
  deriving DecidableEq, Repr

/-- Which of two enabled steps an idle block takes first (R265: "enabled, not forced"). -/
inductive Pick where
  | command
  | activation
  deriving DecidableEq, Repr

/-- What the other agents do before one event of the block, and the idle block's choice where it has one. -/
structure Slot where
  moves : List EnvMove
  pick : Pick
  deriving DecidableEq, Repr

/-- The machine. -/
structure State where
  /-- The parameters, fixed for the machine (R7 to R17). The model's own field. -/
  cfg : Config
  /-- The DeviceContext (R21). -/
  ctx : Ctx
  /-- The sequencer, top frame first; `[]` is `idle` (R28). -/
  seq : List Frame
  /-- `ipl` (R29). -/
  ipl : Ipl
  /-- The `ipl` that the running command restores (R29). -/
  savedIpl : Ipl
  /-- `context` (R29); none when idle (R52). -/
  context : Option Context
  /-- `sendq`, head first (R30). -/
  sendq : List Packet
  /-- `packets_in` (R31). -/
  packetsIn : Nat
  /-- `packets_out` (R31). -/
  packetsOut : Nat
  /-- `errors_in` (R31). -/
  errorsIn : Nat
  /-- `errors_out` (R31). -/
  errorsOut : Nat
  /-- `wd_state` (R32). -/
  wdState : WdState
  /-- `now` (R33). -/
  now : Nat
  /-- `pending_clear` (R33). -/
  pendingClear : Option Nat
  /-- `initialized` (R34). -/
  initialized : Bool
  /-- `admin_up` (R34). -/
  adminUp : Bool
  /-- The chip's registers (R35 to R46). -/
  chip : Chip
  /-- `Mem` (R47). -/
  mem : Memory
  /-- The command port (R60 (4), R90): commands presented and not yet accepted, oldest first. -/
  port : List (List Word)
  /-- The result of the last completed command (R96). -/
  result : Option Result
  /-- The trace (R96, R250), newest first. -/
  trace : List TraceEvent
  /-- What the other agents will do: one slot before each coming event of the block (R230, R300). An input. -/
  agenda : List Slot
  /-- What the other agents line up again at every step that finds the agenda used up; empty when they rest then. It
  makes the runs in which they never stop (R240; assumption 37). An input. -/
  again : List Slot
  /-- The allocator's coming answers (R219). An input. -/
  allocAnswers : List Bool
  /-- The resolver's coming answers (R221). An input. -/
  resolveAnswers : List (Option MacAddr)
  /-- How many free values of `Config` have been used. The model's own field. -/
  freeCount : Nat
  deriving DecidableEq, Repr

/-- Why a step stops the machine. -/
inductive Fault where
  /-- Raised by `MemRead` and `MemWrite` for an access beyond `MEM_SIZE` (R62, R63, U2: "refuse"). Safe: the machine
  stops where the spec gives no effect; no operation reaches it, because the parameter constraints hold. -/
  | memoryBounds
  /-- Raised by `resume` for a `seq` that names a step at which no operation is ever held. Safe: no run reaches it. -/
  | sequencer
  deriving DecidableEq, Repr

/-- Why an instruction is refused. -/
inductive Refusal where
  /-- Raised by an arm of `exec` whose instruction has no meaning yet. Safe. No arm raises it. -/
  | notModelled (mnemonic : String)
  /-- Raised by every meaning when `seq` is not idle: "A command is accepted only when `seq = idle`" (R90). Safe; `step`
  never runs a command in such a state. -/
  | notIdle
  deriving DecidableEq, Repr

/-- The state right after reset (R52, R53) with the launch's free inputs `v`. -/
def State.launch (cfg : Config) (v : Launch) : State where
  cfg := cfg
  ctx :=
    { probed := false, rxReadPointer := v.rxReadPointer, resetCounter := 0, lastResetTime := v.lastResetTime,
      multicastRefcount := Vector.replicate 64 0, linkAddress := v.linkAddress, addrKnown := false }
  seq := []
  ipl := .low
  savedIpl := .low
  context := none
  sendq := []
  packetsIn := 0
  packetsOut := 0
  errorsIn := 0
  errorsOut := 0
  wdState := .healthy
  now := v.now
  pendingClear := none
  initialized := false
  adminUp := false
  chip :=
    { rxst := v.rxst, rxtail := v.rxtail, rxhead := v.rxhead
      flags := ⟨false, false, false, false⟩
      enables := ⟨false, false, false, false, false, false⟩
      rxen := false, txrts := false
      rxbusy := false, fcidle := true, phydpx := v.phydpx, phylnk := v.phylnk, pktcnt := 0
      txst := v.txst, txlen := v.txlen, fuldpx := v.fuldpx, ipg := v.ipg
      autofc := false, fcassert := false
      ht0 := 0, ht1 := 0, ht2 := 0, ht3 := 0
      maadr0 := v.maadr0, maadr1 := v.maadr1, maadr2 := v.maadr2 }
  mem := v.mem
  port := []
  result := none
  trace := []
  agenda := []
  again := []
  allocAnswers := []
  resolveAnswers := []
  freeCount := 0

/-- The launch that `State.reset` names (assumption 2, DESIGN CHOICE): zero for every value R52 and R53 leave
unspecified, and the factory address `02:00:00:12:34:56` of spec/95_test_vectors.md section 1. -/
def Launch.named : Launch where
  rxReadPointer := 0
  lastResetTime := 0
  linkAddress := ⟨0, 0, 0, 0, 0, 0⟩
  now := 0
  phydpx := false
  phylnk := false
  fuldpx := false
  ipg := 0
  rxst := 0
  rxtail := 0
  rxhead := 0
  txst := 0
  txlen := 0
  maadr0 := 0x0002
  maadr1 := 0x1200
  maadr2 := 0x5634
  mem := []

/-- The machine right after reset, under the configuration TC. -/
def State.reset : State := State.launch Config.tc Launch.named

end Sys2Proof.Machine
end

