-- ==== Sys2Proof/Machine/Memory.lean ====
section
/-! DEFINITION. Chip memory (spec/20_memory.md R60 to R63): one byte, and runs of bytes in increasing address order. -/

namespace Sys2Proof.Machine

/-- What an address that is not listed reads as (assumption 3, DESIGN CHOICE: R53 leaves every byte of `Mem`
unspecified at reset; any other content is a listed one). -/
def Memory.unlisted : Byte := 0

/-- The canonical form: addresses strictly rising, no entry that an unlisted address would read as. -/
abbrev Memory.wf (m : Memory) : Prop :=
  m.Pairwise (fun x y => x.1 < y.1) ∧ ∀ c ∈ m, c.2 ≠ Memory.unlisted

/-- Every listed address is one of chip memory (R60). -/
abbrev Memory.within (size : Nat) (m : Memory) : Prop := ∀ c ∈ m, c.1 < size

/-- The byte at an address. -/
def Memory.read : Memory → Nat → Byte
  | [], _ => Memory.unlisted
  | (k, v) :: rest, a => if a = k then v else Memory.read rest a

/-- `Mem[a] <- b`, keeping the canonical form. -/
def Memory.write : Memory → Nat → Byte → Memory
  | [], a, b => if b = Memory.unlisted then [] else [(a, b)]
  | (k, v) :: rest, a, b =>
    if a < k then (if b = Memory.unlisted then (k, v) :: rest else (a, b) :: (k, v) :: rest)
    else if a = k then (if b = Memory.unlisted then rest else (k, b) :: rest)
    else (k, v) :: Memory.write rest a b

/-- The `n` bytes at `addr`, `addr + 1`, … (R62). -/
def Memory.readBytes (m : Memory) (addr n : Nat) : List Byte := (List.range n).map (fun i => m.read (addr + i))

/-- `Mem[addr + i] <- bs[i]` for every `i` (R63). -/
def Memory.writeBytes (m : Memory) (addr : Nat) : List Byte → Memory
  | [] => m
  | b :: bs => Memory.writeBytes (m.write addr b) (addr + 1) bs

/-- Store each pair in turn. -/
def Memory.writePairs (m : Memory) (pairs : List (Nat × Byte)) : Memory :=
  pairs.foldl (fun m p => m.write p.1 p.2) m

/-- The canonical memory of `size` bytes that holds the listed contents. -/
def Memory.ofPairs (size : Nat) (pairs : List (Nat × Byte)) : Memory :=
  Memory.writePairs [] (pairs.filter (fun p => p.1 < size))

end Sys2Proof.Machine
end

