-- ==== Sys2Proof/WellFormed.lean ====
section
/-! DEFINITION. Which terms of `Instr` a command can carry (spec/30_encoding.md R92): the packet of a format-P
or format-T command has a byte count that fits the 16-bit word `W1`. Every other operand is bounded by its type. -/

namespace Sys2Proof

/-- The packet's byte count fits `W1` (R92, formats P and T). -/
def packetFits (bytes : List Byte) : Bool := bytes.length < 65536

/-- `i` has an encoding (R92). -/
def Instr.wellFormed : Instr → Bool
  | .enqueueAndKick bytes => packetFits bytes
  | .transmit _ _ _ bytes => packetFits bytes
  | .regRead _ | .regWrite _ _ | .regSetBits _ _ | .regClearBits _ _ | .readBytes _ | .receiveOne
  | .kick | .dispatch | .recover | .subscribe _ | .unsubscribe _ | .hash _ | .reconcile | .initialise
  | .setMulticast _ _ | .setFlags _ | .getStatus => true

end Sys2Proof
end

