-- ==== Sys2Proof/Decode.lean ====
section
/-! DEFINITION. The command decoder and the encoder (spec/30_encoding.md R90 to R95), both written from the tables of
R91 to R93. A command is a sequence of 16-bit words; the decoder is total and rejects by name. -/

namespace Sys2Proof

/-- The formats of R92. -/
inductive Format where
  | n | r1 | r2 | l | a | p | t
  deriving DecidableEq, Repr

/-- The nineteen operations of R93, without their operands. -/
inductive Opcode where
  | regRead | regWrite | regSetBits | regClearBits | readBytes | receiveOne | enqueueAndKick | kick | dispatch
  | recover | subscribe | unsubscribe | hash | reconcile | initialise | transmit | setMulticast | setFlags | getStatus
  deriving DecidableEq, Repr

/-- One row of the opcode map R93: `CW & mask = pattern`. -/
structure OpcodeRow where
  opcode : Opcode
  format : Format
  pattern : Word
  mask : Word
  deriving DecidableEq, Repr

/-- The opcode map (R93, spec/opcode_table.json). -/
def opcodeRows : List OpcodeRow :=
  [⟨.regRead, .r1, 0x0000, 0xFFFF⟩, ⟨.regWrite, .r2, 0x0100, 0xFFFF⟩,
   ⟨.regSetBits, .r2, 0x0200, 0xFFFF⟩, ⟨.regClearBits, .r2, 0x0300, 0xFFFF⟩,
   ⟨.readBytes, .l, 0x1000, 0xFFFF⟩, ⟨.receiveOne, .n, 0x2000, 0xFFFF⟩,
   ⟨.enqueueAndKick, .p, 0x3000, 0xFFFF⟩, ⟨.kick, .n, 0x3100, 0xFFFF⟩,
   ⟨.dispatch, .n, 0x4000, 0xFFFF⟩, ⟨.recover, .n, 0x5000, 0xFFFF⟩,
   ⟨.subscribe, .a, 0x6000, 0xFFFF⟩, ⟨.unsubscribe, .a, 0x6100, 0xFFFF⟩,
   ⟨.hash, .a, 0x6200, 0xFFFF⟩, ⟨.reconcile, .n, 0x7000, 0xFFFF⟩,
   ⟨.initialise, .n, 0x8000, 0xFFFF⟩, ⟨.transmit, .t, 0x8100, 0xFFFE⟩,
   ⟨.setMulticast, .a, 0x8200, 0xFFFE⟩, ⟨.setFlags, .n, 0x8300, 0xFFFE⟩,
   ⟨.getStatus, .n, 0x8400, 0xFFFF⟩]

/-- `cw` is a command word of this row. -/
def OpcodeRow.selects (row : OpcodeRow) (cw : Word) : Bool := cw &&& row.mask == row.pattern

/-- The row that a command word selects, if any. -/
def findRow (cw : Word) : Option OpcodeRow := opcodeRows.find? (·.selects cw)

/-- Why a word sequence is illegal (R94). -/
inductive Illegal where
  /-- No word at all was presented. -/
  | noWord
  /-- `CW` matches no row: a reserved `UNIT` or `OP`, `ZERO` not 0, or `FLAG` where it must be 0. -/
  | noRow
  /-- The number of words is not the one the format fixes (assumption 8). -/
  | wrongLength
  /-- An R1 or R2 command whose `reg` is no register of `REGMAP`. -/
  | unknownRegister
  /-- A packet of odd length whose last data word has a non-zero high half. -/
  | dirtyPadding
  deriving DecidableEq, Repr

/-- The two halves of a word, low half first (formats A, P, T of R92). -/
def splitWord (w : Word) : List Byte := [w.setWidth 8, (w >>> 8).setWidth 8]

/-- The word with low half `lo` and high half `hi`. -/
def joinBytes (lo hi : Byte) : Word := hi ++ lo

/-- The bytes of a run of data words (R92, format P): byte `2k` the low half of word `k`, byte `2k+1` its high half. -/
def unpackWords (ws : List Word) : List Byte := ws.flatMap splitWord

/-- The data words of a packet (R92, format P); an odd last byte has a zero high half. -/
def packBytes : List Byte → List Word
  | [] => []
  | [b] => [joinBytes b 0]
  | lo :: hi :: rest => joinBytes lo hi :: packBytes rest

/-- The 6-byte address in three words (R92, format A). -/
def macOfWords (w1 w2 w3 : Word) : MacAddr :=
  ⟨w1.setWidth 8, (w1 >>> 8).setWidth 8, w2.setWidth 8, (w2 >>> 8).setWidth 8, w3.setWidth 8, (w3 >>> 8).setWidth 8⟩

/-- The three words of an address (R92, format A). -/
def MacAddr.words (a : MacAddr) : List Word := [joinBytes a.b0 a.b1, joinBytes a.b2 a.b3, joinBytes a.b4 a.b5]

/-- The register with a given number (`REGMAP`, R13). -/
def RegMap.regOf (m : RegMap) (number : Word) : Option Reg := Reg.all.find? (fun r => m.number r == number)

/-- How many words follow `CW`: fixed by the format, and for P and T by the byte count `W1` as well (R90, R95). -/
def operandCount (f : Format) (w1 : Word) : Nat :=
  match f with
  | .n => 0
  | .r1 => 1
  | .r2 => 2
  | .l => 1
  | .a => 3
  | .p => 1 + (w1.toNat + 1) / 2
  | .t => 4 + (w1.toNat + 1) / 2

/-- How many words the command that begins `cw`, `w1` has; 1 where `cw` is illegal. -/
def commandLength (cw w1 : Word) : Nat :=
  match findRow cw with
  | some row => 1 + operandCount row.format w1
  | none => 1

/-- The `FLAG` field (R91). -/
def flagOf (cw : Word) : Bool := cw.getLsbD 0

/-- The `n` packet bytes in the data words (R92, R94). -/
def packetOfWords (n : Word) (data : List Word) : Except Illegal (List Byte) :=
  if ((unpackWords data).drop n.toNat).all (· == 0) then .ok ((unpackWords data).take n.toNat)
  else .error .dirtyPadding

/-- A register operand (R92, formats R1 and R2; R94). -/
def regOperand (m : RegMap) (w : Word) : Except Illegal Reg :=
  match m.regOf w with
  | some r => .ok r
  | none => .error .unknownRegister

/-- The instruction of an opcode with its operand words, of which there are as many as the format says. -/
def decodeOperands (m : RegMap) (op : Opcode) (cw : Word) (args : List Word) : Except Illegal Instr :=
  match op, args with
  | .regRead, [r] => (regOperand m r).map .regRead
  | .regWrite, [r, v] => (regOperand m r).map (.regWrite · v)
  | .regSetBits, [r, v] => (regOperand m r).map (.regSetBits · v)
  | .regClearBits, [r, v] => (regOperand m r).map (.regClearBits · v)
  | .readBytes, [n] => .ok (.readBytes n)
  | .receiveOne, [] => .ok .receiveOne
  | .enqueueAndKick, n :: data => (packetOfWords n data).map .enqueueAndKick
  | .kick, [] => .ok .kick
  | .dispatch, [] => .ok .dispatch
  | .recover, [] => .ok .recover
  | .subscribe, [a, b, c] => .ok (.subscribe (macOfWords a b c))
  | .unsubscribe, [a, b, c] => .ok (.unsubscribe (macOfWords a b c))
  | .hash, [a, b, c] => .ok (.hash (macOfWords a b c))
  | .reconcile, [] => .ok .reconcile
  | .initialise, [] => .ok .initialise
  | .transmit, n :: ptype :: lo :: hi :: data =>
      (packetOfWords n data).map (.transmit (flagOf cw) ptype (hi ++ lo))
  | .setMulticast, [a, b, c] => .ok (.setMulticast (macOfWords a b c) (flagOf cw))
  | .setFlags, [] => .ok (.setFlags (flagOf cw))
  | .getStatus, [] => .ok .getStatus
  | _, _ => .error .wrongLength

/-- The decoder (R90 to R95): every word sequence is one command or is illegal by name. -/
def decode (m : RegMap) (ws : List Word) : Except Illegal Instr :=
  match ws with
  | [] => .error .noWord
  | cw :: args =>
    match findRow cw with
    | none => .error .noRow
    | some row =>
      if args.length = operandCount row.format (args.headD 0) then decodeOperands m row.opcode cw args
      else .error .wrongLength

/-- A command word with its `FLAG` operand. -/
def withFlag (pattern : Word) (flag : Bool) : Word := pattern ||| (if flag then 1 else 0)

/-- The words of a command (R91 to R93). -/
def encode (m : RegMap) : Instr → List Word
  | .regRead r => [0x0000, m.number r]
  | .regWrite r v => [0x0100, m.number r, v]
  | .regSetBits r v => [0x0200, m.number r, v]
  | .regClearBits r v => [0x0300, m.number r, v]
  | .readBytes n => [0x1000, n]
  | .receiveOne => [0x2000]
  | .enqueueAndKick bytes => 0x3000 :: BitVec.ofNat 16 bytes.length :: packBytes bytes
  | .kick => [0x3100]
  | .dispatch => [0x4000]
  | .recover => [0x5000]
  | .subscribe a => 0x6000 :: a.words
  | .unsubscribe a => 0x6100 :: a.words
  | .hash a => 0x6200 :: a.words
  | .reconcile => [0x7000]
  | .initialise => [0x8000]
  | .transmit framed ptype dest bytes =>
      withFlag 0x8100 framed :: BitVec.ofNat 16 bytes.length :: ptype :: dest.setWidth 16
        :: (dest >>> 16).setWidth 16 :: packBytes bytes
  | .setMulticast a sub => withFlag 0x8200 sub :: a.words
  | .setFlags up => [withFlag 0x8300 up]
  | .getStatus => [0x8400]

/-- The words of the instruction whose bits are `w`, bit 0 the least significant bit of `CW` and word `k` in bits
`16k+15` to `16k`; bits from `nbits` up are 0. As many words as the command has. -/
def tableWords (nbits w : Nat) : List Word :=
  let bits := w % 2 ^ nbits
  let word := fun k : Nat => BitVec.ofNat 16 (bits >>> (16 * k))
  (List.range (commandLength (word 0) (word 1))).map word

/-- The instruction this decoder reads from the bits `w` (numbered as spec/opcode_table.json numbers them), under the
register map `TC_REGMAP`; none where it refuses. -/
def decodeTableWord (nbits w : Nat) : Option Instr := (decode RegMap.tc (tableWords nbits w)).toOption

end Sys2Proof
end

