-- ==== Sys2Proof/Machine/Flags.lean ====
section
/-! DEFINITION. The chip's named bits: how each reads, what writing 1 or 0 to it does, and the interrupt request line
(spec/10_state.md R38 to R44, spec/20_memory.md R67, spec/60_exceptions.md R264). -/

namespace Sys2Proof.Machine

/-- `IFLAG.PKT`, read-only: 1 exactly when `STAT.PKTCNT > 0` (R38). -/
def Chip.pktFlag (c : Chip) : Bool := decide (0 < c.pktcnt)

/-- The five flags as one read of `IFLAG` shows them (R38). -/
def Chip.iflags (c : Chip) : IFlags := ⟨c.flags.link, c.flags.txdone, c.flags.txabt, c.flags.rxabt, c.pktFlag⟩

/-- The interrupt request line (R264): a level, computed from the registers. -/
def Chip.irq (c : Chip) : Bool :=
  c.enables.global &&
    ((c.flags.link && c.enables.link) || (c.flags.txdone && c.enables.txdone)
      || (c.flags.txabt && c.enables.txabt) || (c.flags.rxabt && c.enables.rxabt)
      || (c.pktFlag && c.enables.pkt))

/-- What writing 1 to `CTL.PKTDEC` does: `STAT.PKTCNT <- max(0, PKTCNT - 1)` (R40). -/
def Chip.pktdec (c : Chip) : Chip := { c with pktcnt := c.pktcnt - 1 }

/-- How a named bit reads (R38 to R44): `IFLAG.PKT` is computed, `CTL.PKTDEC` reads 0. -/
def Chip.bit (c : Chip) : BitName → Bool
  | .iflagLink => c.flags.link
  | .iflagTxdone => c.flags.txdone
  | .iflagTxabt => c.flags.txabt
  | .iflagRxabt => c.flags.rxabt
  | .iflagPkt => c.pktFlag
  | .ienLink => c.enables.link
  | .ienTxdone => c.enables.txdone
  | .ienTxabt => c.enables.txabt
  | .ienRxabt => c.enables.rxabt
  | .ienPkt => c.enables.pkt
  | .ienGlobal => c.enables.global
  | .ctlRxen => c.rxen
  | .ctlTxrts => c.txrts
  | .ctlPktdec => false
  | .statRxbusy => c.rxbusy
  | .statFcidle => c.fcidle
  | .statPhydpx => c.phydpx
  | .statPhylnk => c.phylnk
  | .maccfgFuldpx => c.fuldpx
  | .fcAutofc => c.autofc
  | .fcFcassert => c.fcassert

/-- Store a value in a writable bit; a read-only bit (`IFLAG.PKT`, all of `STAT`) and `CTL.PKTDEC` store nothing. -/
def Chip.storeBit (c : Chip) (v : Bool) : BitName → Chip
  | .iflagLink => { c with flags := { c.flags with link := v } }
  | .iflagTxdone => { c with flags := { c.flags with txdone := v } }
  | .iflagTxabt => { c with flags := { c.flags with txabt := v } }
  | .iflagRxabt => { c with flags := { c.flags with rxabt := v } }
  | .iflagPkt => c
  | .ienLink => { c with enables := { c.enables with link := v } }
  | .ienTxdone => { c with enables := { c.enables with txdone := v } }
  | .ienTxabt => { c with enables := { c.enables with txabt := v } }
  | .ienRxabt => { c with enables := { c.enables with rxabt := v } }
  | .ienPkt => { c with enables := { c.enables with pkt := v } }
  | .ienGlobal => { c with enables := { c.enables with global := v } }
  | .ctlRxen => { c with rxen := v }
  | .ctlTxrts => { c with txrts := v }
  | .ctlPktdec => c
  | .statRxbusy => c
  | .statFcidle => c
  | .statPhydpx => c
  | .statPhylnk => c
  | .maccfgFuldpx => { c with fuldpx := v }
  | .fcAutofc => { c with autofc := v }
  | .fcFcassert => { c with fcassert := v }

/-- Write 1 to a bit (R112): stored where writable; `CTL.PKTDEC` acts every time. -/
def Chip.setBit (c : Chip) (b : BitName) : Chip :=
  match b with
  | .ctlPktdec => c.pktdec
  | b => c.storeBit true b

/-- Write 0 to a bit (R113): stored where writable, no action. -/
def Chip.clearBit (c : Chip) (b : BitName) : Chip := c.storeBit false b

/-- `RegSet` of named bits of one register. -/
def Chip.setBits (c : Chip) (bs : List BitName) : Chip := bs.foldl Chip.setBit c

/-- `RegClear` of named bits of one register. -/
def Chip.clearBits (c : Chip) (bs : List BitName) : Chip := bs.foldl Chip.clearBit c

end Sys2Proof.Machine
end

