-- ==== Sys2Proof/Machine/Operands.lean ====
section
/-! DEFINITION. The operand forms: a register of the window as a 16-bit word (spec/40_register_interface.md R110 to R113),
ring pointers (spec/20_memory.md R68, spec/42_rx_engine.md R130, R136, R137), 16-bit data in chip memory (R10, R64), and
the lane of a frame (spec/44_interrupt_dispatcher.md R173). -/

namespace Sys2Proof.Machine

/-- The word whose listed bits have the listed values and whose other bits are 0. -/
def wordOfBits (bits : List (Nat × Bool)) : Word :=
  bits.foldr (fun p w => if p.2 then w ||| BitVec.twoPow 16 p.1 else w) 0

/-- The mask with exactly the given named bits. -/
def bitsMask (m : RegMap) (bs : List BitName) : Word := wordOfBits (bs.map (fun b => ((m.index b).val, true)))

/-- The field `STAT.PKTCNT` in place (assumption 6). -/
def pktcntField (m : RegMap) (n : Nat) : Word :=
  BitVec.ofNat 16 ((n % 2 ^ m.statPktcntWidth) <<< m.statPktcntLow)

/-- The bits of a register that some rule names. -/
def namedMask (m : RegMap) (r : Reg) : Word :=
  bitsMask m r.bits ||| (if r = .stat then pktcntField m (2 ^ m.statPktcntWidth - 1) else 0)

/-- A register as `RegRead` returns it (R110): bit `i` of the result is the register's bit `i`; bits that no rule names
are those of `free`. -/
def Chip.readWord (m : RegMap) (c : Chip) (free : Word) (r : Reg) : Word :=
  match r with
  | .rxst => c.rxst
  | .rxtail => c.rxtail
  | .rxhead => c.rxhead
  | .txst => c.txst
  | .txlen => c.txlen
  | .ipg => c.ipg
  | .ht0 => c.ht0
  | .ht1 => c.ht1
  | .ht2 => c.ht2
  | .ht3 => c.ht3
  | .maadr0 => c.maadr0
  | .maadr1 => c.maadr1
  | .maadr2 => c.maadr2
  | .iflag | .ien | .ctl | .stat | .maccfg | .fc =>
    wordOfBits (r.bits.map (fun b => ((m.index b).val, c.bit b)))
      ||| (if r = .stat then pktcntField m c.pktcnt else 0)
      ||| (free &&& ~~~ namedMask m r)

/-- `RegWrite(r, v)` (R111, R67): every writable bit takes its value; writing `RXST` also sets `RXHEAD` (R35); a 1 to
`CTL.PKTDEC` acts. `RXHEAD` and `MAADR0..2` are not written by the block (R37, R46; assumption 10). -/
def Chip.writeWord (m : RegMap) (c : Chip) (r : Reg) (v : Word) : Chip :=
  match r with
  | .rxst => { c with rxst := v, rxhead := v }
  | .rxtail => { c with rxtail := v }
  | .rxhead => c
  | .txst => { c with txst := v }
  | .txlen => { c with txlen := v }
  | .ipg => { c with ipg := v }
  | .ht0 => { c with ht0 := v }
  | .ht1 => { c with ht1 := v }
  | .ht2 => { c with ht2 := v }
  | .ht3 => { c with ht3 := v }
  | .maadr0 => c
  | .maadr1 => c
  | .maadr2 => c
  | .iflag | .ien | .ctl | .stat | .maccfg | .fc =>
    r.bits.foldl (fun c b => if v.getLsbD (m.index b).val then c.setBit b else c.clearBit b) c

/-- The named bits of a register that a mask selects. -/
def selectedBits (m : RegMap) (r : Reg) (mask : Word) : List BitName :=
  r.bits.filter (fun b => mask.getLsbD (m.index b).val)

/-- `RegSet(r, mask)` (R112), on writable bits only. On `RXST` it does not move `RXHEAD`: R67 lists that effect for
`RegWrite` alone (assumption 11). -/
def Chip.setMask (m : RegMap) (c : Chip) (r : Reg) (mask : Word) : Chip :=
  match r with
  | .rxst => { c with rxst := c.rxst ||| mask }
  | .rxtail => { c with rxtail := c.rxtail ||| mask }
  | .rxhead => c
  | .txst => { c with txst := c.txst ||| mask }
  | .txlen => { c with txlen := c.txlen ||| mask }
  | .ipg => { c with ipg := c.ipg ||| mask }
  | .ht0 => { c with ht0 := c.ht0 ||| mask }
  | .ht1 => { c with ht1 := c.ht1 ||| mask }
  | .ht2 => { c with ht2 := c.ht2 ||| mask }
  | .ht3 => { c with ht3 := c.ht3 ||| mask }
  | .maadr0 => c
  | .maadr1 => c
  | .maadr2 => c
  | .iflag | .ien | .ctl | .stat | .maccfg | .fc => c.setBits (selectedBits m r mask)

/-- `RegClear(r, mask)` (R113), on writable bits only. -/
def Chip.clearMask (m : RegMap) (c : Chip) (r : Reg) (mask : Word) : Chip :=
  match r with
  | .rxst => { c with rxst := c.rxst &&& ~~~ mask }
  | .rxtail => { c with rxtail := c.rxtail &&& ~~~ mask }
  | .rxhead => c
  | .txst => { c with txst := c.txst &&& ~~~ mask }
  | .txlen => { c with txlen := c.txlen &&& ~~~ mask }
  | .ipg => { c with ipg := c.ipg &&& ~~~ mask }
  | .ht0 => { c with ht0 := c.ht0 &&& ~~~ mask }
  | .ht1 => { c with ht1 := c.ht1 &&& ~~~ mask }
  | .ht2 => { c with ht2 := c.ht2 &&& ~~~ mask }
  | .ht3 => { c with ht3 := c.ht3 &&& ~~~ mask }
  | .maadr0 => c
  | .maadr1 => c
  | .maadr2 => c
  | .iflag | .ien | .ctl | .stat | .maccfg | .fc => c.clearBits (selectedBits m r mask)

/-- `RingAddr(a)` for any integer `a` (R68). -/
def ringAddr (p : Params) (a : Int) : Nat := p.rxStart + ((a - p.rxStart) % p.ringSize).toNat

/-- `a` lies in the ring `[RX_START, RX_END)`. -/
abbrev InRing (p : Params) (a : Nat) : Prop := p.rxStart ≤ a ∧ a < p.rxEnd

/-- `RingValid(a)` (R130): even and in the ring. -/
abbrev RingValid (p : Params) (a : Nat) : Prop := a % 2 = 0 ∧ InRing p a

/-- `TailFor(n)` (R137): `n - 2` if that is not below `RX_START`, else `RX_END - 2`. -/
def tailFor (p : Params) (n : Nat) : Nat := if p.rxStart + 2 ≤ n then n - 2 else p.rxEnd - 2

/-- `ChunkClass(remaining)` (R136): large once the remaining length exceeds half the default chunk size. -/
def chunkClassFor (p : Params) (remaining : Nat) : ChunkClass :=
  if p.chunkSmall < 2 * remaining then .large else .small

/-- The capacity of a chunk that the allocator grants (R14, R49). -/
def chunkCapacity (p : Params) : ChunkClass → Nat
  | .small => p.chunkSmall
  | .large => p.chunkLarge
  | .flat => 0

/-- `be16(b0, b1)` (R18). -/
def be16 (b0 b1 : Byte) : Word := b0 ++ b1

/-- `le16(b0, b1)` (R18). -/
def le16 (b0 b1 : Byte) : Word := b1 ++ b0

/-- A 16-bit value that the chip keeps in memory, from its two bytes in address order (R10, R64). -/
def chipWord (p : Params) (b0 b1 : Byte) : Word := if p.chipLE then le16 b0 b1 else be16 b0 b1

/-- The two bytes, in address order, of a 16-bit value that the chip stores (R10, R64). -/
def chipBytes (p : Params) (w : Word) : List Byte :=
  if p.chipLE then [w.setWidth 8, (w >>> 8).setWidth 8] else [(w >>> 8).setWidth 8, w.setWidth 8]

/-- The bytes of an address, `a[0]` first. -/
def macBytes (a : MacAddr) : List Byte := [a.b0, a.b1, a.b2, a.b3, a.b4, a.b5]

/-- The frame of a packet: the data of its chunks in order (R49). -/
def frameOf (p : Packet) : List Byte := p.flatMap (·.data)

/-- The packet of a command: one flat chunk (R150; assumption 9). -/
def flatPacket (bytes : List Byte) : Packet := [⟨.flat, 0, bytes⟩]

/-- `LaneOf` of a frame (R173): by the big-endian type at frame bytes 12 and 13. A frame too short to have them goes to
the generic lane; none is delivered, since `ETHER_MIN > 13`. -/
def laneOf (p : Params) (frame : List Byte) : Lane :=
  match frame[12]?, frame[13]? with
  | some b0, some b1 =>
    let t := be16 b0 b1
    if t = p.etypeIp then .ip else if t = p.etypeArp then .arp else if t = p.etypeRarp then .rarp else .raw
  | _, _ => .raw

/-- `roundup2(x)` (R70). -/
def roundup2 (x : Nat) : Nat := x + x % 2

end Sys2Proof.Machine
end

