-- ==== Sys2Proof/Machine/Environment.lean ====
section
/-! DEFINITION. The steps of the other agents (spec/49_chip_agent.md R230 to R246): the chip, the timer, reset (R280),
device discovery (R281) and the host at the command port. A move whose guard does not hold has no effect. -/

namespace Sys2Proof.Machine

/-- Record one trace entry. -/
def State.emit (e : TraceEvent) (s : State) : State := { s with trace := e :: s.trace }

/-- Change the chip's registers. -/
def State.onChip (f : Chip → Chip) (s : State) : State := { s with chip := f s.chip }

/-- `Free` (R235): the bytes from `RXHEAD` forward up to and including `RXTAIL + 1`; all of the ring when it is empty.
With `RXHEAD` outside the ring the formula is taken as it stands (assumption 39). -/
def State.ringFree (s : State) : Nat :=
  if s.chip.rxhead.toNat = ringAddr s.cfg.toParams ((s.chip.rxtail.toNat : Int) + 2) ∧ s.chip.pktcnt = 0 then
    s.cfg.ringSize
  else (((s.chip.rxtail.toNat : Int) + 2 - s.chip.rxhead.toNat) % s.cfg.ringSize).toNat

/-- `a` is a byte of the chip-owned part of the ring (R69). Only `RXHEAD`, `RXTAIL` and `PKTCNT` are looked at, never the
read pointer: where the two parts of the ring overlap the chip may write (assumption 38); with `RXHEAD` outside the
ring bytes are counted by their residue (assumption 39). -/
abbrev State.ChipOwned (s : State) (a : Nat) : Prop :=
  InRing s.cfg.toParams a ∧ (((a : Int) - s.chip.rxhead.toNat) % s.cfg.ringSize).toNat < s.ringFree

/-- `need` for a frame of `payloadLen` payload bytes (R232). -/
def depositSize (p : Params) (payloadLen : Nat) : Nat :=
  roundup2 (rbhSize + p.ethHdrSize + (payloadLen + crcLen))

/-- The four bytes of a 32-bit value, low byte first. -/
def bytesOf32 (v : BitVec 32) : List Byte :=
  [v.setWidth 8, (v >>> 8).setWidth 8, (v >>> 16).setWidth 8, (v >>> 24).setWidth 8]

/-- The packet image of R70 for a deposit at ring address `at_`. -/
def packetImage (p : Params) (at_ : Nat) (hdr payload : List Byte) (rest fcs : BitVec 32) (pad : Byte) : List Byte :=
  let size := depositSize p payload.length
  chipBytes p (BitVec.ofNat 16 (ringAddr p (at_ + size)))
    ++ chipBytes p (BitVec.ofNat 16 (payload.length + crcLen))
    ++ bytesOf32 rest ++ hdr ++ payload ++ bytesOf32 fcs
    ++ (if (rbhSize + p.ethHdrSize + (payload.length + crcLen)) % 2 = 1 then [pad] else [])

/-- Store bytes at `RingAddr(at_), RingAddr(at_ + 1), …` (R70). -/
def writeRing (p : Params) (m : Memory) (at_ : Nat) : List Byte → Memory
  | [] => m
  | b :: bs => writeRing p (m.write (ringAddr p at_) b) (at_ + 1) bs

/-- The receive in flight ends and nothing else changes: the chip drops a frame of illegal size silently (R232). -/
def Chip.rxDropped (c : Chip) : Chip := { c with rxbusy := false }

/-- The effect of `CHIP_RX_OVERFLOW` (R233). That no chip-owned byte changes either is the model's choice
(assumption 40). -/
def Chip.rxOverflowed (c : Chip) : Chip := { c with rxbusy := false, flags := { c.flags with rxabt := true } }

/-- The effect of `CHIP_RX_END` once its frame fits (R232): the image, then `RXHEAD`, `PKTCNT`, `RXBUSY`. -/
def State.deposit (hdr payload : List Byte) (rest fcs : BitVec 32) (pad : Byte) (s : State) : State :=
  let at_ := s.chip.rxhead.toNat
  { s with
    mem := writeRing s.cfg.toParams s.mem at_ (packetImage s.cfg.toParams at_ hdr payload rest fcs pad)
    chip := { s.chip with
      rxhead := BitVec.ofNat 16 (ringAddr s.cfg.toParams (at_ + depositSize s.cfg.toParams payload.length))
      pktcnt := s.chip.pktcnt + 1
      rxbusy := false } }

/-- `CHIP_RX_END(hdr, payload)` (R232). -/
def State.chipRxEnd (hdr payload : List Byte) (rest fcs : BitVec 32) (pad : Byte) (s : State) : State :=
  let total := s.cfg.ethHdrSize + payload.length
  if s.chip.rxbusy = true ∧ hdr.length = s.cfg.ethHdrSize then
    if ¬ (s.cfg.etherMin ≤ total ∧ total ≤ s.cfg.etherMax) then s.onChip Chip.rxDropped
    else if depositSize s.cfg.toParams payload.length ≤ s.ringFree ∧ s.chip.pktcnt < s.cfg.pktcntMax then
      s.deposit hdr payload rest fcs pad
    else s.onChip Chip.rxOverflowed
  else s

/-- `CHIP_RX_OVERFLOW` (R233). -/
def State.chipRxOverflow (payloadLen : Nat) (s : State) : State :=
  if s.chip.rxbusy = true ∧ (s.ringFree < depositSize s.cfg.toParams payloadLen ∨ s.chip.pktcnt = s.cfg.pktcntMax) then
    s.onChip Chip.rxOverflowed
  else s

/-- The guard of `CHIP_RX_END_CORRUPT` (R234): a receive in flight, every write chip-owned, the new `RXHEAD` an even
address of the chip-owned part, `PKTCNT` at most `PKTCNT_MAX` afterwards. -/
abbrev State.CorruptAllowed (s : State) (writes : List (Nat × Byte)) (head : Option Word) (raise : Nat) : Prop :=
  s.chip.rxbusy = true
  ∧ (∀ w ∈ writes, s.ChipOwned w.1)
  ∧ (∀ h ∈ head, h.toNat % 2 = 0 ∧ s.ChipOwned h.toNat)
  ∧ s.chip.pktcnt + raise ≤ s.cfg.pktcntMax

/-- `CHIP_RX_END_CORRUPT` (R234). -/
def State.chipRxEndCorrupt (writes : List (Nat × Byte)) (head : Option Word) (raise : Nat) (s : State) : State :=
  if s.CorruptAllowed writes head raise then
    { s with
      mem := s.mem.writePairs writes
      chip := { s.chip with
        rxhead := head.getD s.chip.rxhead
        pktcnt := s.chip.pktcnt + raise
        rxbusy := false } }
  else s

/-- The bytes the chip sends, `Mem[TXST .. TXST + TXLEN - 1]` (R236); an address outside chip memory, which only direct
commands can make the registers reach, gives a free value. -/
def State.wireBytes (s : State) : List Byte :=
  (List.range s.chip.txlen.toNat).map (fun i =>
    let a := s.chip.txst.toNat + i
    if a < s.cfg.memSize then s.mem.read a else Config.freeByte (s.freeCount + i))

/-- `CHIP_TX_COMPLETE` (R236). -/
def State.chipTxComplete (andAbort : Bool) (s : State) : State :=
  if s.chip.txrts then
    { s with
      trace := .wire s.wireBytes :: s.trace
      freeCount := s.freeCount + s.chip.txlen.toNat
      chip := { s.chip with
        txrts := false, flags := { s.chip.flags with txdone := true, txabt := s.chip.flags.txabt || andAbort } } }
  else s

/-- `CHIP_TX_ABORT` (R237). Of the rule's "no `Wire` event (or a partial one …)" the model takes no `Wire` event
(assumption 42). -/
def State.chipTxAbort (andDone : Bool) (s : State) : State :=
  if s.chip.txrts then
    s.onChip (fun c =>
      { c with txrts := false, flags := { c.flags with txabt := true, txdone := c.flags.txdone || andDone } })
  else s

/-- `CHIP_LINK_CHANGE(dpx, lnk)` (R238). -/
def State.chipLinkChange (dpx lnk : Bool) (s : State) : State :=
  s.onChip (fun c => { c with phydpx := dpx, phylnk := lnk, flags := { c.flags with link := true } })

/-- `CHIP_FC` (R239): `FCIDLE` either way; `FCASSERT` only while `AUTOFC = 1` (assumption 20). -/
def State.chipFlowControl (fcidle : Bool) (fcassert : Option Bool) (s : State) : State :=
  s.onChip (fun c => { c with fcidle := fcidle, fcassert := if c.autofc then fcassert.getD c.fcassert else c.fcassert })

/-- `QUIET_EXPIRE` is enabled (R183). -/
abbrev State.QuietExpireEnabled (s : State) : Prop :=
  (∃ d ∈ s.pendingClear, d ≤ s.now) ∧ s.seq = [] ∧ s.ipl = .low

/-- `QUIET_EXPIRE`, the deferred callback (R183, R246). -/
def State.quietExpire (s : State) : State :=
  if s.QuietExpireEnabled then { s with ctx := { s.ctx with resetCounter := 0 }, pendingClear := none } else s

/-- Reset (R280), enabled when `seq = idle`: R52 and R53 with fresh free inputs. Queued packets are released; the
parameters, the trace, and what the host and the other agents have lined up stay. -/
def State.resetMove (v : Launch) (s : State) : State :=
  if s.seq = [] then
    { State.launch s.cfg { v with mem := Memory.ofPairs s.cfg.memSize v.mem } with
      trace := s.sendq.foldl (fun t p => .release p :: t) s.trace
      port := s.port, agenda := s.agenda, again := s.again, allocAnswers := s.allocAnswers
      resolveAnswers := s.resolveAnswers, freeCount := s.freeCount }
  else s

/-- Device discovery (R281), an environment step on a card that has not been probed. -/
def State.discover (outcome : Discovery) (s : State) : State :=
  if s.seq = [] ∧ s.ctx.probed = false then
    match outcome with
    | .success =>
      { s with ctx := { s.ctx with
          probed := true
          linkAddress := macOfWords s.chip.maadr0 s.chip.maadr1 s.chip.maadr2
          addrKnown := true } }
    | .failure => s
    | .addressUnknown => { s with ctx := { s.ctx with probed := true } }
  else s

/-- One move of another agent. -/
def State.applyMove (s : State) : EnvMove → State
  | .rxBegin => if s.chip.rxen = true ∧ s.chip.rxbusy = false then s.onChip (fun c => { c with rxbusy := true }) else s
  | .rxEnd hdr payload rest fcs pad => s.chipRxEnd hdr payload rest fcs pad
  | .rxOverflow payloadLen => s.chipRxOverflow payloadLen
  | .rxEndCorrupt writes head raise => s.chipRxEndCorrupt writes head raise
  | .txComplete andAbort => s.chipTxComplete andAbort
  | .txAbort andDone => s.chipTxAbort andDone
  | .linkChange dpx lnk => s.chipLinkChange dpx lnk
  | .flowControl fcidle fcassert => s.chipFlowControl fcidle fcassert
  | .timerTick => { s with now := s.now + 1 }
  | .timerFire => s.quietExpire
  | .reset launch => s.resetMove launch
  | .discover outcome => s.discover outcome
  | .present words => { s with port := s.port ++ [words] }

/-- The moves of one slot, in order. -/
def State.applyMoves (s : State) (moves : List EnvMove) : State := moves.foldl State.applyMove s

/-- What the other agents do before the block's next event: the moves of the next slot, if the agenda has one. -/
def State.tick (s : State) : State :=
  match s.agenda with
  | [] => s
  | slot :: rest => State.applyMoves { s with agenda := rest } slot.moves

/-- At the beginning of a step, a used-up agenda is what the other agents do again (assumption 37). -/
def State.rearm (s : State) : State := { s with agenda := if s.agenda.isEmpty then s.again else s.agenda }

/-- The agenda is used up and the next step begins with more of it. -/
def State.moreToCome (s : State) : Bool := s.agenda.isEmpty && !s.again.isEmpty

end Sys2Proof.Machine
end

