-- ==== Sys2Proof/Machine/Ops.lean ====
section
/-! DEFINITION. The operations that every command is written over: the atomic events of spec/10_state.md R28 (the four
register accesses of R19, `MemRead`, `MemWrite`), `raise` (spec/60_exceptions.md R250, R262), the oracles of R219 and R221,
the busy-wait (spec/70_reset_and_hazards.md R292), the sequencer's call and return (R28), and how a command or an
activation begins and ends (R29, R265, R267).

An operation runs over the state. Before each of its events the other agents take the moves of the next slot of the
agenda (`State.tick`), so that they may step between any two events and nowhere inside one. An operation ends with a
value, or is held (`Stop.held`, the state then holding the live `seq`), or stops with a fault. -/

namespace Sys2Proof.Machine

/-- Why an operation ends without a value. -/
inductive Stop where
  /-- The step ends inside the operation, which goes on in the next step: a busy-wait has no bound and nothing is lined up
  that could end it (R292, U4), or `DISPATCH` drains a chip that keeps depositing (R172, R240). -/
  | held
  /-- The machine stops. -/
  | fault (f : Fault)
  deriving DecidableEq, Repr

/-- An operation of the block. -/
abbrev Op (α : Type) := EStateM Stop State α

/-- One atomic event of the block (R28): the other agents' moves, then the access, recorded in the trace. -/
def access (e : TraceEvent) : Op Unit := modify (fun s => s.tick.emit e)

/-- Change the state between events: the block's own registers. -/
def update (f : State → State) : Op Unit := modify f

/-- `if b: op`. -/
def onlyIf (b : Bool) (op : Op Unit) : Op Unit := if b then op else pure ()

/-- `RegRead` of `IFLAG`, all five flags of one read. -/
def regReadFlags : Op IFlags := do
  access (.regRead .iflag)
  return (← get).chip.iflags

/-- `RegRead(r).B` for a named bit of register `r`. -/
def regReadBit (r : Reg) (b : BitName) : Op Bool := do
  access (.regRead r)
  return (← get).chip.bit b

/-- `RegWrite(r, v)` (R111). -/
def regWrite (r : Reg) (v : Word) : Op Unit := do
  access (.regWrite r v)
  update (fun s => s.onChip (fun c => c.writeWord s.cfg.regmap r v))

/-- `RegSet(r, B)` for named bits of register `r` (R112). -/
def regSet (r : Reg) (bs : List BitName) : Op Unit := do
  let m := (← get).cfg.regmap
  access (.regSet r (bitsMask m bs))
  update (·.onChip (·.setBits bs))

/-- `RegClear(r, B)` for named bits of register `r` (R113). -/
def regClear (r : Reg) (bs : List BitName) : Op Unit := do
  let m := (← get).cfg.regmap
  access (.regClear r (bitsMask m bs))
  update (·.onChip (·.clearBits bs))

/-- `MemRead(addr, n)` (R62). -/
def memRead (addr n : Nat) : Op (List Byte) := do
  access (.memRead addr n)
  let s ← get
  if addr + n ≤ s.cfg.memSize then return s.mem.readBytes addr n
  else throw (.fault .memoryBounds)

/-- `MemWrite(addr, n, v)` (R63). -/
def memWrite (addr : Nat) (bytes : List Byte) : Op Unit := do
  access (.memWrite addr bytes)
  let s ← get
  if addr + bytes.length ≤ s.cfg.memSize then set { s with mem := s.mem.writeBytes addr bytes }
  else throw (.fault .memoryBounds)

/-- The counter effect of an exception (R262). -/
def Exn.count (x : Exn) (s : State) : State :=
  match x with
  | .ringPointerInvalid | .nextOffsetInvalid | .frameLengthInvalid | .allocFail => { s with errorsIn := s.errorsIn + 1 }
  | .sendQueueFull | .txTooLong => { s with errorsOut := s.errorsOut + 1 }
  | .resetThresholdExceeded | .addressUnknown | .badCommand | .hardwareFault | .notProbed | .notInitialized => s

/-- The numeric code of an exception (R250). -/
def Exn.code : Exn → Nat
  | .ringPointerInvalid => 1
  | .nextOffsetInvalid => 2
  | .frameLengthInvalid => 3
  | .allocFail => 4
  | .sendQueueFull => 5
  | .resetThresholdExceeded => 6
  | .addressUnknown => 7
  | .txTooLong => 8
  | .badCommand => 9
  | .hardwareFault => 10
  | .notProbed => 11
  | .notInitialized => 12

/-- Taking an exception, `raise X(info)` (R250): it records, and it counts; it saves nothing and transfers no control. -/
def State.raise (x : Exn) (info : Info) (s : State) : State := x.count (s.emit (.raised x info))

/-- `raise X(info)` inside an operation. -/
def raise (x : Exn) (info : Info) : Op Unit := update (·.raise x info)

/-- `Release(chunks)` (R219). -/
def release (chunks : List Chunk) : Op Unit := update (·.emit (.release chunks))

/-- The allocator's next answer (R219): the host's, and a free value once those are used up. -/
def State.nextGrant (s : State) : Bool × State :=
  match s.allocAnswers with
  | a :: rest => (a, { s with allocAnswers := rest })
  | [] => (Config.freeGrant s.freeCount, { s with freeCount := s.freeCount + 1 })

/-- `Alloc(class)`, answered freely by the host (R219). -/
def alloc (cls : ChunkClass) : Op Bool := do
  let (granted, s) := (← get).nextGrant
  set (s.emit (.alloc cls granted))
  return granted

/-- The resolver's next answer (R221): the host's, and a free value once those are used up. -/
def State.nextAddress (s : State) : Option MacAddr × State :=
  match s.resolveAnswers with
  | a :: rest => (a, { s with resolveAnswers := rest })
  | [] => (Config.freeResolve s.freeCount, { s with freeCount := s.freeCount + 1 })

/-- `Resolve(dest)`, answered freely (R221); on "deferred" the resolver keeps `bytes` (R214). -/
def resolve (dest : BitVec 32) (bytes : List Byte) : Op (Option MacAddr) := do
  let (answer, s) := (← get).nextAddress
  set (s.emit (.resolve dest answer (if answer.isNone then bytes else [])))
  return answer

/-- Push the frame of a called operation (R28). It begins at step 0, and stays there where the rule of the operation numbers
no steps (assumption 44). -/
def State.pushFrame (op : OpName) (s : State) : State := { s with seq := ⟨op, 0, none⟩ :: s.seq }

/-- Pop the top frame (R28). -/
def State.popFrame (s : State) : State := { s with seq := s.seq.tail }

/-- Set the step of the top frame (R28). -/
def State.setStep (n : Nat) (s : State) : State := { s with seq := s.seq.modifyHead (fun fr => { fr with step := n }) }

/-- Keep the snapshot of `DISPATCH` in its frame (R165 step 0). -/
def State.setSnapshot (f : IFlags) (s : State) : State :=
  { s with seq := s.seq.modifyHead (fun fr => { fr with snapshot := some f }) }

/-- The top frame is at step `n`. -/
def atStep (n : Nat) : Op Unit := update (·.setStep n)

/-- Call an operation: push its frame, run it, pop the frame (R28). -/
def call {α : Type} (op : OpName) (body : Op α) : Op α := do
  update (·.pushFrame op)
  let r ← body
  update State.popFrame
  return r

/-- Poll a named bit until it reads `want`, at most `n` times; then the operation is held (R292, no bound). -/
def pollOrHold (r : Reg) (b : BitName) (want : Bool) : Nat → Op Unit
  | 0 => throw .held
  | n + 1 => do
    let v ← regReadBit r b
    if v = want then return () else pollOrHold r b want n

/-- Poll a named bit until it reads `want`; after `n` failed polls `raise HardwareFault` (R292, R260). -/
def pollOrFault (r : Reg) (b : BitName) (want : Bool) : Nat → Op Bool
  | 0 => do
    raise .hardwareFault (.flag b)
    return false
  | n + 1 => do
    let v ← regReadBit r b
    if v = want then return true else pollOrFault r b want n

/-- `wait until RegRead(r).b = want` (R292). With no `SPIN_LIMIT` it polls as long as the agenda holds moves, and once
more, and is then held. The value is false when the wait ended in `HardwareFault`. -/
def waitUntil (r : Reg) (b : BitName) (want : Bool) : Op Bool := do
  let s ← get
  match s.cfg.spinLimit with
  | none =>
    pollOrHold r b want (s.agenda.length + 1)
    return true
  | some k => pollOrFault r b want k

/-- Enough rounds in one step for a loop that decrements `PKTCNT` in each: every round takes a slot while the agenda
lasts, and after that the chip does not raise the counter. -/
def State.pktRounds (s : State) : Nat := s.agenda.length + max s.chip.pktcnt s.cfg.pktcntMax + 1

/-- `while RegRead(IFLAG).PKT = 1: RegSet(CTL, PKTDEC)`, at most `n` rounds. -/
def drainRounds : Nat → Op Unit
  | 0 => return ()
  | n + 1 => do
    let pkt ← regReadBit .iflag .iflagPkt
    if pkt then
      regSet .ctl [.ctlPktdec]
      drainRounds n
    else return ()

/-- Drain and discard the packet-available conditions (R180 step 6, R213 step 4). -/
def drain : Op Unit := do
  let s ← get
  drainRounds s.pktRounds

/-- A command begins (R29): request context, `ipl <- device`, its frame on the sequencer, at step 0 (assumption 44). -/
def State.beginCommand (op : OpName) (s : State) : State :=
  { s with context := some .request, savedIpl := s.ipl, ipl := .device, seq := [⟨op, 0, none⟩], result := none }

/-- A command ends (R29, R96): the previous `ipl`, an idle sequencer, the result. -/
def State.endCommand (r : Result) (s : State) : State :=
  { s with context := none, ipl := s.savedIpl, seq := [], result := some r }

/-- Interrupt activation (R265): nothing is saved. -/
def State.beginInterrupt (s : State) : State :=
  { s with context := some .interrupt, ipl := .device, seq := [⟨.dispatch, 0, none⟩] }

/-- The return from an activation (R267): nothing is restored. -/
def State.endInterrupt (s : State) : State := { s with context := none, ipl := .low, seq := [] }

/-- The guard of activation (R265). -/
def State.canActivate (s : State) : Bool := s.chip.irq && s.seq.isEmpty && s.ipl == .low

/-- The end of whichever of the two is running. -/
def State.finish (r : Result) (s : State) : State :=
  match s.context with
  | some .interrupt => s.endInterrupt
  | _ => s.endCommand r

/-- The outcome of an operation as a step: a held operation leaves its state, in which `seq` is not idle. -/
def outcomeOf {α : Type} : EStateM.Result Stop State α → Host.Outcome State Fault Refusal
  | .ok _ s => .next s
  | .error .held s => .next s
  | .error (.fault f) _ => .fault f

/-- Run a command (R90): accepted only when `seq = idle`; one whole section at `ipl = device`. -/
def runCommand (op : OpName) (body : Op Result) (s : State) : Host.Outcome State Fault Refusal :=
  if s.seq = [] then
    outcomeOf ((do
      let r ← body
      update (·.finish r) : Op Unit) (s.beginCommand op))
  else .refused .notIdle

/-- A command turned away whole with an exception (R259, R261): no state changes beside the record and the result. -/
def State.turnAway (x : Exn) (info : Info) (s : State) : State := { s.raise x info with result := some (.err x) }

/-- Run a command on a probed card; while `ctx.base_address` is null it is refused with `NotProbed` (R250, R261, R281;
assumption 15). -/
def runProbed (op : OpName) (body : Op Result) (s : State) : Host.Outcome State Fault Refusal :=
  if s.seq = [] ∧ s.ctx.probed = false then .next (s.turnAway .notProbed .none)
  else runCommand op body s

/-- The same for a command that hands over a packet, which is released when the command is refused (R222;
assumption 41). -/
def runProbedPacket (op : OpName) (pkt : Packet) (body : Op Result) (s : State) : Host.Outcome State Fault Refusal :=
  if s.seq = [] ∧ s.ctx.probed = false then .next ((s.emit (.release pkt)).turnAway .notProbed .none)
  else runCommand op body s

end Sys2Proof.Machine
end

