-- ==== Sys2Proof/Machine/RegisterInterface.lean ====
section
/-! DEFINITION. RegisterInterface, component 0 (spec/40_register_interface.md R110 to R115). Each of the four commands is
one atomic event. -/

namespace Sys2Proof.Machine

/-- `REG_READ reg` (R110): bits that no rule names read as a free value. -/
def regReadBody (r : Reg) : Op Result := do
  access (.regRead r)
  let s ← get
  set { s with freeCount := s.freeCount + 1 }
  return .word (s.chip.readWord s.cfg.regmap (Config.freeBits s.freeCount) r)

/-- The meaning of `REG_READ` (R110). -/
def execRegRead (r : Reg) (s : State) : Host.Outcome State Fault Refusal := runProbed .regRead (regReadBody r) s

/-- The meaning of `REG_WRITE` (R111). -/
def execRegWrite (r : Reg) (v : Word) (s : State) : Host.Outcome State Fault Refusal :=
  runProbed .regWrite (do regWrite r v; return .unit) s

/-- `REG_SET_BITS reg, mask` (R112). -/
def regSetMask (r : Reg) (mask : Word) : Op Unit := do
  access (.regSet r mask)
  update (fun s => s.onChip (fun c => c.setMask s.cfg.regmap r mask))

/-- The meaning of `REG_SET_BITS` (R112). -/
def execRegSetBits (r : Reg) (mask : Word) (s : State) : Host.Outcome State Fault Refusal :=
  runProbed .regSetBits (do regSetMask r mask; return .unit) s

/-- `REG_CLEAR_BITS reg, mask` (R113). -/
def regClearMask (r : Reg) (mask : Word) : Op Unit := do
  access (.regClear r mask)
  update (fun s => s.onChip (fun c => c.clearMask s.cfg.regmap r mask))

/-- The meaning of `REG_CLEAR_BITS` (R113). -/
def execRegClearBits (r : Reg) (mask : Word) (s : State) : Host.Outcome State Fault Refusal :=
  runProbed .regClearBits (do regClearMask r mask; return .unit) s

end Sys2Proof.Machine
end

