-- ==== Sys2Proof/Machine/RingBufferReader.lean ====
section
/-! DEFINITION. RingBufferReader, component 1 (spec/41_ring_buffer_reader.md R120 to R123). -/

namespace Sys2Proof.Machine

/-- Set `ctx.rx_read_pointer`. -/
def State.setReadPointer (a : Nat) (s : State) : State :=
  { s with ctx := { s.ctx with rxReadPointer := BitVec.ofNat 16 a } }

/-- The wrap loop, steps 5 to 8 of R120, with as many rounds as there can be. -/
def readWrapped : Nat → Nat → Op (List Byte)
  | 0, _ => return []
  | rounds + 1, rest => do
    if rest = 0 then return []
    else
      let p := (← get).cfg
      let n := min rest p.ringSize
      atStep 7
      let bytes ← memRead p.rxStart n
      let more ← readWrapped rounds (rest - n)
      return bytes ++ more

/-- `READ_BYTES length` (R120): the copy in segments, then the pointer's advance modulo the ring. -/
def readBytesBody (length : Nat) : Op (List Byte) := do
  atStep 1
  let s ← get
  let p := s.ctx.rxReadPointer.toNat
  atStep 2
  let first := min length (s.cfg.rxEnd - p)
  atStep 3
  let out ← memRead p first
  atStep 4
  let rest := length - first
  atStep 5
  let more ← readWrapped rest rest
  atStep 9
  update (fun s => s.setReadPointer (ringAddr s.cfg.toParams (p + length)))
  atStep 10
  return out ++ more

/-- `READ_BYTES` as RxEngine calls it. -/
def readBytes (length : Nat) : Op (List Byte) := call .readBytes (readBytesBody length)

/-- The meaning of `READ_BYTES` (R120). With the read pointer outside the ring the command is refused and no state
changes (R121, U1). -/
def execReadBytes (length : Word) (s : State) : Host.Outcome State Fault Refusal :=
  if s.seq = [] ∧ s.ctx.probed = true ∧ ¬ InRing s.cfg.toParams s.ctx.rxReadPointer.toNat then
    .next { s with result := some .refusedOutsideRing }
  else runProbed .readBytes (do return .bytes (← readBytesBody length.toNat)) s

end Sys2Proof.Machine
end

