-- ==== Sys2Proof/Machine/ErrorRecoveryWatchdog.lean ====
section
/-! DEFINITION. ErrorRecoveryWatchdog, component 5 (spec/45_error_recovery_watchdog.md R180 to R187). The timer callback
`QUIET_EXPIRE` (R183) is `State.quietExpire` of Machine/Environment.lean. -/

namespace Sys2Proof.Machine

/-- The ring's initial state, steps 7 of R180 and part of step 4 of R213 (R187). -/
def resetRing : Op Unit := do
  let p := (← get).cfg
  regWrite .rxst (BitVec.ofNat 16 p.rxStart)
  regWrite .rxtail (BitVec.ofNat 16 (p.rxEnd - 2))
  update (·.setReadPointer p.rxStart)

/-- Step 3 of R180: count the recovery. -/
def State.countRecovery (s : State) : State :=
  { s with
    ctx := { s.ctx with resetCounter := s.ctx.resetCounter + 1, lastResetTime := s.now }
    wdState := .recovering }

/-- What a `HardwareFault` in `RECOVER` leaves (R260): disabled for good. -/
def State.disableOnFault (s : State) : State :=
  { s with
    ctx := { s.ctx with resetCounter := max s.ctx.resetCounter (s.cfg.maxResets + 1) }
    wdState := .disabled }

/-- `RECOVER` from its wait on, steps 5 to 10 of R180. -/
def recoverFromWait : Op Unit := do
  atStep 5
  if ← waitUntil .stat .statRxbusy false then
    atStep 6
    drain
    atStep 7
    resetRing
    atStep 8
    update (fun s => { s with pendingClear := some (s.now + s.cfg.resetCountTime) })
    atStep 9
    regSet .ctl [.ctlRxen]
    update (fun s => { s with wdState := .healthy })
    atStep 10
  else update State.disableOnFault

/-- `RECOVER` (R180). -/
def recoverBody : Op Unit := do
  atStep 1
  regClear .ctl [.ctlRxen]
  atStep 2
  update (fun s => { s with pendingClear := none })
  atStep 3
  update State.countRecovery
  atStep 4
  let s ← get
  if s.cfg.maxResets < s.ctx.resetCounter then
    raise .resetThresholdExceeded (.number s.ctx.resetCounter)
    update (fun s => { s with wdState := .disabled })
  else recoverFromWait

/-- `RECOVER` as RxEngine calls it. -/
def recover : Op Unit := call .recover recoverBody

/-- The meaning of `RECOVER` (R180). -/
def execRecover (s : State) : Host.Outcome State Fault Refusal :=
  runProbed .recover (do recoverBody; return .unit) s

end Sys2Proof.Machine
end

