-- ==== Sys2Proof/Machine/LinkStateManager.lean ====
section
/-! DEFINITION. LinkStateManager, component 7 (spec/47_link_state_manager.md R205, R206). -/

namespace Sys2Proof.Machine

/-- Step 3 of R205, full duplex. -/
def applyFullDuplex : Op Unit := do
  let p := (← get).cfg
  regSet .maccfg [.maccfgFuldpx]
  regWrite .ipg p.ipgFull
  regSet .fc [.fcAutofc]

/-- Step 3 of R205, half duplex: automatic flow control off first, then force-deassert (R297). -/
def applyHalfDuplex : Op Unit := do
  let p := (← get).cfg
  regClear .maccfg [.maccfgFuldpx]
  regWrite .ipg p.ipgHalf
  regClear .fc [.fcAutofc]
  regClear .fc [.fcFcassert]

/-- Step 3 of R205: the one branch. -/
def applyDuplex (full : Bool) : Op Unit := if full then applyFullDuplex else applyHalfDuplex

/-- `RECONCILE` (R205): a wait, one read of the duplex, one branch. A `HardwareFault` in the wait ends it with nothing
written (R260). -/
def reconcileBody : Op Unit := do
  atStep 1
  if ← waitUntil .stat .statFcidle true then
    atStep 2
    let full ← regReadBit .stat .statPhydpx
    atStep 3
    applyDuplex full
    atStep 4
  else return ()

/-- `RECONCILE` as the dispatcher and `INITIALIZE` call it. -/
def reconcile : Op Unit := call .reconcile reconcileBody

/-- The meaning of `RECONCILE` (R205). -/
def execReconcile (s : State) : Host.Outcome State Fault Refusal :=
  runProbed .reconcile (do reconcileBody; return .unit) s

end Sys2Proof.Machine
end

