-- ==== Sys2Proof/Machine/MulticastFilter.lean ====
section
/-! DEFINITION. MulticastFilter, component 6 (spec/46_multicast_filter.md R195 to R199). -/

namespace Sys2Proof.Machine

/-- `CRC_POLY` (R16, spec/90_conflicts.md C1). -/
def crcPoly : BitVec 32 := 0x04C11DB7

/-- One bit of the reflected CRC (R195); `0xEDB88320` of the rule is `crcPoly` bit-reversed. -/
def crcBit (crc : BitVec 32) : BitVec 32 :=
  if crc.getLsbD 0 then (crc >>> 1) ^^^ crcPoly.reverse else crc >>> 1

/-- One byte into the CRC (R195). -/
def crcByte (crc : BitVec 32) (b : Byte) : BitVec 32 := Nat.repeat crcBit 8 (crc ^^^ b.setWidth 32)

/-- The CRC-32 of IEEE 802.3 frame checksums (R195, GK4 (i)). -/
def crc32 (bytes : List Byte) : BitVec 32 := bytes.foldl crcByte 0xFFFFFFFF ^^^ 0xFFFFFFFF

/-- The CRC under the configured convention (R195 `CRC32_VARIANT`): GK4 (ii) is "the bit-reversal of the complement
of (i)". -/
def crcVariant (v : CrcVariant) (bytes : List Byte) : BitVec 32 :=
  match v with
  | .frameChecksum => crc32 bytes
  | .controllerHash => (~~~ crc32 bytes).reverse

/-- `HASH(addr)`: bits 28 down to 23 of the CRC (R195). -/
def hashOf (v : CrcVariant) (a : MacAddr) : Fin 64 := ((crcVariant v (macBytes a)).extractLsb' 23 6).toFin

/-- `multicast_refcount[16*g + b] > 0` for `b` from 0 to 15, as a hash register's word (R197, R45). -/
def hashWord (refcount : Vector Nat 64) (g : Nat) : Word :=
  wordOfBits ((List.range 16).map (fun b => (b, decide (0 < refcount[16 * g + b]?.getD 0))))

/-- `PushTable` (R197): four separate events. -/
def pushTable : Op Unit := do
  let refcount := (← get).ctx.multicastRefcount
  regWrite .ht0 (hashWord refcount 0)
  regWrite .ht1 (hashWord refcount 1)
  regWrite .ht2 (hashWord refcount 2)
  regWrite .ht3 (hashWord refcount 3)

/-- Set one bucket's count (R26). -/
def State.setRefcount (k : Fin 64) (n : Nat) (s : State) : State :=
  { s with ctx := { s.ctx with multicastRefcount := s.ctx.multicastRefcount.set k.val n k.isLt } }

/-- `SUBSCRIBE addr` (R196). -/
def subscribeBody (a : MacAddr) : Op Unit := do
  let s ← get
  let k := hashOf s.cfg.crcVariant a
  update (·.setRefcount k (s.ctx.multicastRefcount[k] + 1))
  pushTable

/-- `SUBSCRIBE` as `SET_MULTICAST` calls it. -/
def subscribe (a : MacAddr) : Op Unit := call .subscribe (subscribeBody a)

/-- The meaning of `SUBSCRIBE` (R196). -/
def execSubscribe (a : MacAddr) (s : State) : Host.Outcome State Fault Refusal :=
  runProbed .subscribe (do subscribeBody a; return .unit) s

/-- `UNSUBSCRIBE addr` (R198): a bucket at 0 is left alone, and no register is written. -/
def unsubscribeBody (a : MacAddr) : Op Unit := do
  let s ← get
  let k := hashOf s.cfg.crcVariant a
  if s.ctx.multicastRefcount[k] = 0 then return ()
  else
    update (·.setRefcount k (s.ctx.multicastRefcount[k] - 1))
    pushTable

/-- `UNSUBSCRIBE` as `SET_MULTICAST` calls it. -/
def unsubscribe (a : MacAddr) : Op Unit := call .unsubscribe (unsubscribeBody a)

/-- The meaning of `UNSUBSCRIBE` (R198). -/
def execUnsubscribe (a : MacAddr) (s : State) : Host.Outcome State Fault Refusal :=
  runProbed .unsubscribe (do unsubscribeBody a; return .unit) s

/-- The meaning of `HASH` (R195): it reads and writes no state. -/
def execHash (a : MacAddr) (s : State) : Host.Outcome State Fault Refusal :=
  runProbed .hash (do return .bucket (hashOf (← get).cfg.crcVariant a)) s

end Sys2Proof.Machine
end

