-- ==== Sys2Proof/Machine/TxEngine.lean ====
section
/-! DEFINITION. TxEngine, component 3 (spec/43_tx_engine.md R150 to R154). -/

namespace Sys2Proof.Machine

/-- Steps 3 to 8 of R151 for the packet at the head of the queue. -/
def sendHead (pkt : Packet) : Op Unit := do
  atStep 3
  update (fun s => { s with sendq := s.sendq.tail })
  let p := (← get).cfg
  let frame := frameOf pkt
  atStep 4
  if frame.length = 0 ∨ p.txCapacity < frame.length then
    release pkt
    raise .txTooLong (.number frame.length)
  else
    atStep 5
    memWrite p.txStart frame
    atStep 6
    release pkt
    atStep 7
    regWrite .txlen (BitVec.ofNat 16 frame.length)
    atStep 8
    regSet .ctl [.ctlTxrts]

/-- `KICK` (R151). -/
def kickBody : Op Unit := do
  atStep 1
  let inFlight ← regReadBit .ctl .ctlTxrts
  if inFlight then return ()
  else
    atStep 2
    match (← get).sendq with
    | [] => return ()
    | pkt :: _ => sendHead pkt

/-- `KICK` as its callers call it. -/
def kick : Op Unit := call .kick kickBody

/-- The meaning of `KICK` (R151). -/
def execKick (s : State) : Host.Outcome State Fault Refusal :=
  runProbed .kick (do kickBody; return .unit) s

/-- Step 1 of R150: append, or reject the new packet when the queue is full (U10). -/
def enqueue (pkt : Packet) : Op Result := do
  let s ← get
  if s.cfg.sendqMax ≤ s.sendq.length then
    release pkt
    raise .sendQueueFull .none
    return .err .sendQueueFull
  else
    update (fun s => { s with sendq := s.sendq ++ [pkt] })
    return .ok

/-- `ENQUEUE_AND_KICK packet` (R150): the kick follows whether the packet was queued or not. -/
def enqueueAndKickBody (pkt : Packet) : Op Result := do
  atStep 1
  let r ← enqueue pkt
  atStep 2
  kick
  atStep 3
  return r

/-- `ENQUEUE_AND_KICK` as `TRANSMIT` calls it. -/
def enqueueAndKick (pkt : Packet) : Op Result := call .enqueueAndKick (enqueueAndKickBody pkt)

/-- The meaning of `ENQUEUE_AND_KICK` (R150). -/
def execEnqueueAndKick (bytes : List Byte) (s : State) : Host.Outcome State Fault Refusal :=
  runProbedPacket .enqueueAndKick (flatPacket bytes) (enqueueAndKickBody (flatPacket bytes)) s

end Sys2Proof.Machine
end

