-- ==== Sys2Proof/Machine/HostInterface.lean ====
section
/-! DEFINITION. HostInterface, group 8 (spec/48_host_interface.md R213 to R222). -/

namespace Sys2Proof.Machine

/-- The six bits of `IEN` (R39). -/
def allEnables : List BitName := [.ienGlobal, .ienLink, .ienTxdone, .ienTxabt, .ienRxabt, .ienPkt]

/-- Step 4 of R213 after its `RECONCILE`. -/
def initialiseAfterReconcile : Op Unit := do
  let m := (← get).cfg.regmap
  regWrite .ien (bitsMask m allEnables)
  regSet .ctl [.ctlRxen]
  update (fun s => { s with initialized := true })

/-- The watchdog part of step 4 of R213, on a block that has never been brought up: it revives one that direct `RECOVER`s
have disabled, too (assumption 43). -/
def State.clearWatchdog (s : State) : State :=
  { s with ctx := { s.ctx with resetCounter := 0 }, pendingClear := none, wdState := .healthy }

/-- Step 4 of R213: the bring-up. -/
def bringUp : Op Unit := do
  atStep 4
  regClear .ctl [.ctlRxen]
  resetRing
  let p := (← get).cfg
  regWrite .txst (BitVec.ofNat 16 p.txStart)
  drain
  regClear .iflag [.iflagLink, .iflagTxdone, .iflagTxabt, .iflagRxabt]
  update State.clearWatchdog
  pushTable
  reconcile
  initialiseAfterReconcile

/-- `INITIALIZE` (R213). -/
def initialiseBody : Op Result := do
  atStep 1
  let s ← get
  if s.ctx.probed = false then
    raise .notProbed .none
    return .err .notProbed
  else
    atStep 2
    if s.ctx.addrKnown = false then
      raise .addressUnknown .none
      return .err .addressUnknown
    else
      atStep 3
      if s.initialized then return .ok
      else
        bringUp
        atStep 5
        return .ok

/-- `INITIALIZE` as `SET_FLAGS` calls it. -/
def initialise : Op Result := call .initialise initialiseBody

/-- The meaning of `INITIALIZE` (R213), whose own step 1 is the guard `NotProbed`. -/
def execInitialise (s : State) : Host.Outcome State Fault Refusal := runCommand .initialise initialiseBody s

/-- The frame of an unframed packet (R214 step 2): destination, `link_address`, the type big-endian, the bytes. -/
def framed (hw link : MacAddr) (ptype : Word) (bytes : List Byte) : List Byte :=
  macBytes hw ++ macBytes link ++ [(ptype >>> 8).setWidth 8, ptype.setWidth 8] ++ bytes

/-- `TRANSMIT framed, ptype, dest, bytes` (R214). -/
def transmitBody (isFramed : Bool) (ptype : Word) (dest : BitVec 32) (bytes : List Byte) : Op Result := do
  atStep 1
  let s ← get
  if s.initialized = false then
    release (flatPacket bytes)
    raise .notInitialized .none
    return .err .notInitialized
  else
    atStep 2
    if isFramed then
      atStep 3
      enqueueAndKick (flatPacket bytes)
    else
      match ← resolve dest bytes with
      | none => return .ok
      | some hw =>
        atStep 3
        enqueueAndKick (flatPacket (framed hw s.ctx.linkAddress ptype bytes))

/-- The meaning of `TRANSMIT` (R214). The guard `NotProbed` of every command stands before its own guard
`NotInitialized` (assumption 15). -/
def execTransmit (isFramed : Bool) (ptype : Word) (dest : BitVec 32) (bytes : List Byte) (s : State) :
    Host.Outcome State Fault Refusal :=
  runProbedPacket .transmit (flatPacket bytes) (transmitBody isFramed ptype dest bytes) s

/-- `SET_MULTICAST addr, subscribe` (R215). -/
def setMulticastBody (a : MacAddr) (sub : Bool) : Op Unit := if sub then subscribe a else unsubscribe a

/-- The meaning of `SET_MULTICAST` (R215). -/
def execSetMulticast (a : MacAddr) (sub : Bool) (s : State) : Host.Outcome State Fault Refusal :=
  runProbed .setMulticast (do setMulticastBody a sub; return .unit) s

/-- `SET_FLAGS up` (R216): the result of `INITIALIZE` is discarded. -/
def setFlagsBody (up : Bool) : Op Result := do
  update (fun s => { s with adminUp := up })
  let s ← get
  if up && !s.initialized then
    let _ ← initialise
    return .unit
  else return .unit

/-- The meaning of `SET_FLAGS` (R216). -/
def execSetFlags (up : Bool) (s : State) : Host.Outcome State Fault Refusal := runProbed .setFlags (setFlagsBody up) s

/-- The record of R217. -/
def State.status (s : State) : Status where
  adminUp := s.adminUp
  initialized := s.initialized
  wdState := s.wdState
  packetsIn := s.packetsIn
  packetsOut := s.packetsOut
  errorsIn := s.errorsIn
  errorsOut := s.errorsOut

/-- The meaning of `GET_STATUS` (R217): it changes nothing. -/
def execGetStatus (s : State) : Host.Outcome State Fault Refusal :=
  runProbed .getStatus (do return .status (← get).status) s

end Sys2Proof.Machine
end

