-- ==== Sys2Proof/Machine/RxEngine.lean ====
section
/-! DEFINITION. RxEngine, component 2 (spec/42_rx_engine.md R130 to R142). -/

namespace Sys2Proof.Machine

/-- A validation failure (R131 steps 1, 3, 4): `raise`, `RECOVER`, `return none`. -/
def failValidation (x : Exn) (info : Nat) : Op (Option Packet) := do
  raise x (.number info)
  recover
  return none

/-- An allocation failure (R131 steps 5, 6; R139): what was built is released, no packet. -/
def failAllocation (chunks : List Chunk) : Op (Option Packet) := do
  onlyIf (!chunks.isEmpty) (release chunks)
  raise .allocFail .none
  return none

/-- Step 6 of R131: chunk after chunk until `remaining` payload bytes are copied, with as many rounds as there can be. -/
def copyPayload : Nat → Nat → List Chunk → Op (Option Packet)
  | 0, _, chunks => return some chunks
  | rounds + 1, remaining, chunks => do
    if remaining = 0 then return some chunks
    else
      let p := (← get).cfg
      let cls := chunkClassFor p.toParams remaining
      if ← alloc cls then
        let n := min remaining (chunkCapacity p.toParams cls)
        let data ← readBytes n
        copyPayload rounds (remaining - n) (chunks ++ [⟨cls, 0, data⟩])
      else failAllocation chunks

/-- Steps 5 and 6 of R131: the Ethernet header in a small chunk behind the tag room (R138), then the payload. -/
def buildPacket (frameLength : Nat) : Op (Option Packet) := do
  atStep 5
  let p := (← get).cfg
  if ← alloc .small then
    let hdr ← readBytes p.ethHdrSize
    atStep 6
    copyPayload frameLength frameLength [⟨.small, p.tagSize, hdr⟩]
  else failAllocation []

/-- Step 7 of R131: the tail, then the read pointer, from `next_offset`. -/
def releaseRing (next : Nat) : Op Unit := do
  atStep 7
  let p := (← get).cfg
  regWrite .rxtail (BitVec.ofNat 16 (tailFor p.toParams next))
  update (·.setReadPointer next)

/-- The header's two fields (R9, R131 step 2). -/
def headerFields (p : Params) (h : List Byte) : Word × Word :=
  (chipWord p (h.getD 0 0) (h.getD 1 0), chipWord p (h.getD 2 0) (h.getD 3 0))

/-- `RECEIVE_ONE` (R131). -/
def receiveOneBody : Op (Option Packet) := do
  atStep 1
  let s ← get
  let p := s.cfg.toParams
  let ptr := s.ctx.rxReadPointer.toNat
  if ¬ RingValid p ptr then failValidation .ringPointerInvalid ptr
  else
    atStep 2
    let h ← readBytes rbhSize
    let (nextOffset, statusLength) := headerFields p h
    let frameLength : Int := (statusLength.toNat : Int) - crcLen
    atStep 3
    if ¬ RingValid p nextOffset.toNat then failValidation .nextOffsetInvalid nextOffset.toNat
    else
      atStep 4
      let total := frameLength + p.ethHdrSize
      if ¬ ((p.etherMin : Int) ≤ total ∧ total ≤ p.etherMax) then
        failValidation .frameLengthInvalid statusLength.toNat
      else
        let result ← buildPacket frameLength.toNat
        releaseRing nextOffset.toNat
        return result

/-- `RECEIVE_ONE` as the dispatcher calls it. -/
def receiveOne : Op (Option Packet) := call .receiveOne receiveOneBody

/-- The meaning of `RECEIVE_ONE` (R131). -/
def execReceiveOne (s : State) : Host.Outcome State Fault Refusal :=
  runProbed .receiveOne (do return .packet (← receiveOneBody)) s

end Sys2Proof.Machine
end

