-- ==== Sys2Proof/Machine/InterruptDispatcher.lean ====
section
/-! DEFINITION. InterruptDispatcher, component 4 (spec/44_interrupt_dispatcher.md R165 to R174), as a command and as the
handler of an interrupt activation (spec/60_exceptions.md R265, R267). -/

namespace Sys2Proof.Machine

/-- One iteration's delivery (R165 step 4, R169, R173). -/
def deliver (pkt : Packet) : Op Unit := do
  let p := (← get).cfg
  update (fun s => { s with packetsIn := s.packetsIn + 1 })
  update (·.emit (.deliver (laneOf p.toParams (frameOf pkt)) pkt))

/-- Deliver what `RECEIVE_ONE` returned, if it returned a packet; the loop goes on either way (R172). -/
def deliverReceived : Option Packet → Op Unit
  | some pkt => deliver pkt
  | none => pure ()

/-- The loop of step 4: a live re-read before every iteration (spec/90_conflicts.md C2), at most `n` iterations in one
step. Against a chip that goes on depositing the loop has no end (R172, R240 (F4)): where more is to come the step ends
between two iterations, and the loop goes on in the next (assumption 37). -/
def packetRounds : Nat → Op Unit
  | 0 => return ()
  | n + 1 => do
    let s ← get
    if s.moreToCome then throw .held
    else
      let pkt ← regReadBit .iflag .iflagPkt
      if pkt then
        regSet .ctl [.ctlPktdec]
        let received ← receiveOne
        deliverReceived received
        packetRounds n
      else return ()

/-- The loop of step 4 of R165. -/
def packetLoop : Op Unit := do
  let s ← get
  packetRounds s.pktRounds

/-- A transmit that completed (R167). -/
def countDone : Op Unit := do
  update (fun s => { s with packetsOut := s.packetsOut + 1 })
  regClear .iflag [.iflagTxdone]

/-- A transmit that the chip aborted (R167). -/
def countAbort : Op Unit := do
  update (fun s => { s with errorsOut := s.errorsOut + 1 })
  regClear .iflag [.iflagTxabt]

/-- Step 2 of R165: transmit-complete and transmit-abort. -/
def handleTransmit (f : IFlags) : Op Unit := do
  atStep 2
  onlyIf f.txdone countDone
  onlyIf f.txabt countAbort
  let s ← get
  onlyIf (!s.sendq.isEmpty) kick

/-- Step 3 of R165: receive-abort (R168). -/
def handleOverflow : Op Unit := do
  atStep 3
  update (fun s => { s with errorsIn := s.errorsIn + 1 })
  regClear .iflag [.iflagRxabt]

/-- Step 4 of R165: packet-available (R169). -/
def handlePackets : Op Unit := do
  atStep 4
  packetLoop

/-- Steps 2 to 5 of R165, on the snapshot. -/
def dispatchRest (f : IFlags) : Op Unit := do
  onlyIf (f.txdone || f.txabt) (handleTransmit f)
  onlyIf f.rxabt handleOverflow
  onlyIf f.pkt handlePackets
  atStep 5

/-- After the reconcile of step 1: clear the flag, and go on. -/
def dispatchAfterReconcile (f : IFlags) : Op Unit := do
  regClear .iflag [.iflagLink]
  dispatchRest f

/-- `DISPATCH` (R165): one snapshot, then the four conditions in their fixed order (R171). -/
def dispatchBody : Op Unit := do
  let f ← regReadFlags
  update (·.setSnapshot f)
  if f.link then
    atStep 1
    reconcile
    dispatchAfterReconcile f
  else dispatchRest f

/-- The meaning of `DISPATCH` as a command (R165): request context, same effect. -/
def execDispatch (s : State) : Host.Outcome State Fault Refusal :=
  runProbed .dispatch (do dispatchBody; return .unit) s

/-- Interrupt activation (R265): the dispatcher runs in interrupt context and returns (R267). -/
def activate (s : State) : Host.Outcome State Fault Refusal :=
  outcomeOf ((do
    dispatchBody
    update (·.finish .unit) : Op Unit) s.beginInterrupt)

end Sys2Proof.Machine
end

