-- ==== Sys2Proof/Machine/Sequencer.lean ====
section
/-! DEFINITION. How a held operation goes on (spec/10_state.md R28, spec/70_reset_and_hazards.md R292), how the idle block
takes a command or an activation (spec/30_encoding.md R90, R94, spec/60_exceptions.md R259, R265). -/

namespace Sys2Proof.Machine

/-- What the top frame of a held `seq` still has to do. The frames below are its callers, each at the step that made
the call ("A return always goes to the step after the call", R98). An operation is held only at the two busy-waits
R180 step 5 and R205 step 1, and in the packet loop of R165 step 4. -/
def resumeFrame (fr : Frame) : Op Unit :=
  match fr.op, fr.step, fr.snapshot with
  | .recover, 5, _ => recoverFromWait
  | .reconcile, 1, _ => reconcileBody
  | .receiveOne, 1, _ => return ()
  | .receiveOne, 3, _ => return ()
  | .receiveOne, 4, _ => return ()
  | .dispatch, 1, some f => dispatchAfterReconcile f
  | .dispatch, 4, _ => do
    packetLoop
    atStep 5
  | .initialise, 4, _ => do
    initialiseAfterReconcile
    atStep 5
  | .setFlags, _, _ => return ()
  | _, _, _ => throw (.fault .sequencer)

/-- Finish the frames of `seq` from the top down, each popped as it returns. -/
def resumeFrames : List Frame → Op Unit
  | [] => return ()
  | fr :: rest => do
    resumeFrame fr
    update State.popFrame
    resumeFrames rest

/-- The result of a held command once it completes (R96): the commands that can be held are these six. -/
def resumedResult (seq : List Frame) : Result :=
  match seq.getLast? with
  | some fr =>
    match fr.op with
    | .receiveOne => .packet none
    | .initialise => .ok
    | _ => .unit
  | none => .unit

/-- A held operation takes its next events. -/
def resume (s : State) : Host.Outcome State Fault Refusal :=
  outcomeOf ((do
    resumeFrames s.seq
    update (·.finish (resumedResult s.seq)) : Op Unit) s)

/-- An illegal command (R94, R259): refused whole, `Err(BadCommand)`. -/
def badCommand (words : List Word) (s : State) : Host.Outcome State Fault Refusal :=
  .next (s.turnAway .badCommand (match words with | [] => .none | cw :: _ => .number cw.toNat))

/-- The state whose next step accepts this command: first at the command port, `seq` idle, the command picked. -/
def State.placeCommand (words : List Word) (s : State) : State :=
  { s with seq := [], port := words :: s.port, agenda := ⟨[], .command⟩ :: s.agenda }

end Sys2Proof.Machine
end

