-- ==== Sys2Proof/Machine/Dispatch.lean ====
section
/-! DEFINITION. `exec`: one arm per command, each one call of its meaning. -/

namespace Sys2Proof.Machine

def exec (i : Instr) (s : State) : Host.Outcome State Fault Refusal :=
  match i with
  | .regRead reg => Sys2Proof.Machine.execRegRead reg s
  | .regWrite reg value => Sys2Proof.Machine.execRegWrite reg value s
  | .regSetBits reg mask => Sys2Proof.Machine.execRegSetBits reg mask s
  | .regClearBits reg mask => Sys2Proof.Machine.execRegClearBits reg mask s
  | .readBytes length => Sys2Proof.Machine.execReadBytes length s
  | .receiveOne => Sys2Proof.Machine.execReceiveOne s
  | .enqueueAndKick bytes => Sys2Proof.Machine.execEnqueueAndKick bytes s
  | .kick => Sys2Proof.Machine.execKick s
  | .dispatch => Sys2Proof.Machine.execDispatch s
  | .recover => Sys2Proof.Machine.execRecover s
  | .subscribe addr => Sys2Proof.Machine.execSubscribe addr s
  | .unsubscribe addr => Sys2Proof.Machine.execUnsubscribe addr s
  | .hash addr => Sys2Proof.Machine.execHash addr s
  | .reconcile => Sys2Proof.Machine.execReconcile s
  | .initialise => Sys2Proof.Machine.execInitialise s
  | .transmit framed ptype dest bytes => Sys2Proof.Machine.execTransmit framed ptype dest bytes s
  | .setMulticast addr subscribe => Sys2Proof.Machine.execSetMulticast addr subscribe s
  | .setFlags up => Sys2Proof.Machine.execSetFlags up s
  | .getStatus => Sys2Proof.Machine.execGetStatus s

end Sys2Proof.Machine
end

