-- ==== Sys2Proof/Machine/Turn.lean ====
section
/-! DEFINITION. What an idle block does with its turn: accept a waiting command (spec/30_encoding.md R90, R94), or take
the interrupt (spec/60_exceptions.md R265), or stay idle (spec/70_reset_and_hazards.md R282). -/

namespace Sys2Proof.Machine

/-- Accept the words of one command: decode and run, or `BadCommand` (R90, R94). -/
def acceptCommand (words : List Word) (s : State) : Host.Outcome State Fault Refusal :=
  match decode s.cfg.regmap words with
  | .ok i => exec i s
  | .error _ => badCommand words s

/-- The idle block's own turn: the activation if it is enabled and picked first or alone, else a waiting command, else
nothing (R265, R282). -/
def blockTurn (pick : Pick) (s : State) : Host.Outcome State Fault Refusal :=
  match pick, s.canActivate, s.port with
  | .activation, true, _ => activate s
  | _, _, words :: rest => acceptCommand words { s with port := rest }
  | .command, true, [] => activate s
  | _, false, [] => .next s

/-- A step of an idle block: the next move lined up in the agenda's first slot, or, the slot being used up or the
agenda empty, the block's own turn (spec/10_state.md R20; spec/70_reset_and_hazards.md R300). -/
def idleStep (s : State) : Host.Outcome State Fault Refusal :=
  match s.agenda with
  | [] => blockTurn .activation s
  | ⟨[], pick⟩ :: rest => blockTurn pick { s with agenda := rest }
  | ⟨m :: ms, pick⟩ :: rest => .next (State.applyMove { s with agenda := ⟨ms, pick⟩ :: rest } m)

end Sys2Proof.Machine
end

