-- ==== Sys2Proof/Machine/Step.lean ====
section
/-! DEFINITION. One step of the machine: a held operation goes on; an idle block lets one other agent move, or accepts a
command, or takes the interrupt, or stays idle (spec/10_state.md R20, R28; spec/60_exceptions.md R265;
spec/70_reset_and_hazards.md R282). -/

namespace Sys2Proof.Machine

/-- One step. A used-up agenda is first what the other agents do again (assumption 37). -/
def step (s : State) : Host.Outcome State Fault Refusal :=
  match s.seq with
  | _ :: _ => resume s.rearm
  | [] => idleStep s.rearm

/-- The state with one command placed so that the next step accepts exactly it: first at the command port, `seq` idle,
and the command picked. -/
def State.withFetchWord (s : State) (nbits w : Nat) : State := s.placeCommand (tableWords nbits w)

end Sys2Proof.Machine
end

