-- ==== Sys2Proof/Safety.lean ====
section
/-! DEFINITION. The terms in which claims are stated: when nothing else moves, what a completed command leaves, what the
chip's bits and whole registers read as, the invariant that every step keeps, and the invariant of spec/10_state.md R51
with the class of runs of spec/70_reset_and_hazards.md R302. -/

namespace Sys2Proof

/-! ### Registers, bits and commands by kind -/

/-- A register that is one 16-bit field (R35 to R37, R42, R43 `IPG`, R45, R46). -/
def Reg.wholeField (r : Reg) : Bool := r.bits.isEmpty

/-- A bit that stores what is written to it: not `IFLAG.PKT`, not `CTL.PKTDEC`, none of `STAT` (R38, R40, R41). -/
def BitName.stored : BitName → Bool
  | .iflagPkt | .ctlPktdec | .statRxbusy | .statFcidle | .statPhydpx | .statPhylnk => false
  | .iflagLink | .iflagTxdone | .iflagTxabt | .iflagRxabt | .ienLink | .ienTxdone | .ienTxabt | .ienRxabt | .ienPkt
  | .ienGlobal | .ctlRxen | .ctlTxrts | .maccfgFuldpx | .fcAutofc | .fcFcassert => true

/-- A register of one field that the block writes (R37 and R46: `RXHEAD` and `MAADR0..2` are not; assumption 10). -/
def Reg.stored : Reg → Bool
  | .rxst | .rxtail | .txst | .txlen | .ipg | .ht0 | .ht1 | .ht2 | .ht3 => true
  | .rxhead | .maadr0 | .maadr1 | .maadr2 | .iflag | .ien | .ctl | .stat | .maccfg | .fc => false

/-- The command of this instruction may store to chip memory: it can reach `KICK` step 5 (R61, R63). -/
def Instr.mayStore : Instr → Bool
  | .enqueueAndKick _ | .kick | .dispatch | .transmit _ _ _ _ => true
  | .regRead _ | .regWrite _ _ | .regSetBits _ _ | .regClearBits _ _ | .readBytes _ | .receiveOne | .recover
  | .subscribe _ | .unsubscribe _ | .hash _ | .reconcile | .initialise | .setMulticast _ _ | .setFlags _
  | .getStatus => false

/-- The packet that a command hands over to the block (R150, R214). -/
def Instr.packetBytes : Instr → Option (List Byte)
  | .enqueueAndKick bytes => some bytes
  | .transmit _ _ _ bytes => some bytes
  | .regRead _ | .regWrite _ _ | .regSetBits _ _ | .regClearBits _ _ | .readBytes _ | .receiveOne | .kick | .dispatch
  | .recover | .subscribe _ | .unsubscribe _ | .hash _ | .reconcile | .initialise | .setMulticast _ _ | .setFlags _
  | .getStatus => none

/-- The commands of R302: "unit-8 commands, `ENQUEUE_AND_KICK`, `SUBSCRIBE`, `UNSUBSCRIBE`, `RECONCILE`, `HASH`,
`REG_READ` and `GET_STATUS`". -/
def Instr.hostCall : Instr → Bool
  | .regRead _ | .enqueueAndKick _ | .subscribe _ | .unsubscribe _ | .hash _ | .reconcile | .initialise
  | .transmit _ _ _ _ | .setMulticast _ _ | .setFlags _ | .getStatus => true
  | .regWrite _ _ | .regSetBits _ _ | .regClearBits _ _ | .readBytes _ | .receiveOne | .kick | .dispatch
  | .recover => false

end Sys2Proof

namespace Sys2Proof.Machine

/-! ### The setting of a claim about one command -/

/-- No other agent has a move lined up, now or later. -/
abbrev State.Still (s : State) : Prop := s.agenda = [] ∧ s.again = []

/-- `seq = idle` and no other agent has a move lined up: the command runs by itself. -/
abbrev State.Alone (s : State) : Prop := s.seq = [] ∧ s.Still

/-- The command runs by itself on a probed card, so that R261 and R281 do not turn it away. -/
abbrev State.Ready (s : State) : Prop := s.Alone ∧ s.ctx.probed = true

/-- `s` once a command that changed nothing else has completed with result `r` (R29, R96). -/
def State.answered (r : Result) (s : State) : State :=
  { s with context := none, savedIpl := s.ipl, result := some r }

/-- `s` with an empty trace: what is left to compare when a claim says nothing about the order of the accesses. -/
def State.untraced (s : State) : State := { s with trace := [] }

/-- An entry of the output trace proper (R96): a delivery, a raised exception, the chip's `Wire`, and the chunks
given back. -/
def TraceEvent.isOutput : TraceEvent → Bool
  | .deliver _ _ | .raised _ _ | .wire _ | .release _ => true
  | .regRead _ | .regWrite _ _ | .regSet _ _ | .regClear _ _ | .memRead _ _ | .memWrite _ _ | .alloc _ _
  | .resolve _ _ _ => false

/-- The output events of a trace, newest first. -/
def outputs (trace : List TraceEvent) : List TraceEvent := trace.filter TraceEvent.isOutput

/-- The command behind `o` completed: a next state that is `t` in everything but the trace, whose trace is that of `s`
with more entries, of which `out`, newest first, are the output events. -/
def Completes (o : Host.Outcome State Fault Refusal) (s t : State) (out : List TraceEvent) : Prop :=
  ∃ entries u, o = .next u ∧ u.untraced = t.untraced ∧ u.trace = entries ++ s.trace ∧ outputs entries = out

/-! ### What the ring holds, and what a recovery leaves -/

/-- The `n` bytes from ring address `p` on, wrapping (R68, R120). -/
def State.ringBytes (s : State) (p n : Nat) : List Byte :=
  (List.range n).map (fun i : Nat => s.mem.read (ringAddr s.cfg.toParams (p + i)))

/-- `ctx.rx_read_pointer` as a number. -/
def State.pointer (s : State) : Nat := s.ctx.rxReadPointer.toNat

/-- `next_offset` and `status_length` of the header at the read pointer (R9, R131 step 2). -/
def State.header (s : State) : Word × Word := headerFields s.cfg.toParams (s.ringBytes s.pointer rbhSize)

/-- The length of the payload that the header at the read pointer announces; an integer, possibly negative (R133). -/
def State.frameLength (s : State) : Int := (s.header.2.toNat : Int) - crcLen

/-- The header at the read pointer passes steps 1, 3 and 4 of `RECEIVE_ONE` (R131). -/
def State.HeaderValid (s : State) : Prop :=
  RingValid s.cfg.toParams s.pointer ∧ RingValid s.cfg.toParams s.header.1.toNat
    ∧ (s.cfg.etherMin : Int) ≤ s.frameLength + s.cfg.ethHdrSize ∧ s.frameLength + s.cfg.ethHdrSize ≤ s.cfg.etherMax

/-- Ring space is released from `next` (R131 step 7). -/
def State.releasedTo (next : Nat) (s : State) : State :=
  { s.setReadPointer next with chip := { s.chip with rxtail := BitVec.ofNat 16 (tailFor s.cfg.toParams next) } }

/-- The full path of `RECOVER`, its steps 1 to 9 (R180, R187). -/
def State.recovered (s : State) : State :=
  { s with
    ctx := { s.ctx with
      rxReadPointer := BitVec.ofNat 16 s.cfg.rxStart
      resetCounter := s.ctx.resetCounter + 1
      lastResetTime := s.now }
    wdState := .healthy
    pendingClear := some (s.now + s.cfg.resetCountTime)
    chip := { s.chip with
      rxen := true
      pktcnt := 0
      rxst := BitVec.ofNat 16 s.cfg.rxStart
      rxhead := BitVec.ofNat 16 s.cfg.rxStart
      rxtail := BitVec.ofNat 16 (s.cfg.rxEnd - 2) } }

/-- The path of `RECOVER` beyond the threshold, its steps 1 to 4 (R180, R181). -/
def State.disabledByRecover (s : State) : State :=
  { s with
    ctx := { s.ctx with resetCounter := s.ctx.resetCounter + 1, lastResetTime := s.now }
    wdState := .disabled
    pendingClear := none
    chip := { s.chip with rxen := false } }

/-- What `RECOVER` has done when it comes to its wait (R180 steps 1 to 3). -/
def State.recovering (s : State) : State :=
  { s with
    ctx := { s.ctx with resetCounter := s.ctx.resetCounter + 1, lastResetTime := s.now }
    wdState := .recovering
    pendingClear := none
    chip := { s.chip with rxen := false } }

/-- What `RECOVER` does from its wait on (R180, steps 5 to 10). -/
def State.recoveredFromWait (s : State) : State :=
  { s with
    ctx := { s.ctx with rxReadPointer := BitVec.ofNat 16 s.cfg.rxStart }
    wdState := .healthy
    pendingClear := some (s.now + s.cfg.resetCountTime)
    chip := { s.chip with
      rxen := true
      pktcnt := 0
      rxst := BitVec.ofNat 16 s.cfg.rxStart
      rxhead := BitVec.ofNat 16 s.cfg.rxStart
      rxtail := BitVec.ofNat 16 (s.cfg.rxEnd - 2) } }

/-- The settings of the duplex that the chip reports (R205 step 3). -/
def State.duplexSettings (s : State) : Chip :=
  if s.chip.phydpx then { s.chip with fuldpx := true, ipg := s.cfg.ipgFull, autofc := true }
  else { s.chip with fuldpx := false, ipg := s.cfg.ipgHalf, autofc := false, fcassert := false }

/-! ### What `RECEIVE_ONE` builds -/

/-- The allocator's answer to the `i`-th coming request: the host's, or the free value that stands for it (R219). -/
def State.grant (s : State) (i : Nat) : Bool :=
  s.allocAnswers.getD i (Config.freeGrant (s.freeCount + (i - s.allocAnswers.length)))

/-- `pkt` is the packet that the header at the read pointer asks for (R131, R136, R138, R139): the Ethernet header in a small
chunk behind the tag room, then the payload in chunks of the class and the length that the bytes still to copy ask for. -/
structure State.AsksFor (s : State) (pkt : Packet) : Prop where
  first : pkt.head? = some ⟨.small, s.cfg.tagSize, s.ringBytes (s.pointer + rbhSize) s.cfg.ethHdrSize⟩
  payload : frameOf pkt.tail = s.ringBytes (s.pointer + rbhSize + s.cfg.ethHdrSize) s.frameLength.toNat
  chunks : ∀ k c, pkt.tail[k]? = some c →
    let remaining := (frameOf (pkt.tail.drop k)).length
    c.tagRoom = 0 ∧ c.cls = chunkClassFor s.cfg.toParams remaining
      ∧ c.data.length = min remaining (chunkCapacity s.cfg.toParams c.cls)

/-! ### Several steps -/

/-- The state after `n` steps, if the machine neither faults nor refuses before. -/
def State.after : Nat → State → Option State
  | 0, s => some s
  | n + 1, s =>
    match step s with
    | .next t => State.after n t
    | .fault _ => none
    | .refused _ => none

/-! ### Reading the chip -/

/-- The content of a register that is one 16-bit field. -/
def Chip.field (c : Chip) : Reg → Word
  | .rxst => c.rxst
  | .rxtail => c.rxtail
  | .rxhead => c.rxhead
  | .txst => c.txst
  | .txlen => c.txlen
  | .ipg => c.ipg
  | .ht0 => c.ht0
  | .ht1 => c.ht1
  | .ht2 => c.ht2
  | .ht3 => c.ht3
  | .maadr0 => c.maadr0
  | .maadr1 => c.maadr1
  | .maadr2 => c.maadr2
  | .iflag | .ien | .ctl | .stat | .maccfg | .fc => 0

/-- The hash register of a group of sixteen buckets (R45). -/
def Chip.hashReg (c : Chip) (g : Fin 4) : Word :=
  match g with
  | 0 => c.ht0
  | 1 => c.ht1
  | 2 => c.ht2
  | 3 => c.ht3

/-- (I-e) of R51: bucket `k` is bit `k mod 16` of `HT(k div 16)`, set exactly when its count is positive (R199). -/
def State.TableSound (s : State) : Prop :=
  ∀ k : Fin 64, (s.chip.hashReg ⟨k.val / 16, by omega⟩).getLsbD (k.val % 16) = decide (0 < s.ctx.multicastRefcount[k])

/-! ### The frame of a command -/

/-- What no command changes while no other agent moves (R21, R25 to R27, R33, R37, R41, R46): of the block, the probed
bit, the address, the clock and what is lined up; of the chip, the status and the address registers. -/
structure SameRest (s t : State) : Prop where
  cfg : t.cfg = s.cfg
  probed : t.ctx.probed = s.ctx.probed
  linkAddress : t.ctx.linkAddress = s.ctx.linkAddress
  addrKnown : t.ctx.addrKnown = s.ctx.addrKnown
  now : t.now = s.now
  port : t.port = s.port
  agenda : t.agenda = s.agenda
  again : t.again = s.again
  rxbusy : t.chip.rxbusy = s.chip.rxbusy
  fcidle : t.chip.fcidle = s.chip.fcidle
  phydpx : t.chip.phydpx = s.chip.phydpx
  phylnk : t.chip.phylnk = s.chip.phylnk
  maadr : (t.chip.maadr0, t.chip.maadr1, t.chip.maadr2) = (s.chip.maadr0, s.chip.maadr1, s.chip.maadr2)

/-! ### The invariant of every step -/

/-- The sequencers in which an operation can be held at a busy-wait (R28, R98): from the top down, with the context of
the bottom frame. The two busy-waits are `RECOVER` step 5 and `RECONCILE` step 1 (R292). `SET_FLAGS` numbers no steps and
is at step 0 (assumption 44). -/
inductive HeldShape : List Frame → Context → Prop where
  | recover : HeldShape [⟨.recover, 5, none⟩] .request
  | receive (n : Nat) : n = 1 ∨ n = 3 ∨ n = 4 → HeldShape [⟨.recover, 5, none⟩, ⟨.receiveOne, n, none⟩] .request
  | packets (n : Nat) (f : IFlags) (c : Context) : n = 1 ∨ n = 3 ∨ n = 4 →
      HeldShape [⟨.recover, 5, none⟩, ⟨.receiveOne, n, none⟩, ⟨.dispatch, 4, some f⟩] c
  | reconcile : HeldShape [⟨.reconcile, 1, none⟩] .request
  | link (f : IFlags) (c : Context) : HeldShape [⟨.reconcile, 1, none⟩, ⟨.dispatch, 1, some f⟩] c
  | bringUp : HeldShape [⟨.reconcile, 1, none⟩, ⟨.initialise, 4, none⟩] .request
  | flagsUp : HeldShape [⟨.reconcile, 1, none⟩, ⟨.initialise, 4, none⟩, ⟨.setFlags, 0, none⟩] .request

/-- `DISPATCH` is between two iterations of its packet loop, in a step that has ended (R165 step 4, R172). -/
def LoopShape (q : List Frame) : Prop := ∃ f, q = [⟨.dispatch, 4, some f⟩]

/-- The top frame of the sequencer is a `RECOVER`. -/
def State.inRecover (s : State) : Prop := s.seq.head?.map (·.op) = some .recover

/-- A bring-up is under way, held in its `RECONCILE` (R213 step 4). -/
def State.inBringUp (s : State) : Prop := ∃ fr ∈ s.seq, fr.op = .initialise

/-- What holds of the machine between its steps, from reset on, whatever the other agents do (the host's direct commands
and the chip's envelope included). -/
structure State.Inv (s : State) : Prop where
  /-- Memory is canonical, and inside `MEM_SIZE` (R60). -/
  mem_wf : s.mem.wf
  mem_within : s.mem.within s.cfg.memSize
  /-- (I-c) of R51. -/
  sendq_bound : s.sendq.length ≤ s.cfg.sendqMax
  /-- R41. -/
  pktcnt_bound : s.chip.pktcnt ≤ s.cfg.pktcntMax
  /-- An idle block is at `ipl = low` and in no context (R29, R267). -/
  idle : s.seq = [] → s.ipl = .low ∧ s.context = none
  /-- Every command begins at `ipl = low`, so that is what it restores (R29). -/
  saved : s.savedIpl = .low
  /-- An operation that has not ended is at `ipl = device`, on a probed card, held at a busy-wait of R292 without a
  `SPIN_LIMIT`, or in the packet loop of `DISPATCH`. -/
  held : s.seq ≠ [] →
    s.ipl = .device ∧ s.ctx.probed = true
      ∧ ∃ c, s.context = some c ∧ (HeldShape s.seq c ∧ s.cfg.spinLimit = none ∨ LoopShape s.seq)
  /-- (I-g) of R51, and R182: `Recovering` exists only inside `RECOVER`. -/
  recovering : s.wdState = .recovering ↔ s.inRecover
  /-- R32: `Disabled` is exactly a counter beyond the threshold. -/
  disabled : s.wdState = .disabled ↔ s.cfg.maxResets < s.ctx.resetCounter
  /-- R180 step 3: a recovery under way has been counted. -/
  counted : s.wdState = .recovering → 1 ≤ s.ctx.resetCounter
  /-- R180 step 2, R183: no callback is scheduled while recovering or disabled. -/
  unscheduled : s.wdState ≠ .healthy → s.pendingClear = none
  /-- (I-h) of R51, and the deadline lies within the window from now (R184). -/
  scheduled : ∀ d, s.pendingClear = some d → 1 ≤ s.ctx.resetCounter ∧ d ≤ s.now + s.cfg.resetCountTime
  /-- R213: only a card with a known address is brought up, and from then on its pointer stays in the ring (R121). -/
  brought_up : s.initialized = true ∨ s.inBringUp →
    s.ctx.addrKnown = true ∧ InRing s.cfg.toParams s.ctx.rxReadPointer.toNat
  known_probed : s.ctx.addrKnown = true → s.ctx.probed = true
  /-- R282: before the card is probed its interrupts, reception and transmission are off. -/
  unprobed : s.ctx.probed = false →
    s.chip.enables = ⟨false, false, false, false, false, false⟩ ∧ s.chip.rxen = false ∧ s.chip.txrts = false

/-! ### The invariant of R51 and the runs of R302 -/

/-- R51, for an initialized block whose host keeps to the calls of R302. (I-c), (I-g) and (I-h) are in `State.Inv`; (I-d)
is that `CTL.TXRTS` is one bit. While `RECOVER` is held the ring is being reset, and (I-a), (I-b) are not claimed. -/
structure State.Sound (s : State) : Prop where
  initialized : s.initialized = true
  settled : ¬ s.inBringUp
  /-- (I-a). -/
  pointer : s.wdState = .healthy → RingValid s.cfg.toParams s.ctx.rxReadPointer.toNat
  /-- (I-b). -/
  tail : s.wdState = .healthy →
    s.chip.rxtail.toNat = tailFor s.cfg.toParams s.ctx.rxReadPointer.toNat
  /-- (I-e). -/
  table : s.TableSound
  /-- (I-f), the half about reception; it holds inside `RECOVER` as well (R296). -/
  reception : s.wdState ≠ .healthy → s.chip.rxen = false

/-- The words are a command of R302, or illegal and so refused whole. -/
def hostWords (m : RegMap) (words : List Word) : Bool :=
  match decode m words with
  | .ok i => i.hostCall
  | .error _ => true

/-- A move that R302 allows: any of the chip and the timer, discovery, or a command of R302; no reset. -/
def EnvMove.hostRun (m : RegMap) : EnvMove → Bool
  | .present words => hostWords m words
  | .reset _ => false
  | .rxBegin | .rxEnd _ _ _ _ _ | .rxOverflow _ | .rxEndCorrupt _ _ _ | .txComplete _ | .txAbort _ | .linkChange _ _
  | .flowControl _ _ | .timerTick | .timerFire | .discover _ => true

/-- What is lined up keeps to R302. -/
def State.HostRun (s : State) : Prop :=
  (∀ words ∈ s.port, hostWords s.cfg.regmap words = true)
  ∧ ∀ slot ∈ s.agenda ++ s.again, ∀ m ∈ slot.moves, m.hostRun s.cfg.regmap = true

/-- The chip's moves (R231 to R239). -/
def EnvMove.ofChip : EnvMove → Bool
  | .rxBegin | .rxEnd _ _ _ _ _ | .rxOverflow _ | .rxEndCorrupt _ _ _ | .txComplete _ | .txAbort _ | .linkChange _ _
  | .flowControl _ _ => true
  | .timerTick | .timerFire | .reset _ | .discover _ | .present _ => false

/-- No reset is lined up. -/
def State.NoReset (s : State) : Prop := ∀ slot ∈ s.agenda ++ s.again, ∀ m ∈ slot.moves, ∀ v, m ≠ .reset v

end Sys2Proof.Machine
end

