-- ==== Sys2Proof/Certificates/Slice0/Obligations.lean ====
section
/-! DEFINITION. The statements about the model, each from a numbered rule of spec/. -/

open Sys2Proof Sys2Proof.Machine

/-! ### Encoding (spec/30_encoding.md) -/

/-- R92, R93: words written out from the tables decode to the commands they stand for, one for each unit and each
format, under the register numbers of TC. -/
def Obligations.DecodedWords : Prop :=
  decode RegMap.tc [0x0000, 3] = .ok (.regRead .iflag)
  ∧ decode RegMap.tc [0x0100, 1, 0x0FFE] = .ok (.regWrite .rxtail 0x0FFE)
  ∧ decode RegMap.tc [0x1000, 14] = .ok (.readBytes 14)
  ∧ decode RegMap.tc [0x2000] = .ok .receiveOne
  ∧ decode RegMap.tc [0x3000, 3, 0x0201, 0x0003] = .ok (.enqueueAndKick [1, 2, 3])
  ∧ decode RegMap.tc [0x4000] = .ok .dispatch
  ∧ decode RegMap.tc [0x5000] = .ok .recover
  ∧ decode RegMap.tc [0x6000, 0x0001, 0x005E, 0x0100] = .ok (.subscribe ⟨0x01, 0x00, 0x5E, 0x00, 0x00, 0x01⟩)
  ∧ decode RegMap.tc [0x7000] = .ok .reconcile
  ∧ decode RegMap.tc [0x8101, 2, 0x0800, 0x5678, 0x1234, 0xBBAA]
      = .ok (.transmit true 0x0800 0x12345678 [0xAA, 0xBB])
  ∧ decode RegMap.tc [0x8301] = .ok (.setFlags true)

/-- Decoding the words of a well-formed command gives the command back, whatever the register map. -/
def Obligations.DecodeEncode : Prop :=
  ∀ (m : RegMap) (i : Instr), m.Valid → i.wellFormed = true → decode m (encode m i) = .ok i

/-- Every legal word sequence is the encoding of the well-formed command it decodes to: no bit of it is ignored.
That too few or too many words are illegal is the model's choice (assumption 8). -/
def Obligations.EncodeDecode : Prop :=
  ∀ (m : RegMap) (ws : List Word) (i : Instr), m.Valid → decode m ws = .ok i → i.wellFormed = true ∧ encode m i = ws

/-- R91, R94: a command word opens a legal command exactly when its unit is 0 to 8, its operation is one that the unit
has, its bits 7 to 1 are 0, and its flag bit is 0 unless the command has the flag operand. A register operand outside
the map and a dirty padding byte are illegal as well.
That a sequence of the wrong length is illegal is the model's choice (assumption 8). -/
def Obligations.LegalCommandWords : Prop :=
  ∀ m : RegMap, m.Valid →
    (∀ cw : Word,
      (∃ args i, decode m (cw :: args) = .ok i) ↔
        ∃ (unit op flag : Nat), cw = BitVec.ofNat 16 (4096 * unit + 256 * op + flag)
          ∧ (unit, op) ∈ [(0, 0), (0, 1), (0, 2), (0, 3), (1, 0), (2, 0), (3, 0), (3, 1), (4, 0), (5, 0), (6, 0), (6, 1),
              (6, 2), (7, 0), (8, 0), (8, 1), (8, 2), (8, 3), (8, 4)]
          ∧ (flag = 0 ∨ (flag = 1 ∧ unit = 8 ∧ op ∈ [1, 2, 3])))
    ∧ (∀ reg v : Word, (∀ r, m.number r ≠ reg) →
        (∀ i, decode m [0x0000, reg] ≠ .ok i)
        ∧ ∀ cw ∈ [0x0100, 0x0200, 0x0300], ∀ i, decode m [cw, reg, v] ≠ .ok i)
    ∧ (∀ (n last : Word) (front : List Word), n.toNat % 2 = 1 → last.toNat / 256 ≠ 0 →
        (∀ i, decode m (0x3000 :: n :: (front ++ [last])) ≠ .ok i)
        ∧ ∀ cw ∈ [0x8100, 0x8101], ∀ p lo hi i, decode m (cw :: n :: p :: lo :: hi :: (front ++ [last])) ≠ .ok i)

/-! ### The step -/

/-- An idle block whose turn it is takes the first waiting command and runs exactly what its words decode to; so does the
step from a state in which `withFetchWord` has placed a command. A step that finds the agenda used up begins with what
the other agents do again.
The command port and the agenda are the model's form of R20 and R90 (assumptions 12, 13, 37). -/
def Obligations.StepRunsDecoded : Prop :=
  (∀ (s : State) (words : List Word) (waiting : List (List Word)) (slots : List Slot) (i : Instr),
    s.seq = [] → s.port = words :: waiting → decode s.cfg.regmap words = .ok i →
    (s.agenda = ⟨[], .command⟩ :: slots → step s = exec i { s with port := waiting, agenda := slots })
    ∧ (s.Still → s.canActivate = false → step s = exec i { s with port := waiting }))
  ∧ (∀ s : State, s.agenda = [] → step s = step { s with agenda := s.again })
  ∧ ∀ (s : State) (nbits w : Nat) (i : Instr), decode s.cfg.regmap (tableWords nbits w) = .ok i →
      step (s.withFetchWord nbits w) = exec i { s with seq := [] }

/-- R94, R259: an illegal command is refused whole: `BadCommand` is recorded with its command word and returned, and no
other state changes. -/
def Obligations.BadCommandRefused : Prop :=
  ∀ (s : State) (cw : Word) (args : List Word) (e : Illegal), decode s.cfg.regmap (cw :: args) = .error e →
    acceptCommand (cw :: args) s
      = .next { s with result := some (.err .badCommand), trace := .raised .badCommand (.number cw.toNat) :: s.trace }

/-- R90, R28: while an operation runs no command is accepted: every command is refused by name, and a step takes nothing
from the command port.
The form of the refusal is the model's reading (assumption 17). -/
def Obligations.NoCommandWhileRunning : Prop :=
  ∀ s : State, s.seq ≠ [] →
    (∀ i, exec i s = .refused .notIdle) ∧ ∀ t, step s = .next t → ∃ more, t.port = s.port ++ more

/-- R264: the request line is high exactly when the master enable is 1 and some flag and its enable are both 1. -/
def Obligations.RequestLine : Prop :=
  ∀ c : Chip, c.irq = true ↔
    c.bit .ienGlobal = true ∧
      ∃ p ∈ [(BitName.iflagLink, BitName.ienLink), (.iflagTxdone, .ienTxdone), (.iflagTxabt, .ienTxabt),
              (.iflagRxabt, .ienRxabt), (.iflagPkt, .ienPkt)],
        c.bit p.1 = true ∧ c.bit p.2 = true

/-- R265, R267: with the request line high, the block idle and `ipl = low`, the activation runs the dispatcher from
`context = interrupt`, `ipl = device`, `seq = (DISPATCH, 0)`, and nothing else is saved; when the dispatcher returns,
`seq` is idle, `ipl` low and `context` none. With the line low, or `ipl` raised, no activation starts.
Which enabled step comes first with nothing lined up is the model's choice (assumption 13). -/
def Obligations.Activation : Prop :=
  ∀ s : State, s.seq = [] →
    (s.chip.irq = true → s.ipl = .low → s.Still → step s = activate s)
    ∧ (s.chip.irq = true → s.ipl = .low → ∀ slots, s.agenda = ⟨[], .activation⟩ :: slots →
        step s = activate { s with agenda := slots })
    ∧ (∀ t u, dispatchBody { s with context := some .interrupt, ipl := .device, seq := [⟨.dispatch, 0, none⟩] }
          = .ok u t →
        activate s = .next { t with seq := [], ipl := .low, context := none })
    ∧ (¬ (s.chip.irq = true ∧ s.ipl = .low) → s.port = [] → s.Still → step s = .next s)

/-- R183, R246: the quiet-window callback fires exactly when its deadline has passed on an idle block at `ipl = low`; it
zeroes `reset_counter`, takes the callback away, and writes nothing else. -/
def Obligations.QuietExpire : Prop :=
  ∀ s : State,
    (∀ d, s.pendingClear = some d → d ≤ s.now → s.seq = [] → s.ipl = .low →
      s.applyMove .timerFire = { s with ctx := { s.ctx with resetCounter := 0 }, pendingClear := none })
    ∧ (s.pendingClear = none ∨ (∃ d, s.pendingClear = some d ∧ s.now < d) ∨ s.seq ≠ [] ∨ s.ipl ≠ .low →
      s.applyMove .timerFire = s)

/-! ### The other agents (spec/49_chip_agent.md) -/

/-- R241: no move of the chip changes `ctx`, the queue or the counters, or any register that only the block writes; none
sets `TXRTS`, clears a writable flag or lowers `PKTCNT`; none writes memory outside the ring. With automatic flow control
off it leaves `FCASSERT` alone (R239).
That the chip leaves `FCASSERT` alone with `AUTOFC = 0`, rather than only never setting it, is the model's choice
(assumption 20). -/
def Obligations.ChipNeverDoes : Prop :=
  ∀ (s : State) (m : EnvMove), m.ofChip = true →
    let t := s.applyMove m
    t.ctx = s.ctx ∧ t.sendq = s.sendq
    ∧ (t.packetsIn, t.packetsOut, t.errorsIn, t.errorsOut) = (s.packetsIn, s.packetsOut, s.errorsIn, s.errorsOut)
    ∧ (∀ r ∈ [Reg.rxst, .rxtail, .txst, .txlen, .ipg, .ht0, .ht1, .ht2, .ht3, .maadr0, .maadr1, .maadr2],
        t.chip.field r = s.chip.field r)
    ∧ (∀ b ∈ [BitName.ienLink, .ienTxdone, .ienTxabt, .ienRxabt, .ienPkt, .ienGlobal, .ctlRxen, .maccfgFuldpx, .fcAutofc],
        t.chip.bit b = s.chip.bit b)
    ∧ (t.chip.txrts = true → s.chip.txrts = true)
    ∧ (∀ b ∈ [BitName.iflagLink, .iflagTxdone, .iflagTxabt, .iflagRxabt], s.chip.bit b = true → t.chip.bit b = true)
    ∧ s.chip.pktcnt ≤ t.chip.pktcnt
    ∧ (s.chip.autofc = false → t.chip.fcassert = s.chip.fcassert)
    ∧ ∀ a, ¬ InRing s.cfg.toParams a → t.mem.read a = s.mem.read a

/-- R231 to R239, R245: each step of the chip and the timer; outside its guard it changes nothing. A receive begins only
with reception on and none in flight. A frame of illegal size is dropped silently; one that does not fit, or comes with
the counter at its limit, is dropped with `RXABT`, head, counter and memory untouched, whether the move says so
(`CHIP_RX_OVERFLOW`) or brings the frame (`CHIP_RX_END`); what a frame that fits leaves is `DepositLayout`. A corrupt
deposit writes what it writes to chip-owned bytes, moves the head to an even chip-owned address and raises the counter,
within these limits. A transmit ends only while `TXRTS = 1`, by the frame on the wire and `TXDONE`, or by `TXABT` and no
frame, either with the other flag too. A link change sets its two status bits and the flag; a flow-control step sets
`FCIDLE`, and `FCASSERT` only while `AUTOFC = 1`; the clock moves by one; the callback is `QuietExpire`. The chip-owned
bytes are `Free` bytes from `RXHEAD` on, up to and including the two at `RXTAIL` (R69, R235).
The model's own: the count of used free values (assumption 4), the instant at which the sent bytes are taken and the
bytes beyond memory (19), `FCASSERT` left alone with `AUTOFC = 0` (20), the limits of a corrupt deposit (23), what is
chip-owned where the two parts of the ring overlap (38) and with `RXHEAD` outside the ring (39), an overflow leaving all
of memory (40), no partial frame of an aborted transmit (42). -/
def Obligations.EnvironmentMoves : Prop :=
  ∀ s : State,
    (s.chip.rxen = true → s.chip.rxbusy = false →
      s.applyMove .rxBegin = { s with chip := { s.chip with rxbusy := true } })
    ∧ (s.chip.rxen = false ∨ s.chip.rxbusy = true → s.applyMove .rxBegin = s)
    ∧ (let overflowed := { s with chip := { s.chip with
          rxbusy := false, flags := { s.chip.flags with rxabt := true } } }
      (∀ (hdr payload : List Byte) (rest fcs : BitVec 32) (pad : Byte),
        let total := s.cfg.ethHdrSize + payload.length
        (s.chip.rxbusy = false ∨ hdr.length ≠ s.cfg.ethHdrSize → s.applyMove (.rxEnd hdr payload rest fcs pad) = s)
        ∧ (s.chip.rxbusy = true → hdr.length = s.cfg.ethHdrSize →
            (total < s.cfg.etherMin ∨ s.cfg.etherMax < total →
              s.applyMove (.rxEnd hdr payload rest fcs pad) = { s with chip := { s.chip with rxbusy := false } })
            ∧ (s.cfg.etherMin ≤ total → total ≤ s.cfg.etherMax →
                s.ringFree < depositSize s.cfg.toParams payload.length ∨ s.cfg.pktcntMax ≤ s.chip.pktcnt →
              s.applyMove (.rxEnd hdr payload rest fcs pad) = overflowed)))
      ∧ ∀ n, let refused := s.ringFree < depositSize s.cfg.toParams n ∨ s.chip.pktcnt = s.cfg.pktcntMax
        (s.chip.rxbusy = true → refused → s.applyMove (.rxOverflow n) = overflowed)
        ∧ (s.chip.rxbusy = false ∨ ¬ refused → s.applyMove (.rxOverflow n) = s))
    ∧ (∀ (writes : List (Nat × Byte)) (head : Option Word) (raise : Nat),
        let allowed := s.chip.rxbusy = true ∧ (∀ w ∈ writes, s.ChipOwned w.1)
          ∧ (∀ h, head = some h → h.toNat % 2 = 0 ∧ s.ChipOwned h.toNat) ∧ s.chip.pktcnt + raise ≤ s.cfg.pktcntMax
        (¬ allowed → s.applyMove (.rxEndCorrupt writes head raise) = s)
        ∧ (allowed → s.mem.wf → ∃ mem : Memory,
            s.applyMove (.rxEndCorrupt writes head raise) = { s with
              mem := mem
              chip := { s.chip with
                rxhead := head.getD s.chip.rxhead, pktcnt := s.chip.pktcnt + raise, rxbusy := false } }
            ∧ (∀ a, a ∉ writes.map (·.1) → mem.read a = s.mem.read a)
            ∧ ∀ before a b after, writes = before ++ (a, b) :: after → a ∉ after.map (·.1) → mem.read a = b))
    ∧ (∀ a, s.ChipOwned a ↔ ∃ i : Nat, i < s.ringFree ∧ a = ringAddr s.cfg.toParams (s.chip.rxhead.toNat + i))
    ∧ (let past := ringAddr s.cfg.toParams ((s.chip.rxtail.toNat : Int) + 2)
      (s.chip.rxhead.toNat = past → s.ringFree = if s.chip.pktcnt = 0 then s.cfg.ringSize else 0)
      ∧ (InRing s.cfg.toParams s.chip.rxhead.toNat → s.chip.rxhead.toNat ≠ past →
          0 < s.ringFree ∧ s.ringFree < s.cfg.ringSize
            ∧ ringAddr s.cfg.toParams (s.chip.rxhead.toNat + s.ringFree) = past))
    ∧ (s.chip.txrts = true → ∀ both,
        (∃ bytes : List Byte,
          s.applyMove (.txComplete both) = { s with
            trace := .wire bytes :: s.trace
            freeCount := s.freeCount + s.chip.txlen.toNat
            chip := { s.chip with
              txrts := false, flags := { s.chip.flags with txdone := true, txabt := s.chip.flags.txabt || both } } }
          ∧ bytes.length = s.chip.txlen.toNat
          ∧ ∀ i < s.chip.txlen.toNat, s.chip.txst.toNat + i < s.cfg.memSize →
              bytes[i]? = some (s.mem.read (s.chip.txst.toNat + i)))
        ∧ s.applyMove (.txAbort both) = { s with chip := { s.chip with
            txrts := false, flags := { s.chip.flags with txabt := true, txdone := s.chip.flags.txdone || both } } })
    ∧ (s.chip.txrts = false → ∀ b, s.applyMove (.txComplete b) = s ∧ s.applyMove (.txAbort b) = s)
    ∧ (∀ dpx lnk, s.applyMove (.linkChange dpx lnk)
        = { s with chip := { s.chip with phydpx := dpx, phylnk := lnk, flags := { s.chip.flags with link := true } } })
    ∧ (∀ idle assert, s.applyMove (.flowControl idle assert)
        = { s with chip := { s.chip with
            fcidle := idle, fcassert := if s.chip.autofc then assert.getD s.chip.fcassert else s.chip.fcassert } })
    ∧ s.applyMove .timerTick = { s with now := s.now + 1 }

/-- R232, R70: a deposited packet lies in the ring as the table of R70 says, each offset taken modulo the ring: the next
offset and the length, 16 bits each in the chip's byte order, the header from offset 8 and the payload behind it; the
write pointer moves to the next offset, the counter rises by one, the receive is over, and memory outside the deposit
is as before.
R70 writes `le16`; the chip's byte order is the model's reading (assumption 30). -/
def Obligations.DepositLayout : Prop :=
  ∀ (s : State) (hdr payload : List Byte) (rest fcs : BitVec 32) (pad : Byte),
    s.mem.wf → s.chip.rxbusy = true → hdr.length = s.cfg.ethHdrSize →
    s.cfg.etherMin ≤ s.cfg.ethHdrSize + payload.length → s.cfg.ethHdrSize + payload.length ≤ s.cfg.etherMax →
    depositSize s.cfg.toParams payload.length ≤ s.ringFree → s.chip.pktcnt < s.cfg.pktcntMax →
    InRing s.cfg.toParams s.chip.rxhead.toNat →
    let t := s.applyMove (.rxEnd hdr payload rest fcs pad)
    let p := s.chip.rxhead.toNat
    let next := BitVec.ofNat 16 (ringAddr s.cfg.toParams (p + depositSize s.cfg.toParams payload.length))
    t.ringBytes p 2 = chipBytes s.cfg.toParams next
    ∧ t.ringBytes (p + 2) 2 = chipBytes s.cfg.toParams (BitVec.ofNat 16 (payload.length + crcLen))
    ∧ t.ringBytes (p + rbhSize) s.cfg.ethHdrSize = hdr
    ∧ t.ringBytes (p + rbhSize + s.cfg.ethHdrSize) payload.length = payload
    ∧ t.chip = { s.chip with rxhead := next, pktcnt := s.chip.pktcnt + 1, rxbusy := false }
    ∧ ∀ a, (∀ i < depositSize s.cfg.toParams payload.length, a ≠ ringAddr s.cfg.toParams (p + i)) →
        t.mem.read a = s.mem.read a

/-! ### Reset and discovery (spec/10_state.md, spec/70_reset_and_hazards.md) -/

/-- R52, R53: the state after reset, for every configuration and every value of the free inputs of the launch. -/
def Obligations.ResetValues : Prop :=
  ∀ (cfg : Config) (v : Launch),
    let s := State.launch cfg v
    s.ctx.probed = false ∧ s.ctx.resetCounter = 0 ∧ (∀ k : Fin 64, s.ctx.multicastRefcount[k] = 0)
    ∧ s.ctx.addrKnown = false ∧ s.seq = [] ∧ s.ipl = .low ∧ s.context = none ∧ s.sendq = []
    ∧ s.packetsIn = 0 ∧ s.packetsOut = 0 ∧ s.errorsIn = 0 ∧ s.errorsOut = 0
    ∧ s.wdState = .healthy ∧ s.pendingClear = none ∧ s.initialized = false ∧ s.adminUp = false
    ∧ (∀ b ∈ [BitName.ctlRxen, .ctlTxrts, .ienLink, .ienTxdone, .ienTxabt, .ienRxabt, .ienPkt, .ienGlobal,
          .iflagLink, .iflagTxdone, .iflagTxabt, .iflagRxabt, .iflagPkt, .statRxbusy, .fcAutofc, .fcFcassert],
        s.chip.bit b = false)
    ∧ s.chip.bit .statFcidle = true ∧ s.chip.pktcnt = 0 ∧ s.chip.irq = false
    ∧ (∀ r ∈ [Reg.ht0, .ht1, .ht2, .ht3], s.chip.field r = 0)
    ∧ (s.ctx.rxReadPointer, s.ctx.lastResetTime, s.ctx.linkAddress, s.now, s.mem)
        = (v.rxReadPointer, v.lastResetTime, v.linkAddress, v.now, v.mem)
    ∧ (s.chip.phydpx, s.chip.phylnk, s.chip.fuldpx, s.chip.ipg) = (v.phydpx, v.phylnk, v.fuldpx, v.ipg)
    ∧ [s.chip.rxst, s.chip.rxtail, s.chip.rxhead, s.chip.txst, s.chip.txlen, s.chip.maadr0, s.chip.maadr1, s.chip.maadr2]
        = [v.rxst, v.rxtail, v.rxhead, v.txst, v.txlen, v.maadr0, v.maadr1, v.maadr2]

/-- R280, R284: reset of an idle block gives the reset state again, a `Disabled` block included; packets still queued are
released; while an operation runs there is no reset.
The order in which queued packets are released is the model's choice (assumption 25). -/
def Obligations.ResetMove : Prop :=
  ∀ (s : State) (v : Launch),
    (s.seq ≠ [] → s.applyMove (.reset v) = s)
    ∧ (s.seq = [] →
        let t := s.applyMove (.reset v)
        let l := State.launch s.cfg { v with mem := Memory.ofPairs s.cfg.memSize v.mem }
        t.ctx = l.ctx ∧ t.chip = l.chip ∧ t.mem = l.mem ∧ t.sendq = [] ∧ t.wdState = .healthy ∧ t.pendingClear = none
        ∧ t.initialized = false ∧ t.adminUp = false ∧ t.seq = [] ∧ t.ipl = .low ∧ t.context = none ∧ t.now = v.now
        ∧ (t.packetsIn, t.packetsOut, t.errorsIn, t.errorsOut) = (0, 0, 0, 0)
        ∧ t.trace = (s.sendq.map TraceEvent.release).reverse ++ s.trace)

/-- R281: discovery of a card not yet probed, with its three outcomes.
That a card already probed is not discovered again is the model's reading (assumption 24). -/
def Obligations.DeviceDiscovery : Prop :=
  ∀ s : State, s.seq = [] → s.ctx.probed = false →
    s.applyMove (.discover .success)
      = { s with ctx := { s.ctx with
            probed := true
            addrKnown := true
            linkAddress := ⟨s.chip.maadr0.setWidth 8, (s.chip.maadr0 >>> 8).setWidth 8, s.chip.maadr1.setWidth 8,
              (s.chip.maadr1 >>> 8).setWidth 8, s.chip.maadr2.setWidth 8, (s.chip.maadr2 >>> 8).setWidth 8⟩ } }
    ∧ s.applyMove (.discover .failure) = s
    ∧ s.applyMove (.discover .addressUnknown) = { s with ctx := { s.ctx with probed := true } }

/-- R282: after reset nothing executes: with nothing presented and nothing lined up, a step changes nothing. -/
def Obligations.NothingExecutesAfterReset : Prop :=
  ∀ (cfg : Config) (v : Launch), step (State.launch cfg v) = .next (State.launch cfg v)

/-! ### Exceptions (spec/60_exceptions.md) -/

/-- R250, R262: `raise` records the exception and moves the one counter that R262 gives it; control stays where it is. -/
def Obligations.RaiseCounts : Prop :=
  ∀ (x : Exn) (info : Info) (s : State),
    s.raise x info = { s with
      trace := .raised x info :: s.trace
      errorsIn := s.errorsIn + (if x ∈ [.ringPointerInvalid, .nextOffsetInvalid, .frameLengthInvalid, .allocFail]
        then 1 else 0)
      errorsOut := s.errorsOut + (if x ∈ [.sendQueueFull, .txTooLong] then 1 else 0) }

/-- R250, R261, R281, R214, R222: while the card is not probed every command is refused with `NotProbed` and changes
nothing; a packet that the command hands over is released. On a probed card `TRANSMIT` before bring-up is refused with
`NotInitialized`, and its packet released.
That every command is refused and that this guard stands before that of `TRANSMIT` (assumption 15), and the release of the
packet (assumption 41), are the model's reading. -/
def Obligations.NotProbedRefused : Prop :=
  (∀ s : State, s.seq = [] → s.ctx.probed = false →
    (∀ i : Instr, i ≠ .initialise → exec i s = .next { s with
        result := some (.err .notProbed)
        trace := .raised .notProbed .none
          :: ((i.packetBytes.map (fun bytes => TraceEvent.release (flatPacket bytes))).toList ++ s.trace) })
    ∧ Completes (exec .initialise s) s (s.answered (.err .notProbed)) [.raised .notProbed .none])
  ∧ ∀ (s : State) (framed : Bool) (ptype : Word) (dest : BitVec 32) (bytes : List Byte), s.Ready →
      s.initialized = false →
      Completes (exec (.transmit framed ptype dest bytes) s) s (s.answered (.err .notInitialized))
        [.raised .notInitialized .none, .release (flatPacket bytes)]

/-! ### RegisterInterface (spec/40_register_interface.md) -/

/-- R110, R67: `REG_READ` returns the register, each named bit and each whole field in its place, and changes nothing.
Bits that no rule names are a free value of the model (assumption 4); where `STAT.PKTCNT` lies is the model's choice
(assumption 6). -/
def Obligations.RegReadResult : Prop :=
  ∀ (s : State) (r : Reg), s.Ready →
    ∃ w, exec (.regRead r) s
        = .next { s.answered (.word w) with trace := .regRead r :: s.trace, freeCount := s.freeCount + 1 }
      ∧ (r.wholeField = true → w = s.chip.field r)
      ∧ (∀ b ∈ r.bits, w.getLsbD (s.cfg.regmap.index b) = s.chip.bit b)
      ∧ (r = .stat → ∀ i < s.cfg.regmap.statPktcntWidth,
          w.getLsbD (s.cfg.regmap.statPktcntLow + i) = s.chip.pktcnt.testBit i)

/-- R111, R67, R35: `REG_WRITE` gives each writable bit and field of the register its value, acts on `CTL.PKTDEC`, sets
`RXHEAD` with `RXST`, and leaves everything else as it was, the read-only bits of the register included.
That `RXHEAD` and `MAADR0..2` are not written is the model's reading (assumption 10). -/
def Obligations.RegWriteResult : Prop :=
  ∀ (s : State) (r : Reg) (v : Word), s.Ready →
    ∃ c, exec (.regWrite r v) s = .next { s.answered .unit with chip := c, trace := .regWrite r v :: s.trace }
      ∧ (r.stored = true → c.field r = v)
      ∧ (∀ b ∈ r.bits, b.stored = true → c.bit b = v.getLsbD (s.cfg.regmap.index b))
      ∧ c.pktcnt = s.chip.pktcnt - (if r = .ctl ∧ v.getLsbD (s.cfg.regmap.index .ctlPktdec) = true then 1 else 0)
      ∧ c.rxhead = (if r = .rxst then v else s.chip.rxhead)
      ∧ (∀ q, q ≠ .rxhead → q ≠ r ∨ r.stored = false → c.field q = s.chip.field q)
      ∧ (∀ b, b ≠ .iflagPkt → b ∉ r.bits ∨ b.stored = false → c.bit b = s.chip.bit b)

/-- R112, R66: `REG_SET_BITS` sets the writable bits under the mask, acts on `CTL.PKTDEC` whatever it reads, and leaves
everything else as it was.
That setting bits of `RXST` does not move `RXHEAD`, and that `RXHEAD` and `MAADR0..2` are not set, is the model's reading
(assumptions 11, 10). -/
def Obligations.RegSetBitsResult : Prop :=
  ∀ (s : State) (r : Reg) (mask : Word), s.Ready →
    ∃ c, exec (.regSetBits r mask) s = .next { s.answered .unit with chip := c, trace := .regSet r mask :: s.trace }
      ∧ (r.stored = true → c.field r = s.chip.field r ||| mask)
      ∧ (∀ b ∈ r.bits, b.stored = true → c.bit b = (s.chip.bit b || mask.getLsbD (s.cfg.regmap.index b)))
      ∧ c.pktcnt = s.chip.pktcnt - (if r = .ctl ∧ mask.getLsbD (s.cfg.regmap.index .ctlPktdec) = true then 1 else 0)
      ∧ c.rxhead = s.chip.rxhead
      ∧ (∀ q, q ≠ r ∨ r.stored = false → c.field q = s.chip.field q)
      ∧ (∀ b, b ≠ .iflagPkt → b ∉ r.bits ∨ b.stored = false → c.bit b = s.chip.bit b)

/-- R113: `REG_CLEAR_BITS` clears the writable bits under the mask, acts on nothing, and leaves everything else as it was;
`IFLAG.PKT` and the packet counter stay.
That `RXHEAD` and `MAADR0..2` are not cleared, and that clearing bits of `RXST` leaves `RXHEAD`, is the model's reading
(assumptions 10, 11). -/
def Obligations.RegClearBitsResult : Prop :=
  ∀ (s : State) (r : Reg) (mask : Word), s.Ready →
    ∃ c, exec (.regClearBits r mask) s = .next { s.answered .unit with chip := c, trace := .regClear r mask :: s.trace }
      ∧ (r.stored = true → c.field r = s.chip.field r &&& ~~~ mask)
      ∧ (∀ b ∈ r.bits, b.stored = true → c.bit b = (s.chip.bit b && !mask.getLsbD (s.cfg.regmap.index b)))
      ∧ c.pktcnt = s.chip.pktcnt
      ∧ (∀ q, q ≠ r ∨ r.stored = false → c.field q = s.chip.field q)
      ∧ (∀ b, b ∉ r.bits ∨ b.stored = false → c.bit b = s.chip.bit b)

/-! ### RingBufferReader (spec/41_ring_buffer_reader.md) -/

/-- R120, R122: `READ_BYTES` returns the bytes from the read pointer on, modulo the ring, moves the pointer by the length
modulo the ring, and changes nothing else; with one wrap the pointer is the source's closed form. -/
def Obligations.ReadBytesResult : Prop :=
  ∀ (s : State) (n : Word), s.Ready → InRing s.cfg.toParams s.pointer →
    Completes (exec (.readBytes n) s) s
      ((s.answered (.bytes (s.ringBytes s.pointer n.toNat))).setReadPointer
        (ringAddr s.cfg.toParams (s.pointer + n.toNat))) []
    ∧ (s.cfg.rxEnd ≤ s.pointer + n.toNat → s.pointer + n.toNat < s.cfg.rxEnd + s.cfg.toParams.ringSize →
        ringAddr s.cfg.toParams (s.pointer + n.toNat) = s.cfg.rxStart + (s.pointer + n.toNat - s.cfg.rxEnd))

/-- R123: reading `a` bytes and then `b` bytes gives the bytes and leaves the pointer of reading `a + b` bytes. -/
def Obligations.ReadBytesSplits : Prop :=
  ∀ (s : State) (a b c : Word), s.Ready → InRing s.cfg.toParams s.pointer → a.toNat + b.toNat = c.toNat →
    ∃ t u w first second,
      exec (.readBytes a) s = .next t ∧ t.result = some (.bytes first)
      ∧ exec (.readBytes b) t = .next u ∧ u.result = some (.bytes second)
      ∧ exec (.readBytes c) s = .next w ∧ w.result = some (.bytes (first ++ second))
      ∧ w.ctx.rxReadPointer = u.ctx.rxReadPointer

/-- R121, U1: with the read pointer outside the ring `READ_BYTES` is not executed, and no state changes but the result
that says so.
The form of the refusal is the model's choice (assumption 16). -/
def Obligations.ReadBytesOutsideRing : Prop :=
  ∀ (s : State) (n : Word), s.Ready → ¬ InRing s.cfg.toParams s.pointer →
    exec (.readBytes n) s = .next { s with result := some .refusedOutsideRing }

/-! ### ErrorRecoveryWatchdog (spec/45_error_recovery_watchdog.md) -/

/-- R180, R187: `RECOVER` below the threshold and with no receive in flight: the counter goes up, the packet-available
conditions are discarded, ring registers and read pointer are at the ring's initial state, the callback is scheduled,
reception is on again, and nothing else has changed. -/
def Obligations.RecoverResult : Prop :=
  ∀ s : State, s.Ready → s.ctx.resetCounter < s.cfg.maxResets → s.chip.rxbusy = false → s.cfg.spinLimit ≠ some 0 →
    Completes (exec .recover s) s (s.answered .unit).recovered []

/-- R181, R256: `RECOVER` whose count exceeds `MAX_RESETS` disables: the exception is recorded, reception stays off, no
callback is scheduled, and neither the ring registers, the read pointer nor the packet counter are touched. -/
def Obligations.RecoverDisables : Prop :=
  ∀ s : State, s.Ready → s.cfg.maxResets ≤ s.ctx.resetCounter →
    Completes (exec .recover s) s (s.answered .unit).disabledByRecover
      [.raised .resetThresholdExceeded (.number (s.ctx.resetCounter + 1))]

/-- R260, R292: a `SPIN_LIMIT` that runs out: `RECONCILE` ends with nothing written; `RECOVER` leaves reception off and the
block `Disabled` for good, the counter beyond the threshold, the ring untouched. Inside a caller the wait ends the same
way and the caller goes on: `RECEIVE_ONE` returns no packet, `DISPATCH` clears the link flag or ends its loop, `INITIALIZE`
and `SET_FLAGS` bring the block up without the duplex settings.
A limit of 0 faults without a poll (assumption 32), and callers go on (assumption 18): the model's reading. -/
def Obligations.BusyWaitsFault : Prop :=
  ∀ (s : State) (k : Nat), s.Ready → s.cfg.spinLimit = some k →
    let p := s.cfg.toParams
    let faulted : State → State := fun t => { t.disabledByRecover with
      ctx := { t.ctx with resetCounter := s.cfg.maxResets + 1, lastResetTime := s.now } }
    let past := s.setReadPointer (ringAddr p (s.pointer + rbhSize))
    let linkFault := TraceEvent.raised .hardwareFault (.flag .statFcidle)
    let busyFault := TraceEvent.raised .hardwareFault (.flag .statRxbusy)
    ((s.chip.fcidle = false ∨ k = 0) →
      Completes (exec .reconcile s) s (s.answered .unit) [linkFault]
      ∧ (s.chip.flags = ⟨true, false, false, false⟩ → s.chip.pktcnt = 0 →
          Completes (exec .dispatch s) s { s.answered .unit with
            chip := { s.chip with flags := ⟨false, false, false, false⟩ } } [linkFault])
      ∧ (s.ctx.addrKnown = true → s.initialized = false →
          (∃ t : State, Completes (exec .initialise s) s (t.answered .ok) [linkFault]
            ∧ t.initialized = true ∧ t.chip.rxen = true ∧ t.chip.enables = ⟨true, true, true, true, true, true⟩
            ∧ (t.chip.fuldpx, t.chip.ipg, t.chip.autofc, t.chip.fcassert)
                = (s.chip.fuldpx, s.chip.ipg, s.chip.autofc, s.chip.fcassert))
          ∧ ∃ t : State, Completes (exec .initialise { s with adminUp := true }) s (t.answered .ok) [linkFault]
            ∧ Completes (exec (.setFlags true) s) s (t.answered .unit) [linkFault]))
    ∧ ((s.chip.rxbusy = true ∨ k = 0) → s.ctx.resetCounter < s.cfg.maxResets →
      Completes (exec .recover s) s (faulted (s.answered .unit)) [busyFault]
      ∧ (¬ RingValid p s.pointer →
          Completes (exec .receiveOne s) s { faulted (s.answered (.packet none)) with errorsIn := s.errorsIn + 1 }
            [busyFault, .raised .ringPointerInvalid (.number s.pointer)])
      ∧ (RingValid p s.pointer → ¬ RingValid p s.header.1.toNat →
          Completes (exec .receiveOne s) s { faulted (past.answered (.packet none)) with errorsIn := s.errorsIn + 1 }
            [busyFault, .raised .nextOffsetInvalid (.number s.header.1.toNat)])
      ∧ (RingValid p s.pointer → RingValid p s.header.1.toNat →
          (s.frameLength + p.ethHdrSize < p.etherMin ∨ (p.etherMax : Int) < s.frameLength + p.ethHdrSize) →
          Completes (exec .receiveOne s) s { faulted (past.answered (.packet none)) with errorsIn := s.errorsIn + 1 }
            [busyFault, .raised .frameLengthInvalid (.number s.header.2.toNat)])
      ∧ (¬ RingValid p s.pointer → s.chip.flags = ⟨false, false, false, false⟩ → s.chip.pktcnt = 1 →
          Completes (exec .dispatch s) s { faulted (s.answered .unit) with
              errorsIn := s.errorsIn + 1, chip := { s.chip with rxen := false, pktcnt := 0 } }
            [busyFault, .raised .ringPointerInvalid (.number s.pointer)]))

/-- R292, U4: with no `SPIN_LIMIT`, a busy-wait whose bit does not read as wanted is a hold: the command keeps its frames,
`ipl` stays `device`, steps change nothing but the trace of polls while no other agent moves, and no command starts. So it
is inside `RECEIVE_ONE`, `DISPATCH` (as a command, and in interrupt context), `INITIALIZE` and `SET_FLAGS`, each at the
step that made the call. Once the bit reads as wanted, the next step goes on behind the wait, up to the end of the outermost
caller (R98), and a command or an activation ends as ever: `RECOVER` and the `RECEIVE_ONE` behind it; the packet loop of
`DISPATCH`, which the drain of that recovery has left nothing; `RECONCILE`; the rest of `INITIALIZE`, and of `SET_FLAGS`;
and steps 1 to 4 of `DISPATCH` on the snapshot taken before the wait: flags that came up meanwhile stay, what the snapshot
has is counted and cleared, with one `KICK` behind the transmit flags. With packets in the snapshot the loop runs until the
counter is 0; with the flags as in the snapshot the rest is what a `DISPATCH` does then.
A hold is a next state in the model (assumption 14); step 0 in the frame of `SET_FLAGS` is the model's number
(assumption 44). -/
def Obligations.BusyWaitsHold : Prop :=
  ∀ s : State, s.Ready → s.cfg.spinLimit = none →
    let p := s.cfg.toParams
    let past := s.setReadPointer (ringAddr p (s.pointer + rbhSize))
    let held : State → List Frame → State := fun t q =>
      { t with seq := q, ipl := .device, savedIpl := s.ipl, context := some .request, result := none }
    let interrupted : State → List Frame → State := fun t q =>
      { t with seq := q, ipl := .device, context := some .interrupt }
    let inRecover : Frame := ⟨.recover, 5, none⟩
    let inReconcile : Frame := ⟨.reconcile, 1, none⟩
    (s.chip.rxbusy = true → s.ctx.resetCounter < s.cfg.maxResets →
      Completes (exec .recover s) s (held s.recovering [inRecover]) []
      ∧ (¬ RingValid p s.pointer →
          Completes (exec .receiveOne s) s
            (held { s.recovering with errorsIn := s.errorsIn + 1 } [inRecover, ⟨.receiveOne, 1, none⟩])
            [.raised .ringPointerInvalid (.number s.pointer)])
      ∧ (RingValid p s.pointer → ¬ RingValid p s.header.1.toNat →
          Completes (exec .receiveOne s) s
            (held { past.recovering with errorsIn := s.errorsIn + 1 } [inRecover, ⟨.receiveOne, 3, none⟩])
            [.raised .nextOffsetInvalid (.number s.header.1.toNat)])
      ∧ (RingValid p s.pointer → RingValid p s.header.1.toNat →
          (s.frameLength + p.ethHdrSize < p.etherMin ∨ (p.etherMax : Int) < s.frameLength + p.ethHdrSize) →
          Completes (exec .receiveOne s) s
            (held { past.recovering with errorsIn := s.errorsIn + 1 } [inRecover, ⟨.receiveOne, 4, none⟩])
            [.raised .frameLengthInvalid (.number s.header.2.toNat)])
      ∧ (¬ RingValid p s.pointer → s.chip.flags = ⟨false, false, false, false⟩ → 0 < s.chip.pktcnt →
          Completes (exec .dispatch s) s
            (held { s.recovering with
                errorsIn := s.errorsIn + 1, chip := { s.chip with rxen := false, pktcnt := s.chip.pktcnt - 1 } }
              [inRecover, ⟨.receiveOne, 1, none⟩, ⟨.dispatch, 4, some s.chip.iflags⟩])
            [.raised .ringPointerInvalid (.number s.pointer)]
          ∧ (s.chip.irq = true → s.ipl = .low →
            Completes (step s) s
              (interrupted { s.recovering with
                  errorsIn := s.errorsIn + 1, chip := { s.chip with rxen := false, pktcnt := s.chip.pktcnt - 1 } }
                [inRecover, ⟨.receiveOne, 1, none⟩, ⟨.dispatch, 4, some s.chip.iflags⟩])
              [.raised .ringPointerInvalid (.number s.pointer)])))
    ∧ (s.chip.fcidle = false →
      Completes (exec .reconcile s) s (held s [inReconcile]) []
      ∧ (s.chip.flags.link = true →
          Completes (exec .dispatch s) s (held s [inReconcile, ⟨.dispatch, 1, some s.chip.iflags⟩]) []
          ∧ (s.chip.irq = true → s.ipl = .low →
              Completes (step s) s (interrupted s [inReconcile, ⟨.dispatch, 1, some s.chip.iflags⟩]) []))
      ∧ (s.ctx.addrKnown = true → s.initialized = false →
          (∃ t : State, Completes (exec .initialise s) s (held t [inReconcile, ⟨.initialise, 4, none⟩]) []
            ∧ t.initialized = false ∧ t.chip.rxen = false ∧ t.chip.enables = s.chip.enables
            ∧ (t.chip.fuldpx, t.chip.ipg, t.chip.autofc, t.chip.fcassert)
                = (s.chip.fuldpx, s.chip.ipg, s.chip.autofc, s.chip.fcassert))
          ∧ ∃ t : State, Completes (exec .initialise { s with adminUp := true }) s
                (held t [inReconcile, ⟨.initialise, 4, none⟩]) []
            ∧ Completes (exec (.setFlags true) s) s
                (held t [inReconcile, ⟨.initialise, 4, none⟩, ⟨.setFlags, 0, none⟩]) []))
    ∧ (∀ (t : State) (callers : List Frame), t.cfg = s.cfg → t.Still →
        (t.seq = inRecover :: callers ∧ t.chip.rxbusy = true ∨ t.seq = inReconcile :: callers ∧ t.chip.fcidle = false) →
        Completes (step t) t t [])
    ∧ ∀ (t : State) (c : Context), t.cfg = s.cfg → t.Still → t.ctx.probed = true → t.context = some c →
        let idle : State → State := fun u => { u with seq := [], ipl := t.savedIpl, context := none }
        let ended : State → Result → State := fun u r => { u with
          seq := []
          ipl := if c = .interrupt then .low else t.savedIpl
          savedIpl := t.savedIpl
          context := none
          result := if c = .interrupt then t.result else some r }
        (t.chip.rxbusy = false →
          (c = .request → t.seq = [inRecover] → Completes (step t) t (ended t.recoveredFromWait .unit) [])
          ∧ ∀ n ∈ [1, 3, 4],
            (c = .request → t.seq = [inRecover, ⟨.receiveOne, n, none⟩] →
              Completes (step t) t (ended t.recoveredFromWait (.packet none)) [])
            ∧ ∀ f, t.seq = [inRecover, ⟨.receiveOne, n, none⟩, ⟨.dispatch, 4, some f⟩] →
                Completes (step t) t (ended t.recoveredFromWait .unit) [])
        ∧ (t.chip.fcidle = true →
          (c = .request → t.seq = [inReconcile] → Completes (step t) t (ended { t with chip := t.duplexSettings } .unit) [])
          ∧ (c = .request →
            let broughtUp := { t with
              initialized := true
              chip := { t.duplexSettings with enables := ⟨true, true, true, true, true, true⟩, rxen := true } }
            (t.seq = [inReconcile, ⟨.initialise, 4, none⟩] → Completes (step t) t (ended broughtUp .ok) [])
            ∧ (t.seq = [inReconcile, ⟨.initialise, 4, none⟩, ⟨.setFlags, 0, none⟩] →
                Completes (step t) t (ended broughtUp .unit) []))
          ∧ ∀ f : IFlags, t.seq = [inReconcile, ⟨.dispatch, 1, some f⟩] →
            let now := t.chip.flags
            let transmits := { t with
              packetsOut := t.packetsOut + (if f.txdone then 1 else 0)
              errorsOut := t.errorsOut + (if f.txabt then 1 else 0)
              chip := { t.duplexSettings with
                flags := ⟨false, now.txdone && !f.txdone, now.txabt && !f.txabt, now.rxabt⟩ } }
            let overflows : State → State := fun u => { u with
              errorsIn := u.errorsIn + (if f.rxabt then 1 else 0)
              chip := { u.chip with flags := { u.chip.flags with rxabt := now.rxabt && !f.rxabt } } }
            let kicks := (f.txdone || f.txabt) = true ∧ t.sendq ≠ []
            (f.pkt = false → kicks → ∃ (u : State) (out : List TraceEvent),
              Completes (exec .kick (idle transmits)) (idle transmits) (u.answered .unit) out
              ∧ Completes (step t) t (ended (overflows u) .unit) out)
            ∧ (f.pkt = false → ¬ kicks → Completes (step t) t (ended (overflows transmits) .unit) [])
            ∧ (t.chip.rxbusy = false → f.pkt = true → ∃ u, step t = .next u
                ∧ u.seq = [] ∧ u.context = none ∧ u.ipl = (ended t .unit).ipl ∧ u.result = (ended t .unit).result
                ∧ u.chip.pktcnt = 0
                ∧ u.chip.flags = ⟨false, now.txdone && !f.txdone, now.txabt && !f.txabt, now.rxabt && !f.rxabt⟩
                ∧ u.packetsOut = transmits.packetsOut
                ∧ t.packetsIn ≤ u.packetsIn ∧ u.packetsIn ≤ t.packetsIn + t.chip.pktcnt)
            ∧ (t.chip.rxbusy = false → t.chip.iflags = f →
              let linked := idle { t with chip := { t.duplexSettings with flags := { now with link := false } } }
              ∃ (u : State) (out : List TraceEvent),
                Completes (exec .dispatch linked) linked (u.answered .unit) out
                ∧ Completes (step t) t (ended u .unit) out))

/-! ### RxEngine (spec/42_rx_engine.md) -/

/-- R131, R136, R138, R139: with a valid header and every allocation granted, `RECEIVE_ONE` returns the packet whose first
chunk is small, holds the Ethernet header behind the tag room, and whose other chunks hold the payload, each of the
class and the length that the bytes still to copy ask for; the frame is what the ring holds; ring space is released to
`next_offset`; nothing else changes but the answers used.
The allocator's answers are an input list (assumption 31), the header is in chip byte order (assumption 30). -/
def Obligations.ReceiveOneResult : Prop :=
  ∀ s : State, s.Ready → s.HeaderValid → (∀ i ≤ s.frameLength.toNat, s.allocAnswers[i]? = some true) →
    ∃ rest : List Chunk,
      let hdr := s.ringBytes (s.pointer + rbhSize) s.cfg.ethHdrSize
      let pkt := ⟨.small, s.cfg.tagSize, hdr⟩ :: rest
      Completes (exec .receiveOne s) s
        { (s.answered (.packet (some pkt))).releasedTo s.header.1.toNat with
          allocAnswers := s.allocAnswers.drop pkt.length } []
      ∧ frameOf rest = s.ringBytes (s.pointer + rbhSize + s.cfg.ethHdrSize) s.frameLength.toNat
      ∧ ∀ k c, rest[k]? = some c →
          let remaining := (frameOf (rest.drop k)).length
          c.tagRoom = 0 ∧ c.cls = chunkClassFor s.cfg.toParams remaining
          ∧ c.data.length = min remaining (chunkCapacity s.cfg.toParams c.cls)

/-- R139, R140, R254, R291: once the header is valid, whatever the allocator answers, `RECEIVE_ONE` releases the ring space
from `next_offset`. With every request granted the packet is the one that the header asks for; the first request refused
ends it, whichever it is: no packet, the drop counted in `errors_in` and recorded as `AllocFail`, exactly the chunks
granted before given back, and no recovery.
The allocator's answers are an input list, and free values behind it (assumption 31); the header is in chip byte order
(assumption 30). -/
def Obligations.ReceiveOneReleasesRing : Prop :=
  ∀ s : State, s.Ready → s.HeaderValid →
    ∃ pkt : Packet, s.AsksFor pkt ∧
      let ends : Nat → Option Packet → Nat → List TraceEvent → Prop := fun requests result errors out =>
        Completes (exec .receiveOne s) s
          { (s.answered (.packet result)).releasedTo s.header.1.toNat with
            allocAnswers := s.allocAnswers.drop requests
            freeCount := s.freeCount + (requests - s.allocAnswers.length)
            errorsIn := s.errorsIn + errors } out
      ((∀ i < pkt.length, s.grant i = true) → ends pkt.length (some pkt) 0 [])
      ∧ ∀ k < pkt.length, (∀ i < k, s.grant i = true) → s.grant k = false →
          ends (k + 1) none 1 (.raised .allocFail .none :: (if k = 0 then [] else [.release (pkt.take k)]))

/-- R251 to R253, R134: the failing checks, in their order: an invalid read pointer; else an invalid next offset; else a
length out of bounds. Each is recorded with its value and counted, no packet is returned, and the block goes through
`RECOVER`; the pointer has moved past the header by then in the last two.
The header is in chip byte order (assumption 30). -/
def Obligations.ReceiveOneInvalid : Prop :=
  ∀ s : State, s.Ready → s.chip.rxbusy = false → s.cfg.spinLimit ≠ some 0 →
    let p := s.cfg.toParams
    let past := s.setReadPointer (ringAddr p (s.pointer + rbhSize))
    let bad : State → Exn → Nat → Prop := fun at_ x info =>
      (s.ctx.resetCounter < s.cfg.maxResets →
        Completes (exec .receiveOne s) s
          { (at_.answered (.packet none)).recovered with errorsIn := s.errorsIn + 1 } [.raised x (.number info)])
      ∧ (s.cfg.maxResets ≤ s.ctx.resetCounter →
        Completes (exec .receiveOne s) s
          { (at_.answered (.packet none)).disabledByRecover with errorsIn := s.errorsIn + 1 }
          [.raised .resetThresholdExceeded (.number (s.ctx.resetCounter + 1)), .raised x (.number info)])
    (¬ RingValid p s.pointer → bad s .ringPointerInvalid s.pointer)
    ∧ (RingValid p s.pointer → ¬ RingValid p s.header.1.toNat → bad past .nextOffsetInvalid s.header.1.toNat)
    ∧ (RingValid p s.pointer → RingValid p s.header.1.toNat →
        (s.frameLength + p.ethHdrSize < p.etherMin ∨ (p.etherMax : Int) < s.frameLength + p.ethHdrSize) →
        bad past .frameLengthInvalid s.header.2.toNat)

/-! ### TxEngine (spec/43_tx_engine.md) -/

/-- R151, R71, R294: with no transmit in flight and a sendable packet at the head, `KICK` takes that one packet, stores its
frame at the transmit origin, gives the packet back, writes the length and then sets the request bit, in this order;
every byte outside the frame's stays, and nothing else changes. -/
def Obligations.KickSends : Prop :=
  ∀ (s : State) (pkt : Packet) (queue : List Packet), s.Ready → s.mem.wf → s.chip.txrts = false →
    s.sendq = pkt :: queue → 0 < (frameOf pkt).length → (frameOf pkt).length ≤ s.cfg.txCapacity →
    ∃ mem : Memory,
      exec .kick s = .next { s.answered .unit with
        sendq := queue
        mem := mem
        chip := { s.chip with txlen := BitVec.ofNat 16 (frameOf pkt).length, txrts := true }
        trace := [.regSet .ctl (BitVec.twoPow 16 s.cfg.regmap.ctlTxrts),
          .regWrite .txlen (BitVec.ofNat 16 (frameOf pkt).length), .release pkt, .memWrite s.cfg.txStart (frameOf pkt),
          .regRead .ctl] ++ s.trace }
      ∧ (∀ i < (frameOf pkt).length, some (mem.read (s.cfg.txStart + i)) = (frameOf pkt)[i]?)
      ∧ ∀ a, a < s.cfg.txStart ∨ s.cfg.txStart + (frameOf pkt).length ≤ a → mem.read a = s.mem.read a

/-- R151 steps 1 and 2, R152, R258: with a transmit in flight, or nothing queued, `KICK` changes nothing; a frame of no
bytes or of more than the transmit region holds is dropped, released, recorded and counted, and nothing is sent. -/
def Obligations.KickSendsNothing : Prop :=
  ∀ s : State, s.Ready →
    (s.chip.txrts = true ∨ s.sendq = [] →
      exec .kick s = .next { s.answered .unit with trace := .regRead .ctl :: s.trace })
    ∧ (∀ pkt queue, s.chip.txrts = false → s.sendq = pkt :: queue →
        ((frameOf pkt).length = 0 ∨ s.cfg.txCapacity < (frameOf pkt).length) →
        Completes (exec .kick s) s { s.answered .unit with sendq := queue, errorsOut := s.errorsOut + 1 }
          [.raised .txTooLong (.number (frameOf pkt).length), .release pkt])

/-- R150, R255: `ENQUEUE_AND_KICK` appends the packet to a queue with room and answers `Ok`, or releases, records and counts
the new packet and answers `SendQueueFull`; in both cases the rest is exactly what a `KICK` does then.
A command's packet is one flat chunk (assumption 9); a queue beyond its limit counts as full (assumption 22). -/
def Obligations.EnqueueAndKickResult : Prop :=
  ∀ (s : State) (bytes : List Byte), s.Ready →
    ∃ (out : List TraceEvent) (t : State),
      (s.sendq.length < s.cfg.sendqMax →
        Completes (exec .kick { s with sendq := s.sendq ++ [flatPacket bytes] }) s (t.answered .unit) out
        ∧ Completes (exec (.enqueueAndKick bytes) s) s (t.answered .ok) out)
      ∧ (s.cfg.sendqMax ≤ s.sendq.length →
        Completes (exec .kick { s with errorsOut := s.errorsOut + 1 }) s (t.answered .unit) out
        ∧ Completes (exec (.enqueueAndKick bytes) s) s (t.answered (.err .sendQueueFull))
            (out ++ [.raised .sendQueueFull .none, .release (flatPacket bytes)]))

/-- R71, R236, R64: the frame that a `KICK` stored is, byte for byte, the frame the chip puts on the wire when it completes
that transmit.
The chip takes the frame from memory when it completes the transmit (assumption 19). -/
def Obligations.FrameReachesWire : Prop :=
  ∀ (s : State) (pkt : Packet) (queue : List Packet), s.Ready → s.mem.wf → s.chip.txrts = false →
    s.sendq = pkt :: queue → 0 < (frameOf pkt).length → (frameOf pkt).length ≤ s.cfg.txCapacity →
    s.chip.txst = BitVec.ofNat 16 s.cfg.txStart →
    ∃ t, exec .kick s = .next t
      ∧ outputs (t.applyMove (.txComplete false)).trace = .wire (frameOf pkt) :: .release pkt :: outputs s.trace

/-! ### MulticastFilter (spec/46_multicast_filter.md) -/

/-- R195, GK4: `HASH` returns bits 28 to 23 of the CRC of the six bytes and changes nothing. The CRC is that of the rule's
loop; the other convention of GK4 is the bit-reversal of its complement. The CRC of the nine digits is the check value,
and each of the seven addresses of GK4 has, under both conventions, the CRC and the bucket of its row.
The convention is a configuration field (assumption 36). -/
def Obligations.HashResult : Prop :=
  (∀ (s : State) (a : MacAddr), s.Ready →
    ∃ k : Fin 64, exec (.hash a) s = .next (s.answered (.bucket k))
      ∧ k = hashOf s.cfg.crcVariant a
      ∧ k.val = (crcVariant s.cfg.crcVariant (macBytes a)).toNat / 2 ^ 23 % 64)
  ∧ (∀ bytes : List Byte,
      crcVariant .frameChecksum bytes
        = bytes.foldl (fun crc b => Nat.repeat
            (fun c => if c.getLsbD 0 then (c >>> 1) ^^^ 0xEDB88320 else c >>> 1) 8 (crc ^^^ b.setWidth 32)) 0xFFFFFFFF
          ^^^ 0xFFFFFFFF
      ∧ crcVariant .controllerHash bytes = (~~~ crcVariant .frameChecksum bytes).reverse)
  ∧ crcVariant .frameChecksum [0x31, 0x32, 0x33, 0x34, 0x35, 0x36, 0x37, 0x38, 0x39] = 0xCBF43926
  ∧ ∀ row ∈ ([
        (⟨0x00, 0x00, 0x00, 0x00, 0x00, 0x00⟩, 0xB1C2A1A3, 35, 0x3A7ABC72, 52),
        (⟨0xFF, 0xFF, 0xFF, 0xFF, 0xFF, 0xFF⟩, 0x41D9ED00, 3, 0xFF48647D, 62),
        (⟨0x01, 0x00, 0x5E, 0x00, 0x00, 0x01⟩, 0x264B3A01, 12, 0x7FA32D9B, 63),
        (⟨0x01, 0x00, 0x5E, 0x00, 0x00, 0xFB⟩, 0x7B232103, 54, 0x3F7B3B21, 62),
        (⟨0x33, 0x33, 0x00, 0x00, 0x00, 0x01⟩, 0xA2AA2660, 5, 0xF99BAABA, 51),
        (⟨0x01, 0x80, 0xC2, 0x00, 0x00, 0x00⟩, 0x173CE419, 46, 0x67D8C317, 15),
        (⟨0x09, 0x00, 0x07, 0xFF, 0xFF, 0xFF⟩, 0x0BA4EEC0, 23, 0xFC88DA2F, 57)]
          : List (MacAddr × BitVec 32 × Fin 64 × BitVec 32 × Fin 64)),
      let (a, crc, bucket, otherCrc, otherBucket) := row
      crcVariant .frameChecksum (macBytes a) = crc ∧ hashOf .frameChecksum a = bucket
        ∧ crcVariant .controllerHash (macBytes a) = otherCrc ∧ hashOf .controllerHash a = otherBucket

/-- R196, R197, R199: `SUBSCRIBE` adds one to the bucket's count, writes all four hash registers in order, each bit set
exactly where its bucket's count is positive, and changes nothing else. -/
def Obligations.SubscribeResult : Prop :=
  ∀ (s : State) (a : MacAddr), s.Ready →
    let k := hashOf s.cfg.crcVariant a
    ∃ c v, exec (.subscribe a) s = .next { s.answered .unit with
        ctx := { s.ctx with multicastRefcount := v }
        chip := { s.chip with ht0 := c.ht0, ht1 := c.ht1, ht2 := c.ht2, ht3 := c.ht3 }
        trace := [.regWrite .ht3 c.ht3, .regWrite .ht2 c.ht2, .regWrite .ht1 c.ht1, .regWrite .ht0 c.ht0] ++ s.trace }
      ∧ v[k] = s.ctx.multicastRefcount[k] + 1
      ∧ (∀ j : Fin 64, j ≠ k → v[j] = s.ctx.multicastRefcount[j])
      ∧ ∀ j : Fin 64, (Chip.hashReg c ⟨j.val / 16, by omega⟩).getLsbD (j.val % 16) = decide (0 < v[j])

/-- R198, R197, R199: `UNSUBSCRIBE` of a bucket at zero is a no-op that writes no register; otherwise it takes one from the
bucket's count and pushes the table, and changes nothing else. -/
def Obligations.UnsubscribeResult : Prop :=
  ∀ (s : State) (a : MacAddr), s.Ready →
    let k := hashOf s.cfg.crcVariant a
    (s.ctx.multicastRefcount[k] = 0 → exec (.unsubscribe a) s = .next (s.answered .unit))
    ∧ (0 < s.ctx.multicastRefcount[k] →
      ∃ c v, exec (.unsubscribe a) s = .next { s.answered .unit with
          ctx := { s.ctx with multicastRefcount := v }
          chip := { s.chip with ht0 := c.ht0, ht1 := c.ht1, ht2 := c.ht2, ht3 := c.ht3 }
          trace := [.regWrite .ht3 c.ht3, .regWrite .ht2 c.ht2, .regWrite .ht1 c.ht1, .regWrite .ht0 c.ht0] ++ s.trace }
        ∧ v[k] = s.ctx.multicastRefcount[k] - 1
        ∧ (∀ j : Fin 64, j ≠ k → v[j] = s.ctx.multicastRefcount[j])
        ∧ ∀ j : Fin 64, (Chip.hashReg c ⟨j.val / 16, by omega⟩).getLsbD (j.val % 16) = decide (0 < v[j]))

/-! ### LinkStateManager (spec/47_link_state_manager.md) -/

/-- R205, R293, R297: with flow control idle, `RECONCILE` reads the duplex once and writes the settings of that duplex, in
the order of the rule: full duplex leaves `FCASSERT` alone; half duplex turns the automatic mode off before it clears
`FCASSERT`. Nothing else changes. -/
def Obligations.ReconcileResult : Prop :=
  ∀ s : State, s.Ready → s.chip.fcidle = true → s.cfg.spinLimit ≠ some 0 →
    let m := s.cfg.regmap
    (s.chip.phydpx = true → exec .reconcile s = .next { s.answered .unit with
      chip := { s.chip with fuldpx := true, ipg := s.cfg.ipgFull, autofc := true }
      trace := [.regSet .fc (BitVec.twoPow 16 m.fcAutofc), .regWrite .ipg s.cfg.ipgFull,
        .regSet .maccfg (BitVec.twoPow 16 m.maccfgFuldpx), .regRead .stat, .regRead .stat] ++ s.trace })
    ∧ (s.chip.phydpx = false → exec .reconcile s = .next { s.answered .unit with
      chip := { s.chip with fuldpx := false, ipg := s.cfg.ipgHalf, autofc := false, fcassert := false }
      trace := [.regClear .fc (BitVec.twoPow 16 m.fcFcassert), .regClear .fc (BitVec.twoPow 16 m.fcAutofc),
        .regWrite .ipg s.cfg.ipgHalf, .regClear .maccfg (BitVec.twoPow 16 m.maccfgFuldpx), .regRead .stat,
        .regRead .stat] ++ s.trace })

/-! ### InterruptDispatcher (spec/44_interrupt_dispatcher.md) -/

/-- R167, R153: transmit-complete and transmit-abort each count and are cleared; then `KICK` runs once if the queue is not
empty, and not at all if it is. -/
def Obligations.DispatchTransmit : Prop :=
  ∀ s : State, s.Ready → s.chip.flags.link = false → s.chip.flags.rxabt = false → s.chip.pktcnt = 0 →
    s.chip.flags.txdone = true ∨ s.chip.flags.txabt = true →
    let t := { s with
      packetsOut := s.packetsOut + (if s.chip.flags.txdone then 1 else 0)
      errorsOut := s.errorsOut + (if s.chip.flags.txabt then 1 else 0)
      chip := { s.chip with flags := { s.chip.flags with txdone := false, txabt := false } } }
    (s.sendq = [] → Completes (exec .dispatch s) s (t.answered .unit) [])
    ∧ (s.sendq ≠ [] → ∃ (u : State) (out : List TraceEvent),
        Completes (exec .kick t) s (u.answered .unit) out ∧ Completes (exec .dispatch s) s (u.answered .unit) out)

/-- R174, R168, R166, R171: with no flag set `DISPATCH` does nothing but the one read; receive-abort counts in `errors_in`
and is cleared, with no recovery; link-changed runs `RECONCILE` and is cleared after it. Whatever is set together, the
handlers run in the order link, transmit, receive-abort, packets, each with its own clear behind its effect: the
accesses of the whole are, newest first, those of the packets, of the receive-abort, of the transmit, of the link, and
the one snapshot. -/
def Obligations.DispatchOneCondition : Prop :=
  (∀ s : State, s.Ready → s.chip.pktcnt = 0 →
    (s.chip.flags = ⟨false, false, false, false⟩ →
      exec .dispatch s = .next { s.answered .unit with trace := .regRead .iflag :: s.trace })
    ∧ (s.chip.flags = ⟨false, false, false, true⟩ →
        Completes (exec .dispatch s) s { s.answered .unit with
          errorsIn := s.errorsIn + 1, chip := { s.chip with flags := ⟨false, false, false, false⟩ } } [])
    ∧ (s.chip.flags = ⟨true, false, false, false⟩ → s.chip.fcidle = true → s.cfg.spinLimit ≠ some 0 →
        ∃ c, Completes (exec .reconcile s) s { s.answered .unit with chip := c } []
          ∧ Completes (exec .dispatch s) s { s.answered .unit with
              chip := { c with flags := ⟨false, false, false, false⟩ } } []))
  ∧ ∀ s : State, s.Ready → s.chip.rxbusy = false → s.chip.fcidle = true → s.cfg.spinLimit ≠ some 0 →
      let m := s.cfg.regmap
      let clear : Fin 16 → TraceEvent := fun n => .regClear .iflag (BitVec.twoPow 16 n)
      ∃ (t : State) (packets kick : List TraceEvent),
        exec .dispatch s = .next t
        ∧ t.trace = packets
            ++ (if s.chip.flags.rxabt then [clear m.iflagRxabt] else [])
            ++ (kick ++ (if s.chip.flags.txabt then [clear m.iflagTxabt] else [])
              ++ (if s.chip.flags.txdone then [clear m.iflagTxdone] else []))
            ++ (if s.chip.flags.link then
                clear m.iflagLink :: ((if s.chip.phydpx then
                    [.regSet .fc (BitVec.twoPow 16 m.fcAutofc), .regWrite .ipg s.cfg.ipgFull,
                      .regSet .maccfg (BitVec.twoPow 16 m.maccfgFuldpx)]
                  else
                    [.regClear .fc (BitVec.twoPow 16 m.fcFcassert), .regClear .fc (BitVec.twoPow 16 m.fcAutofc),
                      .regWrite .ipg s.cfg.ipgHalf, .regClear .maccfg (BitVec.twoPow 16 m.maccfgFuldpx)])
                  ++ [.regRead .stat, .regRead .stat])
              else [])
            ++ .regRead .iflag :: s.trace
        ∧ (if (s.chip.flags.txdone || s.chip.flags.txabt) = true ∧ s.sendq ≠ [] then
            ∃ more, kick = more ++ [.regRead .ctl]
              ∧ ∀ e ∈ more, e = .regSet .ctl (BitVec.twoPow 16 m.ctlTxrts) ∨ (∃ n, e = .regWrite .txlen n)
                  ∨ (∃ pkt, e = .release pkt) ∨ (∃ a bytes, e = .memWrite a bytes) ∨ ∃ n, e = .raised .txTooLong n
          else kick = [])
        ∧ (if 0 < s.chip.pktcnt then
            ∃ more, packets = more ++ [.regSet .ctl (BitVec.twoPow 16 m.ctlPktdec), .regRead .iflag]
              ∧ ∀ r mask, TraceEvent.regClear r mask ∈ more → r = .ctl
          else packets = [])

/-- R172, R165: with no receive in flight and flow control idle, `DISPATCH` completes from every state: the packet counter
is 0 and no flag is left, whatever the ring holds and whatever the allocator answers, a recovery or a disabling on the
way included. -/
def Obligations.DispatchCompletes : Prop :=
  ∀ s : State, s.Ready → s.chip.rxbusy = false → s.chip.fcidle = true → s.cfg.spinLimit ≠ some 0 →
    ∃ t, exec .dispatch s = .next t ∧ t.seq = [] ∧ t.result = some .unit ∧ t.ipl = s.ipl ∧ t.context = none
      ∧ t.chip.pktcnt = 0 ∧ t.chip.iflags = ⟨false, false, false, false, false⟩
      ∧ t.packetsOut = s.packetsOut + (if s.chip.flags.txdone then 1 else 0)
      ∧ s.packetsIn ≤ t.packetsIn ∧ t.packetsIn ≤ s.packetsIn + s.chip.pktcnt

/-- R64, R70, R131, R165, R169, R173: a frame that the chip deposits into an empty, sound ring is delivered by the next
`DISPATCH` unchanged, byte for byte, on the lane of the type in its bytes 12 and 13, high byte first; it is counted once,
the pointer is where the chip's write pointer is, and the ring is empty again.
The allocator's answers are an input list (assumption 31), the header is in chip byte order (assumption 30). -/
def Obligations.DepositIsDelivered : Prop :=
  ∀ (s : State) (hdr payload : List Byte) (rest fcs : BitVec 32) (pad : Byte), s.Ready → s.mem.wf →
    RingValid s.cfg.toParams s.pointer → s.chip.rxhead = s.ctx.rxReadPointer →
    s.chip.rxtail.toNat = tailFor s.cfg.toParams s.pointer →
    s.chip.pktcnt = 0 → s.chip.flags = ⟨false, false, false, false⟩ → s.chip.rxbusy = true →
    hdr.length = s.cfg.ethHdrSize →
    s.cfg.etherMin ≤ s.cfg.ethHdrSize + payload.length → s.cfg.ethHdrSize + payload.length ≤ s.cfg.etherMax →
    (∀ i ≤ payload.length, s.allocAnswers[i]? = some true) →
    let ptype : Word := hdr.getD 12 0 ++ hdr.getD 13 0
    let lane : Lane := if ptype = s.cfg.etypeIp then .ip else if ptype = s.cfg.etypeArp then .arp
      else if ptype = s.cfg.etypeRarp then .rarp else .raw
    ∃ t pkt, exec .dispatch (s.applyMove (.rxEnd hdr payload rest fcs pad)) = .next t
      ∧ frameOf pkt = hdr ++ payload
      ∧ outputs t.trace = .deliver lane pkt :: outputs s.trace
      ∧ t.packetsIn = s.packetsIn + 1 ∧ t.errorsIn = s.errorsIn
      ∧ t.chip.rxhead = t.ctx.rxReadPointer ∧ RingValid s.cfg.toParams t.pointer
      ∧ t.chip.rxtail.toNat = tailFor s.cfg.toParams t.pointer
      ∧ t.chip.pktcnt = 0 ∧ t.ringFree = s.cfg.toParams.ringSize

/-! ### HostInterface (spec/48_host_interface.md) -/

/-- R213, R283: `INITIALIZE` of a probed card with a known address, not yet initialized, flow control idle: the bring-up,
register by register; the queue, the statistics and the counts are left alone; nothing else changes.
That it makes a block healthy which direct `RECOVER`s have disabled before is the model's reading (assumption 43). -/
def Obligations.InitialiseResult : Prop :=
  ∀ s : State, s.Ready → s.ctx.addrKnown = true → s.initialized = false → s.chip.fcidle = true →
    s.cfg.spinLimit ≠ some 0 →
    ∃ c, Completes (exec .initialise s) s { s.answered .ok with
        initialized := true
        wdState := .healthy
        pendingClear := none
        ctx := { s.ctx with rxReadPointer := BitVec.ofNat 16 s.cfg.rxStart, resetCounter := 0 }
        chip := c } []
      ∧ c.rxst = BitVec.ofNat 16 s.cfg.rxStart ∧ c.rxhead = BitVec.ofNat 16 s.cfg.rxStart
      ∧ c.rxtail = BitVec.ofNat 16 (s.cfg.rxEnd - 2) ∧ c.txst = BitVec.ofNat 16 s.cfg.txStart
      ∧ c.pktcnt = 0 ∧ c.flags = ⟨false, false, false, false⟩
      ∧ c.enables = ⟨true, true, true, true, true, true⟩ ∧ c.rxen = true
      ∧ (∀ j : Fin 64, (c.hashReg ⟨j.val / 16, by omega⟩).getLsbD (j.val % 16) = decide (0 < s.ctx.multicastRefcount[j]))
      ∧ c.fuldpx = s.chip.phydpx ∧ c.ipg = (if s.chip.phydpx then s.cfg.ipgFull else s.cfg.ipgHalf)
      ∧ c.autofc = s.chip.phydpx ∧ c.fcassert = (s.chip.phydpx && s.chip.fcassert)
      ∧ (c.txrts, c.txlen, c.rxbusy, c.fcidle, c.phydpx, c.phylnk)
          = (s.chip.txrts, s.chip.txlen, s.chip.rxbusy, s.chip.fcidle, s.chip.phydpx, s.chip.phylnk)
      ∧ (c.maadr0, c.maadr1, c.maadr2) = (s.chip.maadr0, s.chip.maadr1, s.chip.maadr2)

/-- R257, R284: `INITIALIZE` without a known address answers `AddressUnknown` and touches nothing; a second `INITIALIZE`
answers `Ok` and touches nothing, on a `Disabled` block too. -/
def Obligations.InitialiseTouchesNothing : Prop :=
  ∀ s : State, s.Ready →
    (s.ctx.addrKnown = false →
      Completes (exec .initialise s) s (s.answered (.err .addressUnknown)) [.raised .addressUnknown .none])
    ∧ (s.ctx.addrKnown = true → s.initialized = true → exec .initialise s = .next (s.answered .ok))

/-- R214: `TRANSMIT` on an initialized block: a framed packet goes to `ENQUEUE_AND_KICK` as it is; an unframed one gets the
header of destination, own address and type once the resolver answers, and is left with the resolver when it defers.
Whatever the resolver answers, the command completes.
The resolver's answers are an input list, and free values behind it (assumption 31). -/
def Obligations.TransmitResult : Prop :=
  ∀ (s : State) (ptype : Word) (dest : BitVec 32) (bytes : List Byte), s.Ready → s.initialized = true →
    (∃ (t : State) (r : Result) (out : List TraceEvent),
      Completes (exec (.enqueueAndKick bytes) s) s (t.answered r) out
      ∧ Completes (exec (.transmit true ptype dest bytes) s) s (t.answered r) out)
    ∧ (∀ hw answers, s.resolveAnswers = some hw :: answers →
        let frame := macBytes hw ++ macBytes s.ctx.linkAddress ++ [(ptype >>> 8).setWidth 8, ptype.setWidth 8] ++ bytes
        ∃ (t : State) (r : Result) (out : List TraceEvent),
          Completes (exec (.enqueueAndKick frame) { s with resolveAnswers := answers }) s (t.answered r) out
          ∧ Completes (exec (.transmit false ptype dest bytes) s) s (t.answered r) out)
    ∧ (∀ answers, s.resolveAnswers = none :: answers →
        exec (.transmit false ptype dest bytes) s = .next { s.answered .ok with
          resolveAnswers := answers, trace := .resolve dest none bytes :: s.trace })
    ∧ ∃ t, exec (.transmit false ptype dest bytes) s = .next t ∧ t.seq = []

/-- R215: `SET_MULTICAST` is `SUBSCRIBE` or `UNSUBSCRIBE` of the address. -/
def Obligations.SetMulticastResult : Prop :=
  ∀ (s : State) (a : MacAddr) (sub : Bool), s.Ready →
    ∃ t, exec (.setMulticast a sub) s = .next t ∧ exec (if sub then .subscribe a else .unsubscribe a) s = .next t

/-- R216: `SET_FLAGS` records the administrative state; going up on a block not yet initialized is an `INITIALIZE` whose
result is discarded; otherwise nothing else changes. -/
def Obligations.SetFlagsResult : Prop :=
  ∀ s : State, s.Ready →
    exec (.setFlags false) s = .next { s.answered .unit with adminUp := false }
    ∧ (s.initialized = true → exec (.setFlags true) s = .next { s.answered .unit with adminUp := true })
    ∧ (s.initialized = false → s.chip.fcidle = true → s.cfg.spinLimit ≠ some 0 →
        ∃ (t : State) (r : Result) (out : List TraceEvent),
          Completes (exec .initialise { s with adminUp := true }) s (t.answered r) out
          ∧ Completes (exec (.setFlags true) s) s (t.answered .unit) out)

/-- R217: `GET_STATUS` returns the record and changes nothing. -/
def Obligations.GetStatusResult : Prop :=
  ∀ s : State, s.Ready →
    exec .getStatus s = .next (s.answered (.status
      ⟨s.adminUp, s.initialized, s.wdState, s.packetsIn, s.packetsOut, s.errorsIn, s.errorsOut⟩))

/-! ### Rules of the whole machine -/

/-- R61, R63, R241: whatever the chip and the timer do meanwhile, a command leaves every byte outside the ring as it was,
but for the commands that can reach `KICK`, which may also change the transmit region; and with no other agent moving, no
command changes a byte of the ring, and a command that cannot reach `KICK` leaves every byte as it was. -/
def Obligations.StoresOnlyTransmitRegion : Prop :=
  ∀ (s t : State) (i : Instr), s.seq = [] → exec i s = .next t →
    (∀ a, ¬ InRing s.cfg.toParams a → ¬ (s.cfg.txStart ≤ a ∧ a < s.cfg.txStart + s.cfg.txCapacity) →
      t.mem.read a = s.mem.read a)
    ∧ (i.mayStore = false → ∀ a, ¬ InRing s.cfg.toParams a → t.mem.read a = s.mem.read a)
    ∧ (s.agenda = [] → ∀ a, InRing s.cfg.toParams a → t.mem.read a = s.mem.read a)
    ∧ (i.mayStore = false → s.agenda = [] → ∀ a, t.mem.read a = s.mem.read a)

/-- R21, R22, R27, R33, R41, R46: with no other agent moving, no command at all changes the parameters, the handle, the
address, the clock, what is lined up, the chip's status bits or its address registers.
That direct writes leave `MAADR0..2` alone is the model's reading (assumption 10). -/
def Obligations.EveryCommandFrame : Prop :=
  ∀ (s t : State) (i : Instr), s.Alone → exec i s = .next t → SameRest s t

/-- R29, R295: a command that completes leaves the priority level it found, in no context, on every path; one that is held
stays at `device`, in request context. -/
def Obligations.PriorityRestored : Prop :=
  ∀ (s t : State) (i : Instr), s.seq = [] → s.context = none → exec i s = .next t →
    (t.seq = [] → t.ipl = s.ipl ∧ t.context = none) ∧ (t.seq ≠ [] → t.ipl = .device ∧ t.context = some .request)

/-- The invariant holds after reset, for every configuration and every launch whose memory is one of the configuration. -/
def Obligations.ResetInvariant : Prop :=
  (∀ (cfg : Config) (v : Launch), v.mem.wf → v.mem.within cfg.memSize → (State.launch cfg v).Inv) ∧ State.reset.Inv

/-- Every step from a state of the invariant answers a next state, of the invariant again: the machine never faults and
never refuses, memory stays canonical, the queue and the packet counter stay bounded, an idle block is at `ipl = low`, an
operation that has not ended is at one of the two busy-waits or in the packet loop, `Recovering` exists only inside
`RECOVER`, and `Disabled` is exactly a counter beyond the threshold with no callback scheduled.
The number 0 of the frame of `SET_FLAGS` is the model's (assumption 44). -/
def Obligations.StepKeepsInvariant : Prop :=
  ∀ s : State, s.Inv → ∃ t, step s = .next t ∧ t.Inv

/-- R28, R292, R240, R172: whatever the other agents do meanwhile, a command completes, or is held at a busy-wait, and that
only without a `SPIN_LIMIT`, or is a `DISPATCH` in its packet loop, and that only against agents that do not rest: without
the assumption (F4), which here is `again = []`. The run that (F4) excludes exists: a `DISPATCH` that never ends.
A hold is a next state in the model (assumption 14), and so is a loop that goes on (assumption 37); the number 0 of the
frame of `SET_FLAGS` is the model's (assumption 44). -/
def Obligations.CommandEndsOrHolds : Prop :=
  (∀ (s : State) (i : Instr), s.Inv → s.seq = [] →
    ∃ t, exec i s = .next t ∧
      (t.seq = [] ∨ (HeldShape t.seq .request ∧ t.cfg.spinLimit = none)
        ∨ (i = .dispatch ∧ LoopShape t.seq ∧ t.agenda = [] ∧ t.again ≠ [])))
  ∧ ∃ s : State, s.Inv ∧ ∀ n, ∃ t, s.after n = some t ∧ LoopShape t.seq

/-- R182, R284: a `Disabled` block that has been initialized stays `Disabled` through every step but a reset.
That this needs the bring-up to have happened before is the model's reading (assumption 43). -/
def Obligations.DisabledIsTerminal : Prop :=
  ∀ s t : State, s.Inv → s.initialized = true → s.wdState = .disabled → s.NoReset → step s = .next t →
    t.wdState = .disabled ∧ t.initialized = true ∧ t.NoReset

/-- R51, R283: the invariants of R51 hold when a bring-up has completed: (I-a), (I-b), (I-e) and (I-f) for reception in
`Sound`, (I-c), (I-g), (I-h) and (I-f) for the callback in `Inv`. -/
def Obligations.InitialiseEstablishesR51 : Prop :=
  ∀ s : State, s.Inv → s.Ready → s.ctx.addrKnown = true → s.initialized = false → s.chip.fcidle = true →
    s.cfg.spinLimit ≠ some 0 → ∃ t, exec .initialise s = .next t ∧ t.Inv ∧ t.Sound ∧ t.seq = []

/-- R51, R302: the invariants of R51 survive every step of a run in which the host keeps to the calls of R302, against
the whole envelope of the chip: the read pointer is valid and the tail follows it unless the block is `Disabled`, the
hash registers show the counts, and a `Disabled` block does not receive. -/
def Obligations.HostRunsKeepR51 : Prop :=
  ∀ s t : State, s.Inv → s.Sound → s.HostRun → step s = .next t → t.Sound ∧ t.HostRun
end

