-- ==== Sys2Proof/Laws/State.lean ====
section
/-! SUPPORT. What each update of the state leaves in each field: one lemma per field and update, so that no later proof
unfolds a record update. -/

namespace Sys2Proof.Machine

variable (s : State)

/-! ### `State.emit` -/

@[simp] theorem State.emit_cfg (e : TraceEvent) : (s.emit e).cfg = s.cfg := (rfl)
@[simp] theorem State.emit_ctx (e : TraceEvent) : (s.emit e).ctx = s.ctx := (rfl)
@[simp] theorem State.emit_seq (e : TraceEvent) : (s.emit e).seq = s.seq := (rfl)
@[simp] theorem State.emit_ipl (e : TraceEvent) : (s.emit e).ipl = s.ipl := (rfl)
@[simp] theorem State.emit_savedIpl (e : TraceEvent) : (s.emit e).savedIpl = s.savedIpl := (rfl)
@[simp] theorem State.emit_context (e : TraceEvent) : (s.emit e).context = s.context := (rfl)
@[simp] theorem State.emit_sendq (e : TraceEvent) : (s.emit e).sendq = s.sendq := (rfl)
@[simp] theorem State.emit_packetsIn (e : TraceEvent) : (s.emit e).packetsIn = s.packetsIn := (rfl)
@[simp] theorem State.emit_packetsOut (e : TraceEvent) : (s.emit e).packetsOut = s.packetsOut := (rfl)
@[simp] theorem State.emit_errorsIn (e : TraceEvent) : (s.emit e).errorsIn = s.errorsIn := (rfl)
@[simp] theorem State.emit_errorsOut (e : TraceEvent) : (s.emit e).errorsOut = s.errorsOut := (rfl)
@[simp] theorem State.emit_wdState (e : TraceEvent) : (s.emit e).wdState = s.wdState := (rfl)
@[simp] theorem State.emit_now (e : TraceEvent) : (s.emit e).now = s.now := (rfl)
@[simp] theorem State.emit_pendingClear (e : TraceEvent) : (s.emit e).pendingClear = s.pendingClear := (rfl)
@[simp] theorem State.emit_initialized (e : TraceEvent) : (s.emit e).initialized = s.initialized := (rfl)
@[simp] theorem State.emit_adminUp (e : TraceEvent) : (s.emit e).adminUp = s.adminUp := (rfl)
@[simp] theorem State.emit_chip (e : TraceEvent) : (s.emit e).chip = s.chip := (rfl)
@[simp] theorem State.emit_mem (e : TraceEvent) : (s.emit e).mem = s.mem := (rfl)
@[simp] theorem State.emit_port (e : TraceEvent) : (s.emit e).port = s.port := (rfl)
@[simp] theorem State.emit_result (e : TraceEvent) : (s.emit e).result = s.result := (rfl)
@[simp] theorem State.emit_trace (e : TraceEvent) : (s.emit e).trace = e :: s.trace := (rfl)
@[simp] theorem State.emit_agenda (e : TraceEvent) : (s.emit e).agenda = s.agenda := (rfl)
@[simp] theorem State.emit_again (e : TraceEvent) : (s.emit e).again = s.again := (rfl)
@[simp] theorem State.emit_allocAnswers (e : TraceEvent) : (s.emit e).allocAnswers = s.allocAnswers := (rfl)
@[simp] theorem State.emit_resolveAnswers (e : TraceEvent) : (s.emit e).resolveAnswers = s.resolveAnswers := (rfl)
@[simp] theorem State.emit_freeCount (e : TraceEvent) : (s.emit e).freeCount = s.freeCount := (rfl)

/-! ### `State.onChip` -/

@[simp] theorem State.onChip_cfg (f : Chip → Chip) : (s.onChip f).cfg = s.cfg := (rfl)
@[simp] theorem State.onChip_ctx (f : Chip → Chip) : (s.onChip f).ctx = s.ctx := (rfl)
@[simp] theorem State.onChip_seq (f : Chip → Chip) : (s.onChip f).seq = s.seq := (rfl)
@[simp] theorem State.onChip_ipl (f : Chip → Chip) : (s.onChip f).ipl = s.ipl := (rfl)
@[simp] theorem State.onChip_savedIpl (f : Chip → Chip) : (s.onChip f).savedIpl = s.savedIpl := (rfl)
@[simp] theorem State.onChip_context (f : Chip → Chip) : (s.onChip f).context = s.context := (rfl)
@[simp] theorem State.onChip_sendq (f : Chip → Chip) : (s.onChip f).sendq = s.sendq := (rfl)
@[simp] theorem State.onChip_packetsIn (f : Chip → Chip) : (s.onChip f).packetsIn = s.packetsIn := (rfl)
@[simp] theorem State.onChip_packetsOut (f : Chip → Chip) : (s.onChip f).packetsOut = s.packetsOut := (rfl)
@[simp] theorem State.onChip_errorsIn (f : Chip → Chip) : (s.onChip f).errorsIn = s.errorsIn := (rfl)
@[simp] theorem State.onChip_errorsOut (f : Chip → Chip) : (s.onChip f).errorsOut = s.errorsOut := (rfl)
@[simp] theorem State.onChip_wdState (f : Chip → Chip) : (s.onChip f).wdState = s.wdState := (rfl)
@[simp] theorem State.onChip_now (f : Chip → Chip) : (s.onChip f).now = s.now := (rfl)
@[simp] theorem State.onChip_pendingClear (f : Chip → Chip) : (s.onChip f).pendingClear = s.pendingClear := (rfl)
@[simp] theorem State.onChip_initialized (f : Chip → Chip) : (s.onChip f).initialized = s.initialized := (rfl)
@[simp] theorem State.onChip_adminUp (f : Chip → Chip) : (s.onChip f).adminUp = s.adminUp := (rfl)
@[simp] theorem State.onChip_chip (f : Chip → Chip) : (s.onChip f).chip = f s.chip := (rfl)
@[simp] theorem State.onChip_mem (f : Chip → Chip) : (s.onChip f).mem = s.mem := (rfl)
@[simp] theorem State.onChip_port (f : Chip → Chip) : (s.onChip f).port = s.port := (rfl)
@[simp] theorem State.onChip_result (f : Chip → Chip) : (s.onChip f).result = s.result := (rfl)
@[simp] theorem State.onChip_trace (f : Chip → Chip) : (s.onChip f).trace = s.trace := (rfl)
@[simp] theorem State.onChip_agenda (f : Chip → Chip) : (s.onChip f).agenda = s.agenda := (rfl)
@[simp] theorem State.onChip_again (f : Chip → Chip) : (s.onChip f).again = s.again := (rfl)
@[simp] theorem State.onChip_allocAnswers (f : Chip → Chip) : (s.onChip f).allocAnswers = s.allocAnswers := (rfl)
@[simp] theorem State.onChip_resolveAnswers (f : Chip → Chip) : (s.onChip f).resolveAnswers = s.resolveAnswers := (rfl)
@[simp] theorem State.onChip_freeCount (f : Chip → Chip) : (s.onChip f).freeCount = s.freeCount := (rfl)

/-! ### `State.pushFrame` -/

@[simp] theorem State.pushFrame_cfg (op : OpName) : (s.pushFrame op).cfg = s.cfg := (rfl)
@[simp] theorem State.pushFrame_ctx (op : OpName) : (s.pushFrame op).ctx = s.ctx := (rfl)
@[simp] theorem State.pushFrame_seq (op : OpName) : (s.pushFrame op).seq = ⟨op, 0, none⟩ :: s.seq := (rfl)
@[simp] theorem State.pushFrame_ipl (op : OpName) : (s.pushFrame op).ipl = s.ipl := (rfl)
@[simp] theorem State.pushFrame_savedIpl (op : OpName) : (s.pushFrame op).savedIpl = s.savedIpl := (rfl)
@[simp] theorem State.pushFrame_context (op : OpName) : (s.pushFrame op).context = s.context := (rfl)
@[simp] theorem State.pushFrame_sendq (op : OpName) : (s.pushFrame op).sendq = s.sendq := (rfl)
@[simp] theorem State.pushFrame_packetsIn (op : OpName) : (s.pushFrame op).packetsIn = s.packetsIn := (rfl)
@[simp] theorem State.pushFrame_packetsOut (op : OpName) : (s.pushFrame op).packetsOut = s.packetsOut := (rfl)
@[simp] theorem State.pushFrame_errorsIn (op : OpName) : (s.pushFrame op).errorsIn = s.errorsIn := (rfl)
@[simp] theorem State.pushFrame_errorsOut (op : OpName) : (s.pushFrame op).errorsOut = s.errorsOut := (rfl)
@[simp] theorem State.pushFrame_wdState (op : OpName) : (s.pushFrame op).wdState = s.wdState := (rfl)
@[simp] theorem State.pushFrame_now (op : OpName) : (s.pushFrame op).now = s.now := (rfl)
@[simp] theorem State.pushFrame_pendingClear (op : OpName) : (s.pushFrame op).pendingClear = s.pendingClear := (rfl)
@[simp] theorem State.pushFrame_initialized (op : OpName) : (s.pushFrame op).initialized = s.initialized := (rfl)
@[simp] theorem State.pushFrame_adminUp (op : OpName) : (s.pushFrame op).adminUp = s.adminUp := (rfl)
@[simp] theorem State.pushFrame_chip (op : OpName) : (s.pushFrame op).chip = s.chip := (rfl)
@[simp] theorem State.pushFrame_mem (op : OpName) : (s.pushFrame op).mem = s.mem := (rfl)
@[simp] theorem State.pushFrame_port (op : OpName) : (s.pushFrame op).port = s.port := (rfl)
@[simp] theorem State.pushFrame_result (op : OpName) : (s.pushFrame op).result = s.result := (rfl)
@[simp] theorem State.pushFrame_trace (op : OpName) : (s.pushFrame op).trace = s.trace := (rfl)
@[simp] theorem State.pushFrame_agenda (op : OpName) : (s.pushFrame op).agenda = s.agenda := (rfl)
@[simp] theorem State.pushFrame_again (op : OpName) : (s.pushFrame op).again = s.again := (rfl)
@[simp] theorem State.pushFrame_allocAnswers (op : OpName) : (s.pushFrame op).allocAnswers = s.allocAnswers := (rfl)
@[simp] theorem State.pushFrame_resolveAnswers (op : OpName) :
    (s.pushFrame op).resolveAnswers = s.resolveAnswers := (rfl)
@[simp] theorem State.pushFrame_freeCount (op : OpName) : (s.pushFrame op).freeCount = s.freeCount := (rfl)

/-! ### `State.popFrame` -/

@[simp] theorem State.popFrame_cfg : (s.popFrame).cfg = s.cfg := (rfl)
@[simp] theorem State.popFrame_ctx : (s.popFrame).ctx = s.ctx := (rfl)
@[simp] theorem State.popFrame_seq : (s.popFrame).seq = s.seq.tail := (rfl)
@[simp] theorem State.popFrame_ipl : (s.popFrame).ipl = s.ipl := (rfl)
@[simp] theorem State.popFrame_savedIpl : (s.popFrame).savedIpl = s.savedIpl := (rfl)
@[simp] theorem State.popFrame_context : (s.popFrame).context = s.context := (rfl)
@[simp] theorem State.popFrame_sendq : (s.popFrame).sendq = s.sendq := (rfl)
@[simp] theorem State.popFrame_packetsIn : (s.popFrame).packetsIn = s.packetsIn := (rfl)
@[simp] theorem State.popFrame_packetsOut : (s.popFrame).packetsOut = s.packetsOut := (rfl)
@[simp] theorem State.popFrame_errorsIn : (s.popFrame).errorsIn = s.errorsIn := (rfl)
@[simp] theorem State.popFrame_errorsOut : (s.popFrame).errorsOut = s.errorsOut := (rfl)
@[simp] theorem State.popFrame_wdState : (s.popFrame).wdState = s.wdState := (rfl)
@[simp] theorem State.popFrame_now : (s.popFrame).now = s.now := (rfl)
@[simp] theorem State.popFrame_pendingClear : (s.popFrame).pendingClear = s.pendingClear := (rfl)
@[simp] theorem State.popFrame_initialized : (s.popFrame).initialized = s.initialized := (rfl)
@[simp] theorem State.popFrame_adminUp : (s.popFrame).adminUp = s.adminUp := (rfl)
@[simp] theorem State.popFrame_chip : (s.popFrame).chip = s.chip := (rfl)
@[simp] theorem State.popFrame_mem : (s.popFrame).mem = s.mem := (rfl)
@[simp] theorem State.popFrame_port : (s.popFrame).port = s.port := (rfl)
@[simp] theorem State.popFrame_result : (s.popFrame).result = s.result := (rfl)
@[simp] theorem State.popFrame_trace : (s.popFrame).trace = s.trace := (rfl)
@[simp] theorem State.popFrame_agenda : (s.popFrame).agenda = s.agenda := (rfl)
@[simp] theorem State.popFrame_again : (s.popFrame).again = s.again := (rfl)
@[simp] theorem State.popFrame_allocAnswers : (s.popFrame).allocAnswers = s.allocAnswers := (rfl)
@[simp] theorem State.popFrame_resolveAnswers : (s.popFrame).resolveAnswers = s.resolveAnswers := (rfl)
@[simp] theorem State.popFrame_freeCount : (s.popFrame).freeCount = s.freeCount := (rfl)

/-! ### `State.setReadPointer` -/

@[simp] theorem State.setReadPointer_cfg (a : Nat) : (s.setReadPointer a).cfg = s.cfg := (rfl)
@[simp] theorem State.setReadPointer_ctx (a : Nat) :
    (s.setReadPointer a).ctx = { s.ctx with rxReadPointer := BitVec.ofNat 16 a } := (rfl)
@[simp] theorem State.setReadPointer_seq (a : Nat) : (s.setReadPointer a).seq = s.seq := (rfl)
@[simp] theorem State.setReadPointer_ipl (a : Nat) : (s.setReadPointer a).ipl = s.ipl := (rfl)
@[simp] theorem State.setReadPointer_savedIpl (a : Nat) : (s.setReadPointer a).savedIpl = s.savedIpl := (rfl)
@[simp] theorem State.setReadPointer_context (a : Nat) : (s.setReadPointer a).context = s.context := (rfl)
@[simp] theorem State.setReadPointer_sendq (a : Nat) : (s.setReadPointer a).sendq = s.sendq := (rfl)
@[simp] theorem State.setReadPointer_packetsIn (a : Nat) : (s.setReadPointer a).packetsIn = s.packetsIn := (rfl)
@[simp] theorem State.setReadPointer_packetsOut (a : Nat) : (s.setReadPointer a).packetsOut = s.packetsOut := (rfl)
@[simp] theorem State.setReadPointer_errorsIn (a : Nat) : (s.setReadPointer a).errorsIn = s.errorsIn := (rfl)
@[simp] theorem State.setReadPointer_errorsOut (a : Nat) : (s.setReadPointer a).errorsOut = s.errorsOut := (rfl)
@[simp] theorem State.setReadPointer_wdState (a : Nat) : (s.setReadPointer a).wdState = s.wdState := (rfl)
@[simp] theorem State.setReadPointer_now (a : Nat) : (s.setReadPointer a).now = s.now := (rfl)
@[simp] theorem State.setReadPointer_pendingClear (a : Nat) :
    (s.setReadPointer a).pendingClear = s.pendingClear := (rfl)
@[simp] theorem State.setReadPointer_initialized (a : Nat) : (s.setReadPointer a).initialized = s.initialized := (rfl)
@[simp] theorem State.setReadPointer_adminUp (a : Nat) : (s.setReadPointer a).adminUp = s.adminUp := (rfl)
@[simp] theorem State.setReadPointer_chip (a : Nat) : (s.setReadPointer a).chip = s.chip := (rfl)
@[simp] theorem State.setReadPointer_mem (a : Nat) : (s.setReadPointer a).mem = s.mem := (rfl)
@[simp] theorem State.setReadPointer_port (a : Nat) : (s.setReadPointer a).port = s.port := (rfl)
@[simp] theorem State.setReadPointer_result (a : Nat) : (s.setReadPointer a).result = s.result := (rfl)
@[simp] theorem State.setReadPointer_trace (a : Nat) : (s.setReadPointer a).trace = s.trace := (rfl)
@[simp] theorem State.setReadPointer_agenda (a : Nat) : (s.setReadPointer a).agenda = s.agenda := (rfl)
@[simp] theorem State.setReadPointer_again (a : Nat) : (s.setReadPointer a).again = s.again := (rfl)
@[simp] theorem State.setReadPointer_allocAnswers (a : Nat) :
    (s.setReadPointer a).allocAnswers = s.allocAnswers := (rfl)
@[simp] theorem State.setReadPointer_resolveAnswers (a : Nat) :
    (s.setReadPointer a).resolveAnswers = s.resolveAnswers := (rfl)
@[simp] theorem State.setReadPointer_freeCount (a : Nat) : (s.setReadPointer a).freeCount = s.freeCount := (rfl)

/-! ### `State.countRecovery` -/

@[simp] theorem State.countRecovery_cfg : (s.countRecovery).cfg = s.cfg := (rfl)
@[simp] theorem State.countRecovery_ctx :
    (s.countRecovery).ctx = { s.ctx with resetCounter := s.ctx.resetCounter + 1, lastResetTime := s.now } := (rfl)
@[simp] theorem State.countRecovery_seq : (s.countRecovery).seq = s.seq := (rfl)
@[simp] theorem State.countRecovery_ipl : (s.countRecovery).ipl = s.ipl := (rfl)
@[simp] theorem State.countRecovery_savedIpl : (s.countRecovery).savedIpl = s.savedIpl := (rfl)
@[simp] theorem State.countRecovery_context : (s.countRecovery).context = s.context := (rfl)
@[simp] theorem State.countRecovery_sendq : (s.countRecovery).sendq = s.sendq := (rfl)
@[simp] theorem State.countRecovery_packetsIn : (s.countRecovery).packetsIn = s.packetsIn := (rfl)
@[simp] theorem State.countRecovery_packetsOut : (s.countRecovery).packetsOut = s.packetsOut := (rfl)
@[simp] theorem State.countRecovery_errorsIn : (s.countRecovery).errorsIn = s.errorsIn := (rfl)
@[simp] theorem State.countRecovery_errorsOut : (s.countRecovery).errorsOut = s.errorsOut := (rfl)
@[simp] theorem State.countRecovery_wdState : (s.countRecovery).wdState = .recovering := (rfl)
@[simp] theorem State.countRecovery_now : (s.countRecovery).now = s.now := (rfl)
@[simp] theorem State.countRecovery_pendingClear : (s.countRecovery).pendingClear = s.pendingClear := (rfl)
@[simp] theorem State.countRecovery_initialized : (s.countRecovery).initialized = s.initialized := (rfl)
@[simp] theorem State.countRecovery_adminUp : (s.countRecovery).adminUp = s.adminUp := (rfl)
@[simp] theorem State.countRecovery_chip : (s.countRecovery).chip = s.chip := (rfl)
@[simp] theorem State.countRecovery_mem : (s.countRecovery).mem = s.mem := (rfl)
@[simp] theorem State.countRecovery_port : (s.countRecovery).port = s.port := (rfl)
@[simp] theorem State.countRecovery_result : (s.countRecovery).result = s.result := (rfl)
@[simp] theorem State.countRecovery_trace : (s.countRecovery).trace = s.trace := (rfl)
@[simp] theorem State.countRecovery_agenda : (s.countRecovery).agenda = s.agenda := (rfl)
@[simp] theorem State.countRecovery_again : (s.countRecovery).again = s.again := (rfl)
@[simp] theorem State.countRecovery_allocAnswers : (s.countRecovery).allocAnswers = s.allocAnswers := (rfl)
@[simp] theorem State.countRecovery_resolveAnswers : (s.countRecovery).resolveAnswers = s.resolveAnswers := (rfl)
@[simp] theorem State.countRecovery_freeCount : (s.countRecovery).freeCount = s.freeCount := (rfl)

/-! ### `State.disableOnFault` -/

@[simp] theorem State.disableOnFault_cfg : (s.disableOnFault).cfg = s.cfg := (rfl)
@[simp] theorem State.disableOnFault_ctx :
    (s.disableOnFault).ctx = { s.ctx with resetCounter := max s.ctx.resetCounter (s.cfg.maxResets + 1) } := (rfl)
@[simp] theorem State.disableOnFault_seq : (s.disableOnFault).seq = s.seq := (rfl)
@[simp] theorem State.disableOnFault_ipl : (s.disableOnFault).ipl = s.ipl := (rfl)
@[simp] theorem State.disableOnFault_savedIpl : (s.disableOnFault).savedIpl = s.savedIpl := (rfl)
@[simp] theorem State.disableOnFault_context : (s.disableOnFault).context = s.context := (rfl)
@[simp] theorem State.disableOnFault_sendq : (s.disableOnFault).sendq = s.sendq := (rfl)
@[simp] theorem State.disableOnFault_packetsIn : (s.disableOnFault).packetsIn = s.packetsIn := (rfl)
@[simp] theorem State.disableOnFault_packetsOut : (s.disableOnFault).packetsOut = s.packetsOut := (rfl)
@[simp] theorem State.disableOnFault_errorsIn : (s.disableOnFault).errorsIn = s.errorsIn := (rfl)
@[simp] theorem State.disableOnFault_errorsOut : (s.disableOnFault).errorsOut = s.errorsOut := (rfl)
@[simp] theorem State.disableOnFault_wdState : (s.disableOnFault).wdState = .disabled := (rfl)
@[simp] theorem State.disableOnFault_now : (s.disableOnFault).now = s.now := (rfl)
@[simp] theorem State.disableOnFault_pendingClear : (s.disableOnFault).pendingClear = s.pendingClear := (rfl)
@[simp] theorem State.disableOnFault_initialized : (s.disableOnFault).initialized = s.initialized := (rfl)
@[simp] theorem State.disableOnFault_adminUp : (s.disableOnFault).adminUp = s.adminUp := (rfl)
@[simp] theorem State.disableOnFault_chip : (s.disableOnFault).chip = s.chip := (rfl)
@[simp] theorem State.disableOnFault_mem : (s.disableOnFault).mem = s.mem := (rfl)
@[simp] theorem State.disableOnFault_port : (s.disableOnFault).port = s.port := (rfl)
@[simp] theorem State.disableOnFault_result : (s.disableOnFault).result = s.result := (rfl)
@[simp] theorem State.disableOnFault_trace : (s.disableOnFault).trace = s.trace := (rfl)
@[simp] theorem State.disableOnFault_agenda : (s.disableOnFault).agenda = s.agenda := (rfl)
@[simp] theorem State.disableOnFault_again : (s.disableOnFault).again = s.again := (rfl)
@[simp] theorem State.disableOnFault_allocAnswers : (s.disableOnFault).allocAnswers = s.allocAnswers := (rfl)
@[simp] theorem State.disableOnFault_resolveAnswers : (s.disableOnFault).resolveAnswers = s.resolveAnswers := (rfl)
@[simp] theorem State.disableOnFault_freeCount : (s.disableOnFault).freeCount = s.freeCount := (rfl)

/-! ### `State.clearWatchdog` -/

@[simp] theorem State.clearWatchdog_cfg : (s.clearWatchdog).cfg = s.cfg := (rfl)
@[simp] theorem State.clearWatchdog_ctx : (s.clearWatchdog).ctx = { s.ctx with resetCounter := 0 } := (rfl)
@[simp] theorem State.clearWatchdog_seq : (s.clearWatchdog).seq = s.seq := (rfl)
@[simp] theorem State.clearWatchdog_ipl : (s.clearWatchdog).ipl = s.ipl := (rfl)
@[simp] theorem State.clearWatchdog_savedIpl : (s.clearWatchdog).savedIpl = s.savedIpl := (rfl)
@[simp] theorem State.clearWatchdog_context : (s.clearWatchdog).context = s.context := (rfl)
@[simp] theorem State.clearWatchdog_sendq : (s.clearWatchdog).sendq = s.sendq := (rfl)
@[simp] theorem State.clearWatchdog_packetsIn : (s.clearWatchdog).packetsIn = s.packetsIn := (rfl)
@[simp] theorem State.clearWatchdog_packetsOut : (s.clearWatchdog).packetsOut = s.packetsOut := (rfl)
@[simp] theorem State.clearWatchdog_errorsIn : (s.clearWatchdog).errorsIn = s.errorsIn := (rfl)
@[simp] theorem State.clearWatchdog_errorsOut : (s.clearWatchdog).errorsOut = s.errorsOut := (rfl)
@[simp] theorem State.clearWatchdog_wdState : (s.clearWatchdog).wdState = .healthy := (rfl)
@[simp] theorem State.clearWatchdog_now : (s.clearWatchdog).now = s.now := (rfl)
@[simp] theorem State.clearWatchdog_pendingClear : (s.clearWatchdog).pendingClear = none := (rfl)
@[simp] theorem State.clearWatchdog_initialized : (s.clearWatchdog).initialized = s.initialized := (rfl)
@[simp] theorem State.clearWatchdog_adminUp : (s.clearWatchdog).adminUp = s.adminUp := (rfl)
@[simp] theorem State.clearWatchdog_chip : (s.clearWatchdog).chip = s.chip := (rfl)
@[simp] theorem State.clearWatchdog_mem : (s.clearWatchdog).mem = s.mem := (rfl)
@[simp] theorem State.clearWatchdog_port : (s.clearWatchdog).port = s.port := (rfl)
@[simp] theorem State.clearWatchdog_result : (s.clearWatchdog).result = s.result := (rfl)
@[simp] theorem State.clearWatchdog_trace : (s.clearWatchdog).trace = s.trace := (rfl)
@[simp] theorem State.clearWatchdog_agenda : (s.clearWatchdog).agenda = s.agenda := (rfl)
@[simp] theorem State.clearWatchdog_again : (s.clearWatchdog).again = s.again := (rfl)
@[simp] theorem State.clearWatchdog_allocAnswers : (s.clearWatchdog).allocAnswers = s.allocAnswers := (rfl)
@[simp] theorem State.clearWatchdog_resolveAnswers : (s.clearWatchdog).resolveAnswers = s.resolveAnswers := (rfl)
@[simp] theorem State.clearWatchdog_freeCount : (s.clearWatchdog).freeCount = s.freeCount := (rfl)

/-! ### `State.setRefcount` -/

@[simp] theorem State.setRefcount_cfg (k : Fin 64) (n : Nat) : (s.setRefcount k n).cfg = s.cfg := (rfl)
@[simp] theorem State.setRefcount_ctx (k : Fin 64) (n : Nat) :
    (s.setRefcount k n).ctx = { s.ctx with multicastRefcount := s.ctx.multicastRefcount.set k.val n k.isLt } := (rfl)
@[simp] theorem State.setRefcount_seq (k : Fin 64) (n : Nat) : (s.setRefcount k n).seq = s.seq := (rfl)
@[simp] theorem State.setRefcount_ipl (k : Fin 64) (n : Nat) : (s.setRefcount k n).ipl = s.ipl := (rfl)
@[simp] theorem State.setRefcount_savedIpl (k : Fin 64) (n : Nat) : (s.setRefcount k n).savedIpl = s.savedIpl := (rfl)
@[simp] theorem State.setRefcount_context (k : Fin 64) (n : Nat) : (s.setRefcount k n).context = s.context := (rfl)
@[simp] theorem State.setRefcount_sendq (k : Fin 64) (n : Nat) : (s.setRefcount k n).sendq = s.sendq := (rfl)
@[simp] theorem State.setRefcount_packetsIn (k : Fin 64) (n : Nat) :
    (s.setRefcount k n).packetsIn = s.packetsIn := (rfl)
@[simp] theorem State.setRefcount_packetsOut (k : Fin 64) (n : Nat) :
    (s.setRefcount k n).packetsOut = s.packetsOut := (rfl)
@[simp] theorem State.setRefcount_errorsIn (k : Fin 64) (n : Nat) : (s.setRefcount k n).errorsIn = s.errorsIn := (rfl)
@[simp] theorem State.setRefcount_errorsOut (k : Fin 64) (n : Nat) :
    (s.setRefcount k n).errorsOut = s.errorsOut := (rfl)
@[simp] theorem State.setRefcount_wdState (k : Fin 64) (n : Nat) : (s.setRefcount k n).wdState = s.wdState := (rfl)
@[simp] theorem State.setRefcount_now (k : Fin 64) (n : Nat) : (s.setRefcount k n).now = s.now := (rfl)
@[simp] theorem State.setRefcount_pendingClear (k : Fin 64) (n : Nat) :
    (s.setRefcount k n).pendingClear = s.pendingClear := (rfl)
@[simp] theorem State.setRefcount_initialized (k : Fin 64) (n : Nat) :
    (s.setRefcount k n).initialized = s.initialized := (rfl)
@[simp] theorem State.setRefcount_adminUp (k : Fin 64) (n : Nat) : (s.setRefcount k n).adminUp = s.adminUp := (rfl)
@[simp] theorem State.setRefcount_chip (k : Fin 64) (n : Nat) : (s.setRefcount k n).chip = s.chip := (rfl)
@[simp] theorem State.setRefcount_mem (k : Fin 64) (n : Nat) : (s.setRefcount k n).mem = s.mem := (rfl)
@[simp] theorem State.setRefcount_port (k : Fin 64) (n : Nat) : (s.setRefcount k n).port = s.port := (rfl)
@[simp] theorem State.setRefcount_result (k : Fin 64) (n : Nat) : (s.setRefcount k n).result = s.result := (rfl)
@[simp] theorem State.setRefcount_trace (k : Fin 64) (n : Nat) : (s.setRefcount k n).trace = s.trace := (rfl)
@[simp] theorem State.setRefcount_agenda (k : Fin 64) (n : Nat) : (s.setRefcount k n).agenda = s.agenda := (rfl)
@[simp] theorem State.setRefcount_again (k : Fin 64) (n : Nat) : (s.setRefcount k n).again = s.again := (rfl)
@[simp] theorem State.setRefcount_allocAnswers (k : Fin 64) (n : Nat) :
    (s.setRefcount k n).allocAnswers = s.allocAnswers := (rfl)
@[simp] theorem State.setRefcount_resolveAnswers (k : Fin 64) (n : Nat) :
    (s.setRefcount k n).resolveAnswers = s.resolveAnswers := (rfl)
@[simp] theorem State.setRefcount_freeCount (k : Fin 64) (n : Nat) :
    (s.setRefcount k n).freeCount = s.freeCount := (rfl)

/-! ### `State.setStep` -/

@[simp] theorem State.setStep_cfg (n : Nat) : (s.setStep n).cfg = s.cfg := (rfl)
@[simp] theorem State.setStep_ctx (n : Nat) : (s.setStep n).ctx = s.ctx := (rfl)
@[simp] theorem State.setStep_seq (n : Nat) :
    (s.setStep n).seq = s.seq.modifyHead (fun fr => { fr with step := n }) := (rfl)
@[simp] theorem State.setStep_ipl (n : Nat) : (s.setStep n).ipl = s.ipl := (rfl)
@[simp] theorem State.setStep_savedIpl (n : Nat) : (s.setStep n).savedIpl = s.savedIpl := (rfl)
@[simp] theorem State.setStep_context (n : Nat) : (s.setStep n).context = s.context := (rfl)
@[simp] theorem State.setStep_sendq (n : Nat) : (s.setStep n).sendq = s.sendq := (rfl)
@[simp] theorem State.setStep_packetsIn (n : Nat) : (s.setStep n).packetsIn = s.packetsIn := (rfl)
@[simp] theorem State.setStep_packetsOut (n : Nat) : (s.setStep n).packetsOut = s.packetsOut := (rfl)
@[simp] theorem State.setStep_errorsIn (n : Nat) : (s.setStep n).errorsIn = s.errorsIn := (rfl)
@[simp] theorem State.setStep_errorsOut (n : Nat) : (s.setStep n).errorsOut = s.errorsOut := (rfl)
@[simp] theorem State.setStep_wdState (n : Nat) : (s.setStep n).wdState = s.wdState := (rfl)
@[simp] theorem State.setStep_now (n : Nat) : (s.setStep n).now = s.now := (rfl)
@[simp] theorem State.setStep_pendingClear (n : Nat) : (s.setStep n).pendingClear = s.pendingClear := (rfl)
@[simp] theorem State.setStep_initialized (n : Nat) : (s.setStep n).initialized = s.initialized := (rfl)
@[simp] theorem State.setStep_adminUp (n : Nat) : (s.setStep n).adminUp = s.adminUp := (rfl)
@[simp] theorem State.setStep_chip (n : Nat) : (s.setStep n).chip = s.chip := (rfl)
@[simp] theorem State.setStep_mem (n : Nat) : (s.setStep n).mem = s.mem := (rfl)
@[simp] theorem State.setStep_port (n : Nat) : (s.setStep n).port = s.port := (rfl)
@[simp] theorem State.setStep_result (n : Nat) : (s.setStep n).result = s.result := (rfl)
@[simp] theorem State.setStep_trace (n : Nat) : (s.setStep n).trace = s.trace := (rfl)
@[simp] theorem State.setStep_agenda (n : Nat) : (s.setStep n).agenda = s.agenda := (rfl)
@[simp] theorem State.setStep_again (n : Nat) : (s.setStep n).again = s.again := (rfl)
@[simp] theorem State.setStep_allocAnswers (n : Nat) : (s.setStep n).allocAnswers = s.allocAnswers := (rfl)
@[simp] theorem State.setStep_resolveAnswers (n : Nat) : (s.setStep n).resolveAnswers = s.resolveAnswers := (rfl)
@[simp] theorem State.setStep_freeCount (n : Nat) : (s.setStep n).freeCount = s.freeCount := (rfl)

/-! ### `State.setSnapshot` -/

@[simp] theorem State.setSnapshot_cfg (f : IFlags) : (s.setSnapshot f).cfg = s.cfg := (rfl)
@[simp] theorem State.setSnapshot_ctx (f : IFlags) : (s.setSnapshot f).ctx = s.ctx := (rfl)
@[simp] theorem State.setSnapshot_seq (f : IFlags) :
    (s.setSnapshot f).seq = s.seq.modifyHead (fun fr => { fr with snapshot := some f }) := (rfl)
@[simp] theorem State.setSnapshot_ipl (f : IFlags) : (s.setSnapshot f).ipl = s.ipl := (rfl)
@[simp] theorem State.setSnapshot_savedIpl (f : IFlags) : (s.setSnapshot f).savedIpl = s.savedIpl := (rfl)
@[simp] theorem State.setSnapshot_context (f : IFlags) : (s.setSnapshot f).context = s.context := (rfl)
@[simp] theorem State.setSnapshot_sendq (f : IFlags) : (s.setSnapshot f).sendq = s.sendq := (rfl)
@[simp] theorem State.setSnapshot_packetsIn (f : IFlags) : (s.setSnapshot f).packetsIn = s.packetsIn := (rfl)
@[simp] theorem State.setSnapshot_packetsOut (f : IFlags) : (s.setSnapshot f).packetsOut = s.packetsOut := (rfl)
@[simp] theorem State.setSnapshot_errorsIn (f : IFlags) : (s.setSnapshot f).errorsIn = s.errorsIn := (rfl)
@[simp] theorem State.setSnapshot_errorsOut (f : IFlags) : (s.setSnapshot f).errorsOut = s.errorsOut := (rfl)
@[simp] theorem State.setSnapshot_wdState (f : IFlags) : (s.setSnapshot f).wdState = s.wdState := (rfl)
@[simp] theorem State.setSnapshot_now (f : IFlags) : (s.setSnapshot f).now = s.now := (rfl)
@[simp] theorem State.setSnapshot_pendingClear (f : IFlags) : (s.setSnapshot f).pendingClear = s.pendingClear := (rfl)
@[simp] theorem State.setSnapshot_initialized (f : IFlags) : (s.setSnapshot f).initialized = s.initialized := (rfl)
@[simp] theorem State.setSnapshot_adminUp (f : IFlags) : (s.setSnapshot f).adminUp = s.adminUp := (rfl)
@[simp] theorem State.setSnapshot_chip (f : IFlags) : (s.setSnapshot f).chip = s.chip := (rfl)
@[simp] theorem State.setSnapshot_mem (f : IFlags) : (s.setSnapshot f).mem = s.mem := (rfl)
@[simp] theorem State.setSnapshot_port (f : IFlags) : (s.setSnapshot f).port = s.port := (rfl)
@[simp] theorem State.setSnapshot_result (f : IFlags) : (s.setSnapshot f).result = s.result := (rfl)
@[simp] theorem State.setSnapshot_trace (f : IFlags) : (s.setSnapshot f).trace = s.trace := (rfl)
@[simp] theorem State.setSnapshot_agenda (f : IFlags) : (s.setSnapshot f).agenda = s.agenda := (rfl)
@[simp] theorem State.setSnapshot_again (f : IFlags) : (s.setSnapshot f).again = s.again := (rfl)
@[simp] theorem State.setSnapshot_allocAnswers (f : IFlags) : (s.setSnapshot f).allocAnswers = s.allocAnswers := (rfl)
@[simp] theorem State.setSnapshot_resolveAnswers (f : IFlags) :
    (s.setSnapshot f).resolveAnswers = s.resolveAnswers := (rfl)
@[simp] theorem State.setSnapshot_freeCount (f : IFlags) : (s.setSnapshot f).freeCount = s.freeCount := (rfl)

/-! ### `State.beginCommand` -/

@[simp] theorem State.beginCommand_cfg (op : OpName) : (s.beginCommand op).cfg = s.cfg := (rfl)
@[simp] theorem State.beginCommand_ctx (op : OpName) : (s.beginCommand op).ctx = s.ctx := (rfl)
@[simp] theorem State.beginCommand_seq (op : OpName) : (s.beginCommand op).seq = [⟨op, 0, none⟩] := (rfl)
@[simp] theorem State.beginCommand_ipl (op : OpName) : (s.beginCommand op).ipl = .device := (rfl)
@[simp] theorem State.beginCommand_savedIpl (op : OpName) : (s.beginCommand op).savedIpl = s.ipl := (rfl)
@[simp] theorem State.beginCommand_context (op : OpName) : (s.beginCommand op).context = some .request := (rfl)
@[simp] theorem State.beginCommand_sendq (op : OpName) : (s.beginCommand op).sendq = s.sendq := (rfl)
@[simp] theorem State.beginCommand_packetsIn (op : OpName) : (s.beginCommand op).packetsIn = s.packetsIn := (rfl)
@[simp] theorem State.beginCommand_packetsOut (op : OpName) : (s.beginCommand op).packetsOut = s.packetsOut := (rfl)
@[simp] theorem State.beginCommand_errorsIn (op : OpName) : (s.beginCommand op).errorsIn = s.errorsIn := (rfl)
@[simp] theorem State.beginCommand_errorsOut (op : OpName) : (s.beginCommand op).errorsOut = s.errorsOut := (rfl)
@[simp] theorem State.beginCommand_wdState (op : OpName) : (s.beginCommand op).wdState = s.wdState := (rfl)
@[simp] theorem State.beginCommand_now (op : OpName) : (s.beginCommand op).now = s.now := (rfl)
@[simp] theorem State.beginCommand_pendingClear (op : OpName) :
    (s.beginCommand op).pendingClear = s.pendingClear := (rfl)
@[simp] theorem State.beginCommand_initialized (op : OpName) : (s.beginCommand op).initialized = s.initialized := (rfl)
@[simp] theorem State.beginCommand_adminUp (op : OpName) : (s.beginCommand op).adminUp = s.adminUp := (rfl)
@[simp] theorem State.beginCommand_chip (op : OpName) : (s.beginCommand op).chip = s.chip := (rfl)
@[simp] theorem State.beginCommand_mem (op : OpName) : (s.beginCommand op).mem = s.mem := (rfl)
@[simp] theorem State.beginCommand_port (op : OpName) : (s.beginCommand op).port = s.port := (rfl)
@[simp] theorem State.beginCommand_result (op : OpName) : (s.beginCommand op).result = none := (rfl)
@[simp] theorem State.beginCommand_trace (op : OpName) : (s.beginCommand op).trace = s.trace := (rfl)
@[simp] theorem State.beginCommand_agenda (op : OpName) : (s.beginCommand op).agenda = s.agenda := (rfl)
@[simp] theorem State.beginCommand_again (op : OpName) : (s.beginCommand op).again = s.again := (rfl)
@[simp] theorem State.beginCommand_allocAnswers (op : OpName) :
    (s.beginCommand op).allocAnswers = s.allocAnswers := (rfl)
@[simp] theorem State.beginCommand_resolveAnswers (op : OpName) :
    (s.beginCommand op).resolveAnswers = s.resolveAnswers := (rfl)
@[simp] theorem State.beginCommand_freeCount (op : OpName) : (s.beginCommand op).freeCount = s.freeCount := (rfl)

/-! ### `State.endCommand` -/

@[simp] theorem State.endCommand_cfg (r : Result) : (s.endCommand r).cfg = s.cfg := (rfl)
@[simp] theorem State.endCommand_ctx (r : Result) : (s.endCommand r).ctx = s.ctx := (rfl)
@[simp] theorem State.endCommand_seq (r : Result) : (s.endCommand r).seq = [] := (rfl)
@[simp] theorem State.endCommand_ipl (r : Result) : (s.endCommand r).ipl = s.savedIpl := (rfl)
@[simp] theorem State.endCommand_savedIpl (r : Result) : (s.endCommand r).savedIpl = s.savedIpl := (rfl)
@[simp] theorem State.endCommand_context (r : Result) : (s.endCommand r).context = none := (rfl)
@[simp] theorem State.endCommand_sendq (r : Result) : (s.endCommand r).sendq = s.sendq := (rfl)
@[simp] theorem State.endCommand_packetsIn (r : Result) : (s.endCommand r).packetsIn = s.packetsIn := (rfl)
@[simp] theorem State.endCommand_packetsOut (r : Result) : (s.endCommand r).packetsOut = s.packetsOut := (rfl)
@[simp] theorem State.endCommand_errorsIn (r : Result) : (s.endCommand r).errorsIn = s.errorsIn := (rfl)
@[simp] theorem State.endCommand_errorsOut (r : Result) : (s.endCommand r).errorsOut = s.errorsOut := (rfl)
@[simp] theorem State.endCommand_wdState (r : Result) : (s.endCommand r).wdState = s.wdState := (rfl)
@[simp] theorem State.endCommand_now (r : Result) : (s.endCommand r).now = s.now := (rfl)
@[simp] theorem State.endCommand_pendingClear (r : Result) : (s.endCommand r).pendingClear = s.pendingClear := (rfl)
@[simp] theorem State.endCommand_initialized (r : Result) : (s.endCommand r).initialized = s.initialized := (rfl)
@[simp] theorem State.endCommand_adminUp (r : Result) : (s.endCommand r).adminUp = s.adminUp := (rfl)
@[simp] theorem State.endCommand_chip (r : Result) : (s.endCommand r).chip = s.chip := (rfl)
@[simp] theorem State.endCommand_mem (r : Result) : (s.endCommand r).mem = s.mem := (rfl)
@[simp] theorem State.endCommand_port (r : Result) : (s.endCommand r).port = s.port := (rfl)
@[simp] theorem State.endCommand_result (r : Result) : (s.endCommand r).result = some r := (rfl)
@[simp] theorem State.endCommand_trace (r : Result) : (s.endCommand r).trace = s.trace := (rfl)
@[simp] theorem State.endCommand_agenda (r : Result) : (s.endCommand r).agenda = s.agenda := (rfl)
@[simp] theorem State.endCommand_again (r : Result) : (s.endCommand r).again = s.again := (rfl)
@[simp] theorem State.endCommand_allocAnswers (r : Result) : (s.endCommand r).allocAnswers = s.allocAnswers := (rfl)
@[simp] theorem State.endCommand_resolveAnswers (r : Result) :
    (s.endCommand r).resolveAnswers = s.resolveAnswers := (rfl)
@[simp] theorem State.endCommand_freeCount (r : Result) : (s.endCommand r).freeCount = s.freeCount := (rfl)

/-! ### `State.beginInterrupt` -/

@[simp] theorem State.beginInterrupt_cfg : (s.beginInterrupt).cfg = s.cfg := (rfl)
@[simp] theorem State.beginInterrupt_ctx : (s.beginInterrupt).ctx = s.ctx := (rfl)
@[simp] theorem State.beginInterrupt_seq : (s.beginInterrupt).seq = [⟨.dispatch, 0, none⟩] := (rfl)
@[simp] theorem State.beginInterrupt_ipl : (s.beginInterrupt).ipl = .device := (rfl)
@[simp] theorem State.beginInterrupt_savedIpl : (s.beginInterrupt).savedIpl = s.savedIpl := (rfl)
@[simp] theorem State.beginInterrupt_context : (s.beginInterrupt).context = some .interrupt := (rfl)
@[simp] theorem State.beginInterrupt_sendq : (s.beginInterrupt).sendq = s.sendq := (rfl)
@[simp] theorem State.beginInterrupt_packetsIn : (s.beginInterrupt).packetsIn = s.packetsIn := (rfl)
@[simp] theorem State.beginInterrupt_packetsOut : (s.beginInterrupt).packetsOut = s.packetsOut := (rfl)
@[simp] theorem State.beginInterrupt_errorsIn : (s.beginInterrupt).errorsIn = s.errorsIn := (rfl)
@[simp] theorem State.beginInterrupt_errorsOut : (s.beginInterrupt).errorsOut = s.errorsOut := (rfl)
@[simp] theorem State.beginInterrupt_wdState : (s.beginInterrupt).wdState = s.wdState := (rfl)
@[simp] theorem State.beginInterrupt_now : (s.beginInterrupt).now = s.now := (rfl)
@[simp] theorem State.beginInterrupt_pendingClear : (s.beginInterrupt).pendingClear = s.pendingClear := (rfl)
@[simp] theorem State.beginInterrupt_initialized : (s.beginInterrupt).initialized = s.initialized := (rfl)
@[simp] theorem State.beginInterrupt_adminUp : (s.beginInterrupt).adminUp = s.adminUp := (rfl)
@[simp] theorem State.beginInterrupt_chip : (s.beginInterrupt).chip = s.chip := (rfl)
@[simp] theorem State.beginInterrupt_mem : (s.beginInterrupt).mem = s.mem := (rfl)
@[simp] theorem State.beginInterrupt_port : (s.beginInterrupt).port = s.port := (rfl)
@[simp] theorem State.beginInterrupt_result : (s.beginInterrupt).result = s.result := (rfl)
@[simp] theorem State.beginInterrupt_trace : (s.beginInterrupt).trace = s.trace := (rfl)
@[simp] theorem State.beginInterrupt_agenda : (s.beginInterrupt).agenda = s.agenda := (rfl)
@[simp] theorem State.beginInterrupt_again : (s.beginInterrupt).again = s.again := (rfl)
@[simp] theorem State.beginInterrupt_allocAnswers : (s.beginInterrupt).allocAnswers = s.allocAnswers := (rfl)
@[simp] theorem State.beginInterrupt_resolveAnswers : (s.beginInterrupt).resolveAnswers = s.resolveAnswers := (rfl)
@[simp] theorem State.beginInterrupt_freeCount : (s.beginInterrupt).freeCount = s.freeCount := (rfl)

/-! ### `State.endInterrupt` -/

@[simp] theorem State.endInterrupt_cfg : (s.endInterrupt).cfg = s.cfg := (rfl)
@[simp] theorem State.endInterrupt_ctx : (s.endInterrupt).ctx = s.ctx := (rfl)
@[simp] theorem State.endInterrupt_seq : (s.endInterrupt).seq = [] := (rfl)
@[simp] theorem State.endInterrupt_ipl : (s.endInterrupt).ipl = .low := (rfl)
@[simp] theorem State.endInterrupt_savedIpl : (s.endInterrupt).savedIpl = s.savedIpl := (rfl)
@[simp] theorem State.endInterrupt_context : (s.endInterrupt).context = none := (rfl)
@[simp] theorem State.endInterrupt_sendq : (s.endInterrupt).sendq = s.sendq := (rfl)
@[simp] theorem State.endInterrupt_packetsIn : (s.endInterrupt).packetsIn = s.packetsIn := (rfl)
@[simp] theorem State.endInterrupt_packetsOut : (s.endInterrupt).packetsOut = s.packetsOut := (rfl)
@[simp] theorem State.endInterrupt_errorsIn : (s.endInterrupt).errorsIn = s.errorsIn := (rfl)
@[simp] theorem State.endInterrupt_errorsOut : (s.endInterrupt).errorsOut = s.errorsOut := (rfl)
@[simp] theorem State.endInterrupt_wdState : (s.endInterrupt).wdState = s.wdState := (rfl)
@[simp] theorem State.endInterrupt_now : (s.endInterrupt).now = s.now := (rfl)
@[simp] theorem State.endInterrupt_pendingClear : (s.endInterrupt).pendingClear = s.pendingClear := (rfl)
@[simp] theorem State.endInterrupt_initialized : (s.endInterrupt).initialized = s.initialized := (rfl)
@[simp] theorem State.endInterrupt_adminUp : (s.endInterrupt).adminUp = s.adminUp := (rfl)
@[simp] theorem State.endInterrupt_chip : (s.endInterrupt).chip = s.chip := (rfl)
@[simp] theorem State.endInterrupt_mem : (s.endInterrupt).mem = s.mem := (rfl)
@[simp] theorem State.endInterrupt_port : (s.endInterrupt).port = s.port := (rfl)
@[simp] theorem State.endInterrupt_result : (s.endInterrupt).result = s.result := (rfl)
@[simp] theorem State.endInterrupt_trace : (s.endInterrupt).trace = s.trace := (rfl)
@[simp] theorem State.endInterrupt_agenda : (s.endInterrupt).agenda = s.agenda := (rfl)
@[simp] theorem State.endInterrupt_again : (s.endInterrupt).again = s.again := (rfl)
@[simp] theorem State.endInterrupt_allocAnswers : (s.endInterrupt).allocAnswers = s.allocAnswers := (rfl)
@[simp] theorem State.endInterrupt_resolveAnswers : (s.endInterrupt).resolveAnswers = s.resolveAnswers := (rfl)
@[simp] theorem State.endInterrupt_freeCount : (s.endInterrupt).freeCount = s.freeCount := (rfl)

/-! ### `State.raise`: the record, and one counter at most -/

@[simp] theorem State.raise_cfg (x : Exn) (info : Info) : (s.raise x info).cfg = s.cfg := by
  cases x <;> rfl
@[simp] theorem State.raise_ctx (x : Exn) (info : Info) : (s.raise x info).ctx = s.ctx := by
  cases x <;> rfl
@[simp] theorem State.raise_seq (x : Exn) (info : Info) : (s.raise x info).seq = s.seq := by
  cases x <;> rfl
@[simp] theorem State.raise_ipl (x : Exn) (info : Info) : (s.raise x info).ipl = s.ipl := by
  cases x <;> rfl
@[simp] theorem State.raise_savedIpl (x : Exn) (info : Info) : (s.raise x info).savedIpl = s.savedIpl := by
  cases x <;> rfl
@[simp] theorem State.raise_context (x : Exn) (info : Info) : (s.raise x info).context = s.context := by
  cases x <;> rfl
@[simp] theorem State.raise_sendq (x : Exn) (info : Info) : (s.raise x info).sendq = s.sendq := by
  cases x <;> rfl
@[simp] theorem State.raise_packetsIn (x : Exn) (info : Info) : (s.raise x info).packetsIn = s.packetsIn := by
  cases x <;> rfl
@[simp] theorem State.raise_packetsOut (x : Exn) (info : Info) : (s.raise x info).packetsOut = s.packetsOut := by
  cases x <;> rfl
@[simp] theorem State.raise_wdState (x : Exn) (info : Info) : (s.raise x info).wdState = s.wdState := by
  cases x <;> rfl
@[simp] theorem State.raise_now (x : Exn) (info : Info) : (s.raise x info).now = s.now := by
  cases x <;> rfl
@[simp] theorem State.raise_pendingClear (x : Exn) (info : Info) : (s.raise x info).pendingClear = s.pendingClear := by
  cases x <;> rfl
@[simp] theorem State.raise_initialized (x : Exn) (info : Info) : (s.raise x info).initialized = s.initialized := by
  cases x <;> rfl
@[simp] theorem State.raise_adminUp (x : Exn) (info : Info) : (s.raise x info).adminUp = s.adminUp := by
  cases x <;> rfl
@[simp] theorem State.raise_chip (x : Exn) (info : Info) : (s.raise x info).chip = s.chip := by
  cases x <;> rfl
@[simp] theorem State.raise_mem (x : Exn) (info : Info) : (s.raise x info).mem = s.mem := by
  cases x <;> rfl
@[simp] theorem State.raise_port (x : Exn) (info : Info) : (s.raise x info).port = s.port := by
  cases x <;> rfl
@[simp] theorem State.raise_result (x : Exn) (info : Info) : (s.raise x info).result = s.result := by
  cases x <;> rfl
@[simp] theorem State.raise_agenda (x : Exn) (info : Info) : (s.raise x info).agenda = s.agenda := by
  cases x <;> rfl
@[simp] theorem State.raise_again (x : Exn) (info : Info) : (s.raise x info).again = s.again := by
  cases x <;> rfl
@[simp] theorem State.raise_allocAnswers (x : Exn) (info : Info) : (s.raise x info).allocAnswers = s.allocAnswers := by
  cases x <;> rfl
@[simp] theorem State.raise_resolveAnswers (x : Exn) (info : Info) : (s.raise x info).resolveAnswers = s.resolveAnswers := by
  cases x <;> rfl
@[simp] theorem State.raise_freeCount (x : Exn) (info : Info) : (s.raise x info).freeCount = s.freeCount := by
  cases x <;> rfl
@[simp] theorem State.raise_trace (x : Exn) (info : Info) : (s.raise x info).trace = .raised x info :: s.trace := by
  cases x <;> rfl

/-! ### `State.rearm` -/

@[simp] theorem State.rearm_cfg : s.rearm.cfg = s.cfg := (rfl)
@[simp] theorem State.rearm_ctx : s.rearm.ctx = s.ctx := (rfl)
@[simp] theorem State.rearm_seq : s.rearm.seq = s.seq := (rfl)
@[simp] theorem State.rearm_ipl : s.rearm.ipl = s.ipl := (rfl)
@[simp] theorem State.rearm_savedIpl : s.rearm.savedIpl = s.savedIpl := (rfl)
@[simp] theorem State.rearm_context : s.rearm.context = s.context := (rfl)
@[simp] theorem State.rearm_sendq : s.rearm.sendq = s.sendq := (rfl)
@[simp] theorem State.rearm_packetsIn : s.rearm.packetsIn = s.packetsIn := (rfl)
@[simp] theorem State.rearm_packetsOut : s.rearm.packetsOut = s.packetsOut := (rfl)
@[simp] theorem State.rearm_errorsIn : s.rearm.errorsIn = s.errorsIn := (rfl)
@[simp] theorem State.rearm_errorsOut : s.rearm.errorsOut = s.errorsOut := (rfl)
@[simp] theorem State.rearm_wdState : s.rearm.wdState = s.wdState := (rfl)
@[simp] theorem State.rearm_now : s.rearm.now = s.now := (rfl)
@[simp] theorem State.rearm_pendingClear : s.rearm.pendingClear = s.pendingClear := (rfl)
@[simp] theorem State.rearm_initialized : s.rearm.initialized = s.initialized := (rfl)
@[simp] theorem State.rearm_adminUp : s.rearm.adminUp = s.adminUp := (rfl)
@[simp] theorem State.rearm_chip : s.rearm.chip = s.chip := (rfl)
@[simp] theorem State.rearm_mem : s.rearm.mem = s.mem := (rfl)
@[simp] theorem State.rearm_port : s.rearm.port = s.port := (rfl)
@[simp] theorem State.rearm_result : s.rearm.result = s.result := (rfl)
@[simp] theorem State.rearm_trace : s.rearm.trace = s.trace := (rfl)
@[simp] theorem State.rearm_again : s.rearm.again = s.again := (rfl)
@[simp] theorem State.rearm_allocAnswers : s.rearm.allocAnswers = s.allocAnswers := (rfl)
@[simp] theorem State.rearm_resolveAnswers : s.rearm.resolveAnswers = s.resolveAnswers := (rfl)
@[simp] theorem State.rearm_freeCount : s.rearm.freeCount = s.freeCount := (rfl)

theorem State.rearm_agenda : s.rearm.agenda = if s.agenda.isEmpty then s.again else s.agenda := (rfl)

/-- With nothing to do again, and with an agenda not used up, a step begins as it is. -/
theorem State.rearm_none {s : State} (h : s.again = []) : s.rearm = s := by
  have : (if s.agenda.isEmpty then s.again else s.agenda) = s.agenda := by
    split
    · next h' => rw [h, List.isEmpty_iff.1 h']
    · rfl
  simp only [State.rearm, this]

theorem State.rearm_some {s : State} (h : s.agenda ≠ []) : s.rearm = s := by
  have : (if s.agenda.isEmpty then s.again else s.agenda) = s.agenda := by
    rw [if_neg (by simpa using h)]
  simp only [State.rearm, this]

end Sys2Proof.Machine
end

