-- ==== Sys2Proof/Laws/Memory.lean ====
section
/-! SUPPORT. Chip memory: reading after writing, what a write leaves alone, and that every memory operation keeps the
canonical form and stays inside the memory. -/

namespace Sys2Proof.Machine

@[simp] theorem Memory.read_nil (a : Nat) : Memory.read [] a = Memory.unlisted := rfl

/-- A canonical memory with a new head: its address lies below every other. -/
theorem Memory.wf_cons {c : Host.Cell} {m : Memory} :
    Memory.wf (c :: m) ↔ (∀ d ∈ m, c.1 < d.1) ∧ c.2 ≠ Memory.unlisted ∧ m.wf := by
  simp only [Memory.wf, List.pairwise_cons, List.mem_cons, forall_eq_or_imp]
  tauto

/-- An address below every listed one reads as an unlisted address. -/
theorem Memory.read_below {m : Memory} {a : Nat} (h : ∀ c ∈ m, a < c.1) : m.read a = Memory.unlisted := by
  induction m with
  | nil => rfl
  | cons c m ih =>
    have := h c (by simp)
    simp only [Memory.read]
    rw [if_neg (by omega), ih fun d hd => h d (by simp [hd])]

/-- Every address listed after a write was listed before, or is the one written. -/
theorem Memory.mem_write {m : Memory} {a : Nat} {b : Byte} {c : Host.Cell} (h : c ∈ m.write a b) :
    c ∈ m ∨ c = (a, b) := by
  induction m with
  | nil => simp only [Memory.write] at h; split at h <;> simp_all
  | cons d m ih =>
    simp only [Memory.write] at h
    split at h
    · split at h <;> (simp_all; try tauto)
    · split at h
      · subst_vars
        split at h <;> (simp_all; try tauto)
      · simp only [List.mem_cons] at h ⊢
        rcases h with h | h
        · exact .inl (.inl h)
        · rcases ih h with h | h <;> tauto

/-- A write keeps the canonical form. -/
theorem Memory.write_wf {m : Memory} (h : m.wf) (a : Nat) (b : Byte) : (m.write a b).wf := by
  induction m with
  | nil =>
    simp only [Memory.write]
    split
    · exact h
    · simp_all [Memory.wf]
  | cons c m ih =>
    obtain ⟨hlt, hne, hm⟩ := Memory.wf_cons.1 h
    simp only [Memory.write]
    split
    · split
      · exact h
      · refine Memory.wf_cons.2 ⟨fun d hd => ?_, by assumption, h⟩
        rcases List.mem_cons.1 hd with rfl | hd
        · assumption
        · exact Nat.lt_trans (by assumption) (hlt d hd)
    · split
      · split
        · exact hm
        · exact Memory.wf_cons.2 ⟨hlt, by assumption, hm⟩
      · refine Memory.wf_cons.2 ⟨fun d hd => ?_, hne, ih hm⟩
        rcases Memory.mem_write hd with hd | rfl
        · exact hlt d hd
        · simp only; omega

/-- A write inside the memory lists only addresses of the memory. -/
theorem Memory.write_within {m : Memory} {size a : Nat} (h : m.within size) (ha : a < size) (b : Byte) :
    (m.write a b).within size := fun c hc => by
  rcases Memory.mem_write hc with hc | rfl
  · exact h c hc
  · exact ha

/-- Read after write: the written address reads as written, every other as before. -/
theorem Memory.read_write {m : Memory} (h : m.wf) (a : Nat) (b : Byte) (x : Nat) :
    (m.write a b).read x = if x = a then b else m.read x := by
  induction m with
  | nil =>
    simp only [Memory.write]
    split <;> simp_all [Memory.read, eq_comm]
  | cons c m ih =>
    obtain ⟨hlt, hne, hm⟩ := Memory.wf_cons.1 h
    have below : ∀ y, y ≤ c.1 → Memory.read m y = Memory.unlisted := fun y hy =>
      Memory.read_below fun d hd => Nat.lt_of_le_of_lt hy (hlt d hd)
    simp only [Memory.write]
    split
    · next hac =>
      split
      · next hb =>
        subst hb
        by_cases hx : x = a
        · subst hx
          simp only [Memory.read, if_true]
          rw [if_neg (by omega), below x (by omega)]
        · rw [if_neg hx]
      · simp only [Memory.read]
    · split
      · next hac =>
        subst hac
        split
        · next hb =>
          subst hb
          by_cases hx : x = c.1
          · rw [if_pos hx, hx, below _ (Nat.le_refl _)]
          · simp only [Memory.read, if_neg hx]
        · by_cases hx : x = c.1 <;> simp only [Memory.read, hx, if_true, if_false]
      · next h1 h2 =>
        simp only [Memory.read, ih hm]
        by_cases hx : x = c.1
        · rw [if_pos hx, if_pos hx, if_neg (by omega)]
        · rw [if_neg hx, if_neg hx]

/-- A write leaves every other address alone, in any memory. -/
theorem Memory.read_write_ne (m : Memory) {a x : Nat} (b : Byte) (hx : x ≠ a) : (m.write a b).read x = m.read x := by
  induction m with
  | nil => simp only [Memory.write]; split <;> simp [Memory.read, hx]
  | cons c m ih =>
    simp only [Memory.write]
    split
    · split <;> simp [Memory.read, hx]
    · split
      · next h => subst h; split <;> simp [Memory.read, hx]
      · simp only [Memory.read, ih]

/-- Storing bytes keeps the canonical form. -/
theorem Memory.writeBytes_wf {m : Memory} (h : m.wf) (a : Nat) (bs : List Byte) : (m.writeBytes a bs).wf := by
  induction bs generalizing m a with
  | nil => exact h
  | cons b bs ih => exact ih (Memory.write_wf h a b) (a + 1)

/-- Storing bytes inside the memory lists only addresses of the memory. -/
theorem Memory.writeBytes_within {m : Memory} {size : Nat} (h : m.within size) (a : Nat) (bs : List Byte)
    (ha : a + bs.length ≤ size) : (m.writeBytes a bs).within size := by
  induction bs generalizing m a with
  | nil => exact h
  | cons b bs ih =>
    simp only [List.length_cons] at ha
    exact ih (Memory.write_within h (by omega) b) (a + 1) (by omega)

/-- Read after a store: the stored bytes at their addresses, every other byte as before. -/
theorem Memory.read_writeBytes {m : Memory} (h : m.wf) (a : Nat) (bs : List Byte) (x : Nat) :
    (m.writeBytes a bs).read x = if a ≤ x ∧ x < a + bs.length then bs.getD (x - a) 0 else m.read x := by
  induction bs generalizing m a with
  | nil => simp only [Memory.writeBytes, List.length_nil]; rw [if_neg (by omega)]
  | cons b bs ih =>
    simp only [Memory.writeBytes, List.length_cons]
    rw [ih (Memory.write_wf h a b), Memory.read_write h]
    by_cases h1 : x = a
    · subst h1
      rw [if_neg (by omega), if_pos rfl, if_pos (by omega)]
      simp
    · by_cases h2 : a + 1 ≤ x ∧ x < a + 1 + bs.length
      · rw [if_pos h2, if_pos (by omega)]
        obtain ⟨k, hk⟩ : ∃ k, x - a = k + 1 := ⟨x - a - 1, by omega⟩
        rw [hk, show x - (a + 1) = k by omega]
        simp
      · rw [if_neg h2, if_neg h1, if_neg (by omega)]

/-- A store leaves every byte outside it alone, in any memory. -/
theorem Memory.read_writeBytes_outside (m : Memory) {a x : Nat} {bs : List Byte} (hx : x < a ∨ a + bs.length ≤ x) :
    (m.writeBytes a bs).read x = m.read x := by
  induction bs generalizing m a with
  | nil => rfl
  | cons b bs ih =>
    simp only [List.length_cons] at hx
    rw [Memory.writeBytes, ih (m.write a b) (by omega), Memory.read_write_ne _ _ (by omega)]

/-- A store is read back whole. -/
theorem Memory.readBytes_writeBytes {m : Memory} (h : m.wf) (a : Nat) (bs : List Byte) :
    (m.writeBytes a bs).readBytes a bs.length = bs := by
  apply List.ext_getElem
  · simp [Memory.readBytes]
  · intro i h1 h2
    simp only [Memory.readBytes, List.getElem_map, List.getElem_range, Memory.read_writeBytes h]
    rw [if_pos (by omega)]
    simp [h2]

@[simp] theorem Memory.length_readBytes (m : Memory) (a n : Nat) : (m.readBytes a n).length = n := by
  simp [Memory.readBytes]

/-- Pairs keep the canonical form. -/
theorem Memory.writePairs_wf {m : Memory} (h : m.wf) (ps : List (Nat × Byte)) : (m.writePairs ps).wf := by
  induction ps generalizing m with
  | nil => exact h
  | cons p ps ih => exact ih (Memory.write_wf h p.1 p.2)

theorem Memory.writePairs_within {m : Memory} {size : Nat} (h : m.within size) {ps : List (Nat × Byte)}
    (hp : ∀ p ∈ ps, p.1 < size) : (m.writePairs ps).within size := by
  induction ps generalizing m with
  | nil => exact h
  | cons p ps ih => exact ih (Memory.write_within h (hp p (by simp)) p.2) (fun q hq => hp q (by simp [hq]))

/-- Pairs leave every address they do not name alone, in any memory. -/
theorem Memory.read_writePairs_outside (m : Memory) {ps : List (Nat × Byte)} {x : Nat} (hx : ∀ p ∈ ps, p.1 ≠ x) :
    (m.writePairs ps).read x = m.read x := by
  induction ps generalizing m with
  | nil => rfl
  | cons p ps ih =>
    rw [Memory.writePairs, List.foldl_cons, ← Memory.writePairs, ih _ (fun q hq => hx q (by simp [hq])),
      Memory.read_write_ne _ _ (fun e => hx p (by simp) e.symm)]

theorem Memory.nil_wf : Memory.wf [] := by simp [Memory.wf]

/-- A launch's memory is canonical and inside the chip's memory. -/
theorem Memory.ofPairs_wf (size : Nat) (ps : List (Nat × Byte)) : (Memory.ofPairs size ps).wf :=
  Memory.writePairs_wf Memory.nil_wf _

theorem Memory.ofPairs_within (size : Nat) (ps : List (Nat × Byte)) : (Memory.ofPairs size ps).within size :=
  Memory.writePairs_within (by simp [Memory.within]) fun p hp => by simpa using (List.mem_filter.1 hp).2

/-- Memory at reset is canonical. -/
theorem Memory.reset_wf : State.reset.mem.wf := Memory.nil_wf

/-! ### The ring -/

/-- A ring address lies in the ring. -/
theorem ringAddr_inRing (p : Params) (hr : p.rxStart < p.rxEnd) (a : Int) : InRing p (ringAddr p a) := by
  have h : (0 : Int) < p.ringSize := by simp only [Params.ringSize]; omega
  have h1 := Int.emod_nonneg (a - p.rxStart) (by omega : (p.ringSize : Int) ≠ 0)
  have h2 := Int.emod_lt_of_pos (a - p.rxStart) h
  simp only [InRing, ringAddr]
  simp only [Params.ringSize] at *
  omega

/-- Inside the ring `RingAddr` is the identity. -/
theorem ringAddr_of_inRing (p : Params) {a : Nat} (h : InRing p a) : ringAddr p a = a := by
  obtain ⟨h1, h2⟩ := h
  simp only [ringAddr]
  rw [Int.emod_eq_of_lt (by omega) (by simp only [Params.ringSize]; omega)]
  omega

/-- The ring of a valid configuration. -/
theorem config_ring (c : Config) :
    c.rxStart < c.rxEnd ∧ c.rxEnd ≤ c.memSize ∧ c.rxEnd < 65536 ∧ c.rxStart % 2 = 0 ∧ c.rxEnd % 2 = 0 := by
  have := c.valid
  simp only [Params.Valid] at this
  tauto

/-- A deposit keeps the canonical form. -/
theorem writeRing_wf (p : Params) {m : Memory} (h : m.wf) (a : Nat) (bs : List Byte) : (writeRing p m a bs).wf := by
  induction bs generalizing m a with
  | nil => exact h
  | cons b bs ih => exact ih (Memory.write_wf h _ b) (a + 1)

theorem writeRing_within (p : Params) {m : Memory} {size : Nat} (hr : p.rxStart < p.rxEnd) (hs : p.rxEnd ≤ size)
    (h : m.within size) (a : Nat) (bs : List Byte) : (writeRing p m a bs).within size := by
  induction bs generalizing m a with
  | nil => exact h
  | cons b bs ih => exact ih (Memory.write_within h (Nat.lt_of_lt_of_le (ringAddr_inRing p hr a).2 hs) b) (a + 1)

/-- A deposit leaves every address it does not name alone, in any memory. -/
theorem read_writeRing_ne (p : Params) (m : Memory) (a : Nat) (bs : List Byte) {x : Nat}
    (hx : ∀ i < bs.length, x ≠ ringAddr p (a + i : Nat)) : (writeRing p m a bs).read x = m.read x := by
  induction bs generalizing m a with
  | nil => rfl
  | cons b bs ih =>
    rw [writeRing, ih, Memory.read_write_ne]
    · exact hx 0 (by simp)
    · intro i hi
      have := hx (i + 1) (by simpa using hi)
      rwa [show a + (i + 1) = a + 1 + i by omega] at this

/-- A deposit writes the ring only. -/
theorem read_writeRing_outside (p : Params) (m : Memory) (hr : p.rxStart < p.rxEnd) (a : Nat) (bs : List Byte) {x : Nat}
    (hx : ¬ InRing p x) : (writeRing p m a bs).read x = m.read x :=
  read_writeRing_ne p m a bs fun _ _ e => hx (e ▸ ringAddr_inRing p hr _)

/-- Two ring addresses less than a ring apart are different. -/
theorem ringAddr_ne (p : Params) (a : Nat) {i j : Nat} (hi : i < p.ringSize) (hj : j < p.ringSize) (h : i ≠ j) :
    ringAddr p (a + i : Nat) ≠ ringAddr p (a + j : Nat) := by
  intro e
  simp only [ringAddr] at e
  have hp : (0 : Int) < p.ringSize := by omega
  have h1 := Int.emod_nonneg ((a + i : Nat) - (p.rxStart : Int)) (by omega : (p.ringSize : Int) ≠ 0)
  have h2 := Int.emod_nonneg ((a + j : Nat) - (p.rxStart : Int)) (by omega : (p.ringSize : Int) ≠ 0)
  have e' : ((a + i : Nat) - (p.rxStart : Int)) % p.ringSize = ((a + j : Nat) - (p.rxStart : Int)) % p.ringSize := by
    omega
  have hz := Int.emod_eq_emod_iff_emod_sub_eq_zero.1 e'
  have hd := Int.dvd_of_emod_eq_zero hz
  rw [show ((a + i : Nat) - (p.rxStart : Int)) - ((a + j : Nat) - (p.rxStart : Int)) = (i : Int) - j by omega] at hd
  obtain ⟨k, hk⟩ := hd
  rcases Int.lt_trichotomy k 0 with hk0 | rfl | hk0
  · have : (p.ringSize : Int) * k ≤ p.ringSize * (-1) := Int.mul_le_mul_of_nonneg_left (by omega) (by omega)
    omega
  · omega
  · have : (p.ringSize : Int) * 1 ≤ p.ringSize * k := Int.mul_le_mul_of_nonneg_left (by omega) (by omega)
    omega

/-- A deposit that fits the ring is read back byte for byte. -/
theorem read_writeRing (p : Params) {m : Memory} (h : m.wf) (a : Nat) (bs : List Byte) (hn : bs.length ≤ p.ringSize)
    {i : Nat} (hi : i < bs.length) : (writeRing p m a bs).read (ringAddr p (a + i : Nat)) = bs[i] := by
  induction bs generalizing m a i with
  | nil => simp at hi
  | cons b bs ih =>
    simp only [List.length_cons] at hn hi
    rw [writeRing]
    cases i with
    | zero =>
      rw [read_writeRing_ne, show a + 0 = a from rfl, Memory.read_write h, if_pos rfl]
      · rfl
      · intro j hj
        have := ringAddr_ne p a (i := 0) (j := j + 1) (by omega) (by omega) (by omega)
        rwa [show a + (j + 1) = a + 1 + j by omega] at this
    | succ i =>
      have := ih (Memory.write_wf h (ringAddr p a) b) (a + 1) (by omega) (i := i) (by omega)
      rw [show a + 1 + i = a + (i + 1) by omega] at this
      simpa using this

end Sys2Proof.Machine
end

