-- ==== Sys2Proof/Laws/Ops.lean ====
section
/-! SUPPORT. The shared operations of Machine/Ops.lean, each with one lemma that says everything it can do, and the
triple `Op.Meets` by which a property of an operation follows from those
of its parts. -/

namespace Sys2Proof.Machine

/-! ### Running an operation -/

section Run

variable {α β : Type} (s : State)

theorem op_bind (x : Op α) (f : α → Op β) :
    (x >>= f) s = match x s with
      | .ok a t => f a t
      | .error e t => .error e t := by
  show EStateM.bind x f s = _
  unfold EStateM.bind
  cases x s <;> rfl

@[simp] theorem op_pure (a : α) : (pure a : Op α) s = .ok a s := (rfl)
@[simp] theorem op_get : (get : Op State) s = .ok s s := (rfl)
@[simp] theorem op_set (t : State) : (set t : Op PUnit) s = .ok ⟨⟩ t := (rfl)
@[simp] theorem op_throw (e : Stop) : (throw e : Op α) s = .error e s := (rfl)
@[simp] theorem op_ite (c : Prop) [Decidable c] (x y : Op α) : (if c then x else y) s = if c then x s else y s := by
  split <;> rfl

@[simp] theorem update_run (f : State → State) : update f s = .ok () (f s) := (rfl)
@[simp] theorem onlyIf_run (b : Bool) (x : Op Unit) : onlyIf b x s = if b then x s else .ok () s := by
  cases b <;> rfl

@[simp] theorem access_run (e : TraceEvent) : access e s = .ok () (s.tick.emit e) := (rfl)
@[simp] theorem atStep_run (n : Nat) : atStep n s = .ok () (s.setStep n) := (rfl)
@[simp] theorem raise_run (x : Exn) (info : Info) : raise x info s = .ok () (s.raise x info) := (rfl)
@[simp] theorem release_run (c : List Chunk) : release c s = .ok () (s.emit (.release c)) := (rfl)

@[simp] theorem regReadFlags_run : regReadFlags s = .ok s.tick.chip.iflags (s.tick.emit (.regRead .iflag)) := (rfl)

@[simp] theorem regReadBit_run (r : Reg) (b : BitName) :
    regReadBit r b s = .ok (s.tick.chip.bit b) (s.tick.emit (.regRead r)) := (rfl)

@[simp] theorem regWrite_run (r : Reg) (v : Word) :
    regWrite r v s
      = .ok () ((s.tick.emit (.regWrite r v)).onChip (fun c => c.writeWord s.tick.cfg.regmap r v)) := (rfl)

@[simp] theorem regSet_run (r : Reg) (bs : List BitName) :
    regSet r bs s = .ok () ((s.tick.emit (.regSet r (bitsMask s.cfg.regmap bs))).onChip (·.setBits bs)) := (rfl)

@[simp] theorem regClear_run (r : Reg) (bs : List BitName) :
    regClear r bs s = .ok () ((s.tick.emit (.regClear r (bitsMask s.cfg.regmap bs))).onChip (·.clearBits bs)) := (rfl)

@[simp] theorem memRead_run (addr n : Nat) :
    memRead addr n s =
      if addr + n ≤ s.tick.cfg.memSize then .ok (s.tick.mem.readBytes addr n) (s.tick.emit (.memRead addr n))
      else .error (.fault .memoryBounds) (s.tick.emit (.memRead addr n)) := by
  unfold memRead
  rw [op_bind, access_run]
  simp only [op_bind, op_get, State.emit_cfg, State.emit_mem, op_ite, op_pure, op_throw]

@[simp] theorem memWrite_run (addr : Nat) (bytes : List Byte) :
    memWrite addr bytes s =
      if addr + bytes.length ≤ s.tick.cfg.memSize then
        .ok () { s.tick.emit (.memWrite addr bytes) with mem := s.tick.mem.writeBytes addr bytes }
      else .error (.fault .memoryBounds) (s.tick.emit (.memWrite addr bytes)) := by
  unfold memWrite
  rw [op_bind, access_run]
  simp only [op_bind, op_get, State.emit_cfg, State.emit_mem, op_ite, op_set, op_throw]

@[simp] theorem alloc_run (cls : ChunkClass) :
    alloc cls s = .ok s.nextGrant.1 (s.nextGrant.2.emit (.alloc cls s.nextGrant.1)) := (rfl)

@[simp] theorem resolve_run (dest : BitVec 32) (bytes : List Byte) :
    resolve dest bytes s = .ok s.nextAddress.1
      (s.nextAddress.2.emit (.resolve dest s.nextAddress.1 (if s.nextAddress.1.isNone then bytes else []))) := (rfl)

@[simp] theorem call_run (op : OpName) (body : Op α) :
    call op body s = match body (s.pushFrame op) with
      | .ok a t => .ok a t.popFrame
      | .error e t => .error e t := by
  unfold call
  rw [op_bind, update_run]
  simp only [op_bind, update_run, op_pure]

end Run

/-! ### The oracles -/

/-- The allocator's answer touches its own list of answers, or the count of free values. -/
theorem State.nextGrant_cons {s : State} {a : Bool} {rest : List Bool} (h : s.allocAnswers = a :: rest) :
    s.nextGrant = (a, { s with allocAnswers := rest }) := by simp only [State.nextGrant, h]

theorem State.nextGrant_nil {s : State} (h : s.allocAnswers = []) :
    s.nextGrant = (Config.freeGrant s.freeCount, { s with freeCount := s.freeCount + 1 }) := by
  simp only [State.nextGrant, h]

theorem State.nextAddress_cons {s : State} {a : Option MacAddr} {rest : List (Option MacAddr)}
    (h : s.resolveAnswers = a :: rest) : s.nextAddress = (a, { s with resolveAnswers := rest }) := by
  simp only [State.nextAddress, h]

theorem State.nextAddress_nil {s : State} (h : s.resolveAnswers = []) :
    s.nextAddress = (Config.freeResolve s.freeCount, { s with freeCount := s.freeCount + 1 }) := by
  simp only [State.nextAddress, h]

/-- Everything an allocator answer can change. -/
theorem State.nextGrant_frame (s : State) :
    ∃ l n, s.nextGrant.2 = { s with allocAnswers := l, freeCount := n } := by
  cases h : s.allocAnswers with
  | nil => exact ⟨_, _, by rw [State.nextGrant_nil h]⟩
  | cons a rest => exact ⟨_, _, by rw [State.nextGrant_cons h]⟩

/-- Everything a resolver answer can change. -/
theorem State.nextAddress_frame (s : State) :
    ∃ l n, s.nextAddress.2 = { s with resolveAnswers := l, freeCount := n } := by
  cases h : s.resolveAnswers with
  | nil => exact ⟨_, _, by rw [State.nextAddress_nil h]⟩
  | cons a rest => exact ⟨_, _, by rw [State.nextAddress_cons h]⟩

/-- With nothing more to come the packet loop does not end its step. -/
theorem State.moreToCome_none {s : State} (h : s.again = []) : s.moreToCome = false := by simp [State.moreToCome, h]

/-- With nothing lined up the other agents do not move. -/
theorem State.tick_quiet {s : State} (h : s.agenda = []) : s.tick = s := by simp only [State.tick, h]

/-! ### The triple -/

/-- From every state that meets `P`, the operation ends with a value and a state that meet `Q`, or is held in a state
that meets `H`; it stops with a fault only where `F` allows faults. -/
def Op.Meets {α : Type} (P : State → Prop) (op : Op α) (Q : α → State → Prop) (H : State → Prop)
    (F : Prop := False) : Prop :=
  ∀ s, P s → match op s with
    | .ok a t => Q a t
    | .error .held t => H t
    | .error (.fault _) _ => F

section Meets

variable {α β : Type} {P : State → Prop} {Q : α → State → Prop} {H : State → Prop} {F : Prop}

theorem Op.meets_pure {a : α} (h : ∀ s, P s → Q a s) : Op.Meets P (pure a) Q H F := fun s hs => h s hs

theorem Op.Meets.bind {x : Op α} {f : α → Op β} {R : β → State → Prop} (hx : Op.Meets P x Q H F)
    (hf : ∀ a, Op.Meets (Q a) (f a) R H F) : Op.Meets P (x >>= f) R H F := by
  intro s hs
  have h := hx s hs
  rw [op_bind]
  cases hxs : x s with
  | ok a t => rw [hxs] at h; exact hf a t h
  | error e t => rw [hxs] at h; cases e <;> exact h

theorem Op.Meets.weaken {x : Op α} {P' : State → Prop} {Q' : α → State → Prop} {H' : State → Prop}
    (h : Op.Meets P x Q H F) (hp : ∀ s, P' s → P s) (hq : ∀ a s, Q a s → Q' a s) (hh : ∀ s, H s → H' s) :
    Op.Meets P' x Q' H' F := by
  intro s hs
  have := h s (hp s hs)
  cases hxs : x s with
  | ok a t => rw [hxs] at this; exact hq a t this
  | error e t => rw [hxs] at this; cases e; exact hh t this; exact this

theorem Op.meets_update {f : State → State} {Q : PUnit → State → Prop} (h : ∀ s, P s → Q ⟨⟩ (f s)) :
    Op.Meets P (update f) Q H F := fun s hs => h s hs

theorem Op.meets_get {Q : State → State → Prop} (h : ∀ s, P s → Q s s) : Op.Meets P (get : Op State) Q H F :=
  fun s hs => h s hs

theorem Op.meets_ite {c : Prop} [Decidable c] {x y : Op α} (hx : c → Op.Meets P x Q H F)
    (hy : ¬ c → Op.Meets P y Q H F) :
    Op.Meets P (if c then x else y) Q H F := by
  split
  · exact hx ‹_›
  · exact hy ‹_›

theorem Op.meets_onlyIf {b : Bool} {x : Op Unit} {P : State → Prop} {H : State → Prop}
    (hx : b = true → Op.Meets P x (fun _ => P) H F) : Op.Meets P (onlyIf b x) (fun _ => P) H F := by
  cases b
  · exact fun s hs => hs
  · exact hx rfl

/-- A called operation: what its body does between the push and the pop of its frame. -/
theorem Op.meets_call {op : OpName} {body : Op α}
    (h : Op.Meets (fun t => ∃ s, P s ∧ t = s.pushFrame op) body (fun a t => Q a t.popFrame) H F) :
    Op.Meets P (call op body) Q H F := by
  intro s hs
  have := h (s.pushFrame op) ⟨s, hs, rfl⟩
  rw [call_run]
  cases hb : body (s.pushFrame op) with
  | ok a t => rw [hb] at this; exact this
  | error e t => rw [hb] at this; cases e <;> exact this

end Meets

/-! ### How a command ends -/

@[simp] theorem outcomeOf_ok {α : Type} (a : α) (t : State) : outcomeOf (.ok a t) = .next t := (rfl)
@[simp] theorem outcomeOf_held {α : Type} (t : State) :
    outcomeOf (.error .held t : EStateM.Result Stop State α) = .next t := (rfl)
@[simp] theorem outcomeOf_fault {α : Type} (f : Fault) (t : State) :
    outcomeOf (.error (.fault f) t : EStateM.Result Stop State α) = .fault f := (rfl)

/-- A command from an idle block. -/
theorem runCommand_run {op : OpName} {body : Op Result} {s : State} (h : s.seq = []) :
    runCommand op body s = match body (s.beginCommand op) with
      | .ok r t => .next (t.finish r)
      | .error .held t => .next t
      | .error (.fault f) _ => .fault f := by
  simp only [runCommand, h, if_true, op_bind]
  cases body (s.beginCommand op) with
  | ok r t => rfl
  | error e t => cases e <;> rfl

/-- A command while an operation runs (R90). -/
theorem runCommand_notIdle {op : OpName} {body : Op Result} {s : State} (h : s.seq ≠ []) :
    runCommand op body s = .refused .notIdle := by simp only [runCommand, h, if_false]

theorem runProbed_probed {op : OpName} {body : Op Result} {s : State} (h : s.ctx.probed = true) :
    runProbed op body s = runCommand op body s := by simp [runProbed, h]

theorem runProbed_unprobed {op : OpName} {body : Op Result} {s : State} (hs : s.seq = [])
    (h : s.ctx.probed = false) : runProbed op body s = .next (s.turnAway .notProbed .none) := by
  simp [runProbed, h, hs]

theorem runProbedPacket_probed {op : OpName} {pkt : Packet} {body : Op Result} {s : State} (h : s.ctx.probed = true) :
    runProbedPacket op pkt body s = runCommand op body s := by simp [runProbedPacket, h]

theorem runProbedPacket_unprobed {op : OpName} {pkt : Packet} {body : Op Result} {s : State} (hs : s.seq = [])
    (h : s.ctx.probed = false) :
    runProbedPacket op pkt body s = .next ((s.emit (.release pkt)).turnAway .notProbed .none) := by
  simp [runProbedPacket, h, hs]

/-- In request context the end of an operation is the end of the command. -/
theorem State.finish_request {s : State} {r : Result} (h : s.context = some .request) :
    s.finish r = s.endCommand r := by simp only [State.finish, h]

theorem State.finish_interrupt {s : State} {r : Result} (h : s.context = some .interrupt) :
    s.finish r = s.endInterrupt := by simp only [State.finish, h]

/-! ### Waiting and draining with no other agent moving -/

/-- A wait whose bit reads as wanted at once, with at least one poll allowed. -/
theorem waitUntil_met {s : State} {r : Reg} {b : BitName} {want : Bool} (hq : s.agenda = [])
    (hl : s.cfg.spinLimit ≠ some 0) (hb : s.chip.bit b = want) :
    waitUntil r b want s = .ok true (s.emit (.regRead r)) := by
  unfold waitUntil
  rw [op_bind, op_get]
  cases h : s.cfg.spinLimit with
  | none => simp only [h, op_bind, pollOrHold, regReadBit_run, State.tick_quiet hq, hb, hq, if_true, op_ite, op_pure,
      List.length_nil]
  | some k =>
    cases k with
    | zero => exact absurd h hl
    | succ k => simp only [h, op_bind, pollOrFault, regReadBit_run, State.tick_quiet hq, hb, if_true, op_ite, op_pure]

/-- A wait with no bound whose bit does not read as wanted is held (R292). -/
theorem waitUntil_held {s : State} {r : Reg} {b : BitName} {want : Bool} (hq : s.agenda = [])
    (hl : s.cfg.spinLimit = none) (hb : s.chip.bit b ≠ want) :
    waitUntil r b want s = .error .held (s.emit (.regRead r)) := by
  unfold waitUntil
  rw [op_bind, op_get]
  simp only [hl, op_bind, pollOrHold, regReadBit_run, State.tick_quiet hq, hb, hq, if_false, op_ite, op_throw,
    List.length_nil]

/-- A bounded wait whose bit does not read as wanted ends in `HardwareFault` after its polls (R292, R260). -/
theorem waitUntil_fault {s : State} {r : Reg} {b : BitName} {want : Bool} {k : Nat} (hq : s.agenda = [])
    (hl : s.cfg.spinLimit = some k) (hb : s.chip.bit b ≠ want) :
    waitUntil r b want s
      = .ok false (({ s with trace := List.replicate k (.regRead r) ++ s.trace } : State).raise .hardwareFault (.flag b)) := by
  unfold waitUntil
  rw [op_bind, op_get]
  simp only [hl]
  clear hl
  induction k generalizing s with
  | zero => simp only [pollOrFault, op_bind, raise_run, op_pure, List.replicate_zero, List.nil_append]
  | succ k ih =>
    simp only [pollOrFault, op_bind, regReadBit_run, State.tick_quiet hq, hb, if_false, op_ite]
    rw [ih (s := s.emit (.regRead r)) hq hb]
    simp only [State.emit, List.replicate_succ', List.append_assoc, List.singleton_append]

/-- The drain with no other agent moving: it ends, the counter is 0, and nothing else has changed but the trace. -/
theorem drainRounds_quiet {s : State} {n : Nat} (hq : s.agenda = []) (hn : s.chip.pktcnt < n) :
    ∃ tr, drainRounds n s = .ok () { s with chip := { s.chip with pktcnt := 0 }, trace := tr ++ s.trace }
      ∧ outputs tr = [] := by
  induction n generalizing s with
  | zero => omega
  | succ n ih =>
    unfold drainRounds
    simp only [op_bind, regReadBit_run, State.tick_quiet hq]
    by_cases h : s.chip.pktcnt = 0
    · refine ⟨[.regRead .iflag], ?_⟩
      have hc : ({ s.chip with pktcnt := 0 } : Chip) = s.chip := by rw [← h]
      have hb : s.chip.bit .iflagPkt = false := by simp [Chip.bit, Chip.pktFlag, h]
      simp only [hb, Bool.false_eq_true, if_false, op_pure, hc]
      exact ⟨rfl, rfl⟩
    · have hb : s.chip.bit .iflagPkt = true := by simp [Chip.bit, Chip.pktFlag]; omega
      simp only [hb, if_true, op_bind, regSet_run]
      have hq' : (s.emit (.regRead .iflag)).agenda = [] := hq
      simp only [State.tick_quiet hq']
      obtain ⟨tr, htr, ho⟩ := ih (s := ((s.emit (.regRead .iflag)).emit
          (.regSet .ctl (bitsMask (s.emit (.regRead .iflag)).cfg.regmap [.ctlPktdec]))).onChip
            (·.setBits [.ctlPktdec])) hq
          (by simp only [State.onChip_chip, State.emit_chip, Chip.setBits, List.foldl, Chip.setBit, Chip.pktdec]; omega)
      refine ⟨tr ++ [.regSet .ctl (bitsMask s.cfg.regmap [.ctlPktdec]), .regRead .iflag], ?_, ?_⟩
      rotate_left
      · rw [outputs, List.filter_append, ← outputs, ho]
        rfl
      rw [htr]
      simp [State.emit, State.onChip, Chip.setBits, Chip.setBit, Chip.pktdec]

theorem drain_quiet {s : State} (hq : s.agenda = []) :
    ∃ tr, drain s = .ok () { s with chip := { s.chip with pktcnt := 0 }, trace := tr ++ s.trace } ∧ outputs tr = [] := by
  unfold drain
  rw [op_bind, op_get]
  exact drainRounds_quiet hq (by simp only [State.pktRounds]; omega)

end Sys2Proof.Machine
end

