-- ==== Sys2Proof/Laws/Quiet.lean ====
section
/-! SUPPORT. Operations with no other agent moving: what each one computes, one lemma per operation, up to the order of
its accesses and the step of its own frame. -/

namespace Sys2Proof.Machine

/-! ### Running to a value -/

/-- A state but for its sequencer and its trace. -/
def State.core (s : State) : State := { s with seq := [], trace := [] }

/-- A state with another sequencer and another trace. -/
def State.rejoin (s : State) (q : List Frame) (tr : List TraceEvent) : State := { s with seq := q, trace := tr }

/-- From `s` the operation returns `a`: `t` says the state it leaves but for sequencer and trace, only the top frame of
the sequencer has changed, and the output events are `out`, newest first. -/
def Quiet {α : Type} (x : Op α) (s : State) (a : α) (t : State) (out : List TraceEvent) : Prop :=
  ∃ u g entries, x s = .ok a u ∧ u.core = t.core ∧ u.seq = s.seq.modifyHead g ∧ u.trace = entries ++ s.trace
    ∧ outputs entries = out

section Quiet

variable {α β : Type} {s t u : State} {a : α} {b : β} {out out' : List TraceEvent}

@[simp] theorem outputs_append (l m : List TraceEvent) : outputs (l ++ m) = outputs l ++ outputs m :=
  List.filter_append ..

theorem modifyHead_id (l : List Frame) : l.modifyHead id = l := by cases l <;> rfl

/-- Equal cores and equal outputs say the same. -/
theorem Quiet.to {x : Op α} {b : α} (h : Quiet x s a t out) (ha : a = b) (ht : t.core = u.core) (ho : out = out') :
    Quiet x s b u out' := by
  subst ha ho
  obtain ⟨v, g, entries, h1, h2, h3, h4, h5⟩ := h
  exact ⟨v, g, entries, h1, h2.trans ht, h3, h4, h5⟩

theorem quiet_pure : Quiet (pure a : Op α) s a s [] :=
  ⟨s, id, [], rfl, rfl, (modifyHead_id _).symm, rfl, rfl⟩

theorem quiet_get : Quiet (get : Op State) s s s [] :=
  ⟨s, id, [], rfl, rfl, (modifyHead_id _).symm, rfl, rfl⟩

/-- What follows runs from the state reached, with whatever sequencer and trace there are by then. -/
theorem Quiet.bind {x : Op α} {f : α → Op β} (hx : Quiet x s a t out)
    (hf : ∀ q tr, Quiet (f a) (t.rejoin q tr) b u out') : Quiet (x >>= f) s b u (out' ++ out) := by
  obtain ⟨v, g, entries, h1, h2, h3, h4, h5⟩ := hx
  have hv : v = t.rejoin v.seq v.trace := by
    cases v; cases t; simp only [State.core, State.rejoin, State.mk.injEq] at h2 ⊢; simp only [h2, and_self]
  obtain ⟨w, g', entries', k1, k2, k3, k4, k5⟩ := hf v.seq v.trace
  refine ⟨w, g' ∘ g, entries' ++ entries, ?_, k2, ?_, ?_, ?_⟩
  · rw [op_bind, h1, hv]
    exact k1
  · rw [k3, h3]
    cases s.seq <;> rfl
  · rw [List.append_assoc, ← h4]
    exact k4
  · rw [outputs_append, k5, h5]

/-- A test that fails. -/
theorem quiet_ite_neg {c : Prop} [Decidable c] {x y : Op α} (hc : ¬ c) (h : Quiet y s a t out) :
    Quiet (if c then x else y) s a t out := by
  rwa [if_neg hc]

/-- A test that holds. -/
theorem quiet_ite_pos {c : Prop} [Decidable c] {x y : Op α} (hc : c) (h : Quiet x s a t out) :
    Quiet (if c then x else y) s a t out := by
  rwa [if_pos hc]

/-- The same where the first part says nothing. -/
theorem Quiet.then {x : Op α} {f : α → Op β} (hx : Quiet x s a t [])
    (hf : ∀ q tr, Quiet (f a) (t.rejoin q tr) b u out') : Quiet (x >>= f) s b u out' := by
  simpa using hx.bind hf

/-- An update of anything but sequencer and trace. -/
theorem quiet_update {f : State → State} (h1 : (f s).seq = s.seq) (h2 : (f s).trace = s.trace) :
    Quiet (update f) s () (f s) [] :=
  ⟨f s, id, [], rfl, rfl, h1.trans (modifyHead_id _).symm, h2, rfl⟩

theorem quiet_atStep (n : Nat) : Quiet (atStep n) s () s [] := ⟨s.setStep n, _, [], rfl, rfl, rfl, rfl, rfl⟩

theorem Quiet.call {op : OpName} {body : Op α} (h : Quiet body (s.pushFrame op) a t out) :
    Quiet (call op body) s a t out := by
  obtain ⟨v, g, entries, h1, h2, h3, h4, h5⟩ := h
  refine ⟨v.popFrame, id, entries, ?_, h2, ?_, h4, h5⟩
  · rw [call_run, h1]
  · rw [State.popFrame_seq, h3]
    exact (modifyHead_id _).symm

theorem quiet_regReadFlags (hq : s.agenda = [] := by assumption) : Quiet regReadFlags s s.chip.iflags s [] :=
  ⟨s.emit (.regRead .iflag), id, [.regRead .iflag], by rw [regReadFlags_run, State.tick_quiet hq], rfl,
    (modifyHead_id _).symm, rfl, rfl⟩

theorem quiet_regReadBit (r : Reg) (b : BitName)
    (hq : s.agenda = [] := by assumption) : Quiet (regReadBit r b) s (s.chip.bit b) s [] :=
  ⟨s.emit (.regRead r), id, [.regRead r], by rw [regReadBit_run, State.tick_quiet hq], rfl,
    (modifyHead_id _).symm, rfl, rfl⟩

theorem quiet_regWrite (r : Reg) (v : Word) (hq : s.agenda = [] := by assumption) :
    Quiet (regWrite r v) s () (s.onChip (fun c => c.writeWord s.cfg.regmap r v)) [] := by
  have h' := regWrite_run s r v
  rw [State.tick_quiet hq] at h'
  exact ⟨_, id, [.regWrite r v], h', rfl, (modifyHead_id _).symm, rfl, rfl⟩

theorem quiet_regSet (r : Reg) (bs : List BitName)
    (hq : s.agenda = [] := by assumption) : Quiet (regSet r bs) s () (s.onChip (·.setBits bs)) [] := by
  have h' := regSet_run s r bs
  rw [State.tick_quiet hq] at h'
  exact ⟨_, id, [.regSet r (bitsMask s.cfg.regmap bs)], h', rfl, (modifyHead_id _).symm, rfl, rfl⟩

theorem quiet_regClear (r : Reg) (bs : List BitName)
    (hq : s.agenda = [] := by assumption) : Quiet (regClear r bs) s () (s.onChip (·.clearBits bs)) [] := by
  have h' := regClear_run s r bs
  rw [State.tick_quiet hq] at h'
  exact ⟨_, id, [.regClear r (bitsMask s.cfg.regmap bs)], h', rfl, (modifyHead_id _).symm, rfl, rfl⟩

theorem quiet_memRead {addr n : Nat} (h : addr + n ≤ s.cfg.memSize)
    (hq : s.agenda = [] := by assumption) :
    Quiet (memRead addr n) s (s.mem.readBytes addr n) s [] :=
  ⟨s.emit (.memRead addr n), id, [.memRead addr n], by rw [memRead_run, State.tick_quiet hq, if_pos h], rfl,
    (modifyHead_id _).symm, rfl, rfl⟩

theorem quiet_memWrite {addr : Nat} {bytes : List Byte} (h : addr + bytes.length ≤ s.cfg.memSize)
    (hq : s.agenda = [] := by assumption) :
    Quiet (memWrite addr bytes) s () { s with mem := s.mem.writeBytes addr bytes } [] := by
  have h' := memWrite_run s addr bytes
  rw [State.tick_quiet hq, if_pos h] at h'
  exact ⟨_, id, [.memWrite addr bytes], h', rfl, (modifyHead_id _).symm, rfl, rfl⟩

/-- A wait whose bit reads as wanted (R292). -/
theorem quiet_waitUntil {r : Reg} {b : BitName} {want : Bool} (hl : s.cfg.spinLimit ≠ some 0)
    (hb : s.chip.bit b = want) (hq : s.agenda = [] := by assumption) : Quiet (waitUntil r b want) s true s [] :=
  ⟨s.emit (.regRead r), id, [.regRead r], waitUntil_met hq hl hb, rfl, (modifyHead_id _).symm, rfl, rfl⟩

/-- A bounded wait whose bit does not read as wanted (R292, R260). -/
theorem quiet_waitUntil_fault {r : Reg} {b : BitName} {want : Bool} {k : Nat} (hl : s.cfg.spinLimit = some k)
    (hb : s.chip.bit b ≠ want)
    (hq : s.agenda = [] := by assumption) : Quiet (waitUntil r b want) s false s [.raised .hardwareFault (.flag b)] := by
  refine ⟨_, id, .raised .hardwareFault (.flag b) :: List.replicate k (.regRead r), waitUntil_fault hq hl hb, rfl,
    (modifyHead_id _).symm, rfl, ?_⟩
  simp only [outputs, List.filter_cons, TraceEvent.isOutput, List.filter_replicate, Bool.false_eq_true, if_true, if_false]

/-- With a limit of no poll the wait fails whatever the bit is (R292). -/
theorem quiet_waitUntil_never {r : Reg} {b : BitName} {want : Bool} (hl : s.cfg.spinLimit = some 0) :
    Quiet (waitUntil r b want) s false s [.raised .hardwareFault (.flag b)] := by
  refine ⟨s.raise .hardwareFault (.flag b), id, [.raised .hardwareFault (.flag b)], ?_, rfl,
    (modifyHead_id _).symm, rfl, rfl⟩
  unfold waitUntil
  simp only [op_bind, op_get, hl, pollOrFault, raise_run, op_pure]

theorem quiet_release (c : List Chunk) : Quiet (release c) s () s [.release c] :=
  ⟨_, id, [.release c], rfl, rfl, (modifyHead_id _).symm, rfl, rfl⟩

theorem quiet_raise (x : Exn) (info : Info) : Quiet (raise x info) s () (x.count s) [.raised x info] := by
  refine ⟨s.raise x info, id, [.raised x info], rfl, ?_, ?_, ?_, rfl⟩ <;> cases x <;>
    first
      | rfl
      | exact (modifyHead_id _).symm

theorem quiet_alloc (cls : ChunkClass) : Quiet (alloc cls) s s.nextGrant.1 s.nextGrant.2 [] := by
  obtain ⟨l, n, h⟩ := s.nextGrant_frame
  refine ⟨_, id, [.alloc cls s.nextGrant.1], alloc_run s cls, rfl, ?_, ?_, rfl⟩
  · rw [State.emit_seq, h]
    exact (modifyHead_id _).symm
  · rw [State.emit_trace, h]
    rfl

theorem quiet_resolve (dest : BitVec 32) (bytes : List Byte) :
    Quiet (resolve dest bytes) s s.nextAddress.1 s.nextAddress.2 [] := by
  obtain ⟨l, n, h⟩ := s.nextAddress_frame
  refine ⟨_, id, [.resolve dest s.nextAddress.1 (if s.nextAddress.1.isNone then bytes else [])],
    resolve_run s dest bytes, rfl, ?_, ?_, rfl⟩
  · rw [State.emit_seq, h]
    exact (modifyHead_id _).symm
  · rw [State.emit_trace, h]
    rfl

end Quiet

/-! ### The operations -/

section Operations

variable {s : State}

/-- R186. -/
theorem quiet_drain (hq : s.agenda = [] := by assumption) :
    Quiet drain s () { s with chip := { s.chip with pktcnt := 0 } } [] := by
  obtain ⟨tr, h, ho⟩ := drain_quiet hq
  exact ⟨_, id, tr, h, rfl, (modifyHead_id _).symm, rfl, ho⟩

/-- R187. -/
theorem quiet_resetRing (hq : s.agenda = [] := by assumption) :
    Quiet resetRing s ()
      { s.setReadPointer s.cfg.rxStart with
        chip := { s.chip with
          rxst := BitVec.ofNat 16 s.cfg.rxStart
          rxhead := BitVec.ofNat 16 s.cfg.rxStart
          rxtail := BitVec.ofNat 16 (s.cfg.rxEnd - 2) } } [] :=
  quiet_get.then fun _ _ => (quiet_regWrite _ _).then fun _ _ => (quiet_regWrite _ _).then fun _ _ =>
    (quiet_update rfl rfl).to rfl rfl rfl

theorem quiet_recoverFromWait (hb : s.chip.rxbusy = false) (hl : s.cfg.spinLimit ≠ some 0)
    (hq : s.agenda = [] := by assumption) : Quiet recoverFromWait s () s.recoveredFromWait [] := by
  refine (quiet_atStep 5).then fun _ _ => (quiet_waitUntil (by exact hl) (by exact hb)).then fun _ _ => ?_
  exact (quiet_atStep 6).then fun _ _ => Quiet.then quiet_drain fun _ _ => (quiet_atStep 7).then fun _ _ =>
    Quiet.then quiet_resetRing fun _ _ => (quiet_atStep 8).then fun _ _ => (quiet_update rfl rfl).then fun _ _ =>
    (quiet_atStep 9).then fun _ _ => (quiet_regSet _ _).then fun _ _ => (quiet_update rfl rfl).then fun _ _ =>
    (quiet_atStep 10).to rfl (by
      simp only [State.core, State.rejoin, State.onChip, State.setReadPointer, State.recoveredFromWait, Chip.setBits,
        List.foldl, Chip.setBit, Chip.storeBit]) rfl

/-- `RECOVER`, its full path (R180). -/
theorem quiet_recover (hc : s.ctx.resetCounter < s.cfg.maxResets) (hb : s.chip.rxbusy = false)
    (hl : s.cfg.spinLimit ≠ some 0) (hq : s.agenda = [] := by assumption) :
    Quiet recoverBody s () s.recovered [] := by
  have hn : ¬ s.cfg.maxResets < s.ctx.resetCounter + 1 := by omega
  exact (quiet_atStep 1).then fun _ _ => (quiet_regClear _ _).then fun _ _ => (quiet_atStep 2).then fun _ _ =>
    (quiet_update rfl rfl).then fun _ _ => (quiet_atStep 3).then fun _ _ => (quiet_update rfl rfl).then fun _ _ =>
    (quiet_atStep 4).then fun _ _ => quiet_get.then fun _ _ => quiet_ite_neg hn
      ((quiet_recoverFromWait (by exact hb) (by exact hl)).to rfl (by
        simp only [State.core, State.rejoin, State.onChip, State.recoveredFromWait, State.recovered,
          State.countRecovery, Chip.clearBits, List.foldl, Chip.clearBit, Chip.storeBit]) rfl)

end Operations

end Sys2Proof.Machine
end

