-- ==== Sys2Proof/Laws/Commands.lean ====
section
/-! SUPPORT. From a quiet operation to the command that runs it, the bytes of the ring, and `READ_BYTES`. -/

namespace Sys2Proof.Machine

/-- A command from an idle block completes as its body does (R29). -/
theorem completes_runCommand {op : OpName} {body : Op Result} {s t : State} {r : Result} {out : List TraceEvent}
    (hs : s.seq = []) (h : Quiet body (s.beginCommand op) r t out) (hc : t.context = some .request) :
    Completes (runCommand op body s) s (t.endCommand r) out := by
  obtain ⟨v, g, entries, h1, h2, -, h4, h5⟩ := h
  have hv : v.context = some .request := (congrArg State.context h2).trans hc
  refine ⟨entries, v.endCommand r, ?_, ?_, h4, h5⟩
  · rw [runCommand_run hs, h1]
    exact congrArg _ (State.finish_request hv)
  · have := congrArg (fun c => (State.endCommand r c).untraced) h2
    exact this

/-- Equal states but for the trace, and equal outputs, say the same. -/
theorem Completes.to {o : Host.Outcome State Fault Refusal} {s t u : State} {out out' : List TraceEvent}
    (h : Completes o s t out) (ht : t.untraced = u.untraced) (ho : out = out') : Completes o s u out' := by
  subst ho
  obtain ⟨e, v, h1, h2, h3⟩ := h
  exact ⟨e, v, h1, h2.trans ht, h3⟩

theorem Quiet.map {α β : Type} {x : Op α} {s t : State} {a : α} {out : List TraceEvent} {f : α → β}
    (h : Quiet x s a t out) : Quiet (do let r ← x; return f r) s (f a) t out := by
  have := h.bind (f := fun r => (pure (f r) : Op β)) (b := f a) (u := t) (out' := [])
    (fun q tr => (quiet_pure).to rfl rfl rfl)
  simpa using this

theorem ringAddr_add_ringSize (p : Params) (a : Int) : ringAddr p (a + p.ringSize) = ringAddr p a := by
  unfold ringAddr
  rw [show a + (p.ringSize : Int) - p.rxStart = a - p.rxStart + p.ringSize by omega, Int.add_emod_right]

theorem ringAddr_ringAddr (p : Params) (hr : p.rxStart < p.rxEnd) (a b : Int) :
    ringAddr p ((ringAddr p a : Nat) + b) = ringAddr p (a + b) := by
  unfold ringAddr
  have : (0:Int) < p.ringSize := by simp only [Params.ringSize]; omega
  have h0 := Int.emod_nonneg (a - p.rxStart) (b := p.ringSize) (by omega)
  congr 2
  push_cast
  rw [Int.toNat_of_nonneg h0,
    show (p.rxStart : Int) + (a - p.rxStart) % p.ringSize + b - p.rxStart = (a - p.rxStart) % p.ringSize + b by omega,
    Int.emod_add_emod]
  congr 1
  omega

theorem State.length_ringBytes (s : State) (p n : Nat) : (s.ringBytes p n).length = n := by simp [State.ringBytes]

theorem State.ringBytes_add (s : State) (p n m : Nat) :
    s.ringBytes p (n + m) = s.ringBytes p n ++ s.ringBytes (p + n) m := by
  simp [State.ringBytes, List.range_add, Int.add_assoc, Function.comp_def]

theorem State.ringBytes_start (s : State) {p q : Nat}
    (h : ∀ i : Nat, ringAddr s.cfg.toParams (p + i) = ringAddr s.cfg.toParams (q + i)) (n : Nat) :
    s.ringBytes p n = s.ringBytes q n := by
  simp [State.ringBytes, h]

/-- A run of bytes that does not wrap is read straight. -/
theorem State.ringBytes_straight (s : State) {p n : Nat} (hp : s.cfg.rxStart ≤ p) (hn : p + n ≤ s.cfg.rxEnd) :
    s.mem.readBytes p n = s.ringBytes p n := by
  refine List.map_congr_left fun i hi => ?_
  have := List.mem_range.1 hi
  have := ringAddr_of_inRing s.cfg.toParams (a := p + i) ⟨by omega, by omega⟩
  push_cast at this
  rw [this]

/-- The wrap loop of R120. -/
theorem quiet_readWrapped {s : State} {rounds rest : Nat} (h : rest ≤ rounds)
    (hq : s.agenda = [] := by assumption) :
    Quiet (readWrapped rounds rest) s (s.ringBytes s.cfg.rxStart rest) s [] := by
  have hring := config_ring s.cfg
  induction rounds generalizing rest s with
  | zero => 
    obtain rfl : rest = 0 := by omega
    exact quiet_pure
  | succ k ih =>
    unfold readWrapped
    by_cases h0 : rest = 0
    · subst h0
      exact quiet_ite_pos rfl quiet_pure
    refine quiet_ite_neg h0 (quiet_get.then fun _ _ => (quiet_atStep 7).then fun _ _ =>
      (quiet_memRead ?_).then fun q tr => Quiet.then (ih (rest := rest - min rest s.cfg.ringSize)
        (s := s.rejoin q tr) ?_ hq hring) fun _ _ => quiet_pure.to ?_ rfl rfl)
    · simp only [Params.ringSize, State.rejoin]
      omega
    · simp only [Params.ringSize]
      omega
    · show s.mem.readBytes s.cfg.rxStart (min rest s.cfg.ringSize)
        ++ s.ringBytes s.cfg.rxStart (rest - min rest s.cfg.ringSize) = s.ringBytes s.cfg.rxStart rest
      rw [s.ringBytes_straight (Nat.le_refl _) (by simp only [Params.ringSize]; omega)]
      conv_rhs =>
        rw [show rest = min rest s.cfg.ringSize + (rest - min rest s.cfg.ringSize) by omega, State.ringBytes_add]
      congr 1
      by_cases hle : rest ≤ s.cfg.ringSize
      · rw [show rest - min rest s.cfg.ringSize = 0 by omega]
        rfl
      · rw [show min rest s.cfg.ringSize = s.cfg.ringSize by omega]
        refine s.ringBytes_start (fun i => ?_) _
        rw [← ringAddr_add_ringSize]
        congr 1
        push_cast
        omega

/-- `READ_BYTES` (R120, R122). -/
theorem quiet_readBytesBody {s : State} {n : Nat} (hp : InRing s.cfg.toParams s.pointer)
    (hq : s.agenda = [] := by assumption) :
    Quiet (readBytesBody n) s (s.ringBytes s.pointer n)
      (s.setReadPointer (ringAddr s.cfg.toParams (s.pointer + n))) [] := by
  have h2 := hp.2
  have hring := config_ring s.cfg
  have hm : s.pointer + min n (s.cfg.rxEnd - s.pointer) ≤ s.cfg.memSize := by omega
  have ht : s.mem.readBytes s.pointer (min n (s.cfg.rxEnd - s.pointer))
      ++ s.ringBytes s.cfg.rxStart (n - min n (s.cfg.rxEnd - s.pointer)) = s.ringBytes s.pointer n := by
    rw [s.ringBytes_straight hp.1 (by omega)]
    conv_rhs =>
      rw [show n = min n (s.cfg.rxEnd - s.pointer) + (n - min n (s.cfg.rxEnd - s.pointer)) by omega,
        State.ringBytes_add]
    congr 1
    by_cases hle : n ≤ s.cfg.rxEnd - s.pointer
    · rw [show n - min n (s.cfg.rxEnd - s.pointer) = 0 by omega]
      rfl
    · refine s.ringBytes_start (fun i => ?_) _
      rw [← ringAddr_add_ringSize]
      congr 1
      have : s.cfg.toParams.ringSize = s.cfg.rxEnd - s.cfg.rxStart := rfl
      omega
  unfold readBytesBody
  refine (quiet_atStep 1).then fun _ _ => quiet_get.then fun _ _ => (quiet_atStep 2).then fun _ _ =>
    (quiet_atStep 3).then fun q tr => (quiet_memRead (s := s.rejoin q tr) hm hq).then fun _ _ =>
    (quiet_atStep 4).then fun _ _ =>
    (quiet_atStep 5).then fun q tr => (quiet_readWrapped (s := s.rejoin q tr) (Nat.le_refl _) hq).then fun _ _ =>
    (quiet_atStep 9).then fun _ _ =>
    (quiet_update rfl rfl).then fun _ _ => (quiet_atStep 10).then fun _ _ => quiet_pure.to ht rfl rfl

/-- The same for a command that touches the chip, on a probed card (R261). -/
theorem completes_chip {op : OpName} {body : Op Result} {s t : State} {r : Result} {out : List TraceEvent}
    (hs : s.Ready) (h : Quiet body (s.beginCommand op) r t out) (hc : t.context = some .request) :
    Completes (runProbed op body s) s (t.endCommand r) out := by
  rw [runProbed_probed hs.2]
  exact completes_runCommand hs.1.1 h hc

/-- `READ_BYTES` as it is called. -/
theorem quiet_readBytes {s : State} {n : Nat} (hp : InRing s.cfg.toParams s.pointer)
    (hq : s.agenda = [] := by assumption) :
    Quiet (readBytes n) s (s.ringBytes s.pointer n)
      (s.setReadPointer (ringAddr s.cfg.toParams (s.pointer + n))) [] :=
  (quiet_readBytesBody (s := s.pushFrame .readBytes) hp hq).call

/-- The chunks into which a payload is copied (R136, R139). -/
def payloadChunks (p : Params) : Nat → List Byte → List Chunk
  | 0, _ => []
  | n + 1, data =>
    if data = [] then []
    else
      let cls := chunkClassFor p data.length
      let m := min data.length (chunkCapacity p cls)
      ⟨cls, 0, data.take m⟩ :: payloadChunks p n (data.drop m)

/-- A granted chunk holds something (R14). -/
theorem capacity_pos (c : Config) (n : Nat) : 0 < chunkCapacity c.toParams (chunkClassFor c.toParams n) := by
  have := c.valid
  simp only [Params.Valid] at this
  simp only [chunkClassFor]
  split <;> simp only [chunkCapacity] <;> omega

/-- The chunks hold the payload. -/
theorem frameOf_payloadChunks (c : Config) {n : Nat} {data : List Byte} (h : data.length ≤ n) :
    frameOf (payloadChunks c.toParams n data) = data := by
  induction n generalizing data with
  | zero => obtain rfl := List.eq_nil_of_length_eq_zero (Nat.le_zero.1 h); rfl
  | succ n ih =>
    unfold payloadChunks
    by_cases h0 : data = []
    · rw [if_pos h0, h0]; rfl
    have hc := capacity_pos c data.length
    have hl : 0 < data.length := List.length_pos_iff.2 h0
    rw [if_neg h0]
    simp only [frameOf, List.flatMap_cons] at ih ⊢
    rw [ih (by rw [List.length_drop]; omega), List.take_append_drop]

theorem payloadChunks_length_le (c : Config) (n : Nat) (data : List Byte) :
    (payloadChunks c.toParams n data).length ≤ data.length := by
  induction n generalizing data with
  | zero => simp [payloadChunks]
  | succ n ih =>
    unfold payloadChunks
    by_cases h0 : data = []
    · simp [h0]
    have hc := capacity_pos c data.length
    have hl : 0 < data.length := List.length_pos_iff.2 h0
    rw [if_neg h0]
    have := ih (data.drop (min data.length (chunkCapacity c.toParams (chunkClassFor c.toParams data.length))))
    simp only [List.length_cons, List.length_drop] at this ⊢
    omega

/-- Each chunk is of the class and the length that the bytes still to copy ask for (R136). -/
theorem payloadChunks_shape (c : Config) {n : Nat} {data : List Byte} (h : data.length ≤ n) (k : Nat) (ch : Chunk)
    (hk : (payloadChunks c.toParams n data)[k]? = some ch) :
    let remaining := (frameOf ((payloadChunks c.toParams n data).drop k)).length
    ch.tagRoom = 0 ∧ ch.cls = chunkClassFor c.toParams remaining
      ∧ ch.data.length = min remaining (chunkCapacity c.toParams ch.cls) := by
  induction n generalizing data k with
  | zero => simp [payloadChunks] at hk
  | succ n ih =>
    have hf := frameOf_payloadChunks c h
    by_cases h0 : data = []
    · simp [h0, payloadChunks] at hk
    have hc := capacity_pos c data.length
    have hl : 0 < data.length := List.length_pos_iff.2 h0
    cases k with
    | zero =>
      simp only [List.drop_zero, hf]
      unfold payloadChunks at hk
      rw [if_neg h0] at hk
      simp at hk
      subst hk
      simp [List.length_take]
    | succ k =>
      unfold payloadChunks at hk ⊢
      rw [if_neg h0] at hk ⊢
      exact ih (by rw [List.length_drop]; omega) k (by simpa using hk)

end Sys2Proof.Machine
end

