-- ==== Sys2Proof/Laws/Environment.lean ====
section
/-! SUPPORT. What the other agents' moves keep: while an operation runs, all of the block's own state and the registers
that only the block writes; at any time, the configuration, the canonical memory, and the packet counter's bound; and the
host's keeping to the calls of R302. -/

namespace Sys2Proof.Machine

/-! ### The other agents between two events -/

/-- The registers that only the block writes (R241), every other field at a fixed value. -/
def Chip.blockOnly (c : Chip) : Chip :=
  { c with
    rxhead := 0, flags := ⟨false, false, false, false⟩, txrts := false, rxbusy := false, fcidle := false
    phydpx := false, phylnk := false, pktcnt := 0, fcassert := false }

/-- What a move of another agent never changes while an operation runs: the block's own state, apart from the port, and
the registers that only the block writes. -/
structure SameBlock (s t : State) : Prop where
  cfg : t.cfg = s.cfg
  ctx : t.ctx = s.ctx
  seq : t.seq = s.seq
  ipl : t.ipl = s.ipl
  savedIpl : t.savedIpl = s.savedIpl
  context : t.context = s.context
  sendq : t.sendq = s.sendq
  packetsIn : t.packetsIn = s.packetsIn
  packetsOut : t.packetsOut = s.packetsOut
  errorsIn : t.errorsIn = s.errorsIn
  errorsOut : t.errorsOut = s.errorsOut
  wdState : t.wdState = s.wdState
  now : s.now ≤ t.now
  pendingClear : t.pendingClear = s.pendingClear
  initialized : t.initialized = s.initialized
  adminUp : t.adminUp = s.adminUp
  result : t.result = s.result
  allocAnswers : t.allocAnswers = s.allocAnswers
  resolveAnswers : t.resolveAnswers = s.resolveAnswers
  chip : t.chip.blockOnly = s.chip.blockOnly

theorem SameBlock.refl (s : State) : SameBlock s s := by constructor <;> simp

theorem SameBlock.trans {s t u : State} (h : SameBlock s t) (k : SameBlock t u) : SameBlock s u where
  cfg := k.cfg.trans h.cfg
  ctx := k.ctx.trans h.ctx
  seq := k.seq.trans h.seq
  ipl := k.ipl.trans h.ipl
  savedIpl := k.savedIpl.trans h.savedIpl
  context := k.context.trans h.context
  sendq := k.sendq.trans h.sendq
  packetsIn := k.packetsIn.trans h.packetsIn
  packetsOut := k.packetsOut.trans h.packetsOut
  errorsIn := k.errorsIn.trans h.errorsIn
  errorsOut := k.errorsOut.trans h.errorsOut
  wdState := k.wdState.trans h.wdState
  now := Nat.le_trans h.now k.now
  pendingClear := k.pendingClear.trans h.pendingClear
  initialized := k.initialized.trans h.initialized
  adminUp := k.adminUp.trans h.adminUp
  result := k.result.trans h.result
  allocAnswers := k.allocAnswers.trans h.allocAnswers
  resolveAnswers := k.resolveAnswers.trans h.resolveAnswers
  chip := k.chip.trans h.chip

/-- A move of another agent while an operation runs. -/
theorem State.applyMove_running {s : State} (h : s.seq ≠ []) (m : EnvMove) : SameBlock s (s.applyMove m) := by
  cases m <;> simp only [State.applyMove, State.chipRxEnd, State.chipRxOverflow, State.chipRxEndCorrupt,
      State.chipTxComplete, State.chipTxAbort, State.chipLinkChange, State.chipFlowControl, State.quietExpire,
      State.resetMove, State.discover, State.deposit, State.QuietExpireEnabled, h, false_and, and_false, if_false] <;>
    repeat' split
  all_goals first
    | exact SameBlock.refl s
    | (constructor <;> simp [Chip.blockOnly, Chip.rxDropped, Chip.rxOverflowed])

theorem State.applyMoves_running {s : State} (h : s.seq ≠ []) (ms : List EnvMove) : SameBlock s (s.applyMoves ms) := by
  induction ms generalizing s with
  | nil => exact SameBlock.refl s
  | cons m ms ih =>
    have k := State.applyMove_running h m
    exact k.trans (ih (by rw [k.seq]; exact h))

/-- The other agents' moves before an event of a running operation. -/
theorem State.tick_running {s : State} (h : s.seq ≠ []) : SameBlock s s.tick := by
  unfold State.tick
  split
  · exact SameBlock.refl s
  · next slot rest _ =>
    have := State.applyMoves_running (s := { s with agenda := rest }) h slot.moves
    exact ⟨this.cfg, this.ctx, this.seq, this.ipl, this.savedIpl, this.context, this.sendq, this.packetsIn,
      this.packetsOut, this.errorsIn, this.errorsOut, this.wdState, this.now, this.pendingClear, this.initialized,
      this.adminUp, this.result, this.allocAnswers, this.resolveAnswers, this.chip⟩

/-- Memory is canonical and inside the chip's memory, and `PKTCNT` is at most `PKTCNT_MAX` (R41, R60). -/
structure Good (s : State) : Prop where
  mem_wf : s.mem.wf
  mem_within : s.mem.within s.cfg.memSize
  pktcnt : s.chip.pktcnt ≤ s.cfg.pktcntMax

/-- No move changes the configuration. -/
theorem State.applyMove_cfg (s : State) (m : EnvMove) : (s.applyMove m).cfg = s.cfg := by
  cases m <;> simp only [State.applyMove, State.chipRxEnd, State.chipRxOverflow, State.chipRxEndCorrupt,
      State.chipTxComplete, State.chipTxAbort, State.chipLinkChange, State.chipFlowControl, State.quietExpire,
      State.resetMove, State.discover, State.deposit] <;> repeat' split
  all_goals rfl

/-- Every move keeps memory canonical and the counter bounded. -/
theorem State.applyMove_good {s : State} (h : Good s) (m : EnvMove) : Good (s.applyMove m) := by
  obtain ⟨h1, h2, h3⟩ := h
  have hr := config_ring s.cfg
  cases m with
  | rxBegin => simp only [State.applyMove]; split <;> exact ⟨h1, h2, h3⟩
  | rxEnd hdr payload rest fcs pad =>
    simp only [State.applyMove, State.chipRxEnd]
    split
    · split
      · exact ⟨h1, h2, h3⟩
      · split
        · next h =>
          exact ⟨writeRing_wf _ h1 _ _, writeRing_within _ hr.1 hr.2.1 h2 _ _, h.2⟩
        · exact ⟨h1, h2, h3⟩
    · exact ⟨h1, h2, h3⟩
  | rxOverflow n => simp only [State.applyMove, State.chipRxOverflow]; split <;> exact ⟨h1, h2, h3⟩
  | rxEndCorrupt w hd r =>
    simp only [State.applyMove, State.chipRxEndCorrupt]
    split
    · next h =>
      have h' := h
      simp only [State.CorruptAllowed] at h'
      refine ⟨Memory.writePairs_wf h1 _, Memory.writePairs_within h2 fun p hp => ?_, h'.2.2.2⟩
      have := h'.2.1 p hp
      simp only [State.ChipOwned, InRing] at this
      omega
    · exact ⟨h1, h2, h3⟩
  | txComplete a => simp only [State.applyMove, State.chipTxComplete]; split <;> exact ⟨h1, h2, h3⟩
  | txAbort a => simp only [State.applyMove, State.chipTxAbort]; split <;> exact ⟨h1, h2, h3⟩
  | linkChange a b => exact ⟨h1, h2, h3⟩
  | flowControl a b => exact ⟨h1, h2, h3⟩
  | timerTick => exact ⟨h1, h2, h3⟩
  | timerFire => simp only [State.applyMove, State.quietExpire]; split <;> exact ⟨h1, h2, h3⟩
  | reset v =>
    simp only [State.applyMove, State.resetMove]
    split
    · exact ⟨Memory.ofPairs_wf _ _, Memory.ofPairs_within _ _, Nat.zero_le _⟩
    · exact ⟨h1, h2, h3⟩
  | discover o => simp only [State.applyMove, State.discover]; split; cases o <;> exact ⟨h1, h2, h3⟩; exact ⟨h1, h2, h3⟩
  | present w => exact ⟨h1, h2, h3⟩

theorem State.applyMoves_good {s : State} (h : Good s) (ms : List EnvMove) : Good (s.applyMoves ms) := by
  induction ms generalizing s with
  | nil => exact h
  | cons m ms ih => exact ih (State.applyMove_good h m)

theorem State.tick_good {s : State} (h : Good s) : Good s.tick := by
  unfold State.tick
  split
  · exact h
  · next sl rest _ => exact State.applyMoves_good (s := { s with agenda := rest }) ⟨h.1, h.2, h.3⟩ _
/-! ### What is lined up -/

/-- A move of a host that keeps to R302 leaves what is lined up within R302, and is no reset. -/
theorem State.applyMove_hostRun {s : State} {m : EnvMove} (h : s.HostRun) (hm : m.hostRun s.cfg.regmap = true) :
    (s.applyMove m).HostRun := by
  obtain ⟨h1, h2⟩ := h
  have keep : ∀ t : State, t.cfg = s.cfg → t.port = s.port → t.agenda = s.agenda → t.again = s.again → t.HostRun := by
    intro t hc hp ha hg
    exact ⟨by rw [hc, hp]; exact h1, by rw [hc, ha, hg]; exact h2⟩
  cases m with
  | present w =>
    refine ⟨fun ws hw => ?_, h2⟩
    rcases List.mem_append.1 hw with hw | hw
    · exact h1 ws hw
    · rw [List.mem_singleton.1 hw]; exact hm
  | reset v => simp [EnvMove.hostRun] at hm
  | _ =>
    refine keep _ (State.applyMove_cfg _ _) ?_ ?_ ?_ <;>
      simp only [State.applyMove, State.chipRxEnd, State.chipRxOverflow, State.chipRxEndCorrupt,
        State.chipTxComplete, State.chipTxAbort, State.chipLinkChange, State.chipFlowControl, State.quietExpire,
        State.discover, State.deposit] <;> repeat' split
    all_goals rfl

theorem State.applyMoves_hostRun {s : State} {ms : List EnvMove} (h : s.HostRun)
    (hm : ∀ m ∈ ms, m.hostRun s.cfg.regmap = true) : (s.applyMoves ms).HostRun := by
  induction ms generalizing s with
  | nil => exact h
  | cons m ms ih =>
    exact ih (State.applyMove_hostRun h (hm m (by simp)))
      fun k hk => by rw [State.applyMove_cfg]; exact hm k (by simp [hk])

/-- The other agents' moves before an event stay within R302. -/
theorem State.tick_hostRun {s : State} (h : s.HostRun) : s.tick.HostRun := by
  unfold State.tick
  split
  · exact h
  · next slot rest hs =>
    refine State.applyMoves_hostRun (s := { s with agenda := rest }) ⟨h.1, fun sl hsl => ?_⟩
      (h.2 slot (by rw [hs]; simp))
    refine h.2 sl ?_
    rw [hs, List.cons_append]
    exact List.mem_cons_of_mem _ hsl

/-- What is lined up again is within R302 as well. -/
theorem State.rearm_hostRun {s : State} (h : s.HostRun) : s.rearm.HostRun := by
  refine ⟨h.1, fun sl hsl => h.2 sl ?_⟩
  rw [State.rearm_agenda, State.rearm_again] at hsl
  rcases List.mem_append.1 hsl with hsl | hsl
  · split at hsl
    · exact List.mem_append_right _ hsl
    · exact List.mem_append_left _ hsl
  · exact List.mem_append_right _ hsl

/-- No move changes what is lined up, now or later. -/
theorem State.applyMove_agenda (s : State) (m : EnvMove) :
    (s.applyMove m).agenda = s.agenda ∧ (s.applyMove m).again = s.again := by
  cases m <;> simp only [State.applyMove, State.chipRxEnd, State.chipRxOverflow, State.chipRxEndCorrupt,
      State.chipTxComplete, State.chipTxAbort, State.chipLinkChange, State.chipFlowControl, State.quietExpire,
      State.resetMove, State.discover, State.deposit] <;> repeat' split
  all_goals simp

end Sys2Proof.Machine
end

