-- ==== Sys2Proof/Laws/Events.lean ====
section
/-! SUPPORT. The events of a running operation, as triples: a property of the block's own state and of the registers that
only the block writes survives every event but the write that changes it. -/

namespace Sys2Proof.Machine

/-- What events keep: the block's state but for the counters and the answers, and the block's own registers. -/
structure SameCore (s t : State) : Prop where
  cfg : t.cfg = s.cfg
  ctx : t.ctx = s.ctx
  seq : t.seq = s.seq
  ipl : t.ipl = s.ipl
  savedIpl : t.savedIpl = s.savedIpl
  context : t.context = s.context
  sendq : t.sendq = s.sendq
  wdState : t.wdState = s.wdState
  now : s.now ≤ t.now
  pendingClear : t.pendingClear = s.pendingClear
  initialized : t.initialized = s.initialized
  chip : t.chip.blockOnly = s.chip.blockOnly
  host : s.HostRun → t.HostRun

theorem SameBlock.core {s t : State} (h : SameBlock s t) (hr : s.HostRun → t.HostRun) : SameCore s t :=
  ⟨h.cfg, h.ctx, h.seq, h.ipl, h.savedIpl, h.context, h.sendq, h.wdState, h.now, h.pendingClear, h.initialized,
    h.chip, hr⟩

/-- `K` is about what events keep. -/
def Calm (K : State → Prop) : Prop := ∀ s t, SameCore s t → K s → K t

/-- `K` does not look at the chip's registers. -/
def ChipFree (K : State → Prop) : Prop := ∀ s (f : Chip → Chip), K s → K (s.onChip f)

/-- An operation is running in a good state that meets `K`. -/
structure Run (K : State → Prop) (s : State) : Prop where
  ne : s.seq ≠ []
  good : Good s
  k : K s

section Run

variable {K : State → Prop} {s : State}

theorem Run.step (hK : Calm K) {t : State} (h : Run K s) (c : SameCore s t) (g : Good t) : Run K t :=
  ⟨by rw [c.seq]; exact h.ne, g, hK s t c h.k⟩

theorem Run.tick (hK : Calm K) (h : Run K s) : Run K s.tick :=
  h.step hK ((State.tick_running h.ne).core State.tick_hostRun) (State.tick_good h.good)

theorem Run.emit (hK : Calm K) (h : Run K s) (e : TraceEvent) : Run K (s.emit e) :=
  h.step hK (by constructor <;> simp [State.HostRun]) ⟨h.good.1, h.good.2, h.good.3⟩

theorem Run.onChip (h : Run K s) (f : Chip → Chip) (hf : (f s.chip).pktcnt ≤ s.chip.pktcnt) (hk : K (s.onChip f)) :
    Run K (s.onChip f) := ⟨h.ne, ⟨h.good.1, h.good.2, Nat.le_trans hf h.good.3⟩, hk⟩

/-- A change of the block's state outside the memory and the chip. -/
theorem Run.update (h : Run K s) {t : State} {L : State → Prop} (hc : t.cfg = s.cfg) (hm : t.mem = s.mem)
    (hp : t.chip.pktcnt ≤ s.chip.pktcnt) (hn : t.seq ≠ []) (hl : L t) : Run L t :=
  ⟨hn, ⟨by rw [hm]; exact h.good.1, by rw [hm, hc]; exact h.good.2, by rw [hc]; exact Nat.le_trans hp h.good.3⟩, hl⟩

end Run

/-! ### No write of the block raises `PKTCNT` -/

theorem Chip.setBit_pktcnt (c : Chip) (b : BitName) : (c.setBit b).pktcnt ≤ c.pktcnt := by
  cases b <;> simp [Chip.setBit, Chip.storeBit, Chip.pktdec]

theorem Chip.clearBit_pktcnt (c : Chip) (b : BitName) : (c.clearBit b).pktcnt = c.pktcnt := by
  cases b <;> simp [Chip.clearBit, Chip.storeBit]

theorem Chip.setBits_pktcnt (c : Chip) (bs : List BitName) : (c.setBits bs).pktcnt ≤ c.pktcnt := by
  induction bs generalizing c with
  | nil => exact Nat.le_refl _
  | cons b bs ih => exact Nat.le_trans (ih (c.setBit b)) (c.setBit_pktcnt b)

theorem Chip.clearBits_pktcnt (c : Chip) (bs : List BitName) : (c.clearBits bs).pktcnt = c.pktcnt := by
  induction bs generalizing c with
  | nil => rfl
  | cons b bs ih => exact (ih (c.clearBit b)).trans (c.clearBit_pktcnt b)

theorem Chip.storeEach_pktcnt (v : Word) (m : RegMap) (c : Chip) (bs : List BitName) :
    (bs.foldl (fun c b => if v.getLsbD (m.index b).val then c.setBit b else c.clearBit b) c).pktcnt ≤ c.pktcnt := by
  induction bs generalizing c with
  | nil => exact Nat.le_refl _
  | cons b bs ih =>
    refine Nat.le_trans (ih _) ?_
    dsimp only
    split
    · exact c.setBit_pktcnt b
    · exact Nat.le_of_eq (c.clearBit_pktcnt b)

theorem Chip.writeWord_pktcnt (m : RegMap) (c : Chip) (r : Reg) (v : Word) : (c.writeWord m r v).pktcnt ≤ c.pktcnt := by
  cases r <;> simp only [Chip.writeWord, Nat.le_refl] <;> exact Chip.storeEach_pktcnt v m c _

theorem Chip.setMask_pktcnt (m : RegMap) (c : Chip) (r : Reg) (v : Word) : (c.setMask m r v).pktcnt ≤ c.pktcnt := by
  cases r <;> simp only [Chip.setMask, Nat.le_refl] <;> exact Chip.setBits_pktcnt c _

theorem Chip.clearMask_pktcnt (m : RegMap) (c : Chip) (r : Reg) (v : Word) :
    (c.clearMask m r v).pktcnt ≤ c.pktcnt := by
  cases r <;> simp only [Chip.clearMask, Nat.le_refl] <;> exact Nat.le_of_eq (Chip.clearBits_pktcnt c _)

/-! ### The events -/

section Events

variable {K H : State → Prop} {F : Prop}

theorem meets_access (hK : Calm K) (e : TraceEvent) : Op.Meets (Run K) (access e) (fun _ => Run K) H F :=
  fun _ hs => (hs.tick hK).emit hK e

theorem meets_regReadFlags (hK : Calm K) : Op.Meets (Run K) regReadFlags (fun _ => Run K) H F :=
  fun _ hs => (hs.tick hK).emit hK _

theorem meets_regReadBit (hK : Calm K) (r : Reg) (b : BitName) :
    Op.Meets (Run K) (regReadBit r b) (fun _ => Run K) H F :=
  fun _ hs => (hs.tick hK).emit hK _

theorem meets_regWrite (hK : Calm K) (r : Reg) (v : Word)
    (hw : ∀ s m, K s → K (s.onChip (fun c => c.writeWord m r v))) :
    Op.Meets (Run K) (regWrite r v) (fun _ => Run K) H F :=
  fun _ hs => ((hs.tick hK).emit hK _).onChip _ (Chip.writeWord_pktcnt _ _ _ _) (hw _ _ ((hs.tick hK).emit hK _).k)

theorem meets_regSet (hK : Calm K) (r : Reg) (bs : List BitName) (hw : ∀ s, K s → K (s.onChip (·.setBits bs))) :
    Op.Meets (Run K) (regSet r bs) (fun _ => Run K) H F :=
  fun _ hs => ((hs.tick hK).emit hK _).onChip _ (Chip.setBits_pktcnt _ _) (hw _ ((hs.tick hK).emit hK _).k)

theorem meets_regClear (hK : Calm K) (r : Reg) (bs : List BitName) (hw : ∀ s, K s → K (s.onChip (·.clearBits bs))) :
    Op.Meets (Run K) (regClear r bs) (fun _ => Run K) H F :=
  fun _ hs => ((hs.tick hK).emit hK _).onChip _ (Nat.le_of_eq (Chip.clearBits_pktcnt _ _))
    (hw _ ((hs.tick hK).emit hK _).k)

theorem meets_raise (hK : Calm K) (x : Exn) (i : Info) : Op.Meets (Run K) (raise x i) (fun _ => Run K) H F :=
  fun _ hs => hs.step hK (by constructor <;> simp [State.HostRun])
    ⟨by simpa using hs.good.1, by simpa using hs.good.2, by simpa using hs.good.3⟩

theorem meets_release (hK : Calm K) (c : List Chunk) : Op.Meets (Run K) (release c) (fun _ => Run K) H F :=
  fun _ hs => hs.emit hK _

theorem meets_alloc (hK : Calm K) (cls : ChunkClass) : Op.Meets (Run K) (alloc cls) (fun _ => Run K) H F := by
  intro s hs
  rw [alloc_run]
  obtain ⟨l, n, h⟩ := s.nextGrant_frame
  rw [h]
  exact (hs.step hK (t := { s with allocAnswers := l, freeCount := n }) (by constructor <;> simp [State.HostRun])
    ⟨hs.good.1, hs.good.2, hs.good.3⟩).emit hK _

theorem meets_resolve (hK : Calm K) (dest : BitVec 32) (bs : List Byte) :
    Op.Meets (Run K) (resolve dest bs) (fun _ => Run K) H F := by
  intro s hs
  rw [resolve_run]
  obtain ⟨l, n, h⟩ := s.nextAddress_frame
  rw [h]
  exact (hs.step hK (t := { s with resolveAnswers := l, freeCount := n }) (by constructor <;> simp [State.HostRun])
    ⟨hs.good.1, hs.good.2, hs.good.3⟩).emit hK _

theorem meets_memRead (hK : Calm K) (a n : Nat) (h : ∀ s, K s → ¬ F → a + n ≤ s.cfg.memSize) :
    Op.Meets (Run K) (memRead a n) (fun _ => Run K) H F := by
  intro s hs
  rw [memRead_run]
  by_cases hn : a + n ≤ s.tick.cfg.memSize
  · rw [if_pos hn]
    exact (hs.tick hK).emit hK _
  · rw [if_neg hn]
    exact Classical.not_not.1 fun hf => hn (h _ (hs.tick hK).k hf)

theorem meets_memWrite (hK : Calm K) (a : Nat) (bs : List Byte) (h : ∀ s, K s → ¬ F → a + bs.length ≤ s.cfg.memSize) :
    Op.Meets (Run K) (memWrite a bs) (fun _ => Run K) H F := by
  intro s hs
  have k := hs.tick hK
  rw [memWrite_run]
  by_cases hn : a + bs.length ≤ s.tick.cfg.memSize
  · rw [if_pos hn]
    exact k.step hK (by constructor <;> simp [State.HostRun])
      ⟨Memory.writeBytes_wf k.good.1 _ _, Memory.writeBytes_within k.good.2 _ _ hn, k.good.3⟩
  · rw [if_neg hn]
    exact Classical.not_not.1 fun hf => hn (h _ k.k hf)

theorem meets_pollOrHold (hK : Calm K) (r : Reg) (b : BitName) (w : Bool) (n : Nat) :
    Op.Meets (Run K) (pollOrHold r b w n) (fun _ => Run K) (Run K) F := by
  induction n with
  | zero => exact fun s hs => hs
  | succ n ih =>
    unfold pollOrHold
    exact Op.Meets.bind (meets_regReadBit hK r b) fun v => Op.meets_ite (fun _ => Op.meets_pure fun _ h => h) fun _ => ih

theorem meets_pollOrFault (hK : Calm K) (r : Reg) (b : BitName) (w : Bool) (n : Nat) :
    Op.Meets (Run K) (pollOrFault r b w n) (fun _ => Run K) H F := by
  induction n with
  | zero =>
    unfold pollOrFault
    exact Op.Meets.bind (meets_raise hK _ _) fun _ => Op.meets_pure fun _ h => h
  | succ n ih =>
    unfold pollOrFault
    exact Op.Meets.bind (meets_regReadBit hK r b) fun v => Op.meets_ite (fun _ => Op.meets_pure fun _ h => h) fun _ => ih

/-- A busy-wait: it can hold only with no `SPIN_LIMIT` (R292). -/
theorem meets_waitUntil (hK : Calm K) (r : Reg) (b : BitName) (w : Bool) :
    Op.Meets (Run K) (waitUntil r b w) (fun _ => Run K) (fun s => Run K s ∧ s.cfg.spinLimit = none) F := by
  intro s hs
  unfold waitUntil
  rw [op_bind, op_get]
  cases h : s.cfg.spinLimit with
  | none =>
    have hK' : Calm (fun t => K t ∧ t.cfg = s.cfg) := fun a b c d => ⟨hK a b c d.1, c.cfg.trans d.2⟩
    have := (meets_pollOrHold (K := fun t => K t ∧ t.cfg = s.cfg) (F := F) hK' r b w (s.agenda.length + 1)) s
      ⟨hs.ne, hs.good, hs.k, rfl⟩
    simp only [h, op_bind]
    cases hx : pollOrHold r b w (s.agenda.length + 1) s with
    | ok a t => rw [hx] at this; exact ⟨this.ne, this.good, this.k.1⟩
    | error e t =>
      rw [hx] at this
      cases e
      · exact ⟨⟨this.ne, this.good, this.k.1⟩, by rw [this.k.2]; exact h⟩
      · exact this
  | some k =>
    simp only [h]
    exact (meets_pollOrFault (H := fun s => Run K s ∧ s.cfg.spinLimit = none) (F := F) hK r b w k) s hs

theorem meets_drain (hK : Calm K) (hw : ∀ s, K s → K (s.onChip (·.setBits [.ctlPktdec]))) :
    Op.Meets (Run K) drain (fun _ => Run K) H F := by
  unfold drain
  refine Op.Meets.bind (Q := fun _ => Run K) (Op.meets_get fun _ h => h) fun s => ?_
  generalize s.pktRounds = n
  induction n with
  | zero => exact Op.meets_pure fun _ h => h
  | succ n ih =>
    unfold drainRounds
    exact Op.Meets.bind (meets_regReadBit hK _ _) fun v =>
      Op.meets_ite (fun _ => Op.Meets.bind (meets_regSet hK _ _ hw) fun _ => ih) fun _ => Op.meets_pure fun _ h => h

end Events

end Sys2Proof.Machine
end

