-- ==== Sys2Proof/Laws/PerInstr.lean ====
section
/-! SUPPORT. A statement about every instruction as syntax, one lemma per constructor: its encoding opens with the
command word of its row of spec/30_encoding.md R93, and has as many words as the row's format says. -/

namespace Sys2Proof

/-- The opcode of an instruction. -/
def Instr.opcode : Instr → Opcode
  | .regRead _ => .regRead
  | .regWrite _ _ => .regWrite
  | .regSetBits _ _ => .regSetBits
  | .regClearBits _ _ => .regClearBits
  | .readBytes _ => .readBytes
  | .receiveOne => .receiveOne
  | .enqueueAndKick _ => .enqueueAndKick
  | .kick => .kick
  | .dispatch => .dispatch
  | .recover => .recover
  | .subscribe _ => .subscribe
  | .unsubscribe _ => .unsubscribe
  | .hash _ => .hash
  | .reconcile => .reconcile
  | .initialise => .initialise
  | .transmit _ _ _ _ => .transmit
  | .setMulticast _ _ => .setMulticast
  | .setFlags _ => .setFlags
  | .getStatus => .getStatus

/-- A packet of `n` bytes has `(n + 1) / 2` data words (R92, formats P and T). -/
theorem length_packBytes (bs : List Byte) : (packBytes bs).length = (bs.length + 1) / 2 := by
  induction bs using packBytes.induct with
  | case1 => rfl
  | case2 b => simp [packBytes]
  | case3 lo hi rest ih => simp only [packBytes, List.length_cons, ih]; omega

/-- The byte count of a packet that fits is what `W1` says. -/
theorem packet_count {bytes : List Byte} (h : packetFits bytes = true) :
    (BitVec.ofNat 16 bytes.length : Word).toNat = bytes.length := by
  simp only [packetFits, decide_eq_true_eq] at h
  rw [BitVec.toNat_ofNat]
  omega

end Sys2Proof

namespace Sys2Proof.Laws.EncodeMatchesRow

/-- The encoding of `i` opens with a command word that selects the row of its opcode, and the row's format counts the
words that follow. -/
def Statement (i : Instr) : Prop :=
  ∀ m : RegMap, ∃ cw args row, encode m i = cw :: args ∧ findRow cw = some row ∧ row.opcode = i.opcode
    ∧ (i.wellFormed = true → args.length = operandCount row.format (args.headD 0))

theorem regRead (r : Reg) : Statement (.regRead r) :=
  fun _ => ⟨_, _, ⟨.regRead, .r1, 0x0000, 0xFFFF⟩, rfl, by decide, rfl, fun _ => rfl⟩

theorem regWrite (r : Reg) (v : Word) : Statement (.regWrite r v) :=
  fun _ => ⟨_, _, ⟨.regWrite, .r2, 0x0100, 0xFFFF⟩, rfl, by decide, rfl, fun _ => rfl⟩

theorem regSetBits (r : Reg) (v : Word) : Statement (.regSetBits r v) :=
  fun _ => ⟨_, _, ⟨.regSetBits, .r2, 0x0200, 0xFFFF⟩, rfl, by decide, rfl, fun _ => rfl⟩

theorem regClearBits (r : Reg) (v : Word) : Statement (.regClearBits r v) :=
  fun _ => ⟨_, _, ⟨.regClearBits, .r2, 0x0300, 0xFFFF⟩, rfl, by decide, rfl, fun _ => rfl⟩

theorem readBytes (n : Word) : Statement (.readBytes n) :=
  fun _ => ⟨_, _, ⟨.readBytes, .l, 0x1000, 0xFFFF⟩, rfl, by decide, rfl, fun _ => rfl⟩

theorem receiveOne : Statement .receiveOne :=
  fun _ => ⟨_, _, ⟨.receiveOne, .n, 0x2000, 0xFFFF⟩, rfl, by decide, rfl, fun _ => rfl⟩

theorem enqueueAndKick (bytes : List Byte) : Statement (.enqueueAndKick bytes) := by
  refine fun _ => ⟨_, _, ⟨.enqueueAndKick, .p, 0x3000, 0xFFFF⟩, rfl, by decide, rfl, fun h => ?_⟩
  simp only [List.length_cons, length_packBytes, operandCount, List.headD_cons, packet_count h]
  omega

theorem kick : Statement .kick :=
  fun _ => ⟨_, _, ⟨.kick, .n, 0x3100, 0xFFFF⟩, rfl, by decide, rfl, fun _ => rfl⟩

theorem dispatch : Statement .dispatch :=
  fun _ => ⟨_, _, ⟨.dispatch, .n, 0x4000, 0xFFFF⟩, rfl, by decide, rfl, fun _ => rfl⟩

theorem recover : Statement .recover :=
  fun _ => ⟨_, _, ⟨.recover, .n, 0x5000, 0xFFFF⟩, rfl, by decide, rfl, fun _ => rfl⟩

theorem subscribe (a : MacAddr) : Statement (.subscribe a) :=
  fun _ => ⟨_, _, ⟨.subscribe, .a, 0x6000, 0xFFFF⟩, rfl, by decide, rfl, fun _ => rfl⟩

theorem unsubscribe (a : MacAddr) : Statement (.unsubscribe a) :=
  fun _ => ⟨_, _, ⟨.unsubscribe, .a, 0x6100, 0xFFFF⟩, rfl, by decide, rfl, fun _ => rfl⟩

theorem hash (a : MacAddr) : Statement (.hash a) :=
  fun _ => ⟨_, _, ⟨.hash, .a, 0x6200, 0xFFFF⟩, rfl, by decide, rfl, fun _ => rfl⟩

theorem reconcile : Statement .reconcile :=
  fun _ => ⟨_, _, ⟨.reconcile, .n, 0x7000, 0xFFFF⟩, rfl, by decide, rfl, fun _ => rfl⟩

theorem initialise : Statement .initialise :=
  fun _ => ⟨_, _, ⟨.initialise, .n, 0x8000, 0xFFFF⟩, rfl, by decide, rfl, fun _ => rfl⟩

theorem transmit (framed : Bool) (ptype : Word) (dest : BitVec 32) (bytes : List Byte) :
    Statement (.transmit framed ptype dest bytes) := by
  refine fun _ => ⟨_, _, ⟨.transmit, .t, 0x8100, 0xFFFE⟩, rfl, by cases framed <;> decide, rfl, fun h => ?_⟩
  simp only [List.length_cons, length_packBytes, operandCount, List.headD_cons, packet_count h]
  omega

theorem setMulticast (a : MacAddr) (sub : Bool) : Statement (.setMulticast a sub) :=
  fun _ => ⟨_, _, ⟨.setMulticast, .a, 0x8200, 0xFFFE⟩, rfl, by cases sub <;> decide, rfl, fun _ => rfl⟩

theorem setFlags (up : Bool) : Statement (.setFlags up) :=
  fun _ => ⟨_, _, ⟨.setFlags, .n, 0x8300, 0xFFFE⟩, rfl, by cases up <;> decide, rfl, fun _ => rfl⟩

theorem getStatus : Statement .getStatus :=
  fun _ => ⟨_, _, ⟨.getStatus, .n, 0x8400, 0xFFFF⟩, rfl, by decide, rfl, fun _ => rfl⟩

end Sys2Proof.Laws.EncodeMatchesRow
end

