-- ==== Sys2Proof/Tests/Slice0.lean ====
section
/-! SUPPORT. The model's own tests. Expected results are those of spec/95_test_vectors.md (the vector is named at each
test) or of the rule named; words are written out from the tables of spec/30_encoding.md. Then one witness for each
statement that has hypotheses: a concrete state and operands that meet them all. -/

namespace Sys2Proof.Tests

open Sys2Proof.Machine

-- One theorem at a time: each evaluates states of the theorems before it.
set_option Elab.async false

/-! ### Words of the commands (R91 to R93; spec/95_test_vectors.md section 4) -/

theorem test_decode_regRead : decode RegMap.tc [0x0000, 0x0003] = .ok (.regRead .iflag) := by decide
theorem test_decode_regWrite : decode RegMap.tc [0x0100, 0x0001, 0x0FFE] = .ok (.regWrite .rxtail 0x0FFE) := by decide
theorem test_decode_regSetBits : decode RegMap.tc [0x0200, 0x0005, 0x0004] = .ok (.regSetBits .ctl 4) := by decide
theorem test_decode_regClearBits : decode RegMap.tc [0x0300, 0x0003, 0x0002] = .ok (.regClearBits .iflag 2) := by decide
theorem test_decode_readBytes : decode RegMap.tc [0x1000, 0x0A00] = .ok (.readBytes 2560) := by decide
theorem test_decode_receiveOne : decode RegMap.tc [0x2000] = .ok .receiveOne := by decide
theorem test_decode_enqueueAndKick :
    decode RegMap.tc [0x3000, 0x0003, 0x0201, 0x0003] = .ok (.enqueueAndKick [1, 2, 3]) := by decide
theorem test_decode_kick : decode RegMap.tc [0x3100] = .ok .kick := by decide
theorem test_decode_dispatch : decode RegMap.tc [0x4000] = .ok .dispatch := by decide
theorem test_decode_recover : decode RegMap.tc [0x5000] = .ok .recover := by decide
theorem test_decode_subscribe :
    decode RegMap.tc [0x6000, 0x0001, 0x005E, 0x0100] = .ok (.subscribe ⟨0x01, 0x00, 0x5E, 0x00, 0x00, 0x01⟩) := by decide
theorem test_decode_unsubscribe :
    decode RegMap.tc [0x6100, 0x8001, 0x00C2, 0x0000] = .ok (.unsubscribe ⟨0x01, 0x80, 0xC2, 0x00, 0x00, 0x00⟩) := by
  decide
theorem test_decode_hash :
    decode RegMap.tc [0x6200, 0x0009, 0xFF07, 0xFFFF] = .ok (.hash ⟨0x09, 0x00, 0x07, 0xFF, 0xFF, 0xFF⟩) := by decide
theorem test_decode_reconcile : decode RegMap.tc [0x7000] = .ok .reconcile := by decide
theorem test_decode_initialise : decode RegMap.tc [0x8000] = .ok .initialise := by decide
theorem test_decode_transmit :
    decode RegMap.tc [0x8100, 0x0002, 0x0800, 0x0102, 0xC0A8, 0x0201]
      = .ok (.transmit false 0x0800 0xC0A80102 [0x01, 0x02]) := by decide
theorem test_decode_setMulticast :
    decode RegMap.tc [0x8201, 0x0001, 0x005E, 0x0100] = .ok (.setMulticast ⟨0x01, 0x00, 0x5E, 0x00, 0x00, 0x01⟩ true) := by
  decide
theorem test_decode_setFlags : decode RegMap.tc [0x8301] = .ok (.setFlags true) := by decide
theorem test_decode_getStatus : decode RegMap.tc [0x8400] = .ok .getStatus := by decide

/-- The illegal command words of section 4. -/
theorem test_decode_illegal_words :
    [0x2001, 0x3002, 0x0400, 0x1100, 0x2100, 0x3200, 0x4100, 0x5100, 0x6300, 0x7100, 0x8500, 0x9000, 0xF000, 0x8401].map
        (fun cw => decode RegMap.tc [cw])
      = List.replicate 14 (.error .noRow) := by decide

theorem test_decode_dirty_padding :
    decode RegMap.tc [0x3000, 0x0003, 0x0201, 0xFF03] = .error .dirtyPadding := by decide

theorem test_decode_unknown_register : decode RegMap.tc [0x0000, 0x0013] = .error .unknownRegister := by decide

theorem test_decodeTableWord_setFlags : decodeTableWord 16 0x8301 = some (.setFlags true) := by decide

/-! ### WellFormed refuses a packet whose byte count does not fit `W1` -/

theorem test_wellFormed_refuses_enqueueAndKick (bytes : List Byte) (h : bytes.length = 65536) :
    (Instr.enqueueAndKick bytes).wellFormed = false := by
  simp only [Instr.wellFormed, packetFits, h]
  decide

theorem test_wellFormed_refuses_transmit (bytes : List Byte) (h : bytes.length = 65536) :
    (Instr.transmit true 0 0 bytes).wellFormed = false := by
  simp only [Instr.wellFormed, packetFits, h]
  decide

/-- There are such packets. -/
theorem test_wellFormed_refused_packet : ∃ bytes : List Byte, bytes.length = 65536 :=
  ⟨List.replicate 65536 0, List.length_replicate⟩

/-! ### Small states -/

/-- The state behind an outcome. -/
def after : Host.Outcome State Fault Refusal → State
  | .next s => s
  | .fault _ | .refused _ => State.reset

/-- The outcome is a next state. -/
def isNext : Host.Outcome State Fault Refusal → Bool
  | .next _ => true
  | .fault _ | .refused _ => false

theorem next_after {o : Host.Outcome State Fault Refusal} (h : isNext o = true) : o = .next (after o) := by
  cases o <;> first | rfl | cases h

/-- The state after one command. -/
def run (i : Instr) (s : State) : State := after (exec i s)

/-- Reset and discovery (R281). -/
def discovered : State := State.reset.applyMove (.discover .success)

/-- The state Up of spec/95_test_vectors.md section 1. -/
def up : State := run .initialise discovered

/-- A state with other chip registers. -/
def chip (f : Chip → Chip) (s : State) : State := s.onChip f

/-- A state whose allocator grants everything for a while. -/
def grants (s : State) : State := { s with allocAnswers := List.replicate 50 true }

/-- The header of frame `F0`. -/
def hdr0 : List Byte := [0xFF, 0xFF, 0xFF, 0xFF, 0xFF, 0xFF, 0x02, 0x00, 0x00, 0xAA, 0xBB, 0xCC, 0x08, 0x06]

/-- The 46 payload bytes of frame `F0`. -/
def payload0 : List Byte := (List.range 46).map (BitVec.ofNat 8)

/-- Frame `F0` in the ring, as the chip deposits it. -/
def withF0 : State :=
  grants ((up.applyMove .rxBegin).applyMove (.rxEnd hdr0 payload0 0 0xDDCCBBAA 0))

/-- `F0` in the ring with other header bytes 0 to 3 (VC2 to VC10), its packet-available condition taken. -/
def withHeader (b : List Byte) : State :=
  chip (fun c => { c with pktcnt := 0 }) { withF0 with mem := withF0.mem.writeBytes 0x0600 b }

/-! ### One step of each instruction -/

/-- VA1. -/
theorem test_regRead_iflag :
    (run (.regRead .iflag) (chip (fun c => { c with pktcnt := 2 }) up)).chip.iflags = ⟨false, false, false, false, true⟩
      ∧ (chip (fun c => { c with pktcnt := 2 }) up).chip.bit .iflagPkt = true := by decide +kernel

/-- VA12. -/
theorem test_regRead_notProbed : (run (.regRead .ctl) State.reset).result = some (.err .notProbed) := by decide +kernel

/-- VA3. -/
theorem test_regWrite_rxst :
    (run (.regWrite .rxst 0x0700) up).chip.rxst = 0x0700 ∧ (run (.regWrite .rxst 0x0700) up).chip.rxhead = 0x0700 := by
  decide +kernel

/-- VA8. -/
theorem test_regWrite_stat : (run (.regWrite .stat 0xFFFF) up).chip = up.chip := by decide +kernel

/-- VA5. -/
theorem test_regSetBits_pktdec :
    (run (.regSetBits .ctl 4) (chip (fun c => { c with pktcnt := 2 }) up)).chip.pktcnt = 1
      ∧ (run (.regSetBits .ctl 4) up).chip.pktcnt = 0 := by decide +kernel

/-- VA9. -/
theorem test_regSetBits_irq : (run (.regSetBits .iflag 1) up).chip.irq = true := by decide +kernel

/-- VA6. -/
theorem test_regClearBits_iflag :
    (run (.regClearBits .iflag 2) (chip (fun c => { c with flags := ⟨true, true, false, false⟩ }) up)).chip.flags
      = ⟨true, false, false, false⟩ := by decide +kernel

/-- VA7. -/
theorem test_regClearBits_pkt :
    (run (.regClearBits .iflag 0x10) (chip (fun c => { c with pktcnt := 1 }) up)).chip.iflags.pkt = true := by
  decide +kernel

/-- The bytes of VB4 at the two ends of the ring: `Mem[a] = a mod 251`. -/
def withBytes : State :=
  { up.setReadPointer 0x0FFA with
    mem := (up.mem.writeBytes 0x0FFA [0x4A, 0x4B, 0x4C, 0x4D, 0x4E, 0x4F]).writeBytes 0x0600
      [0x1E, 0x1F, 0x20, 0x21, 0x22, 0x23, 0x24, 0x25] }

/-- VB4. -/
theorem test_readBytes_wraps :
    (run (.readBytes 14) withBytes).result = some (.bytes [0x4A, 0x4B, 0x4C, 0x4D, 0x4E, 0x4F, 0x1E, 0x1F, 0x20, 0x21,
        0x22, 0x23, 0x24, 0x25])
      ∧ (run (.readBytes 14) withBytes).ctx.rxReadPointer = 0x0608 := by decide +kernel

/-- VB12. -/
theorem test_readBytes_outside :
    (run (.readBytes 4) (up.setReadPointer 0x1000)).result = some .refusedOutsideRing := by decide +kernel

/-- VC1. -/
theorem test_receiveOne :
    (run .receiveOne (withHeader [])).result
        = some (.packet (some [⟨.small, 4, hdr0⟩, ⟨.small, 0, payload0⟩]))
      ∧ (run .receiveOne (withHeader [])).chip.rxtail = 0x0646
      ∧ (run .receiveOne (withHeader [])).ctx.rxReadPointer = 0x0648 := by decide +kernel

/-- VC3: one byte below the least length. -/
theorem test_receiveOne_short :
    (run .receiveOne (withHeader [0x00, 0x08, 0x31, 0x00])).result = some (.packet none)
      ∧ (run .receiveOne (withHeader [0x00, 0x08, 0x31, 0x00])).ctx.resetCounter = 1
      ∧ (run .receiveOne (withHeader [0x00, 0x08, 0x31, 0x00])).errorsIn = 1 := by decide +kernel

/-- VD9. -/
theorem test_enqueueAndKick_sends :
    (run (.enqueueAndKick [1, 2, 3]) up).mem.readBytes 0 4 = [1, 2, 3, 0]
      ∧ (run (.enqueueAndKick [1, 2, 3]) up).chip.txlen = 3 ∧ (run (.enqueueAndKick [1, 2, 3]) up).chip.txrts = true := by
  decide +kernel

/-- Three packets queued and a transmit in flight. -/
def full : State := chip (fun c => { c with txrts := true }) { up with sendq := [[2], [3], [4]].map flatPacket }

/-- VD3. -/
theorem test_enqueueAndKick_full :
    (run (.enqueueAndKick [5]) full).result = some (.err .sendQueueFull)
      ∧ (run (.enqueueAndKick [5]) full).sendq = full.sendq ∧ (run (.enqueueAndKick [5]) full).errorsOut = 1 := by
  decide +kernel

/-- R151: the head of the queue is sent, the rest stays. -/
theorem test_kick_sends_head :
    (run .kick { up with sendq := [[2], [3]].map flatPacket }).sendq = [[3]].map flatPacket
      ∧ (run .kick { up with sendq := [[2], [3]].map flatPacket }).mem.read 0 = 2 := by decide +kernel

/-- R151 step 1. -/
theorem test_kick_in_flight : (run .kick full).sendq = full.sendq ∧ (run .kick full).chip = full.chip := by decide +kernel

/-- VE3, with a short frame in the queue. -/
theorem test_dispatch_abort :
    let s := chip (fun c => { c with flags := ⟨false, false, true, false⟩ }) { up with sendq := [[2]].map flatPacket }
    (run .dispatch s).errorsOut = 1 ∧ (run .dispatch s).packetsOut = 0 ∧ (run .dispatch s).chip.txrts = true
      ∧ (run .dispatch s).sendq = [] := by decide +kernel

/-- VE6, one round: `rc = 5` and an invalid pointer. -/
theorem test_dispatch_disables :
    let t := up.setReadPointer 0x0601
    let s := chip (fun c => { c with pktcnt := 1 }) { t with ctx := { t.ctx with resetCounter := 5 } }
    (run .dispatch s).wdState = .disabled ∧ (run .dispatch s).ctx.resetCounter = 6 ∧ (run .dispatch s).chip.rxen = false
      ∧ (run .dispatch s).chip.pktcnt = 0 ∧ (run .dispatch s).ctx.rxReadPointer = 0x0601 := by decide +kernel

/-- The start of VF1. -/
def beforeRecover : State :=
  chip (fun c => { c with pktcnt := 3, rxtail := 0x0700, rxhead := 0x0900 }) { up.setReadPointer 0x0702 with now := 100 }

/-- VF1. -/
theorem test_recover :
    (run .recover beforeRecover).ctx.resetCounter = 1 ∧ (run .recover beforeRecover).pendingClear = some 150
      ∧ (run .recover beforeRecover).chip.pktcnt = 0 ∧ (run .recover beforeRecover).chip.rxtail = 0x0FFE
      ∧ (run .recover beforeRecover).chip.rxen = true := by decide +kernel

/-- VF8: the wait does not end by itself. -/
theorem test_recover_holds :
    (run .recover (chip (fun c => { c with rxbusy := true }) up)).seq = [⟨.recover, 5, none⟩] := by decide +kernel

/-- VG3, program P4. -/
theorem test_subscribe :
    (run (.subscribe ⟨0x01, 0x00, 0x5E, 0x00, 0x00, 0x01⟩) up).chip.ht0 = 0x1000 := by decide +kernel

/-- R198: a bucket at 0 is left alone. -/
theorem test_unsubscribe_zero :
    (run (.unsubscribe ⟨0x01, 0x00, 0x5E, 0x00, 0x00, 0x01⟩) up).ctx.multicastRefcount = up.ctx.multicastRefcount := by
  decide +kernel

/-- VG1 and VG4. -/
theorem test_hash :
    (run (.hash ⟨0, 0, 0, 0, 0, 0⟩) up).result = some (.bucket 35)
      ∧ (run (.hash ⟨0x01, 0x00, 0x5E, 0x00, 0x00, 0xFB⟩) up).result = some (.bucket 54) := by decide +kernel

/-- VH1. -/
theorem test_reconcile_half :
    let s := chip (fun c => { c with fuldpx := true, autofc := true, fcassert := true }) up
    (run .reconcile s).chip.fuldpx = false ∧ (run .reconcile s).chip.autofc = false
      ∧ (run .reconcile s).chip.fcassert = false ∧ (run .reconcile s).chip.ipg = up.cfg.ipgHalf := by decide +kernel

/-- VH2. -/
theorem test_reconcile_full :
    let s := chip (fun c => { c with phydpx := true, fcassert := true }) up
    (run .reconcile s).chip.fuldpx = true ∧ (run .reconcile s).chip.autofc = true
      ∧ (run .reconcile s).chip.fcassert = true ∧ (run .reconcile s).chip.ipg = up.cfg.ipgFull := by decide +kernel

/-- VI3: the state Up. -/
theorem test_initialise :
    up.result = some .ok ∧ up.ctx.rxReadPointer = 0x0600 ∧ up.chip.rxtail = 0x0FFE ∧ up.chip.rxen = true
      ∧ up.chip.enables = ⟨true, true, true, true, true, true⟩ ∧ up.initialized = true := by decide +kernel

/-- VI1. -/
theorem test_initialise_notProbed : (run .initialise State.reset).result = some (.err .notProbed) := by decide +kernel

/-- VI8, with two payload bytes. -/
theorem test_transmit_unframed :
    let s := { up with resolveAnswers := [some ⟨0x02, 0x00, 0x00, 0xAA, 0xBB, 0xCC⟩] }
    (run (.transmit false 0x0800 0xC0A80102 [1, 2]) s).mem.readBytes 0 16
      = [0x02, 0x00, 0x00, 0xAA, 0xBB, 0xCC, 0x02, 0x00, 0x00, 0x12, 0x34, 0x56, 0x08, 0x00, 1, 2] := by decide +kernel

/-- VI6. -/
theorem test_transmit_notInitialized :
    (run (.transmit true 0 0 [1]) discovered).result = some (.err .notInitialized) := by decide +kernel

/-- VI10. -/
theorem test_setMulticast :
    (run (.setMulticast ⟨0x01, 0x00, 0x5E, 0x00, 0x00, 0x01⟩ true) up).chip.ht0 = 0x1000 := by decide +kernel

/-- VI11. -/
theorem test_setFlags_up :
    (run (.setFlags true) discovered).adminUp = true ∧ (run (.setFlags true) discovered).initialized = true
      ∧ (run (.setFlags true) discovered).result = some .unit := by decide +kernel

/-- VI12. -/
theorem test_setFlags_down : (run (.setFlags false) up).adminUp = false := by decide +kernel

/-- R217. -/
theorem test_getStatus :
    (run .getStatus { up with packetsOut := 4, errorsOut := 1 }).result
      = some (.status ⟨false, true, .healthy, 0, 4, 0, 1⟩) := by decide +kernel

/-! ### The other agents, and the step -/

/-- The image of `F0` (spec/95_test_vectors.md, part C). -/
theorem test_deposit :
    withF0.mem.readBytes 0x0600 8 = [0x48, 0x06, 0x32, 0x00, 0x00, 0x00, 0x00, 0x00]
      ∧ withF0.mem.readBytes 0x0644 4 = [0xAA, 0xBB, 0xCC, 0xDD] ∧ withF0.chip.rxhead = 0x0648 := by decide +kernel

/-- VF2 and VF3. -/
theorem test_timer :
    ({ run .recover beforeRecover with now := 149 }.applyMove .timerFire).ctx.resetCounter = 1
      ∧ ({ run .recover beforeRecover with now := 150 }.applyMove .timerFire).ctx.resetCounter = 0 := by decide +kernel

/-- R265, R267: the interrupt of `F0` is taken, delivers it on the ARP lane, and the block is idle again. -/
theorem test_activation :
    let s := after (step withF0)
    s.seq = [] ∧ s.ipl = .low ∧ s.packetsIn = 1
      ∧ s.trace.contains (.deliver .arp [⟨.small, 4, hdr0⟩, ⟨.small, 0, payload0⟩]) = true := by decide +kernel

/-- R259. -/
theorem test_badCommand : (after (step (up.placeCommand [0x2001]))).result = some (.err .badCommand) := by decide +kernel

theorem test_withFetchWord : (after (step (discovered.withFetchWord 16 0x8301))).adminUp = true := by decide +kernel

/-- R281: every command, `GET_STATUS` included. -/
theorem test_getStatus_notProbed :
    (after (step (State.reset.withFetchWord 16 0x8400))).result = some (.err .notProbed) := by decide +kernel

/-- R222, R281: the packet of a command that is refused before discovery is given back. -/
theorem test_enqueueAndKick_notProbed :
    (run (.enqueueAndKick [1]) State.reset).trace = [.raised .notProbed .none, .release (flatPacket [1])] := by
  decide +kernel

/-! ### Witnesses: each statement's hypotheses, met together -/

/-- A configuration with `SPIN_LIMIT` polls. -/
def bounded (k : Nat) : Config where
  toParams := { Params.tc with spinLimit := some k }
  valid := Config.tc.valid

/-- Up, under another bound on the waits. -/
def upBounded (k : Nat) : State := { up with cfg := bounded k }

theorem up_ready : up.Ready := by decide +kernel

theorem witness_DecodeEncode : RegMap.tc.Valid ∧ (Instr.enqueueAndKick [1, 2, 3]).wellFormed = true := by decide

theorem witness_DecodeEncode_longest (bytes : List Byte) (h : bytes.length = 65535) :
    RegMap.tc.Valid ∧ (Instr.transmit true 0 0 bytes).wellFormed = true := by
  refine ⟨by decide, ?_⟩
  simp only [Instr.wellFormed, packetFits, h]
  decide

theorem witness_EncodeDecode :
    RegMap.tc.Valid ∧ decode RegMap.tc [0x8101, 1, 0x0800, 0, 0, 0x00AA] = .ok (.transmit true 0x0800 0 [0xAA]) := by
  decide

theorem witness_LegalCommandWords_register : RegMap.tc.Valid ∧ ∀ r, RegMap.tc.number r ≠ 19 := by
  refine ⟨by decide, fun r => ?_⟩
  cases r <;> decide

theorem witness_LegalCommandWords_padding :
    ((1 : Word).toNat % 2 = 1 ∧ (0x0100 : Word).toNat / 256 ≠ 0)
      ∧ (65535 : Word).toNat % 2 = 1 ∧ (0xFF00 : Word).toNat / 256 ≠ 0 := by decide

theorem witness_StepRunsDecoded_slot :
    ∃ s : State, s.seq = [] ∧ s.port = [[0x2000]] ∧ decode s.cfg.regmap [0x2000] = .ok .receiveOne
      ∧ s.agenda = ⟨[], .command⟩ :: [] :=
  ⟨{ up with port := [[0x2000]], agenda := [⟨[], .command⟩] }, by decide +kernel⟩

theorem witness_StepRunsDecoded_empty :
    ∃ s : State, s.seq = [] ∧ s.port = [[0x2000]] ∧ decode s.cfg.regmap [0x2000] = .ok .receiveOne ∧ s.Still
      ∧ s.canActivate = false :=
  ⟨{ up with port := [[0x2000]] }, by decide +kernel⟩

theorem witness_StepRunsDecoded_again :
    ∃ s : State, s.agenda = [] ∧ s.again = [⟨[.timerTick], .command⟩] ∧ (after (step s)).now = s.now + 1 :=
  ⟨{ up with again := [⟨[.timerTick], .command⟩] }, by decide +kernel⟩

theorem witness_StepRunsDecoded_placed :
    decode State.reset.cfg.regmap (tableWords 16 0x8400) = .ok .getStatus
      ∧ decode State.reset.cfg.regmap (tableWords 16 0x3000) = .ok (.enqueueAndKick []) := by decide +kernel

theorem witness_BadCommandRefused :
    decode up.cfg.regmap [0x2001] = .error .noRow ∧ decode up.cfg.regmap [0x0000, 0x0013] = .error .unknownRegister := by
  decide +kernel

/-- A `RECOVER` held at its wait. -/
def heldRecover : State := run .recover (chip (fun c => { c with rxbusy := true }) up)

/-- A `RECONCILE` held at its wait. -/
def heldReconcile : State := run .reconcile (chip (fun c => { c with fcidle := false }) up)

theorem witness_NoCommandWhileRunning : heldRecover.seq ≠ [] ∧ ∃ t, step heldRecover = .next t :=
  ⟨by decide +kernel, _, next_after (by decide +kernel)⟩

theorem witness_Activation :
    withF0.seq = [] ∧ withF0.chip.irq = true ∧ withF0.ipl = .low ∧ withF0.Still := by decide +kernel

theorem witness_Activation_slot :
    ∃ s : State, s.seq = [] ∧ s.chip.irq = true ∧ s.ipl = .low ∧ s.agenda = ⟨[], .activation⟩ :: [] :=
  ⟨{ withF0 with agenda := [⟨[], .activation⟩] }, by decide +kernel⟩

/-- The outcome of an operation is a value. -/
def isOk {α : Type} : EStateM.Result Stop State α → Bool
  | .ok _ _ => true
  | .error _ _ => false

theorem witness_Activation_runs :
    ∃ u t, dispatchBody { withF0 with context := some .interrupt, ipl := .device, seq := [⟨.dispatch, 0, none⟩] } = .ok u t := by
  have h : isOk (dispatchBody { withF0 with context := some .interrupt, ipl := .device, seq := [⟨.dispatch, 0, none⟩] }) = true := by
    decide +kernel
  generalize dispatchBody _ = r at h ⊢
  cases r with
  | ok u t => exact ⟨u, t, rfl⟩
  | error e t => cases h

theorem witness_Activation_idle :
    up.seq = [] ∧ ¬ (up.chip.irq = true ∧ up.ipl = .low) ∧ up.port = [] ∧ up.Still := by decide +kernel

theorem witness_QuietExpire :
    let s := { run .recover up with now := 50 }
    s.pendingClear = some 50 ∧ 50 ≤ s.now ∧ s.seq = [] ∧ s.ipl = .low := by decide +kernel

theorem witness_QuietExpire_disabled :
    up.pendingClear = none
      ∧ (∃ d, ({ run .recover up with now := 49 } : State).pendingClear = some d
          ∧ ({ run .recover up with now := 49 } : State).now < d)
      ∧ heldReconcile.seq ≠ [] ∧ heldReconcile.ipl ≠ .low := by
  exact ⟨by decide +kernel, ⟨50, by decide +kernel⟩, by decide +kernel, by decide +kernel⟩

theorem witness_ChipNeverDoes : (EnvMove.linkChange true true).ofChip = true := by decide

/-- Up, with a receive in flight. -/
def receiving : State := up.applyMove .rxBegin

/-- Up, with a one-byte transmit in flight. -/
def sending : State := run (.enqueueAndKick [1]) up

theorem witness_EnvironmentMoves :
    (up.chip.rxen = true ∧ up.chip.rxbusy = false) ∧ receiving.chip.rxbusy = true ∧ discovered.chip.rxen = false
      ∧ receiving.ringFree < depositSize receiving.cfg.toParams 2535
      ∧ (chip (fun c => { c with pktcnt := 255 }) receiving).chip.pktcnt = receiving.cfg.pktcntMax
      ∧ (sending.chip.txrts = true ∧ sending.chip.txst.toNat + sending.chip.txlen.toNat ≤ sending.cfg.memSize)
      ∧ up.chip.txrts = false := by decide +kernel

theorem witness_EnvironmentMoves_dropped :
    receiving.chip.rxbusy = true ∧ hdr0.length = receiving.cfg.ethHdrSize
      ∧ receiving.cfg.ethHdrSize + (payload0.drop 1).length < receiving.cfg.etherMin
      ∧ receiving.cfg.etherMax < receiving.cfg.ethHdrSize + (List.replicate 1501 (0 : Byte)).length := by decide +kernel

theorem witness_EnvironmentMoves_corrupt :
    (receiving.chip.rxbusy = true ∧ (∀ w ∈ [(0x0600, (1 : Byte)), (0x0FFF, 2), (0x0600, 3)], receiving.ChipOwned w.1)
        ∧ (0x0602 : Word).toNat % 2 = 0 ∧ receiving.ChipOwned (0x0602 : Word).toNat
        ∧ receiving.chip.pktcnt + 255 ≤ receiving.cfg.pktcntMax ∧ receiving.mem.wf)
      ∧ ¬ up.chip.rxbusy = true ∧ ¬ receiving.ChipOwned 0x05FF ∧ ¬ withF0.ChipOwned 0x0600
      ∧ ¬ receiving.chip.pktcnt + 256 ≤ receiving.cfg.pktcntMax := by decide +kernel

theorem witness_EnvironmentMoves_overflow :
    (receiving.cfg.etherMin ≤ receiving.cfg.ethHdrSize + payload0.length
        ∧ receiving.cfg.ethHdrSize + payload0.length ≤ receiving.cfg.etherMax)
      ∧ (chip (fun c => { c with rxtail := 0x0600 }) receiving).ringFree < depositSize receiving.cfg.toParams payload0.length
      ∧ receiving.cfg.pktcntMax ≤ (chip (fun c => { c with pktcnt := 255 }) receiving).chip.pktcnt
      ∧ up.chip.rxbusy = false ∧ (hdr0.drop 1).length ≠ receiving.cfg.ethHdrSize
      ∧ ¬ (receiving.ringFree < depositSize receiving.cfg.toParams 46
        ∨ receiving.chip.pktcnt = receiving.cfg.pktcntMax) := by decide +kernel

/-- R232 to R233: `F0` itself, with the packet counter at its limit. -/
theorem test_rxEnd_overflow :
    let s := chip (fun c => { c with pktcnt := 255 }) receiving
    (s.applyMove (.rxEnd hdr0 payload0 0 0 0)).chip.flags.rxabt = true
      ∧ (s.applyMove (.rxEnd hdr0 payload0 0 0 0)).chip.rxhead = s.chip.rxhead := by decide +kernel

/-- R237: both flags for one transmit. -/
theorem test_transmit_both_flags :
    (sending.applyMove (.txAbort true)).chip.flags = ⟨false, true, true, false⟩
      ∧ (sending.applyMove (.txComplete true)).chip.flags = ⟨false, true, true, false⟩ := by decide +kernel

theorem witness_EnvironmentMoves_free :
    receiving.chip.rxhead.toNat = ringAddr receiving.cfg.toParams ((receiving.chip.rxtail.toNat : Int) + 2)
      ∧ InRing withF0.cfg.toParams withF0.chip.rxhead.toNat
      ∧ withF0.chip.rxhead.toNat ≠ ringAddr withF0.cfg.toParams ((withF0.chip.rxtail.toNat : Int) + 2) := by decide +kernel

/-- R232: a frame one byte too short is dropped, and nothing is recorded. -/
theorem test_rxEnd_silent :
    let t := receiving.applyMove (.rxEnd hdr0 (payload0.drop 1) 0 0 0)
    t.chip.rxbusy = false ∧ t.chip.flags = receiving.chip.flags ∧ t.chip.pktcnt = receiving.chip.pktcnt := by decide +kernel

theorem witness_DepositLayout :
    receiving.mem.wf ∧ receiving.chip.rxbusy = true ∧ hdr0.length = receiving.cfg.ethHdrSize
      ∧ receiving.cfg.etherMin ≤ receiving.cfg.ethHdrSize + payload0.length
      ∧ receiving.cfg.ethHdrSize + payload0.length ≤ receiving.cfg.etherMax
      ∧ depositSize receiving.cfg.toParams payload0.length ≤ receiving.ringFree
      ∧ receiving.chip.pktcnt < receiving.cfg.pktcntMax ∧ InRing receiving.cfg.toParams receiving.chip.rxhead.toNat := by
  decide +kernel

theorem witness_ResetMove : heldRecover.seq ≠ [] ∧ up.seq = [] := by decide +kernel

theorem witness_DeviceDiscovery : State.reset.seq = [] ∧ State.reset.ctx.probed = false := by decide

theorem witness_NotProbedRefused :
    State.reset.seq = [] ∧ State.reset.ctx.probed = false ∧ Instr.hash ⟨0, 0, 0, 0, 0, 0⟩ ≠ .initialise
      ∧ (Instr.enqueueAndKick [1]).packetBytes = some [1] := by decide

theorem witness_NotProbedRefused_probed : discovered.Ready ∧ discovered.initialized = false := by decide +kernel

theorem witness_RegReadResult : up.Ready ∧ Reg.wholeField .rxst = true ∧ BitName.iflagPkt ∈ Reg.bits .iflag := by
  decide +kernel

theorem witness_RegWriteResult :
    up.Ready ∧ Reg.stored .rxst = true ∧ BitName.ctlTxrts ∈ Reg.bits .ctl ∧ BitName.stored .ctlTxrts = true
      ∧ Reg.rxtail ≠ .rxhead ∧ Reg.stored .maadr0 = false ∧ BitName.stored .statFcidle = false := by decide +kernel

theorem witness_RegSetBitsResult : up.Ready ∧ Reg.stored .ipg = true ∧ BitName.stored .ienGlobal = true := by
  decide +kernel

theorem witness_RegClearBitsResult : up.Ready ∧ Reg.stored .ht3 = true ∧ BitName.stored .iflagTxdone = true := by
  decide +kernel

theorem witness_ReadBytesResult :
    up.Ready ∧ InRing up.cfg.toParams up.pointer ∧ InRing up.cfg.toParams (up.setReadPointer 0x0FFF).pointer := by
  decide +kernel

theorem witness_ReadBytesResult_wrap :
    let s := up.setReadPointer 0x0FFF
    (s.cfg.rxEnd ≤ s.pointer + (1 : Word).toNat ∧ s.pointer + (1 : Word).toNat < s.cfg.rxEnd + s.cfg.toParams.ringSize)
      ∧ s.cfg.rxEnd ≤ s.pointer + (2560 : Word).toNat
      ∧ s.pointer + (2560 : Word).toNat < s.cfg.rxEnd + s.cfg.toParams.ringSize := by decide +kernel

theorem witness_ReadBytesSplits :
    up.Ready ∧ InRing up.cfg.toParams up.pointer ∧ (65534 : Word).toNat + (1 : Word).toNat = (65535 : Word).toNat := by
  decide +kernel

theorem witness_ReadBytesOutsideRing :
    up.Ready ∧ ¬ InRing up.cfg.toParams (up.setReadPointer 0x05FF).pointer
      ∧ ¬ InRing up.cfg.toParams (up.setReadPointer 0x1000).pointer := by decide +kernel

/-- Up, with a recovery count. -/
def counted (n : Nat) (s : State) : State := { s with ctx := { s.ctx with resetCounter := n } }

theorem witness_RecoverResult :
    let s := counted 4 up
    s.Ready ∧ s.ctx.resetCounter < s.cfg.maxResets ∧ s.chip.rxbusy = false ∧ s.cfg.spinLimit ≠ some 0 := by decide +kernel

theorem witness_RecoverDisables :
    let s := counted 5 up
    s.Ready ∧ s.cfg.maxResets ≤ s.ctx.resetCounter := by decide +kernel

/-- Discovered and not brought up, under another bound on the waits. -/
def discoveredBounded (k : Nat) : State := { discovered with cfg := bounded k }

/-- A receive in flight, and flow control not idle. -/
def busy (s : State) : State := chip (fun c => { c with rxbusy := true, fcidle := false }) s

theorem witness_BusyWaitsFault :
    let s := busy (upBounded 3)
    s.Ready ∧ s.cfg.spinLimit = some 3 ∧ s.chip.fcidle = false ∧ s.chip.rxbusy = true
      ∧ s.ctx.resetCounter < s.cfg.maxResets := by decide +kernel

theorem witness_BusyWaitsFault_noPoll :
    (upBounded 0).Ready ∧ (upBounded 0).cfg.spinLimit = some 0
      ∧ (upBounded 0).ctx.resetCounter < (upBounded 0).cfg.maxResets := by decide +kernel

theorem witness_BusyWaitsFault_link :
    let s := chip (fun c => { c with flags := ⟨true, false, false, false⟩ }) (busy (upBounded 3))
    s.Ready ∧ s.cfg.spinLimit = some 3 ∧ s.chip.fcidle = false ∧ s.chip.flags = ⟨true, false, false, false⟩
      ∧ s.chip.pktcnt = 0 := by decide +kernel

theorem witness_BusyWaitsFault_bringUp :
    let s := busy (discoveredBounded 3)
    s.Ready ∧ s.cfg.spinLimit = some 3 ∧ s.chip.fcidle = false ∧ s.ctx.addrKnown = true ∧ s.initialized = false := by
  decide +kernel

/-- The three failing checks of `RECEIVE_ONE`, with a receive in flight and `SPIN_LIMIT` set or not. -/
theorem witness_BusyWaits_receive :
    let pointer := busy { (up.setReadPointer 0x0601) with cfg := bounded 3 }
    let offset := busy { (withHeader [0x00, 0x10, 0x32, 0x00]) with cfg := bounded 3 }
    let length := busy { (withHeader [0x00, 0x08, 0x31, 0x00]) with cfg := bounded 3 }
    (pointer.Ready ∧ pointer.cfg.spinLimit = some 3 ∧ pointer.chip.rxbusy = true
        ∧ pointer.ctx.resetCounter < pointer.cfg.maxResets ∧ ¬ RingValid pointer.cfg.toParams pointer.pointer)
      ∧ (offset.Ready ∧ RingValid offset.cfg.toParams offset.pointer
        ∧ ¬ RingValid offset.cfg.toParams offset.header.1.toNat)
      ∧ length.Ready ∧ RingValid length.cfg.toParams length.pointer
      ∧ RingValid length.cfg.toParams length.header.1.toNat
      ∧ length.frameLength + length.cfg.ethHdrSize < length.cfg.etherMin := by decide +kernel

theorem witness_BusyWaits_packets :
    let s := chip (fun c => { c with pktcnt := 1 }) (busy { (up.setReadPointer 0x0601) with cfg := bounded 3 })
    s.Ready ∧ s.cfg.spinLimit = some 3 ∧ s.chip.rxbusy = true ∧ ¬ RingValid s.cfg.toParams s.pointer
      ∧ s.chip.flags = ⟨false, false, false, false⟩ ∧ s.chip.pktcnt = 1 := by decide +kernel

theorem witness_BusyWaitsHold :
    let s := busy up
    s.Ready ∧ s.cfg.spinLimit = none ∧ s.chip.rxbusy = true ∧ s.chip.fcidle = false
      ∧ s.ctx.resetCounter < s.cfg.maxResets := by decide +kernel

theorem witness_BusyWaitsHold_callers :
    let invalid := chip (fun c => { c with pktcnt := 255 }) (busy (up.setReadPointer 0x0601))
    let link := chip (fun c => { c with flags := ⟨true, true, true, true⟩ }) (busy up)
    (invalid.Ready ∧ invalid.cfg.spinLimit = none ∧ invalid.chip.rxbusy = true
        ∧ ¬ RingValid invalid.cfg.toParams invalid.pointer ∧ invalid.chip.flags = ⟨false, false, false, false⟩
        ∧ 0 < invalid.chip.pktcnt)
      ∧ (link.Ready ∧ link.chip.fcidle = false ∧ link.chip.flags.link = true)
      ∧ (busy discovered).Ready ∧ (busy discovered).cfg.spinLimit = none ∧ (busy discovered).ctx.addrKnown = true
      ∧ (busy discovered).initialized = false := by decide +kernel

theorem witness_BusyWaitsHold_held :
    (heldRecover.cfg = up.cfg ∧ heldRecover.Still ∧ heldRecover.seq = [⟨.recover, 5, none⟩]
        ∧ heldRecover.chip.rxbusy = true)
      ∧ heldReconcile.cfg = up.cfg ∧ heldReconcile.Still ∧ heldReconcile.seq = [⟨.reconcile, 1, none⟩]
      ∧ heldReconcile.chip.fcidle = false := by decide +kernel

theorem witness_BusyWaitsHold_interrupt :
    let invalid := chip (fun c => { c with pktcnt := 1 }) (busy (up.setReadPointer 0x0601))
    let link := chip (fun c => { c with flags := ⟨true, false, false, false⟩ }) (busy up)
    invalid.chip.irq = true ∧ invalid.ipl = .low ∧ link.chip.irq = true ∧ link.ipl = .low := by decide +kernel

/-- The held operation whose bits now read as wanted. -/
def satisfied (s : State) : State := chip (fun c => { c with rxbusy := false, fcidle := true }) s

/-- `DISPATCH` held in its `RECONCILE` with these flags in the snapshot, a packet queued. -/
def heldDispatch (f : StoredFlags) : State :=
  run .dispatch (chip (fun c => { c with flags := f }) (busy { up with sendq := [flatPacket [7]] }))

/-- The same in interrupt context. -/
def heldInterrupt : State :=
  after (step (chip (fun c => { c with flags := ⟨true, false, false, false⟩, pktcnt := 1 }) (busy up)))

theorem witness_BusyWaitsHold_resumed :
    let recovered := satisfied heldRecover
    let received := satisfied (run .receiveOne (busy (up.setReadPointer 0x0601)))
    let packets := satisfied (run .dispatch
      (chip (fun c => { c with pktcnt := 1 }) (busy (up.setReadPointer 0x0601))))
    (recovered.cfg = up.cfg ∧ recovered.Still ∧ recovered.ctx.probed = true ∧ recovered.context = some .request
        ∧ recovered.seq = [⟨.recover, 5, none⟩] ∧ recovered.chip.rxbusy = false)
      ∧ (received.Still ∧ received.context = some .request
        ∧ received.seq = [⟨.recover, 5, none⟩, ⟨.receiveOne, 1, none⟩])
      ∧ (packets.Still ∧ packets.context = some .request
        ∧ packets.seq = [⟨.recover, 5, none⟩, ⟨.receiveOne, 1, none⟩,
            ⟨.dispatch, 4, some ⟨false, false, false, false, true⟩⟩]) := by decide +kernel

theorem witness_BusyWaitsHold_broughtUp :
    let idle := satisfied heldReconcile
    let bringUp := satisfied (run .initialise (busy discovered))
    let flagsUp := satisfied (run (.setFlags true) (busy discovered))
    (idle.Still ∧ idle.context = some .request ∧ idle.seq = [⟨.reconcile, 1, none⟩] ∧ idle.chip.fcidle = true)
      ∧ (bringUp.Still ∧ bringUp.context = some .request ∧ bringUp.ctx.probed = true
        ∧ bringUp.seq = [⟨.reconcile, 1, none⟩, ⟨.initialise, 4, none⟩])
      ∧ flagsUp.Still ∧ flagsUp.context = some .request
      ∧ flagsUp.seq = [⟨.reconcile, 1, none⟩, ⟨.initialise, 4, none⟩, ⟨.setFlags, 0, none⟩] := by decide +kernel

theorem witness_BusyWaitsHold_dispatch :
    let kicks := satisfied (heldDispatch ⟨true, true, false, true⟩)
    let plain := satisfied (heldDispatch ⟨true, false, false, true⟩)
    let packets := satisfied heldInterrupt
    (kicks.Still ∧ kicks.context = some .request ∧ kicks.sendq ≠ []
        ∧ kicks.seq = [⟨.reconcile, 1, none⟩, ⟨.dispatch, 1, some ⟨true, true, false, true, false⟩⟩])
      ∧ (plain.Still ∧ plain.context = some .request
        ∧ plain.seq = [⟨.reconcile, 1, none⟩, ⟨.dispatch, 1, some ⟨true, false, false, true, false⟩⟩])
      ∧ packets.Still ∧ packets.ctx.probed = true ∧ packets.context = some .interrupt
      ∧ packets.chip.rxbusy = false ∧ packets.chip.fcidle = true
      ∧ packets.seq = [⟨.reconcile, 1, none⟩, ⟨.dispatch, 1, some packets.chip.iflags⟩]
      ∧ packets.chip.iflags.pkt = true := by decide +kernel

/-- R267: the held activation ends at `ipl = low`; a transmit-complete that came up during the wait is left set. -/
theorem test_held_interrupt_returns :
    let t := after (step (chip (fun c => { c with flags := ⟨true, true, false, false⟩ }) (satisfied heldInterrupt)))
    t.seq = [] ∧ t.ipl = .low ∧ t.context = none ∧ t.chip.flags = ⟨false, true, false, false⟩ ∧ t.packetsOut = 0
      ∧ t.chip.pktcnt = 0 := by decide +kernel

/-- The checks of `State.HeaderValid`, as a closed question. -/
theorem headerValid_of {s : State}
    (h : RingValid s.cfg.toParams s.pointer ∧ RingValid s.cfg.toParams s.header.1.toNat
      ∧ (s.cfg.etherMin : Int) ≤ s.frameLength + s.cfg.ethHdrSize
      ∧ s.frameLength + s.cfg.ethHdrSize ≤ s.cfg.etherMax) : s.HeaderValid := h

theorem witness_ReceiveOneResult :
    withF0.Ready ∧ withF0.HeaderValid ∧ ∀ i ≤ withF0.frameLength.toNat, withF0.allocAnswers[i]? = some true := by
  refine ⟨by decide +kernel, headerValid_of (by decide +kernel), ?_⟩
  have h : withF0.frameLength.toNat = 46 := by decide +kernel
  rw [h]
  decide +kernel

theorem witness_ReceiveOneReleasesRing :
    let s := { withF0 with allocAnswers := [true, false] }
    s.Ready ∧ s.HeaderValid ∧ (∀ i < 1, s.grant i = true) ∧ s.grant 1 = false ∧ s.frameLength.toNat = 46 :=
  ⟨by decide +kernel, headerValid_of (by decide +kernel), by decide +kernel, by decide +kernel, by decide +kernel⟩

theorem witness_ReceiveOneReleasesRing_first :
    ({ withF0 with allocAnswers := [false] } : State).grant 0 = false ∧ ∀ i < 2, withF0.grant i = true := by
  decide +kernel

/-- R139: the second request refused gives the first chunk back, and no packet. -/
theorem test_receiveOne_refused :
    let t := run .receiveOne { withF0 with allocAnswers := [true, false] }
    t.result = some (.packet none) ∧ t.errorsIn = 1 ∧ t.chip.rxtail = 0x0646
      ∧ outputs t.trace = .raised .allocFail .none :: .release [⟨.small, 4, hdr0⟩] :: outputs withF0.trace := by
  decide +kernel

theorem witness_ReceiveOneInvalid :
    up.Ready ∧ up.chip.rxbusy = false ∧ up.cfg.spinLimit ≠ some 0
      ∧ (counted 4 up).ctx.resetCounter < up.cfg.maxResets ∧ up.cfg.maxResets ≤ (counted 5 up).ctx.resetCounter := by
  decide +kernel

theorem witness_ReceiveOneInvalid_pointer :
    ¬ RingValid up.cfg.toParams (up.setReadPointer 0x1000).pointer
      ∧ ¬ RingValid up.cfg.toParams (up.setReadPointer 0x0601).pointer := by decide +kernel

theorem witness_ReceiveOneInvalid_offset :
    let s := withHeader [0x00, 0x10, 0x32, 0x00]
    RingValid s.cfg.toParams s.pointer ∧ ¬ RingValid s.cfg.toParams s.header.1.toNat := by decide +kernel

theorem witness_ReceiveOneInvalid_length :
    let s := withHeader [0x00, 0x08, 0x31, 0x00]
    RingValid s.cfg.toParams s.pointer ∧ RingValid s.cfg.toParams s.header.1.toNat
      ∧ s.frameLength + s.cfg.ethHdrSize < s.cfg.etherMin := by decide +kernel

theorem witness_ReceiveOneInvalid_long :
    let s := withHeader [0x00, 0x08, 0xE1, 0x05]
    RingValid s.cfg.toParams s.pointer ∧ RingValid s.cfg.toParams s.header.1.toNat
      ∧ (s.cfg.etherMax : Int) < s.frameLength + s.cfg.ethHdrSize := by decide +kernel

/-- Up, with packets queued. -/
def queued (frames : List (List Byte)) : State := { up with sendq := frames.map flatPacket }

theorem witness_KickSends :
    let s := queued [[7]]
    s.Ready ∧ s.mem.wf ∧ s.chip.txrts = false ∧ s.sendq = flatPacket [7] :: [] ∧ 0 < (frameOf (flatPacket [7])).length
      ∧ (frameOf (flatPacket [7])).length ≤ s.cfg.txCapacity := by decide +kernel

theorem witness_KickSends_longest :
    0 < (frameOf (flatPacket (List.replicate 1536 7))).length
      ∧ (frameOf (flatPacket (List.replicate 1536 7))).length ≤ up.cfg.txCapacity := by decide +kernel

theorem witness_KickSendsNothing :
    (queued [[]]).Ready ∧ full.chip.txrts = true ∧ up.sendq = [] ∧ (queued [[]]).chip.txrts = false
      ∧ (queued [[]]).sendq = flatPacket [] :: [] ∧ (frameOf (flatPacket [])).length = 0
      ∧ up.cfg.txCapacity < (frameOf (flatPacket (List.replicate 1537 7))).length := by decide +kernel

theorem witness_EnqueueAndKickResult :
    full.Ready ∧ full.cfg.sendqMax ≤ full.sendq.length ∧ (queued [[1], [2]]).Ready
      ∧ (queued [[1], [2]]).sendq.length < (queued [[1], [2]]).cfg.sendqMax := by decide +kernel

theorem witness_FrameReachesWire :
    let s := queued [[7], [8]]
    s.Ready ∧ s.mem.wf ∧ s.chip.txrts = false ∧ s.sendq = flatPacket [7] :: [flatPacket [8]]
      ∧ 0 < (frameOf (flatPacket [7])).length ∧ (frameOf (flatPacket [7])).length ≤ s.cfg.txCapacity
      ∧ s.chip.txst = BitVec.ofNat 16 s.cfg.txStart := by decide +kernel

theorem witness_HashResult : up.Ready := up_ready

theorem witness_SubscribeResult : up.Ready := up_ready

/-- Up, after one subscription. -/
def subscribed : State := run (.subscribe ⟨0x01, 0x00, 0x5E, 0x00, 0x00, 0x01⟩) up

theorem witness_UnsubscribeResult :
    subscribed.Ready ∧ subscribed.ctx.multicastRefcount[(12 : Fin 64)] = 1
      ∧ hashOf subscribed.cfg.crcVariant ⟨0x01, 0x00, 0x5E, 0x00, 0x00, 0x01⟩ = 12
      ∧ subscribed.ctx.multicastRefcount[hashOf subscribed.cfg.crcVariant ⟨0, 0, 0, 0, 0, 0⟩] = 0 := by decide +kernel

theorem witness_ReconcileResult :
    up.Ready ∧ up.chip.fcidle = true ∧ up.cfg.spinLimit ≠ some 0 ∧ up.chip.phydpx = false
      ∧ (chip (fun c => { c with phydpx := true }) up).chip.phydpx = true := by decide +kernel

theorem witness_DispatchTransmit :
    let s := chip (fun c => { c with flags := ⟨false, true, true, false⟩ }) (queued [[7]])
    s.Ready ∧ s.chip.flags.link = false ∧ s.chip.flags.rxabt = false ∧ s.chip.pktcnt = 0
      ∧ (s.chip.flags.txdone = true ∨ s.chip.flags.txabt = true) ∧ s.sendq ≠ [] ∧ up.sendq = [] := by decide +kernel

theorem witness_DispatchOneCondition :
    up.Ready ∧ up.chip.pktcnt = 0 ∧ up.chip.flags = ⟨false, false, false, false⟩
      ∧ (chip (fun c => { c with flags := ⟨false, false, false, true⟩ }) up).chip.flags = ⟨false, false, false, true⟩
      ∧ (chip (fun c => { c with flags := ⟨true, false, false, false⟩ }) up).chip.flags = ⟨true, false, false, false⟩
      ∧ up.chip.fcidle = true ∧ up.cfg.spinLimit ≠ some 0 := by decide +kernel

/-- Everything at once: four flags, a queue, and packets waiting. -/
theorem witness_DispatchOneCondition_all :
    let s := chip (fun c => { c with flags := ⟨true, true, true, true⟩, pktcnt := 255 }) (queued [[7]])
    s.Ready ∧ s.chip.rxbusy = false ∧ s.chip.fcidle = true ∧ s.cfg.spinLimit ≠ some 0
      ∧ (s.chip.flags.txdone || s.chip.flags.txabt) = true ∧ s.sendq ≠ [] ∧ 0 < s.chip.pktcnt := by decide +kernel

theorem witness_DispatchCompletes :
    withF0.Ready ∧ withF0.chip.rxbusy = false ∧ withF0.chip.fcidle = true ∧ withF0.cfg.spinLimit ≠ some 0 := by
  decide +kernel

theorem witness_DepositIsDelivered :
    let s := grants receiving
    s.Ready ∧ s.mem.wf ∧ RingValid s.cfg.toParams s.pointer ∧ s.chip.rxhead = s.ctx.rxReadPointer
      ∧ s.chip.rxtail.toNat = tailFor s.cfg.toParams s.pointer ∧ s.chip.pktcnt = 0
      ∧ s.chip.flags = ⟨false, false, false, false⟩ ∧ s.chip.rxbusy = true ∧ hdr0.length = s.cfg.ethHdrSize
      ∧ s.cfg.etherMin ≤ s.cfg.ethHdrSize + payload0.length ∧ s.cfg.ethHdrSize + payload0.length ≤ s.cfg.etherMax
      ∧ ∀ i ≤ payload0.length, s.allocAnswers[i]? = some true := by
  decide +kernel

theorem witness_InitialiseResult :
    discovered.Ready ∧ discovered.ctx.addrKnown = true ∧ discovered.initialized = false
      ∧ discovered.chip.fcidle = true ∧ discovered.cfg.spinLimit ≠ some 0 := by decide +kernel

theorem witness_InitialiseTouchesNothing :
    let s := State.reset.applyMove (.discover .addressUnknown)
    (s.Ready ∧ s.ctx.addrKnown = false) ∧ up.Ready ∧ up.ctx.addrKnown = true ∧ up.initialized = true := by decide +kernel

theorem witness_TransmitResult :
    let s := { up with resolveAnswers := [some ⟨0x02, 0x00, 0x00, 0xAA, 0xBB, 0xCC⟩] }
    let t := { up with resolveAnswers := [none] }
    s.Ready ∧ s.initialized = true ∧ s.resolveAnswers = some ⟨0x02, 0x00, 0x00, 0xAA, 0xBB, 0xCC⟩ :: []
      ∧ t.Ready ∧ t.initialized = true ∧ t.resolveAnswers = none :: [] := by decide +kernel

theorem witness_SetMulticastResult : up.Ready := up_ready

theorem witness_SetFlagsResult :
    discovered.Ready ∧ discovered.initialized = false ∧ discovered.chip.fcidle = true
      ∧ discovered.cfg.spinLimit ≠ some 0 ∧ up.Ready ∧ up.initialized = true := by decide +kernel

theorem witness_GetStatusResult : up.Ready := up_ready

theorem witness_StoresOnlyTransmitRegion :
    up.seq = [] ∧ (∃ t, exec .kick up = .next t) ∧ (∃ t, exec .recover up = .next t)
      ∧ Instr.recover.mayStore = false ∧ up.agenda = [] :=
  ⟨by decide +kernel, ⟨_, next_after (by decide +kernel)⟩, ⟨_, next_after (by decide +kernel)⟩, rfl, by decide +kernel⟩

theorem witness_EveryCommandFrame : withF0.Alone ∧ ∃ t, exec .dispatch withF0 = .next t :=
  ⟨by decide +kernel, _, next_after (by decide +kernel)⟩

theorem witness_PriorityRestored :
    up.seq = [] ∧ up.context = none ∧ exec .dispatch up = .next (run .dispatch up) ∧ (run .dispatch up).seq = [] :=
  ⟨by decide +kernel, by decide +kernel, next_after (by decide +kernel), by decide +kernel⟩

theorem witness_PriorityRestored_held :
    let s := chip (fun c => { c with rxbusy := true }) up
    s.seq = [] ∧ s.context = none ∧ exec .recover s = .next heldRecover ∧ heldRecover.seq ≠ [] :=
  ⟨by decide +kernel, by decide +kernel, next_after (by decide +kernel), by decide +kernel⟩

theorem witness_ResetInvariant :
    let m : Memory := [(0, 1), (0x0FFF, 0xFF)]
    m.wf ∧ m.within Config.tc.memSize := by decide

/-- The invariant of an idle block, from its checks as one closed question. -/
theorem inv_of_idle {s : State}
    (h : s.mem.wf ∧ s.mem.within s.cfg.memSize ∧ s.sendq.length ≤ s.cfg.sendqMax ∧ s.chip.pktcnt ≤ s.cfg.pktcntMax
      ∧ s.seq = [] ∧ s.ipl = .low ∧ s.context = none ∧ s.savedIpl = .low ∧ s.wdState ≠ .recovering
      ∧ (s.wdState = .disabled ↔ s.cfg.maxResets < s.ctx.resetCounter) ∧ s.pendingClear = none
      ∧ (s.initialized = true → InRing s.cfg.toParams s.ctx.rxReadPointer.toNat) ∧ s.ctx.addrKnown = true
      ∧ s.ctx.probed = true) : s.Inv := by
  obtain ⟨h1, h2, h3, h4, h5, h6, h7, h8, h9, h10, h11, h12, h13, h14⟩ := h
  exact {
    mem_wf := h1
    mem_within := h2
    sendq_bound := h3
    pktcnt_bound := h4
    idle := fun _ => ⟨h6, h7⟩
    saved := h8
    held := fun h => absurd h5 h
    recovering := by simp [h9, State.inRecover, h5]
    disabled := h10
    counted := fun h => absurd h h9
    unscheduled := fun _ => h11
    scheduled := by simp [h11]
    brought_up := fun h => ⟨h13, h12 (by simpa [State.inBringUp, h5] using h)⟩
    known_probed := fun _ => h14
    unprobed := fun h => absurd h (by simp [h14]) }

theorem up_inv : up.Inv := inv_of_idle (by decide +kernel)

theorem witness_StepKeepsInvariant : up.Inv ∧ withF0.Inv := ⟨up_inv, inv_of_idle (by decide +kernel)⟩

theorem witness_CommandEndsOrHolds : withF0.Inv ∧ withF0.seq = [] := ⟨inv_of_idle (by decide +kernel), by decide +kernel⟩

/-- A `DISPATCH` whose chip lines up a receive at every step, over a header that names itself as the next. -/
def endless : State :=
  { up with
    mem := up.mem.writeBytes 0x0600 [0x00, 0x06, 0x32, 0x00]
    chip := { up.chip with pktcnt := 1 }
    seq := [⟨.dispatch, 4, some ⟨false, false, false, false, true⟩⟩], ipl := .device, context := some .request
    again := [⟨[.rxBegin, .rxEndCorrupt [] none 1], .command⟩]
    allocAnswers := List.replicate 4 true }

/-- R172, R240 (F4): it delivers and is as far as it was, step after step. -/
theorem test_dispatch_goes_on :
    let t := after (step (after (step endless)))
    t.seq = endless.seq ∧ t.chip = endless.chip ∧ t.ctx = endless.ctx ∧ t.agenda = [] ∧ t.packetsIn = 2 := by
  decide +kernel

/-- A block disabled by its sixth recovery. -/
def disabledUp : State := run .recover (counted 5 up)

theorem witness_DisabledIsTerminal :
    disabledUp.Inv ∧ disabledUp.initialized = true ∧ disabledUp.wdState = .disabled ∧ disabledUp.NoReset
      ∧ ∃ t, step disabledUp = .next t := by
  refine ⟨inv_of_idle (by decide +kernel), by decide +kernel, by decide +kernel, ?_, _, next_after (by decide +kernel)⟩
  have h : disabledUp.Still := by decide +kernel
  simp [State.NoReset, h.1, h.2]

theorem witness_InitialiseEstablishesR51 :
    discovered.Inv ∧ discovered.Ready ∧ discovered.ctx.addrKnown = true ∧ discovered.initialized = false
      ∧ discovered.chip.fcidle = true ∧ discovered.cfg.spinLimit ≠ some 0 :=
  ⟨inv_of_idle (by decide +kernel), by decide +kernel⟩

theorem witness_HostRunsKeepR51 :
    let s := { up with port := [[0x8400]] }
    s.Inv ∧ s.Sound ∧ s.HostRun ∧ ∃ t, step s = .next t := by
  have hs : up.seq = [] := by decide +kernel
  have ha : up.Still := by decide +kernel
  refine ⟨inv_of_idle (by decide +kernel), ?_, ?_, _, next_after (by decide +kernel)⟩
  · exact {
      initialized := by decide +kernel
      settled := by simp [State.inBringUp, hs]
      pointer := fun _ => by decide +kernel
      tail := fun _ => by decide +kernel
      table := by
        unfold State.TableSound
        decide +kernel
      reception := fun h => absurd (by decide +kernel) h }
  · refine ⟨fun words h => ?_, by simp [ha.1, ha.2]⟩
    obtain rfl : words = [0x8400] := by simpa using h
    decide +kernel

end Sys2Proof.Tests
end

section
/-! SUPPORT. The invariants of a running operation, in the parts that its events touch one by one: what no event
disturbs (`Base`), the watchdog at rest (`Settled`) and inside `RECOVER` (`Counted`), each kept by every change of the
state that leaves the fields they speak of alone (`SameFacts`). -/

namespace Sys2Proof.Machine

/-! ### The claims made of a run -/

/-- Which of the claims beyond `State.Inv` are made of a running operation. -/
structure Claims where
  /-- The block is initialized and the run keeps to R302. -/
  host : Prop
  /-- The address is known and the read pointer is in the ring (R213). -/
  ring : Prop
  /-- (I-a) and (I-b) of R51. -/
  tail : Prop
  /-- (I-e) of R51. -/
  table : Prop

/-- All of R51 in a run of R302, nothing more than `State.Inv` otherwise. -/
def Claims.whole (h : Prop) : Claims := ⟨h, False, h, h⟩

/-- `Y` claims no more than `X`. -/
structure Claims.Le (Y X : Claims) : Prop where
  host : Y.host → X.host
  ring : Y.ring → X.ring
  tail : Y.tail → X.tail
  table : Y.table → X.table

/-! ### What the claims look at -/

/-- The chip's registers that R51 speaks of. -/
def Chip.tuning (c : Chip) : Word × Bool × Word × Word × Word × Word :=
  (c.rxtail, c.rxen, c.ht0, c.ht1, c.ht2, c.ht3)

/-- `t` agrees with `s` on everything that the invariants look at, but for the sequencer, the memory and `PKTCNT`. -/
structure SameFields (s t : State) : Prop where
  cfg : t.cfg = s.cfg
  ctx : t.ctx = s.ctx
  ipl : t.ipl = s.ipl
  savedIpl : t.savedIpl = s.savedIpl
  context : t.context = s.context
  sendq : t.sendq = s.sendq
  wdState : t.wdState = s.wdState
  now : s.now ≤ t.now
  pendingClear : t.pendingClear = s.pendingClear
  initialized : t.initialized = s.initialized
  tuning : t.chip.tuning = s.chip.tuning

/-- The same, and what is lined up stays within R302. -/
structure SameFacts (s t : State) : Prop extends SameFields s t where
  host : s.HostRun → t.HostRun

section SameFacts

variable {s t : State}

theorem SameCore.facts (h : SameCore s t) : SameFacts s t :=
  ⟨⟨h.cfg, h.ctx, h.ipl, h.savedIpl, h.context, h.sendq, h.wdState, h.now, h.pendingClear, h.initialized,
    (congrArg Chip.tuning h.chip :)⟩, h.host⟩

theorem SameFields.rxtail (h : SameFields s t) : t.chip.rxtail = s.chip.rxtail := congrArg (·.1) h.tuning

theorem SameFields.rxen (h : SameFields s t) : t.chip.rxen = s.chip.rxen := congrArg (·.2.1) h.tuning

theorem SameFields.hashReg (h : SameFields s t) : t.chip.hashReg = s.chip.hashReg := by
  have e := h.tuning
  simp only [Chip.tuning, Prod.mk.injEq] at e
  obtain ⟨-, -, e0, e1, e2, e3⟩ := e
  funext g
  simp only [Chip.hashReg, e0, e1, e2, e3]

theorem SameFields.tableSound (h : SameFields s t) (k : s.TableSound) : t.TableSound := by
  unfold State.TableSound
  rw [h.hashReg, h.ctx]
  exact k

/-- A change that leaves the port and what is lined up alone. -/
theorem sameFacts_of (k : SameFields s t) (hp : t.port = s.port) (ha : t.agenda = s.agenda) (hg : t.again = s.again) :
    SameFacts s t := ⟨k, fun h => by unfold State.HostRun; rw [k.cfg, hp, ha, hg]; exact h⟩

theorem sameFacts_setStep (s : State) (n : Nat) : SameFacts s (s.setStep n) :=
  sameFacts_of (by constructor <;> simp) rfl rfl rfl

theorem sameFacts_setSnapshot (s : State) (f : IFlags) : SameFacts s (s.setSnapshot f) :=
  sameFacts_of (by constructor <;> simp) rfl rfl rfl

theorem sameFacts_pushFrame (s : State) (op : OpName) : SameFacts s (s.pushFrame op) :=
  sameFacts_of (by constructor <;> simp) rfl rfl rfl

theorem sameFacts_popFrame (s : State) : SameFacts s s.popFrame :=
  sameFacts_of (by constructor <;> simp) rfl rfl rfl

theorem sameFacts_onChip (s : State) {f : Chip → Chip} (hf : (f s.chip).tuning = s.chip.tuning) :
    SameFacts s (s.onChip f) :=
  sameFacts_of (by constructor <;> simp [hf]) rfl rfl rfl

theorem sameFacts_rearm (s : State) : SameFacts s s.rearm :=
  ⟨by constructor <;> simp, State.rearm_hostRun⟩

end SameFacts

/-! ### The parts of the invariant -/

/-- What every event of an operation running in context `c` keeps. -/
structure Base (C : Config) (c : Context) (X : Claims) (s : State) : Prop where
  cfg : s.cfg = C
  ipl : s.ipl = .device
  saved : s.savedIpl = .low
  context : s.context = some c
  probed : s.ctx.probed = true
  sendq : s.sendq.length ≤ C.sendqMax
  pointer : s.initialized = true ∨ X.ring → s.ctx.addrKnown = true ∧ InRing C.toParams s.ctx.rxReadPointer.toNat
  host : X.host → s.initialized = true ∧ s.HostRun
  table : X.table → s.TableSound

/-- The watchdog outside `RECOVER` (R32, R182 to R184), with the claims of R51 that depend on it. -/
structure Settled (X : Claims) (s : State) : Prop where
  calm : s.wdState ≠ .recovering
  disabled : s.wdState = .disabled ↔ s.cfg.maxResets < s.ctx.resetCounter
  unscheduled : s.wdState ≠ .healthy → s.pendingClear = none
  scheduled : ∀ d, s.pendingClear = some d → 1 ≤ s.ctx.resetCounter ∧ d ≤ s.now + s.cfg.resetCountTime
  off : X.host → s.wdState ≠ .healthy → s.chip.rxen = false
  tail : X.tail → s.wdState = .healthy → RingValid s.cfg.toParams s.ctx.rxReadPointer.toNat
    ∧ s.chip.rxtail.toNat = tailFor s.cfg.toParams s.ctx.rxReadPointer.toNat

/-- The watchdog inside `RECOVER`, from its step 3 on (R180). -/
structure Counted (X : Claims) (s : State) : Prop where
  recovering : s.wdState = .recovering
  counted : 1 ≤ s.ctx.resetCounter
  off : X.host → s.chip.rxen = false
  scheduled : ∀ d, s.pendingClear = some d → d ≤ s.now + s.cfg.resetCountTime

/-- `RECOVER` below the threshold, with no callback scheduled (R180 step 5). -/
structure Waiting (X : Claims) (s : State) : Prop extends Counted X s where
  below : s.ctx.resetCounter ≤ s.cfg.maxResets
  unscheduled : s.pendingClear = none

section Parts

variable {C : Config} {c : Context} {X Y : Claims} {s t : State}

theorem Base.keep (h : Base C c X s) (k : SameFacts s t) : Base C c X t where
  cfg := k.cfg.trans h.cfg
  ipl := k.ipl.trans h.ipl
  saved := k.savedIpl.trans h.saved
  context := k.context.trans h.context
  probed := by rw [k.ctx]; exact h.probed
  sendq := by rw [k.sendq]; exact h.sendq
  pointer := by rw [k.initialized, k.ctx]; exact h.pointer
  host := fun hx => ⟨k.initialized.trans (h.host hx).1, k.host (h.host hx).2⟩
  table := fun hx => k.tableSound (h.table hx)

theorem Settled.keep (h : Settled X s) (k : SameFacts s t) : Settled X t where
  calm := by rw [k.wdState]; exact h.calm
  disabled := by rw [k.wdState, k.cfg, k.ctx]; exact h.disabled
  unscheduled := by rw [k.wdState, k.pendingClear]; exact h.unscheduled
  scheduled := by
    rw [k.pendingClear, k.ctx, k.cfg]
    exact fun d hd => ⟨(h.scheduled d hd).1, Nat.le_trans (h.scheduled d hd).2 (Nat.add_le_add_right k.now _)⟩
  off := by rw [k.wdState, k.rxen]; exact h.off
  tail := by rw [k.wdState, k.cfg, k.ctx, k.rxtail]; exact h.tail

theorem Counted.keep (h : Counted X s) (k : SameFacts s t) : Counted X t where
  recovering := k.wdState.trans h.recovering
  counted := by rw [k.ctx]; exact h.counted
  off := by rw [k.rxen]; exact h.off
  scheduled := by
    rw [k.pendingClear, k.cfg]
    exact fun d hd => Nat.le_trans (h.scheduled d hd) (Nat.add_le_add_right k.now _)

theorem Waiting.keep (h : Waiting X s) (k : SameFacts s t) : Waiting X t where
  toCounted := h.toCounted.keep k
  below := by rw [k.cfg, k.ctx]; exact h.below
  unscheduled := k.pendingClear.trans h.unscheduled

theorem Base.mono (h : Base C c X s) (l : Y.Le X) : Base C c Y s where
  cfg := h.cfg
  ipl := h.ipl
  saved := h.saved
  context := h.context
  probed := h.probed
  sendq := h.sendq
  pointer := fun hi => h.pointer (hi.imp_right l.ring)
  host := fun hx => h.host (l.host hx)
  table := fun hx => h.table (l.table hx)

theorem Settled.mono (h : Settled X s) (hh : Y.host → X.host) (ht : Y.tail → X.tail) : Settled Y s where
  calm := h.calm
  disabled := h.disabled
  unscheduled := h.unscheduled
  scheduled := h.scheduled
  off := fun hx => h.off (hh hx)
  tail := fun hx => h.tail (ht hx)

end Parts

/-! ### Where the sequencer stands -/

/-- The top frame is one of `op`, at whatever step, over the callers `q`. -/
def On (op : OpName) (snap : Option IFlags) (q : List Frame) (l : List Frame) : Prop := ∃ n, l = ⟨op, n, snap⟩ :: q

/-- An operation runs, the watchdog being at rest. -/
structure Live (C : Config) (c : Context) (X : Claims) (Q : List Frame → Prop) (s : State) : Prop where
  seq : Q s.seq
  base : Base C c X s
  settled : Settled X s

/-- `RECOVER` runs and is below the threshold. -/
structure Under (C : Config) (c : Context) (X : Claims) (Q : List Frame → Prop) (s : State) : Prop where
  seq : Q s.seq
  base : Base C c X s
  waiting : Waiting X s

section Live

variable {C : Config} {c : Context} {X Y : Claims} {Q : List Frame → Prop} {s t : State}

theorem Live.keep (h : Live C c X Q s) (k : SameFacts s t) {R : List Frame → Prop} (hq : R t.seq) : Live C c X R t :=
  ⟨hq, h.base.keep k, h.settled.keep k⟩

theorem Live.mono (h : Live C c X Q s) (l : Y.Le X) : Live C c Y Q s :=
  ⟨h.seq, h.base.mono l, h.settled.mono l.host l.tail⟩

theorem calm_live : Calm (Live C c X Q) := fun _ _ k h => h.keep k.facts (by rw [k.seq]; exact h.seq)

theorem calm_under : Calm (Under C c X Q) := fun _ _ k h =>
  ⟨by rw [k.seq]; exact h.seq, h.base.keep k.facts, h.waiting.keep k.facts⟩

/-- A write of the chip's registers that R51 does not speak of. -/
theorem Live.onChip (h : Live C c X Q s) {f : Chip → Chip} (hf : ∀ c, (f c).tuning = c.tuning) :
    Live C c X Q (s.onChip f) := h.keep (sameFacts_onChip s (hf _)) h.seq

/-- Every write of the chip's registers, where nothing of R51 is claimed. -/
theorem Live.onChip_unclaimed (h : Live C c X Q s) (f : Chip → Chip) (h1 : ¬ X.host) (h2 : ¬ X.tail) (h3 : ¬ X.table) :
    Live C c X Q (s.onChip f) where
  seq := h.seq
  base := ⟨h.base.cfg, h.base.ipl, h.base.saved, h.base.context, h.base.probed, h.base.sendq, h.base.pointer,
    fun hx => absurd hx h1, fun hx => absurd hx h3⟩
  settled := ⟨h.settled.calm, h.settled.disabled, h.settled.unscheduled, h.settled.scheduled, fun hx => absurd hx h1,
    fun hx => absurd hx h2⟩

end Live

end Sys2Proof.Machine
end

section
/-! SUPPORT. The operations of a running command as triples over `Live`: what each one, called or at the bottom,
makes of the invariants. -/

namespace Sys2Proof.Machine

/-! ### Rules of the triple -/

section Rules

variable {α β : Type} {K L H : State → Prop} {F : Prop}

/-- The state that a `get` returns, with what is known of it. -/
theorem Op.meets_getBind {P : State → Prop} {f : State → Op α} {Q : α → State → Prop}
    (h : ∀ a, P a → Op.Meets (fun t => P t ∧ t = a) (f a) Q H F) : Op.Meets P (get >>= f) Q H F := by
  intro s hs
  rw [op_bind, op_get]
  exact h s hs s ⟨hs, rfl⟩

/-- A stronger precondition. -/
theorem Op.Meets.pre {P P' : State → Prop} {x : Op α} {Q : α → State → Prop} (h : Op.Meets P x Q H F)
    (hp : ∀ s, P' s → P s) : Op.Meets P' x Q H F := h.weaken hp (fun _ _ k => k) fun _ k => k

/-- A weaker postcondition. -/
theorem Op.Meets.post {P : State → Prop} {x : Op α} {Q Q' : α → State → Prop} (h : Op.Meets P x Q H F)
    (hq : ∀ a s, Q a s → Q' a s) : Op.Meets P x Q' H F := h.weaken (fun _ k => k) hq fun _ k => k

/-- A fact that holds of every state of the precondition. -/
theorem Op.meets_of_pre {P : State → Prop} {p : Prop} {x : Op α} {Q : α → State → Prop} (hp : ∀ s, P s → p)
    (h : p → Op.Meets P x Q H F) : Op.Meets P x Q H F := fun s hs => h (hp s hs) s hs

theorem Run.mono {s : State} (h : Run K s) (hk : K s → L s) : Run L s := ⟨h.ne, h.good, hk h.k⟩

/-- A change of the block's state outside the memory and the chip. -/
theorem meets_change {f : State → State} (hf : ∀ s, K s → L (f s))
    (hd : ∀ s, (f s).cfg = s.cfg ∧ (f s).mem = s.mem ∧ (f s).chip = s.chip ∧ (f s).seq.length = s.seq.length) :
    Op.Meets (Run K) (update f) (fun _ => Run L) H F := fun s hs => by
  obtain ⟨h1, h2, h3, h4⟩ := hd s
  exact hs.update h1 h2 (by rw [h3]) (by rw [← List.length_pos_iff, h4, List.length_pos_iff]; exact hs.ne)
    (hf s hs.k)

theorem length_setStep (s : State) (n : Nat) : (s.setStep n).seq.length = s.seq.length := by simp

theorem meets_atStep {n : Nat} (hf : ∀ s, K s → L (s.setStep n)) :
    Op.Meets (Run K) (atStep n) (fun _ => Run L) H F :=
  meets_change hf fun s => ⟨rfl, rfl, rfl, length_setStep s n⟩

theorem meets_regWriteTo (hK : Calm K) {r : Reg} {v : Word}
    (hw : ∀ s m, K s → L (s.onChip (fun c => c.writeWord m r v))) :
    Op.Meets (Run K) (regWrite r v) (fun _ => Run L) H F := fun _ hs =>
  ((hs.tick hK).emit hK _).update (L := L) rfl rfl (Chip.writeWord_pktcnt _ _ _ _) (hs.tick hK).ne
    (hw _ _ ((hs.tick hK).emit hK _).k)

theorem meets_regSetTo (hK : Calm K) {r : Reg} {bs : List BitName} (hw : ∀ s, K s → L (s.onChip (·.setBits bs))) :
    Op.Meets (Run K) (regSet r bs) (fun _ => Run L) H F := fun _ hs =>
  ((hs.tick hK).emit hK _).update (L := L) rfl rfl (Chip.setBits_pktcnt _ _) (hs.tick hK).ne
    (hw _ ((hs.tick hK).emit hK _).k)

theorem meets_regClearTo (hK : Calm K) {r : Reg} {bs : List BitName}
    (hw : ∀ s, K s → L (s.onChip (·.clearBits bs))) :
    Op.Meets (Run K) (regClear r bs) (fun _ => Run L) H F := fun _ hs =>
  ((hs.tick hK).emit hK _).update (L := L) rfl rfl (Nat.le_of_eq (Chip.clearBits_pktcnt _ _)) (hs.tick hK).ne
    (hw _ ((hs.tick hK).emit hK _).k)

end Rules

/-! ### Sequencer steps, calls and plain events of a running operation -/

section Plain

variable {α : Type} {C : Config} {c : Context} {X Y : Claims} {Q : List Frame → Prop} {op : OpName}
  {snap : Option IFlags} {q : List Frame} {H : State → Prop} {F : Prop}

theorem On.of_eq {n : Nat} {l : List Frame} (h : l = ⟨op, n, snap⟩ :: q) : On op snap q l := ⟨n, h⟩

theorem Live.on {n : Nat} {s : State} (h : Live C c X (· = ⟨op, n, snap⟩ :: q) s) : Live C c X (On op snap q) s :=
  ⟨⟨n, h.seq⟩, h.base, h.settled⟩

theorem Live.setStep {s : State} (h : Live C c X (On op snap q) s) (n : Nat) :
    Live C c X (· = ⟨op, n, snap⟩ :: q) (s.setStep n) := by
  refine h.keep (sameFacts_setStep s n) ?_
  obtain ⟨m, hm⟩ := h.seq
  simp [hm]

/-- The top frame comes to step `n`. -/
theorem live_atStep (n : Nat) : Op.Meets (Run (Live C c X (On op snap q))) (atStep n)
    (fun _ => Run (Live C c X (· = ⟨op, n, snap⟩ :: q))) H F := meets_atStep fun _ h => h.setStep n

/-- The same, the step forgotten. -/
theorem live_step (n : Nat) : Op.Meets (Run (Live C c X (On op snap q))) (atStep n)
    (fun _ => Run (Live C c X (On op snap q))) H F := (live_atStep n).post fun _ _ h => h.mono Live.on

/-- A call from a frame at a known step (R98). -/
theorem live_callAt {l : List Frame} {body : Op α} (hl : l ≠ [])
    (h : Op.Meets (Run (Live C c X (· = ⟨op, 0, none⟩ :: l))) body (fun _ => Run (Live C c Y (On op none l))) H F) :
    Op.Meets (Run (Live C c X (· = l))) (call op body) (fun _ => Run (Live C c Y (· = l))) H F := by
  refine Op.meets_call (h.weaken ?_ ?_ fun _ k => k)
  · rintro _ ⟨s, hs, rfl⟩
    exact hs.update rfl rfl (Nat.le_refl _) (by simp) (hs.k.keep (sameFacts_pushFrame s op) (by simp [hs.k.seq]))
  · intro a s hs
    obtain ⟨n, hn⟩ := hs.k.seq
    have e : s.popFrame.seq = l := by simp [hn]
    exact hs.update rfl rfl (Nat.le_refl _) (by rw [e]; exact hl) (hs.k.keep (sameFacts_popFrame s) e)

/-- A call from a frame at any step, of an operation that any frame may call. -/
theorem live_call {op' : OpName} {body : Op α} (h : ∀ l, Op.Meets (Run (Live C c X (On op' none l))) body
      (fun _ => Run (Live C c Y (On op' none l))) H F) :
    Op.Meets (Run (Live C c X (On op snap q))) (call op' body) (fun _ => Run (Live C c Y (On op snap q))) H F := by
  intro s hs
  obtain ⟨n, hn⟩ := hs.k.seq
  exact ((live_callAt (List.cons_ne_nil _ _) ((h _).pre fun _ k => k.mono Live.on)).post fun _ _ k => k.mono Live.on)
    s ⟨hs.ne, hs.good, hn, hs.k.base, hs.k.settled⟩

/-- An update of the block's state that the invariants do not look at. -/
theorem live_update {f : State → State} (hf : ∀ s, SameFacts s (f s))
    (hd : ∀ s, (f s).mem = s.mem ∧ (f s).chip = s.chip ∧ (f s).seq = s.seq) :
    Op.Meets (Run (Live C c X Q)) (update f) (fun _ => Run (Live C c X Q)) H F :=
  meets_change (fun s h => h.keep (hf s) (by rw [(hd s).2.2]; exact h.seq))
    fun s => ⟨(hf s).cfg, (hd s).1, (hd s).2.1, by rw [(hd s).2.2]⟩

/-- A write of a register that R51 does not speak of. -/
theorem live_regWrite {r : Reg} {v : Word} (h : ∀ m c, (Chip.writeWord m c r v).tuning = c.tuning) :
    Op.Meets (Run (Live C c X Q)) (regWrite r v) (fun _ => Run (Live C c X Q)) H F :=
  meets_regWriteTo calm_live fun _ m k => k.onChip (h m)

theorem live_regSet {r : Reg} {bs : List BitName} (h : ∀ c, (Chip.setBits c bs).tuning = c.tuning) :
    Op.Meets (Run (Live C c X Q)) (regSet r bs) (fun _ => Run (Live C c X Q)) H F :=
  meets_regSetTo calm_live fun _ k => k.onChip h

theorem live_regClear {r : Reg} {bs : List BitName} (h : ∀ c, (Chip.clearBits c bs).tuning = c.tuning) :
    Op.Meets (Run (Live C c X Q)) (regClear r bs) (fun _ => Run (Live C c X Q)) H F :=
  meets_regClearTo calm_live fun _ k => k.onChip h

end Plain

end Sys2Proof.Machine
end

section
/-! SUPPORT. The operations that no wait can hold, over `Live`: the multicast table, the transmit side, and the ring
reader. -/

namespace Sys2Proof.Machine

variable {C : Config} {c : Context} {X : Claims} {Q : List Frame → Prop} {op : OpName} {snap : Option IFlags}
  {q : List Frame} {H : State → Prop}

/-! ### The multicast table -/

theorem getLsbD_wordOfBits (l : List (Nat × Bool)) {i : Nat} (hi : i < 16) :
    (wordOfBits l).getLsbD i = l.any fun p => p.2 && p.1 == i := by
  induction l with
  | nil => simp [wordOfBits]
  | cons p l ih =>
    obtain ⟨k, b⟩ := p
    rw [List.any_cons, ← ih]
    cases b
    · simp [wordOfBits]
    · simp only [wordOfBits, List.foldr_cons, if_true, BitVec.getLsbD_or, BitVec.getLsbD_twoPow, Bool.true_and]
      rw [Bool.or_comm]
      congr 1
      by_cases h : k = i
      · simp [h, hi]
      · simp [h]

/-- A hash register's word shows the counts of its sixteen buckets (R45, R197). -/
theorem getLsbD_hashWord (r : Vector Nat 64) (g : Nat) {b : Nat} (hb : b < 16) :
    (hashWord r g).getLsbD b = decide (0 < r[16 * g + b]?.getD 0) := by
  rw [hashWord, getLsbD_wordOfBits _ hb, List.any_map, Bool.eq_iff_iff, List.any_eq_true]
  constructor
  · rintro ⟨k, -, hk⟩
    simp only [Function.comp, Bool.and_eq_true, beq_iff_eq] at hk
    rw [← hk.2]
    exact hk.1
  · intro h
    exact ⟨b, List.mem_range.2 hb, by simpa using h⟩

/-- Where the four registers hold the four words of the counts, (I-e) holds. -/
theorem State.tableSound_of_words {s : State} (h : ∀ g : Fin 4, s.chip.hashReg g = hashWord s.ctx.multicastRefcount g) :
    s.TableSound := by
  intro k
  rw [h, getLsbD_hashWord _ _ (Nat.mod_lt _ (by omega))]
  have e : 16 * (k.val / 16) + k.val % 16 = k.val := by omega
  simp [e]

/-- The first `j` hash registers hold the words of the counts `r`. -/
structure Pushed (C : Config) (c : Context) (X : Claims) (Q : List Frame → Prop) (r : Vector Nat 64) (j : Nat)
    (s : State) : Prop where
  live : Live C c { X with table := False } Q s
  counts : s.ctx.multicastRefcount = r
  words : ∀ g : Fin 4, g.val < j → s.chip.hashReg g = hashWord r g

theorem calm_pushed {r : Vector Nat 64} {j : Nat} : Calm (Pushed C c X Q r j) := fun s t k h =>
  ⟨calm_live s t k h.live, by rw [k.ctx]; exact h.counts, by rw [k.facts.hashReg]; exact h.words⟩

/-- The hash register of a group of sixteen buckets (R45). -/
def hashRegister : Fin 4 → Reg
  | 0 => .ht0
  | 1 => .ht1
  | 2 => .ht2
  | 3 => .ht3

theorem Chip.hashReg_writeWord (m : RegMap) (c : Chip) (v : Word) (g g' : Fin 4) :
    (c.writeWord m (hashRegister g) v).hashReg g'
      = if g' = g then v else c.hashReg g' := by
  fin_cases g <;> fin_cases g' <;> rfl

/-- One more of the four writes (R197). -/
theorem Pushed.write {r : Vector Nat 64} {s : State} (g : Fin 4) (h : Pushed C c X Q r g s) (m : RegMap) :
    Pushed C c X Q r (g + 1)
      (s.onChip fun c => c.writeWord m (hashRegister g) (hashWord r g)) where
  live :=
    { seq := h.live.seq
      base := ⟨h.live.base.cfg, h.live.base.ipl, h.live.base.saved, h.live.base.context, h.live.base.probed,
        h.live.base.sendq, h.live.base.pointer, h.live.base.host, False.elim⟩
      settled := by
        obtain ⟨h1, h2, h3, h4, h5, h6⟩ := h.live.settled
        refine ⟨h1, h2, h3, h4, ?_, ?_⟩ <;> fin_cases g <;> assumption }
  counts := h.counts
  words := by
    intro g' hg'
    rw [State.onChip_chip, Chip.hashReg_writeWord]
    split
    · next e => rw [e]
    · next e => exact h.words g' (by omega)

/-- `PushTable` makes (I-e) hold (R197, R199). -/
theorem live_pushTable : Op.Meets (Run (Live C c { X with table := False } Q)) pushTable
    (fun _ => Run (Live C c X Q)) H := by
  refine Op.meets_getBind fun a _ => ?_
  refine Op.Meets.pre (P := Run (Pushed C c X Q a.ctx.multicastRefcount 0)) ?_ ?_
  · refine Op.Meets.bind (meets_regWriteTo calm_pushed fun _ m k => k.write 0 m) fun _ =>
      Op.Meets.bind (meets_regWriteTo calm_pushed fun _ m k => k.write 1 m) fun _ =>
      Op.Meets.bind (meets_regWriteTo calm_pushed fun _ m k => k.write 2 m) fun _ =>
      (meets_regWriteTo calm_pushed fun _ m k => k.write 3 m).post fun _ s hs => hs.mono fun k => ?_
    obtain ⟨⟨h1, h2, h3⟩, hc, hw⟩ := k
    exact ⟨h1, { h2 with table := fun _ => State.tableSound_of_words fun g => by rw [hc]; exact hw g g.isLt },
      { h3 with }⟩
  · rintro t ⟨hs, rfl⟩
    exact hs.mono fun k => ⟨k, rfl, fun g hg => absurd hg (Nat.not_lt_zero _)⟩

/-- A bucket's count changes (R26): the table is behind until it is pushed. -/
theorem live_setRefcount (k : Fin 64) (n : Nat) : Op.Meets (Run (Live C c X Q)) (update (·.setRefcount k n))
    (fun _ => Run (Live C c { X with table := False } Q)) H :=
  meets_change (fun _ h => ⟨h.seq, ⟨h.base.cfg, h.base.ipl, h.base.saved, h.base.context, h.base.probed, h.base.sendq,
    h.base.pointer, h.base.host, False.elim⟩, ⟨h.settled.calm, h.settled.disabled, h.settled.unscheduled,
    h.settled.scheduled, h.settled.off, h.settled.tail⟩⟩) fun _ => ⟨rfl, rfl, rfl, rfl⟩

theorem live_subscribeBody (a : MacAddr) :
    Op.Meets (Run (Live C c X Q)) (subscribeBody a) (fun _ => Run (Live C c X Q)) H :=
  Op.meets_getBind fun _ _ => Op.Meets.bind ((live_setRefcount _ _).pre fun _ k => k.1) fun _ => live_pushTable

theorem live_unsubscribeBody (a : MacAddr) :
    Op.Meets (Run (Live C c X Q)) (unsubscribeBody a) (fun _ => Run (Live C c X Q)) H :=
  Op.meets_getBind fun _ _ => Op.meets_ite (fun _ => Op.meets_pure fun _ k => k.1) fun _ =>
    Op.Meets.bind ((live_setRefcount _ _).pre fun _ k => k.1) fun _ => live_pushTable

theorem live_setMulticastBody (a : MacAddr) (sub : Bool) :
    Op.Meets (Run (Live C c X (On op snap q))) (setMulticastBody a sub)
      (fun _ => Run (Live C c X (On op snap q))) H :=
  Op.meets_ite (fun _ => live_call fun _ => live_subscribeBody a) fun _ => live_call fun _ => live_unsubscribeBody a

/-! ### The transmit side -/

/-- Another send queue within its bound (I-c). -/
theorem Live.setSendq {s : State} (h : Live C c X Q s) {l : List Packet} (hl : l.length ≤ C.sendqMax) :
    Live C c X Q { s with sendq := l } where
  seq := h.seq
  base := { h.base with sendq := hl }
  settled := ⟨h.settled.calm, h.settled.disabled, h.settled.unscheduled, h.settled.scheduled, h.settled.off,
    h.settled.tail⟩

/-- The transmit region of a valid configuration lies in chip memory (R8). -/
theorem config_transmit (C : Config) : C.txStart + C.txCapacity ≤ C.memSize := by
  have := C.valid
  simp only [Params.Valid] at this
  tauto

theorem live_sendHead (pkt : Packet) : Op.Meets (Run (Live C c X (On op snap q))) (sendHead pkt)
    (fun _ => Run (Live C c X (On op snap q))) H := by
  refine Op.Meets.bind (live_step 3) fun _ => Op.Meets.bind (Q := fun _ => Run (Live C c X (On op snap q)))
    (meets_change (fun s h => h.setSendq (Nat.le_trans ?_ h.base.sendq)) fun _ => ⟨rfl, rfl, rfl, rfl⟩) fun _ =>
    Op.meets_getBind fun a ha => Op.Meets.bind ((live_step 4).pre fun _ k => k.1) fun _ =>
    Op.meets_ite (fun _ => Op.Meets.bind (meets_release calm_live _) fun _ => meets_raise calm_live _ _) fun hlen => ?_
  · rw [List.length_tail]
    exact Nat.sub_le _ _
  rw [ha.k.base.cfg] at hlen ⊢
  refine Op.Meets.bind (live_step 5) fun _ => Op.Meets.bind (meets_memWrite calm_live _ _ fun s k _ => ?_) fun _ =>
    Op.Meets.bind (live_step 6) fun _ => Op.Meets.bind (meets_release calm_live _) fun _ =>
    Op.Meets.bind (live_step 7) fun _ => Op.Meets.bind (live_regWrite fun _ _ => rfl) fun _ =>
    Op.Meets.bind (live_step 8) fun _ => live_regSet fun _ => rfl
  have := config_transmit C
  rw [k.base.cfg]
  omega

theorem live_kickBody : Op.Meets (Run (Live C c X (On op snap q))) kickBody
    (fun _ => Run (Live C c X (On op snap q))) H := by
  refine Op.Meets.bind (live_step 1) fun _ => Op.Meets.bind (meets_regReadBit calm_live _ _) fun b =>
    Op.meets_ite (fun _ => Op.meets_pure fun _ k => k) fun _ => Op.Meets.bind (live_step 2) fun _ =>
    Op.meets_getBind fun a _ => ?_
  cases a.sendq with
  | nil => exact Op.meets_pure fun _ k => k.1
  | cons pkt _ => exact (live_sendHead pkt).pre fun _ k => k.1

theorem live_kick : Op.Meets (Run (Live C c X (On op snap q))) kick (fun _ => Run (Live C c X (On op snap q))) H :=
  live_call fun _ => live_kickBody

theorem live_enqueue (pkt : Packet) :
    Op.Meets (Run (Live C c X Q)) (enqueue pkt) (fun _ => Run (Live C c X Q)) H := by
  refine Op.meets_getBind fun a ha => Op.meets_ite (fun _ => Op.Meets.bind
    ((meets_release calm_live _).pre fun _ k => k.1) fun _ => Op.Meets.bind (meets_raise calm_live _ _) fun _ =>
    Op.meets_pure fun _ k => k) fun hlen => Op.Meets.bind (Q := fun _ => Run (Live C c X Q)) ?_ fun _ =>
    Op.meets_pure fun _ k => k
  rintro _ ⟨hs, rfl⟩
  refine hs.update rfl rfl (Nat.le_refl _) hs.ne (hs.k.setSendq ?_)
  rw [hs.k.base.cfg] at hlen
  rw [List.length_append, List.length_singleton]
  omega

theorem live_enqueueAndKickBody (pkt : Packet) : Op.Meets (Run (Live C c X (On op snap q))) (enqueueAndKickBody pkt)
    (fun _ => Run (Live C c X (On op snap q))) H :=
  Op.Meets.bind (live_step 1) fun _ => Op.Meets.bind (live_enqueue pkt) fun _ => Op.Meets.bind (live_step 2) fun _ =>
    Op.Meets.bind live_kick fun _ => Op.Meets.bind (live_step 3) fun _ => Op.meets_pure fun _ k => k

theorem live_enqueueAndKick (pkt : Packet) : Op.Meets (Run (Live C c X (On op snap q))) (enqueueAndKick pkt)
    (fun _ => Run (Live C c X (On op snap q))) H := live_call fun _ => live_enqueueAndKickBody pkt

theorem live_transmitBody (isFramed : Bool) (ptype : Word) (dest : BitVec 32) (bytes : List Byte) :
    Op.Meets (Run (Live C c X (On op snap q))) (transmitBody isFramed ptype dest bytes)
      (fun _ => Run (Live C c X (On op snap q))) H := by
  refine Op.Meets.bind (live_step 1) fun _ => Op.meets_getBind fun a _ => Op.Meets.pre (P := Run (Live C c X _))
    (Op.meets_ite (fun _ => Op.Meets.bind (meets_release calm_live _) fun _ =>
      Op.Meets.bind (meets_raise calm_live _ _) fun _ => Op.meets_pure fun _ k => k) fun _ =>
    Op.Meets.bind (live_step 2) fun _ => Op.meets_ite (fun _ => Op.Meets.bind (live_step 3) fun _ =>
      live_enqueueAndKick _) fun _ => Op.Meets.bind (meets_resolve calm_live _ _) fun hw => ?_) fun _ k => k.1
  cases hw with
  | none => exact Op.meets_pure fun _ k => k
  | some hw => exact Op.Meets.bind (live_step 3) fun _ => live_enqueueAndKick _

/-! ### The ring reader -/

/-- The read pointer is in the ring and nothing is claimed of the tail. -/
def InRingLive (C : Config) (c : Context) (X : Claims) (Q : List Frame → Prop) (s : State) : Prop :=
  Live C c { X with tail := False } Q s ∧ InRing C.toParams s.ctx.rxReadPointer.toNat

theorem calm_inRingLive : Calm (InRingLive C c X Q) := fun s t k h =>
  ⟨calm_live s t k h.1, by rw [k.ctx]; exact h.2⟩

theorem toNat_ofNat16 {n : Nat} (h : n < 65536) : (BitVec.ofNat 16 n).toNat = n := by
  rw [BitVec.toNat_ofNat]
  exact Nat.mod_eq_of_lt h

/-- The read pointer moves inside the ring. -/
theorem Base.setReadPointer {s : State} {a : Nat} {R : Prop} (h : Base C c X s) (ha : InRing C.toParams a)
    (hk : s.initialized = true ∨ R → s.ctx.addrKnown = true) :
    Base C c { X with ring := R } (s.setReadPointer a) where
  cfg := h.cfg
  ipl := h.ipl
  saved := h.saved
  context := h.context
  probed := h.probed
  sendq := h.sendq
  pointer := fun hi => ⟨hk hi, by
    have := config_ring C
    rw [State.setReadPointer, toNat_ofNat16 (by have := ha.2; omega)]
    exact ha⟩
  host := h.host
  table := h.table

theorem InRingLive.setReadPointer {s : State} {a : Nat} (h : InRingLive C c X Q s) (ha : InRing C.toParams a) :
    InRingLive C c X Q (s.setReadPointer a) := by
  obtain ⟨⟨h1, h2, h3⟩, -⟩ := h
  refine ⟨⟨h1, h2.setReadPointer ha fun hi => (h2.pointer hi).1, ⟨h3.calm, h3.disabled, h3.unscheduled,
    h3.scheduled, h3.off, False.elim⟩⟩, ?_⟩
  have := config_ring C
  rw [State.setReadPointer, toNat_ofNat16 (by have := ha.2; omega)]
  exact ha

theorem inRing_step (n : Nat) : Op.Meets (Run (InRingLive C c X (On op snap q))) (atStep n)
    (fun _ => Run (InRingLive C c X (On op snap q))) H := meets_atStep fun _ h => ⟨(h.1.setStep n).on, h.2⟩

theorem inRing_readWrapped (rounds rest : Nat) : Op.Meets (Run (InRingLive C c X (On op snap q)))
    (readWrapped rounds rest) (fun _ => Run (InRingLive C c X (On op snap q))) H := by
  induction rounds generalizing rest with
  | zero => exact Op.meets_pure fun _ k => k
  | succ n ih =>
    refine Op.meets_ite (fun _ => Op.meets_pure fun _ k => k) fun _ => Op.meets_getBind fun a ha => ?_
    rw [ha.k.1.base.cfg]
    refine Op.Meets.bind ((inRing_step 7).pre fun _ k => k.1) fun _ =>
      Op.Meets.bind (meets_memRead calm_inRingLive _ _ fun s k _ => ?_) fun _ => Op.Meets.bind (ih _) fun _ =>
      Op.meets_pure fun _ k => k
    have := config_ring C
    rw [k.1.base.cfg]
    simp only [Params.ringSize]
    omega

/-- `READ_BYTES` with the pointer in the ring (R120, R121). -/
theorem inRing_readBytesBody (n : Nat) : Op.Meets (Run (InRingLive C c X (On op snap q))) (readBytesBody n)
    (fun _ => Run (InRingLive C c X (On op snap q))) H := by
  have hr := config_ring C
  refine Op.Meets.bind (inRing_step 1) fun _ => Op.meets_getBind fun a ha => ?_
  have hp := ha.k.2
  rw [ha.k.1.base.cfg]
  refine Op.Meets.bind ((inRing_step 2).pre fun _ k => k.1) fun _ => Op.Meets.bind (inRing_step 3) fun _ =>
    Op.Meets.bind (meets_memRead calm_inRingLive _ _ fun s k _ => ?_) fun _ => Op.Meets.bind (inRing_step 4) fun _ =>
    Op.Meets.bind (inRing_step 5) fun _ => Op.Meets.bind (inRing_readWrapped _ _) fun _ =>
    Op.Meets.bind (inRing_step 9) fun _ => Op.Meets.bind (Q := fun _ => Run (InRingLive C c X (On op snap q)))
    (meets_change (fun s k => ?_) fun _ => ⟨rfl, rfl, rfl, rfl⟩) fun _ => Op.Meets.bind (inRing_step 10) fun _ =>
    Op.meets_pure fun _ k => k
  · rw [k.1.base.cfg]
    omega
  · have := ringAddr_inRing C.toParams hr.1
    rw [k.1.base.cfg]
    exact k.setReadPointer (this _)

theorem InRingLive.on {n : Nat} {s : State} (h : InRingLive C c X (· = ⟨op, n, snap⟩ :: q) s) :
    InRingLive C c X (On op snap q) s := ⟨h.1.on, h.2⟩

/-- `READ_BYTES` as it is called. -/
theorem inRing_readBytes (n : Nat) {l : List Frame} (hl : l ≠ []) :
    Op.Meets (Run (InRingLive C c X (· = l))) (readBytes n) (fun _ => Run (InRingLive C c X (· = l))) H := by
  refine Op.meets_call ((inRing_readBytesBody (C := C) (c := c) (X := X) (op := .readBytes) (snap := none) (q := l)
    n).weaken ?_ ?_ fun _ k => k)
  · rintro _ ⟨s, hs, rfl⟩
    exact hs.update rfl rfl (Nat.le_refl _) (by simp)
      ⟨hs.k.1.keep (sameFacts_pushFrame s _) ⟨0, by simp [hs.k.1.seq]⟩, hs.k.2⟩
  · intro a s hs
    obtain ⟨m, hm⟩ := hs.k.1.seq
    have e : s.popFrame.seq = l := by simp [hm]
    exact hs.update rfl rfl (Nat.le_refl _) (by rw [e]; exact hl)
      ⟨hs.k.1.keep (sameFacts_popFrame s) e, hs.k.2⟩

end Sys2Proof.Machine
end

section
/-! SUPPORT. The operations that a busy-wait can hold, over `Live`: each ends with the invariants, or is held in a state
of the invariant (`Paused`). -/

namespace Sys2Proof.Machine

variable {C : Config} {c : Context} {X : Claims} {Q : List Frame → Prop} {op : OpName} {snap : Option IFlags}
  {q : List Frame} {h L : Prop}

/-! ### Held states -/

/-- An operation is held in a state of the invariants: at a busy-wait without a bound, or, where `L` allows it, in the
packet loop with more to come. -/
structure Paused (C : Config) (c : Context) (h L : Prop) (s : State) : Prop where
  inv : s.Inv
  sound : h → s.Sound ∧ s.HostRun
  cfg : s.cfg = C
  shape : HeldShape s.seq c ∧ C.spinLimit = none ∨ L ∧ LoopShape s.seq ∧ s.agenda = [] ∧ s.again ≠ []

theorem heldShape_not_recover {l : List Frame} (hl : HeldShape l c) (h : l.head?.map (·.op) = some .recover) :
    ∀ fr ∈ l, fr.op ≠ .initialise := by
  cases hl <;> simp at h ⊢

/-- `RECOVER` held at its wait (R180 step 5). -/
theorem paused_recover {s : State} (hq : HeldShape (⟨.recover, 5, none⟩ :: q) c) (ht : X.host → X.table)
    (hs : Run (Under C c X (· = ⟨.recover, 5, none⟩ :: q)) s) (hl : s.cfg.spinLimit = none) :
    Paused C c X.host L s := by
  obtain ⟨hne, hg, hseq, hb, hw⟩ := hs
  have hup : ¬ s.inBringUp := by
    rintro ⟨fr, hfr, ho⟩
    rw [hseq] at hfr
    exact heldShape_not_recover hq rfl fr hfr ho
  have hwd : s.wdState ≠ .healthy := by rw [hw.recovering]; decide
  refine ⟨?_, fun hx => ⟨?_, (hb.host hx).2⟩, hb.cfg, Or.inl ⟨by rw [hseq]; exact hq, by rw [← hb.cfg]; exact hl⟩⟩
  · exact {
      mem_wf := hg.mem_wf
      mem_within := hg.mem_within
      sendq_bound := by rw [hb.cfg]; exact hb.sendq
      pktcnt_bound := hg.pktcnt
      idle := fun e => absurd e hne
      saved := hb.saved
      held := fun _ => ⟨hb.ipl, hb.probed, c, hb.context, Or.inl ⟨by rw [hseq]; exact hq, hl⟩⟩
      recovering := by simp [hw.recovering, State.inRecover, hseq]
      disabled := by have := hw.below; simp only [hw.recovering, reduceCtorEq, false_iff]; omega
      counted := fun _ => hw.counted
      unscheduled := fun _ => hw.unscheduled
      scheduled := fun d hd => by rw [hw.unscheduled] at hd; cases hd
      brought_up := fun hi => by rw [hb.cfg]; exact hb.pointer (hi.imp_right fun hi => absurd hi hup)
      known_probed := fun _ => hb.probed
      unprobed := fun e => by rw [hb.probed] at e; cases e }
  · exact {
      initialized := (hb.host hx).1
      settled := hup
      pointer := fun e => absurd e hwd
      tail := fun e => absurd e hwd
      table := hb.table (ht hx)
      reception := fun _ => hw.off hx }

/-- An operation held outside `RECOVER`. -/
theorem paused_live {s : State} (hs : Run (Live C c X Q) s) (hr : ¬ s.inRecover)
    (hsh : HeldShape s.seq c ∧ s.cfg.spinLimit = none ∨ L ∧ LoopShape s.seq ∧ s.agenda = [] ∧ s.again ≠ [])
    (hup : s.inBringUp → X.ring ∧ ¬ X.host) (ht : X.host → X.tail ∧ X.table) : Paused C c X.host L s := by
  obtain ⟨hne, hg, hseq, hb, hw⟩ := hs
  refine ⟨?_, fun hx => ⟨?_, (hb.host hx).2⟩, hb.cfg, by rw [← hb.cfg]; exact hsh⟩
  · exact {
      mem_wf := hg.mem_wf
      mem_within := hg.mem_within
      sendq_bound := by rw [hb.cfg]; exact hb.sendq
      pktcnt_bound := hg.pktcnt
      idle := fun e => absurd e hne
      saved := hb.saved
      held := fun _ => ⟨hb.ipl, hb.probed, c, hb.context, hsh.imp_right fun k => k.2.1⟩
      recovering := iff_of_false hw.calm hr
      disabled := hw.disabled
      counted := fun e => absurd e hw.calm
      unscheduled := hw.unscheduled
      scheduled := hw.scheduled
      brought_up := fun hi => by rw [hb.cfg]; exact hb.pointer (hi.imp_right fun hi => (hup hi).1)
      known_probed := fun _ => hb.probed
      unprobed := fun e => by rw [hb.probed] at e; cases e }
  · exact {
      initialized := (hb.host hx).1
      settled := fun hi => (hup hi).2 hx
      pointer := fun e => (hw.tail (ht hx).1 e).1
      tail := fun e => (hw.tail (ht hx).1 e).2
      table := hb.table (ht hx).2
      reception := hw.off hx }

/-! ### `RECOVER` -/

/-- The ring's registers and the read pointer at their initial values (R187). -/
theorem meets_resetRing {K H : State → Prop} (hK : Calm K) (hC : ∀ s, K s → s.cfg = C)
    (hw : ∀ s m v, K s → K (s.onChip fun c => c.writeWord m .rxst v))
    (hw' : ∀ s m v, K s → K (s.onChip fun c => c.writeWord m .rxtail v)) :
    Op.Meets (Run K) resetRing (fun _ => Run fun s => ∃ u, K u ∧ u.chip.rxtail = BitVec.ofNat 16 (C.rxEnd - 2)
      ∧ s = u.setReadPointer C.rxStart) H := by
  refine Op.meets_getBind fun a ha => ?_
  rw [hC a ha.k]
  refine Op.Meets.bind ((meets_regWrite hK _ _ fun s m k => hw s m _ k).pre fun _ k => k.1) fun _ => Op.Meets.bind
    (meets_regWriteTo (L := fun s => K s ∧ s.chip.rxtail = BitVec.ofNat 16 (C.rxEnd - 2)) hK
      fun s m k => ⟨hw' s m _ k, rfl⟩) fun _ => ?_
  exact meets_change (fun s k => ⟨s, k.1, k.2, rfl⟩) fun _ => ⟨rfl, rfl, rfl, rfl⟩

theorem Base.onChip {s : State} (hb : Base C c X s) {f : Chip → Chip} (hf : (f s.chip).hashReg = s.chip.hashReg) :
    Base C c X (s.onChip f) where
  cfg := hb.cfg
  ipl := hb.ipl
  saved := hb.saved
  context := hb.context
  probed := hb.probed
  sendq := hb.sendq
  pointer := hb.pointer
  host := hb.host
  table := fun hx => by
    unfold State.TableSound
    rw [State.onChip_chip, hf]
    exact hb.table hx

theorem Base.withWatchdog {s : State} (hb : Base C c X s) (w : WdState) : Base C c X { s with wdState := w } :=
  ⟨hb.cfg, hb.ipl, hb.saved, hb.context, hb.probed, hb.sendq, hb.pointer, hb.host, hb.table⟩

/-- `RECOVER` once it has reset the ring (R180 steps 8 and 9). -/
structure RingReset (C : Config) (c : Context) (X : Claims) (Q : List Frame → Prop) (s : State) : Prop where
  seq : Q s.seq
  base : Base C c X s
  counted : Counted X s
  below : s.ctx.resetCounter ≤ s.cfg.maxResets
  pointer : s.ctx.rxReadPointer.toNat = C.rxStart
  rxtail : s.chip.rxtail.toNat = C.rxEnd - 2

theorem RingReset.keep {s t : State} (k : RingReset C c X Q s) (e : SameFacts s t) {R : List Frame → Prop}
    (hq : R t.seq) : RingReset C c X R t :=
  ⟨hq, k.base.keep e, k.counted.keep e, by rw [e.cfg, e.ctx]; exact k.below, by rw [e.ctx]; exact k.pointer,
    by rw [e.rxtail]; exact k.rxtail⟩

theorem calm_ringReset : Calm (RingReset C c X Q) := fun _ _ e k => k.keep e.facts (by rw [e.seq]; exact k.seq)

theorem On.setStep {l : List Frame} (k : On op snap q l) (n : Nat) :
    On op snap q (l.modifyHead fun fr => { fr with step := n }) := by
  obtain ⟨m, rfl⟩ := k
  exact ⟨n, rfl⟩

/-- The tail at the end of the ring follows a read pointer at its start (R137, R187). -/
theorem tailFor_rxStart (p : Params) : tailFor p p.rxStart = p.rxEnd - 2 := if_neg (by omega)

/-- Reception on again, and healthy (R180 step 9). -/
theorem RingReset.healthy {s : State} (k : RingReset C c X Q s) :
    Live C c { X with tail := True } Q { s.onChip (·.setBits [.ctlRxen]) with wdState := .healthy } where
  seq := k.seq
  base := { (k.base.onChip (f := (·.setBits [.ctlRxen])) rfl).withWatchdog .healthy with }
  settled :=
    { calm := by simp
      disabled := by have := k.below; simpa using this
      unscheduled := fun e => absurd rfl e
      scheduled := fun d hd => ⟨k.counted.counted, k.counted.scheduled d hd⟩
      off := fun _ e => absurd rfl e
      tail := fun _ _ => by
        have hr := config_ring C
        show RingValid s.cfg.toParams s.ctx.rxReadPointer.toNat
          ∧ s.chip.rxtail.toNat = tailFor s.cfg.toParams s.ctx.rxReadPointer.toNat
        rw [k.base.cfg, k.pointer, k.rxtail, tailFor_rxStart]
        exact ⟨⟨hr.2.2.2.1, Nat.le_refl _, hr.1⟩, rfl⟩ }

/-- A `HardwareFault` in `RECOVER` disables (R260). -/
theorem Under.disableOnFault {s : State} (k : Under C c X Q s) :
    Live C c { X with tail := True } Q s.disableOnFault where
  seq := k.seq
  base := ⟨k.base.cfg, k.base.ipl, k.base.saved, k.base.context, k.base.probed, k.base.sendq, k.base.pointer,
    k.base.host, k.base.table⟩
  settled :=
    { calm := by simp [State.disableOnFault]
      disabled := by simp [State.disableOnFault]
      unscheduled := fun _ => k.waiting.unscheduled
      scheduled := fun d hd => by rw [State.disableOnFault, k.waiting.unscheduled] at hd; cases hd
      off := fun hx _ => k.waiting.off hx
      tail := fun _ e => by simp [State.disableOnFault] at e }

/-- `RECOVER` from its wait on (R180 steps 5 to 10). -/
theorem under_recoverFromWait (hq : HeldShape (⟨.recover, 5, none⟩ :: q) c) (ht : X.host → X.table) :
    Op.Meets (Run (Under C c X (On .recover none q))) recoverFromWait
      (fun _ => Run (Live C c { X with tail := True } (On .recover none q))) (Paused C c X.host L) := by
  have hr := config_ring C
  refine Op.Meets.bind (Q := fun _ => Run (Under C c X (· = ⟨.recover, 5, none⟩ :: q))) (meets_atStep fun s k => ?_)
    fun _ => Op.Meets.bind ((meets_waitUntil calm_under _ _ _).weaken (fun _ k => k) (fun _ _ k => k)
      fun s k => paused_recover hq ht k.1 k.2) fun ok => ?_
  · have e := sameFacts_setStep s 5
    obtain ⟨n, hn⟩ := k.seq
    exact ⟨by simp [hn], k.base.keep e, k.waiting.keep e⟩
  refine Op.Meets.pre (P := Run (Under C c X (On .recover none q))) ?_ fun s k => k.mono fun k =>
    ⟨⟨5, k.seq⟩, k.base, k.waiting⟩
  refine Op.meets_ite (fun _ => ?_) fun _ =>
    meets_change (fun s k => k.disableOnFault) fun _ => ⟨rfl, rfl, rfl, rfl⟩
  have step : ∀ (n : Nat) (s : State), Under C c X (On .recover none q) s →
      Under C c X (On .recover none q) (s.setStep n) := fun n s k =>
    ⟨k.seq.setStep n, k.base.keep (sameFacts_setStep s n), k.waiting.keep (sameFacts_setStep s n)⟩
  have chip : ∀ (s : State) (f : Chip → Chip), (f s.chip).rxen = s.chip.rxen →
      (f s.chip).hashReg = s.chip.hashReg → Under C c X (On .recover none q) s →
      Under C c X (On .recover none q) (s.onChip f) := fun s f h1 h2 k =>
    ⟨k.seq, k.base.onChip h2, { k.waiting with off := fun hx => h1.trans (k.waiting.off hx) }⟩
  refine Op.Meets.bind (meets_atStep (step 6)) fun _ => Op.Meets.bind
    (meets_drain calm_under fun s k => chip s (·.setBits [.ctlPktdec]) rfl rfl k) fun _ =>
    Op.Meets.bind (meets_atStep (step 7)) fun _ => Op.Meets.bind
    (meets_resetRing (C := C) calm_under (fun _ k => k.base.cfg) (fun s m v k => chip s _ rfl rfl k)
      fun s m v k => chip s _ rfl rfl k) fun _ => ?_
  refine Op.Meets.pre (P := Run fun s => RingReset C c X (On .recover none q) s ∧ s.pendingClear = none) ?_ ?_
  · refine Op.Meets.bind (Q := fun _ => Run fun s => RingReset C c X (On .recover none q) s ∧ s.pendingClear = none)
      (meets_atStep fun s k => ⟨k.1.keep (sameFacts_setStep s 8) (k.1.seq.setStep 8), k.2⟩) fun _ =>
      Op.Meets.bind (Q := fun _ => Run (RingReset C c X (On .recover none q))) (meets_change (fun s k => ?_)
        fun _ => ⟨rfl, rfl, rfl, rfl⟩) fun _ => Op.Meets.bind (Q := fun _ => Run (RingReset C c X (On .recover none q)))
      (meets_atStep fun s k => k.keep (sameFacts_setStep s 9) (k.seq.setStep 9)) fun _ => Op.Meets.bind
      (meets_regSetTo (L := fun s => ∃ u, RingReset C c X (On .recover none q) u ∧ s = u.onChip (·.setBits [.ctlRxen]))
        calm_ringReset fun s k => ⟨s, k, rfl⟩) fun _ =>
      Op.Meets.bind (Q := fun _ => Run (Live C c { X with tail := True } (On .recover none q)))
        (meets_change ?_ fun _ => ⟨rfl, rfl, rfl, rfl⟩) fun _ => live_step 10
    · obtain ⟨⟨h1, h2, h3, h4, h5, h6⟩, -⟩ := k
      exact ⟨h1, ⟨h2.cfg, h2.ipl, h2.saved, h2.context, h2.probed, h2.sendq, h2.pointer, h2.host, h2.table⟩,
        ⟨h3.recovering, h3.counted, h3.off, fun d hd => by cases hd; exact Nat.le_refl _⟩, h4, h5, h6⟩
    · rintro _ ⟨u, k, rfl⟩
      exact k.healthy
  · intro s hs
    refine hs.mono ?_
    rintro ⟨u, k, hu, rfl⟩
    refine ⟨⟨k.seq, k.base.setReadPointer ⟨Nat.le_refl _, hr.1⟩ fun hi => (k.base.pointer hi).1,
      { k.waiting with }, k.waiting.below, toNat_ofNat16 (by omega), ?_⟩, k.waiting.unscheduled⟩
    rw [State.setReadPointer_chip, hu]
    exact toNat_ofNat16 (by omega)

/-- `RECOVER` has switched reception off (R180 step 1). -/
structure SwitchedOff (C : Config) (c : Context) (X : Claims) (Q : List Frame → Prop) (s : State) : Prop where
  live : Live C c X Q s
  off : s.chip.rxen = false

theorem SwitchedOff.setStep {s : State} (k : SwitchedOff C c X (On op snap q) s) (n : Nat) :
    SwitchedOff C c X (On op snap q) (s.setStep n) := ⟨(k.live.setStep n).on, k.off⟩

/-- `RECOVER` has counted itself, no callback being scheduled (R180 step 3). -/
structure JustCounted (C : Config) (c : Context) (X : Claims) (Q : List Frame → Prop) (s : State) : Prop where
  seq : Q s.seq
  base : Base C c X s
  counted : Counted X s
  unscheduled : s.pendingClear = none

theorem JustCounted.keep {s t : State} (k : JustCounted C c X Q s) (e : SameFacts s t) {R : List Frame → Prop}
    (hq : R t.seq) : JustCounted C c X R t :=
  ⟨hq, k.base.keep e, k.counted.keep e, e.pendingClear.trans k.unscheduled⟩

theorem calm_justCounted : Calm (JustCounted C c X Q) := fun _ _ e k => k.keep e.facts (by rw [e.seq]; exact k.seq)

/-- Steps 2 and 3 of R180. -/
theorem SwitchedOff.count {s : State} (k : SwitchedOff C c X Q s) :
    JustCounted C c X Q (State.countRecovery { s with pendingClear := none }) where
  seq := k.live.seq
  base := by
    obtain ⟨-, b, -⟩ := k.live
    exact ⟨b.cfg, b.ipl, b.saved, b.context, b.probed, b.sendq, b.pointer, b.host, b.table⟩
  counted := ⟨rfl, Nat.succ_le_succ (Nat.zero_le _), fun _ => k.off, fun d hd => by cases hd⟩
  unscheduled := rfl

/-- Beyond the threshold `RECOVER` disables the block (R181). -/
theorem JustCounted.disable {s : State} (k : JustCounted C c X Q s) (hm : s.cfg.maxResets < s.ctx.resetCounter) :
    Live C c { X with tail := True } Q { s with wdState := .disabled } where
  seq := k.seq
  base := { k.base.withWatchdog .disabled with }
  settled :=
    { calm := by simp
      disabled := by simpa using hm
      unscheduled := fun _ => k.unscheduled
      scheduled := fun d hd => by rw [k.unscheduled] at hd; cases hd
      off := fun hx _ => k.counted.off hx
      tail := fun _ e => by cases e }

theorem JustCounted.under {s : State} (k : JustCounted C c X Q s) (hm : ¬ s.cfg.maxResets < s.ctx.resetCounter) :
    Under C c X Q s := ⟨k.seq, k.base, { k.counted with below := by omega, unscheduled := k.unscheduled }⟩

/-- `RECOVER` (R180): the tail follows the read pointer afterwards unless the block is disabled. -/
theorem live_recoverBody (hq : HeldShape (⟨.recover, 5, none⟩ :: q) c) (ht : X.host → X.table) :
    Op.Meets (Run (Live C c X (On .recover none q))) recoverBody
      (fun _ => Run (Live C c { X with tail := True } (On .recover none q))) (Paused C c X.host L) := by
  refine Op.Meets.bind (live_step 1) fun _ => Op.Meets.bind
    (Q := fun _ => Run (SwitchedOff C c X (On .recover none q))) (meets_regClearTo calm_live fun s k => ⟨?_, rfl⟩)
    fun _ => Op.Meets.bind (meets_atStep fun _ k => k.setStep 2) fun _ => Op.Meets.bind
    (Q := fun _ => Run fun s => ∃ u, SwitchedOff C c X (On .recover none q) u ∧ s = { u with pendingClear := none })
    (meets_change (fun s k => ⟨s, k, rfl⟩) fun _ => ⟨rfl, rfl, rfl, rfl⟩) fun _ => Op.Meets.bind
    (Q := fun _ => Run fun s => ∃ u, SwitchedOff C c X (On .recover none q) u ∧ s = { u with pendingClear := none })
    (meets_atStep ?_) fun _ => Op.Meets.bind (Q := fun _ => Run (JustCounted C c X (On .recover none q)))
    (meets_change ?_ fun _ => ⟨rfl, rfl, rfl, rfl⟩) fun _ => Op.Meets.bind
    (meets_atStep fun s k => k.keep (R := On .recover none q) (sameFacts_setStep s 4) (k.seq.setStep 4)) fun _ =>
    Op.meets_getBind fun a _ => Op.meets_ite (fun hm => ?_) fun hm => ?_
  · exact ⟨k.seq, k.base.onChip rfl, { k.settled with off := fun _ _ => rfl }⟩
  · rintro _ ⟨u, k, rfl⟩
    exact ⟨u.setStep 3, k.setStep 3, rfl⟩
  · rintro _ ⟨u, k, rfl⟩
    exact k.count
  · refine Op.Meets.pre (P := Run fun s => JustCounted C c X (On .recover none q) s
        ∧ s.cfg.maxResets < s.ctx.resetCounter) ?_ ?_
    · exact Op.Meets.bind (meets_raise (fun s t e k => ⟨calm_justCounted s t e k.1, by rw [e.cfg, e.ctx]; exact k.2⟩)
        _ _) fun _ => meets_change (fun s k => k.1.disable k.2) fun _ => ⟨rfl, rfl, rfl, rfl⟩
    · rintro _ ⟨k, rfl⟩
      exact k.mono fun k => ⟨k, hm⟩
  · refine (under_recoverFromWait hq ht).pre ?_
    rintro _ ⟨k, rfl⟩
    exact k.mono fun k => k.under hm

/-- `RECOVER` as it is called. -/
theorem live_recover {l : List Frame} (hl : l ≠ []) (hq : HeldShape (⟨.recover, 5, none⟩ :: l) c)
    (ht : X.host → X.table) : Op.Meets (Run (Live C c X (· = l))) recover
      (fun _ => Run (Live C c { X with tail := True } (· = l))) (Paused C c X.host L) :=
  live_callAt hl ((live_recoverBody hq ht).pre fun _ k => k.mono Live.on)

/-! ### `RECONCILE` -/

theorem live_applyDuplex (full : Bool) :
    Op.Meets (Run (Live C c X Q)) (applyDuplex full) (fun _ => Run (Live C c X Q)) (Paused C c X.host L) :=
  Op.meets_ite
    (fun _ => Op.meets_getBind fun _ _ => Op.Meets.pre (P := Run (Live C c X Q)) (Op.Meets.bind
      (live_regSet fun _ => rfl) fun _ => Op.Meets.bind (live_regWrite fun _ _ => rfl) fun _ =>
      live_regSet fun _ => rfl) fun _ k => k.1)
    fun _ => Op.meets_getBind fun _ _ => Op.Meets.pre (P := Run (Live C c X Q)) (Op.Meets.bind
      (live_regClear fun _ => rfl) fun _ => Op.Meets.bind (live_regWrite fun _ _ => rfl) fun _ =>
      Op.Meets.bind (live_regClear fun _ => rfl) fun _ => live_regClear fun _ => rfl) fun _ k => k.1

/-- What a caller of `RECONCILE` over the frames `q` has to know where the wait is held. -/
structure Callable (X : Claims) (q : List Frame) : Prop where
  bringUp : (∃ fr ∈ q, fr.op = .initialise) → X.ring ∧ ¬ X.host
  sound : X.host → X.tail ∧ X.table

/-- `RECONCILE` (R205). -/
theorem live_reconcileBody (hq : HeldShape (⟨.reconcile, 1, none⟩ :: q) c) (hx : Callable X q) :
    Op.Meets (Run (Live C c X (On .reconcile none q))) reconcileBody
      (fun _ => Run (Live C c X (On .reconcile none q))) (Paused C c X.host L) := by
  refine Op.Meets.bind (live_atStep 1) fun _ => Op.Meets.bind ((meets_waitUntil calm_live _ _ _).weaken
    (fun _ k => k) (fun _ _ k => k) fun s k => ?_) fun ok => Op.Meets.pre (P := Run (Live C c X (On .reconcile none q)))
    (Op.meets_ite (fun _ => Op.Meets.bind (live_step 2) fun _ => Op.Meets.bind (meets_regReadBit calm_live _ _)
      fun full => Op.Meets.bind (live_step 3) fun _ => Op.Meets.bind (live_applyDuplex full) fun _ => live_step 4)
      fun _ => Op.meets_pure fun _ k => k) fun _ k => k.mono Live.on
  have hs := k.1.k.seq
  refine paused_live k.1 (by simp [State.inRecover, hs]) (Or.inl ⟨by rw [hs]; exact hq, k.2⟩) (fun hi => hx.bringUp ?_)
    hx.sound
  obtain ⟨fr, hfr, ho⟩ := hi
  rw [hs] at hfr
  rcases List.mem_cons.1 hfr with rfl | hfr
  · cases ho
  · exact ⟨fr, hfr, ho⟩

theorem live_reconcile {l : List Frame} (hl : l ≠ []) (hq : HeldShape (⟨.reconcile, 1, none⟩ :: l) c)
    (hx : Callable X l) : Op.Meets (Run (Live C c X (· = l))) reconcile (fun _ => Run (Live C c X (· = l)))
      (Paused C c X.host L) :=
  live_callAt hl ((live_reconcileBody hq hx).pre fun _ k => k.mono Live.on)

/-! ### `RECEIVE_ONE` -/

theorem live_failValidation {n : Nat} {x : Exn} {info : Nat}
    (hq : HeldShape (⟨.recover, 5, none⟩ :: ⟨.receiveOne, n, none⟩ :: q) c) (ht : X.host → X.table) :
    Op.Meets (Run (Live C c X (· = ⟨.receiveOne, n, none⟩ :: q))) (failValidation x info)
      (fun _ => Run (Live C c { X with tail := True } (On .receiveOne none q))) (Paused C c X.host L) :=
  Op.Meets.bind (meets_raise calm_live _ _) fun _ => Op.Meets.bind (live_recover (List.cons_ne_nil _ _) hq ht)
    fun _ => Op.meets_pure fun _ k => k.mono Live.on

theorem inRing_failAllocation {H : State → Prop} (chunks : List Chunk) : Op.Meets (Run (InRingLive C c X Q))
    (failAllocation chunks) (fun _ => Run (InRingLive C c X Q)) H :=
  Op.Meets.bind (Op.meets_onlyIf fun _ => meets_release calm_inRingLive _) fun _ =>
    Op.Meets.bind (meets_raise calm_inRingLive _ _) fun _ => Op.meets_pure fun _ k => k

/-- The payload, chunk after chunk (R136, R139). -/
theorem inRing_copyPayload {H : State → Prop} (rounds remaining : Nat) (chunks : List Chunk) {l : List Frame}
    (hl : l ≠ []) : Op.Meets (Run (InRingLive C c X (· = l))) (copyPayload rounds remaining chunks)
      (fun _ => Run (InRingLive C c X (· = l))) H := by
  induction rounds generalizing remaining chunks with
  | zero => exact Op.meets_pure fun _ k => k
  | succ n ih =>
    exact Op.meets_ite (fun _ => Op.meets_pure fun _ k => k) fun _ => Op.meets_getBind fun a _ =>
      Op.Meets.bind ((meets_alloc calm_inRingLive _).pre fun _ k => k.1) fun granted => Op.meets_ite
        (fun _ => Op.Meets.bind (inRing_readBytes _ hl) fun _ => ih _ _) fun _ => inRing_failAllocation _

theorem inRing_buildPacket {H : State → Prop} (frameLength : Nat) : Op.Meets
    (Run (InRingLive C c X (On op snap q))) (buildPacket frameLength)
    (fun _ => Run (InRingLive C c X (On op snap q))) H := by
  have at5 : Op.Meets (Run (InRingLive C c X (On op snap q))) (atStep 5)
      (fun _ => Run (InRingLive C c X (· = ⟨op, 5, snap⟩ :: q))) H :=
    meets_atStep fun _ k => ⟨k.1.setStep 5, k.2⟩
  have at6 : Op.Meets (Run (InRingLive C c X (· = ⟨op, 5, snap⟩ :: q))) (atStep 6)
      (fun _ => Run (InRingLive C c X (· = ⟨op, 6, snap⟩ :: q))) H :=
    meets_atStep fun _ k => ⟨k.1.on.setStep 6, k.2⟩
  exact Op.Meets.bind at5 fun _ => Op.meets_getBind fun a _ => Op.Meets.bind
    ((meets_alloc calm_inRingLive _).pre fun _ k => k.1) fun granted => Op.meets_ite
    (fun _ => Op.Meets.bind (inRing_readBytes _ (List.cons_ne_nil _ _)) fun _ => Op.Meets.bind at6 fun _ =>
      (inRing_copyPayload _ _ _ (List.cons_ne_nil _ _)).post fun _ _ k => k.mono InRingLive.on)
    fun _ => (inRing_failAllocation _).post fun _ _ k => k.mono InRingLive.on

theorem tailFor_lt (p : Params) {n : Nat} (h : InRing p n) (hr : p.rxEnd < 65536) : tailFor p n < 65536 := by
  simp only [InRing] at h
  simp only [tailFor]
  split <;> omega

/-- Ring space is released: the tail follows the read pointer (R131 step 7, R137). -/
theorem inRing_releaseRing {H : State → Prop} {next : Nat} (hn : RingValid C.toParams next) : Op.Meets
    (Run (InRingLive C c X (On op snap q))) (releaseRing next)
    (fun _ => Run (Live C c { X with tail := True } (On op snap q))) H := by
  have hr := config_ring C
  refine Op.Meets.bind (inRing_step 7) fun _ => Op.meets_getBind fun a ha => ?_
  rw [ha.k.1.base.cfg]
  refine Op.Meets.bind (Q := fun _ => Run fun s => InRingLive C c X (On op snap q) s
      ∧ s.chip.rxtail = BitVec.ofNat 16 (tailFor C.toParams next)) (Op.Meets.pre
        (meets_regWriteTo calm_inRingLive fun s m k => ⟨⟨?_, k.2⟩, rfl⟩) fun _ k => k.1) fun _ =>
    meets_change (fun s k => ?_) fun _ => ⟨rfl, rfl, rfl, rfl⟩
  · obtain ⟨h1, h2, h3⟩ := k.1
    exact ⟨h1, h2.onChip rfl, ⟨h3.calm, h3.disabled, h3.unscheduled, h3.scheduled, h3.off, False.elim⟩⟩
  · obtain ⟨k, ht⟩ := k
    obtain ⟨⟨h1, h2, h3⟩, hp⟩ := k.setReadPointer hn.2
    refine ⟨h1, { h2 with }, ⟨h3.calm, h3.disabled, h3.unscheduled, h3.scheduled, h3.off, fun _ _ => ?_⟩⟩
    show RingValid s.cfg.toParams (BitVec.ofNat 16 next).toNat
      ∧ s.chip.rxtail.toNat = tailFor s.cfg.toParams (BitVec.ofNat 16 next).toNat
    have hlt : next < 65536 := by have := hn.2.2; omega
    rw [ht, k.1.base.cfg, toNat_ofNat16 hlt, toNat_ofNat16 (tailFor_lt _ hn.2 hr.2.2.1)]
    exact ⟨hn, rfl⟩

/-- `RECEIVE_ONE` (R131): on every path the tail follows the read pointer afterwards, unless the block is disabled. -/
theorem live_receiveOneBody (ht : X.host → X.table)
    (hq : ∀ n, n = 1 ∨ n = 3 ∨ n = 4 → HeldShape (⟨.recover, 5, none⟩ :: ⟨.receiveOne, n, none⟩ :: q) c) :
    Op.Meets (Run (Live C c X (On .receiveOne none q))) receiveOneBody
      (fun _ => Run (Live C c { X with tail := True } (On .receiveOne none q))) (Paused C c X.host L) := by
  refine Op.Meets.bind (live_atStep 1) fun _ => Op.meets_getBind fun a ha => ?_
  rw [ha.k.base.cfg]
  refine Op.meets_ite (fun _ => (live_failValidation (hq 1 (by omega)) ht).pre fun _ k => k.1) fun hv => ?_
  refine Op.Meets.pre (P := Run (InRingLive C c X (On .receiveOne none q))) ?_ ?_
  · have at_ : ∀ n, Op.Meets (Run (InRingLive C c X (On .receiveOne none q))) (atStep n)
        (fun _ => Run (InRingLive C c X (· = ⟨.receiveOne, n, none⟩ :: q))) (Paused C c X.host L) := fun n =>
      meets_atStep fun _ k => ⟨k.1.setStep n, k.2⟩
    have fail : ∀ (n : Nat) (x : Exn) (info : Nat), n = 1 ∨ n = 3 ∨ n = 4 → Op.Meets
        (Run (InRingLive C c X (· = ⟨.receiveOne, n, none⟩ :: q))) (failValidation x info)
        (fun _ => Run (Live C c { X with tail := True } (On .receiveOne none q))) (Paused C c X.host L) :=
      fun n x info hn => (live_failValidation (X := { X with tail := False }) (hq n hn) ht).pre
        fun _ k => k.mono fun k => k.1
    refine Op.Meets.bind (at_ 2) fun _ => Op.Meets.bind (inRing_readBytes _ (List.cons_ne_nil _ _)) fun hd =>
      Op.Meets.bind ((at_ 3).pre fun _ k => k.mono InRingLive.on) fun _ => Op.meets_ite
        (fun _ => fail 3 _ _ (by omega)) fun hn => Op.Meets.bind ((at_ 4).pre fun _ k => k.mono InRingLive.on) fun _ =>
      Op.meets_ite (fun _ => fail 4 _ _ (by omega)) fun _ => Op.Meets.bind
        ((inRing_buildPacket _).pre fun _ k => k.mono InRingLive.on) fun r => Op.Meets.bind
        (inRing_releaseRing (Classical.not_not.1 hn)) fun _ => Op.meets_pure fun _ k => k
  · rintro _ ⟨hs, rfl⟩
    refine hs.mono fun k => ⟨k.on.mono ⟨id, id, False.elim, id⟩, ?_⟩
    exact (Classical.not_not.1 hv).2

theorem live_receiveOne {l : List Frame} (hl : l ≠ []) (ht : X.host → X.table)
    (hq : ∀ n, n = 1 ∨ n = 3 ∨ n = 4 → HeldShape (⟨.recover, 5, none⟩ :: ⟨.receiveOne, n, none⟩ :: l) c) :
    Op.Meets (Run (Live C c X (· = l))) receiveOne (fun _ => Run (Live C c { X with tail := True } (· = l)))
      (Paused C c X.host L) :=
  live_callAt hl ((live_receiveOneBody ht hq).pre fun _ k => k.mono Live.on)

end Sys2Proof.Machine
end

section
/-! SUPPORT. `DISPATCH`, `INITIALIZE` and `SET_FLAGS` over `Live`, and how a command, an activation and a resumption
end. -/

namespace Sys2Proof.Machine

variable {C : Config} {c : Context} {X : Claims} {Q : List Frame → Prop} {op : OpName} {snap : Option IFlags}
  {q : List Frame} {h L : Prop}

/-! ### `DISPATCH` -/

theorem Claims.whole_le_tail : (Claims.whole h).Le { Claims.whole h with tail := True } :=
    ⟨id, id, fun _ => trivial, id⟩

theorem live_deliverReceived {H : State → Prop} (r : Option Packet) :
    Op.Meets (Run (Live C c X Q)) (deliverReceived r) (fun _ => Run (Live C c X Q)) H := by
  cases r with
  | none => exact Op.meets_pure fun _ k => k
  | some pkt =>
    exact Op.meets_getBind fun _ _ => Op.Meets.pre (P := Run (Live C c X Q)) (Op.Meets.bind
      (live_update (fun _ => sameFacts_of (by constructor <;> simp) rfl rfl rfl) fun _ => ⟨rfl, rfl, rfl⟩) fun _ =>
      live_update (fun _ => sameFacts_of (by constructor <;> simp) rfl rfl rfl) fun _ => ⟨rfl, rfl, rfl⟩) fun _ k => k.1

/-- The packet loop, held only where more is to come (R172). -/
theorem live_packetRounds (hL : L) (f : IFlags) (n : Nat) :
    Op.Meets (Run (Live C c (.whole h) (· = [⟨.dispatch, 4, some f⟩]))) (packetRounds n)
      (fun _ => Run (Live C c (.whole h) (· = [⟨.dispatch, 4, some f⟩]))) (Paused C c h L) := by
  induction n with
  | zero => exact Op.meets_pure fun _ k => k
  | succ n ih =>
    refine Op.meets_getBind fun a _ => Op.meets_ite (fun hm => ?_) fun _ => Op.Meets.bind
      ((meets_regReadBit calm_live _ _).pre fun _ k => k.1) fun pkt => Op.meets_ite (fun _ => Op.Meets.bind
      (live_regSet fun _ => rfl) fun _ => Op.Meets.bind (live_receiveOne (X := .whole h) (List.cons_ne_nil _ _) id
        fun n hn => .packets n f c hn) fun r => Op.Meets.bind
      ((live_deliverReceived r).pre fun _ k => k.mono fun k => k.mono Claims.whole_le_tail) fun _ => ih)
      fun _ => Op.meets_pure fun _ k => k
    rintro _ ⟨hs, rfl⟩
    simp only [State.moreToCome, Bool.and_eq_true, List.isEmpty_iff, Bool.not_eq_true', List.isEmpty_eq_false_iff] at hm
    have e := hs.k.seq
    exact paused_live hs (by simp [State.inRecover, e]) (Or.inr ⟨hL, ⟨f, e⟩, hm.1, hm.2⟩)
      (fun ⟨fr, hfr, ho⟩ => by rw [e, List.mem_singleton] at hfr; subst hfr; cases ho) fun hx => ⟨hx, hx⟩

theorem live_packetLoop (hL : L) (f : IFlags) :
    Op.Meets (Run (Live C c (.whole h) (· = [⟨.dispatch, 4, some f⟩]))) packetLoop
      (fun _ => Run (Live C c (.whole h) (· = [⟨.dispatch, 4, some f⟩]))) (Paused C c h L) :=
  Op.meets_getBind fun _ _ => (live_packetRounds hL f _).pre fun _ k => k.1

theorem live_handleTransmit {H : State → Prop} (f : IFlags) : Op.Meets (Run (Live C c X (On op snap q)))
    (handleTransmit f) (fun _ => Run (Live C c X (On op snap q))) H :=
  Op.Meets.bind (live_step 2) fun _ => Op.Meets.bind (Op.meets_onlyIf fun _ => Op.Meets.bind
    (live_update (fun _ => sameFacts_of (by constructor <;> simp) rfl rfl rfl) fun _ => ⟨rfl, rfl, rfl⟩) fun _ =>
    live_regClear fun _ => rfl) fun _ => Op.Meets.bind (Op.meets_onlyIf fun _ => Op.Meets.bind
    (live_update (fun _ => sameFacts_of (by constructor <;> simp) rfl rfl rfl) fun _ => ⟨rfl, rfl, rfl⟩) fun _ =>
    live_regClear fun _ => rfl) fun _ => Op.meets_getBind fun _ _ =>
    Op.Meets.pre (P := Run (Live C c X (On op snap q))) (Op.meets_onlyIf fun _ => live_kick) fun _ k => k.1

theorem live_handleOverflow {H : State → Prop} : Op.Meets (Run (Live C c X (On op snap q))) handleOverflow
    (fun _ => Run (Live C c X (On op snap q))) H :=
  Op.Meets.bind (live_step 3) fun _ => Op.Meets.bind
    (live_update (fun _ => sameFacts_of (by constructor <;> simp) rfl rfl rfl) fun _ => ⟨rfl, rfl, rfl⟩) fun _ =>
    live_regClear fun _ => rfl

/-- Steps 2 to 5 of `DISPATCH` (R165). -/
theorem live_dispatchRest (hL : L) (f g : IFlags) :
    Op.Meets (Run (Live C c (.whole h) (On .dispatch (some f) []))) (dispatchRest g)
      (fun _ => Run (Live C c (.whole h) (On .dispatch (some f) []))) (Paused C c h L) :=
  Op.Meets.bind (Op.meets_onlyIf fun _ => live_handleTransmit g) fun _ => Op.Meets.bind
    (Op.meets_onlyIf fun _ => live_handleOverflow) fun _ => Op.Meets.bind (Op.meets_onlyIf fun _ =>
    Op.Meets.bind (live_atStep 4) fun _ => (live_packetLoop hL f).post fun _ _ k => k.mono Live.on) fun _ => live_step 5

theorem live_dispatchAfterReconcile (hL : L) (f g : IFlags) :
    Op.Meets (Run (Live C c (.whole h) (On .dispatch (some f) []))) (dispatchAfterReconcile g)
      (fun _ => Run (Live C c (.whole h) (On .dispatch (some f) []))) (Paused C c h L) :=
  Op.Meets.bind (live_regClear fun _ => rfl) fun _ => live_dispatchRest hL f g

theorem callable_whole (hn : ∀ fr ∈ q, fr.op ≠ .initialise) : Callable (.whole h) q :=
  ⟨fun ⟨fr, hfr, ho⟩ => absurd ho (hn fr hfr), fun hx => ⟨hx, hx⟩⟩

theorem Live.any {s : State} (k : Live C c X Q s) : Live C c X (fun _ => True) s := ⟨trivial, k.base, k.settled⟩

/-- `DISPATCH` (R165). -/
theorem live_dispatchBody (hL : L) :
    Op.Meets (Run (Live C c (.whole h) (· = [⟨.dispatch, 0, none⟩]))) dispatchBody
      (fun _ => Run (Live C c (.whole h) fun _ => True)) (Paused C c h L) := by
  refine Op.Meets.bind (meets_regReadFlags calm_live) fun f => Op.Meets.bind
    (Q := fun _ => Run (Live C c (.whole h) (On .dispatch (some f) []))) (meets_change (fun s k => ?_) fun s =>
      ⟨rfl, rfl, rfl, by simp⟩) fun _ => Op.Meets.post (Q := fun _ => Run (Live C c (.whole h)
        (On .dispatch (some f) [])))
    (Op.meets_ite (fun _ => Op.Meets.bind (live_atStep 1) fun _ => Op.Meets.bind (live_reconcile (X := .whole h)
        (List.cons_ne_nil _ _) (.link f c) (callable_whole (by simp))) fun _ =>
        (live_dispatchAfterReconcile hL f f).pre fun _ k => k.mono Live.on) fun _ => live_dispatchRest hL f f)
      fun _ _ k => k.mono Live.any
  exact k.keep (sameFacts_setSnapshot s f) ⟨0, by simp [k.seq]⟩

/-! ### `INITIALIZE` and `SET_FLAGS` -/

/-- A bring-up once the read pointer is at the ring's start: of a block not yet initialized nothing of R51 is
claimed. -/
def Claims.bringUp : Claims := ⟨False, True, False, False⟩

/-- Any write of the chip's registers during a bring-up. -/
theorem Live.onChip_bringUp {s : State} (k : Live C c .bringUp Q s) (f : Chip → Chip) :
    Live C c .bringUp Q (s.onChip f) := k.onChip_unclaimed f id id id

/-- The block is initialized (R213 step 4). -/
theorem live_initialiseAfterReconcile {H : State → Prop} :
    Op.Meets (Run (Live C c .bringUp Q)) initialiseAfterReconcile
      (fun _ => Run (Live C c (.whole False) Q)) H :=
  Op.meets_getBind fun _ _ => Op.Meets.bind ((meets_regWriteTo calm_live fun _ _ k => k.onChip_bringUp _).pre
    fun _ k => k.1) fun _ => Op.Meets.bind (meets_regSetTo calm_live fun _ k => k.onChip_bringUp _) fun _ =>
    meets_change (fun _ k => ⟨k.seq, ⟨k.base.cfg, k.base.ipl, k.base.saved, k.base.context, k.base.probed, k.base.sendq,
      fun _ => k.base.pointer (Or.inr trivial), False.elim, False.elim⟩, ⟨k.settled.calm, k.settled.disabled,
      k.settled.unscheduled, k.settled.scheduled, False.elim, False.elim⟩⟩) fun _ => ⟨rfl, rfl, rfl, rfl⟩

/-- A block with a known address, of which nothing of R51 is claimed. -/
def KnownLive (C : Config) (c : Context) (Q : List Frame → Prop) (s : State) : Prop :=
  Live C c (.whole False) Q s ∧ s.ctx.addrKnown = true

theorem calm_knownLive : Calm (KnownLive C c Q) := fun s t e k => ⟨calm_live s t e k.1, by rw [e.ctx]; exact k.2⟩

theorem KnownLive.onChip {s : State} (k : KnownLive C c Q s) (f : Chip → Chip) : KnownLive C c Q (s.onChip f) :=
  ⟨k.1.onChip_unclaimed f id id id, k.2⟩

/-- The ring is reset: the pointer is in it. -/
theorem KnownLive.pointed {s : State} (k : KnownLive C c Q s) :
    Live C c .bringUp Q (s.setReadPointer C.rxStart) := by
  have hr := config_ring C
  obtain ⟨⟨h1, h2, h3⟩, ha⟩ := k
  exact ⟨h1, h2.setReadPointer ⟨Nat.le_refl _, hr.1⟩ fun _ => ha, ⟨h3.calm, h3.disabled, h3.unscheduled, h3.scheduled,
    False.elim, False.elim⟩⟩

/-- The watchdog part of the bring-up (R213 step 4, R181). -/
theorem live_clearWatchdog {H : State → Prop} : Op.Meets (Run (Live C c .bringUp Q)) (update State.clearWatchdog)
    (fun _ => Run (Live C c .bringUp Q)) H :=
  meets_change (fun _ k => ⟨k.seq, ⟨k.base.cfg, k.base.ipl, k.base.saved, k.base.context, k.base.probed, k.base.sendq,
    k.base.pointer, False.elim, False.elim⟩, ⟨by simp [State.clearWatchdog], by simp [State.clearWatchdog],
    fun e => absurd rfl e, fun d hd => by simp [State.clearWatchdog] at hd, False.elim, False.elim⟩⟩)
    fun _ => ⟨rfl, rfl, rfl, rfl⟩

/-- The bring-up (R213 step 4). -/
theorem live_bringUp (hq : HeldShape (⟨.reconcile, 1, none⟩ :: ⟨.initialise, 4, none⟩ :: q) c) :
    Op.Meets (Run (KnownLive C c (On .initialise none q))) bringUp
      (fun _ => Run (Live C c (.whole False) (· = ⟨.initialise, 4, none⟩ :: q))) (Paused C c False L) := by
  have ready : Op.Meets (Run (Live C c .bringUp (· = ⟨.initialise, 4, none⟩ :: q)))
      (do let p := (← get).cfg
          regWrite .txst (BitVec.ofNat 16 p.txStart)
          drain
          regClear .iflag [.iflagLink, .iflagTxdone, .iflagTxabt, .iflagRxabt]
          update State.clearWatchdog
          pushTable
          reconcile
          initialiseAfterReconcile)
      (fun _ => Run (Live C c (.whole False) (· = ⟨.initialise, 4, none⟩ :: q))) (Paused C c False L) :=
    Op.meets_getBind fun _ _ => Op.Meets.bind ((meets_regWriteTo calm_live fun _ _ k => k.onChip_bringUp _).pre
      fun _ k => k.1) fun _ => Op.Meets.bind (meets_drain calm_live fun _ k => k.onChip_bringUp _) fun _ =>
      Op.Meets.bind (meets_regClearTo calm_live fun _ k => k.onChip_bringUp _) fun _ =>
      Op.Meets.bind live_clearWatchdog fun _ => Op.Meets.bind (live_pushTable (X := .bringUp)) fun _ =>
      Op.Meets.bind (live_reconcile (X := .bringUp) (List.cons_ne_nil _ _) hq ⟨fun _ => ⟨trivial, id⟩, False.elim⟩)
        fun _ => live_initialiseAfterReconcile
  refine Op.Meets.bind (Q := fun _ => Run (KnownLive C c (· = ⟨.initialise, 4, none⟩ :: q)))
    (meets_atStep fun _ k => ⟨k.1.setStep 4, k.2⟩) fun _ =>
    Op.Meets.bind (meets_regClearTo calm_knownLive fun _ k => k.onChip _) fun _ => Op.Meets.bind
    (meets_resetRing (C := C) calm_knownLive (fun _ k => k.1.base.cfg) (fun _ _ _ k => k.onChip _)
      fun _ _ _ k => k.onChip _) fun _ => ready.pre fun s hs => hs.mono ?_
  rintro ⟨u, k, -, rfl⟩
  exact k.pointed

/-- Where nothing more is claimed than `State.Inv`, what is not the case need not be shown. -/
theorem Claims.whole_le_false (hh : ¬ h) : (Claims.whole h).Le (.whole False) :=
  ⟨fun hx => absurd hx hh, id, fun hx => absurd hx hh, fun hx => absurd hx hh⟩

theorem Paused.vacuous {s : State} (k : Paused C c False L s) (hh : ¬ h) : Paused C c h L s :=
  ⟨k.inv, fun hx => absurd hx hh, k.cfg, k.shape⟩

/-- `INITIALIZE` (R213) on a probed card. -/
theorem live_initialiseBody (hq : HeldShape (⟨.reconcile, 1, none⟩ :: ⟨.initialise, 4, none⟩ :: q) c) :
    Op.Meets (Run (Live C c (.whole h) (On .initialise none q))) initialiseBody
      (fun _ => Run (Live C c (.whole h) (On .initialise none q))) (Paused C c h L) := by
  refine Op.Meets.bind (live_step 1) fun _ => Op.meets_getBind fun a ha => Op.meets_ite (fun hp => ?_) fun _ =>
    Op.Meets.bind (Q := fun _ => Run fun s => Live C c (.whole h) (On .initialise none q) s
      ∧ s.ctx.addrKnown = a.ctx.addrKnown ∧ s.initialized = a.initialized) (Op.Meets.pre (P := Run fun s =>
      Live C c (.whole h) (On .initialise none q) s ∧ s.ctx.addrKnown = a.ctx.addrKnown ∧ s.initialized = a.initialized)
      (meets_atStep fun _ k => ⟨(k.1.setStep 2).on, k.2⟩) ?_) fun _ => Op.meets_ite (fun _ => Op.Meets.pre
      (P := Run (Live C c (.whole h) (On .initialise none q))) (Op.Meets.bind (meets_raise calm_live _ _) fun _ =>
      Op.meets_pure fun _ k => k) fun _ k => k.mono And.left) fun hk => Op.Meets.bind
      (Q := fun _ => Run fun s => Live C c (.whole h) (On .initialise none q) s
      ∧ s.ctx.addrKnown = a.ctx.addrKnown ∧ s.initialized = a.initialized) (meets_atStep fun _ k =>
      ⟨(k.1.setStep 3).on, k.2⟩) fun _ => Op.meets_ite (fun _ => Op.meets_pure fun _ k => k.mono And.left) fun hi => ?_
  · rw [ha.k.base.probed] at hp
    cases hp
  · rintro _ ⟨k, rfl⟩
    exact k.mono fun k => ⟨k, rfl, rfl⟩
  · have hh : ∀ s, Run (fun s => Live C c (.whole h) (On .initialise none q) s
      ∧ s.ctx.addrKnown = a.ctx.addrKnown ∧ s.initialized = a.initialized) s → ¬ h := fun s hs hx =>
      hi (hs.k.2.2.symm.trans (hs.k.1.base.host hx).1)
    refine Op.meets_of_pre hh fun hn => Op.Meets.bind ((live_bringUp hq).weaken (fun s hs => hs.mono fun k => ⟨k.1.mono
      ⟨False.elim, id, False.elim, False.elim⟩, ?_⟩) (fun _ _ k => k.mono fun k => k.on.mono (Claims.whole_le_false hn))
      fun _ k => k.vacuous hn) fun _ => Op.Meets.bind (live_step 5) fun _ => Op.meets_pure fun _ k => k
    rw [k.2.1]
    simpa using hk

/-- `SET_FLAGS` (R216). -/
theorem live_setFlagsBody (up : Bool) :
    Op.Meets (Run (Live C .request (.whole h) (· = [⟨.setFlags, 0, none⟩]))) (setFlagsBody up)
      (fun _ => Run (Live C .request (.whole h) (· = [⟨.setFlags, 0, none⟩]))) (Paused C .request h L) :=
  Op.Meets.bind (live_update (fun _ => sameFacts_of (by constructor <;> simp) rfl rfl rfl) fun _ =>
    ⟨rfl, rfl, rfl⟩) fun _ =>
    Op.meets_getBind fun _ _ => Op.Meets.pre (P := Run (Live C .request (.whole h) (· = [⟨.setFlags, 0, none⟩])))
      (Op.meets_ite (fun _ => Op.Meets.bind (live_callAt (List.cons_ne_nil _ _)
        ((live_initialiseBody .flagsUp).pre fun _ k => k.mono Live.on)) fun _ => Op.meets_pure fun _ k => k)
        fun _ => Op.meets_pure fun _ k => k) fun _ k => k.1

end Sys2Proof.Machine
end

section
/-! SUPPORT. From the operations to the steps: how a command, an activation and a resumption begin and end, what the
other agents' moves leave of the invariants of an idle block, and the statements about every step. -/

namespace Sys2Proof.Machine

variable {C : Config} {c : Context} {X : Claims} {Q : List Frame → Prop} {q : List Frame} {h L : Prop}

/-! ### What the invariants do not look at -/

theorem State.Inv.good {s : State} (hi : s.Inv) : Good s := ⟨hi.mem_wf, hi.mem_within, hi.pktcnt_bound⟩

/-- The invariant of a state that agrees on what it speaks of, in which nothing was switched on before discovery. -/
theorem State.Inv.keepFacts {s t : State} (hi : s.Inv) (k : SameFields s t) (hq : t.seq = s.seq) (hg : Good t)
    (hu : t.chip.enables = s.chip.enables ∧ (t.chip.txrts = true → s.chip.txrts = true)) : t.Inv where
  mem_wf := hg.mem_wf
  mem_within := hg.mem_within
  sendq_bound := by rw [k.sendq, k.cfg]; exact hi.sendq_bound
  pktcnt_bound := hg.pktcnt
  idle := by rw [hq, k.ipl, k.context]; exact hi.idle
  saved := k.savedIpl.trans hi.saved
  held := by rw [hq, k.ipl, k.ctx, k.context, k.cfg]; exact hi.held
  recovering := by rw [k.wdState, State.inRecover, hq]; exact hi.recovering
  disabled := by rw [k.wdState, k.cfg, k.ctx]; exact hi.disabled
  counted := by rw [k.wdState, k.ctx]; exact hi.counted
  unscheduled := by rw [k.wdState, k.pendingClear]; exact hi.unscheduled
  scheduled := by
    rw [k.pendingClear, k.ctx, k.cfg]
    exact fun d hd => ⟨(hi.scheduled d hd).1, Nat.le_trans (hi.scheduled d hd).2 (Nat.add_le_add_right k.now _)⟩
  brought_up := by rw [k.initialized, State.inBringUp, hq, k.ctx, k.cfg]; exact hi.brought_up
  known_probed := by rw [k.ctx]; exact hi.known_probed
  unprobed := fun hp => by
    rw [k.ctx] at hp
    obtain ⟨h1, h2, h3⟩ := hi.unprobed hp
    refine ⟨hu.1.trans h1, k.rxen.trans h2, ?_⟩
    cases ht : t.chip.txrts
    · rfl
    · rw [hu.2 ht] at h3; cases h3

/-- The same where memory and registers are as they were. -/
theorem State.Inv.keep {s t : State} (hi : s.Inv) (k : SameFields s t) (hq : t.seq = s.seq) (hm : t.mem = s.mem)
    (hc : t.chip = s.chip) : t.Inv :=
  hi.keepFacts k hq ⟨by rw [hm]; exact hi.mem_wf, by rw [hm, k.cfg]; exact hi.mem_within,
    by rw [hc, k.cfg]; exact hi.pktcnt_bound⟩ (by rw [hc]; exact ⟨rfl, id⟩)

theorem State.Sound.keep {s t : State} (hs : s.Sound) (k : SameFields s t) (hq : t.seq = s.seq) : t.Sound where
  initialized := k.initialized.trans hs.initialized
  settled := by rw [State.inBringUp, hq]; exact hs.settled
  pointer := by rw [k.wdState, k.cfg, k.ctx]; exact hs.pointer
  tail := by rw [k.wdState, k.rxtail, k.cfg, k.ctx]; exact hs.tail
  table := k.tableSound hs.table
  reception := by rw [k.wdState, k.rxen]; exact hs.reception

/-! ### How an operation begins and ends -/

/-- The block is idle in a state of the invariants. -/
structure Ended (C : Config) (h : Prop) (s : State) : Prop where
  inv : s.Inv
  sound : h → s.Sound ∧ s.HostRun
  cfg : s.cfg = C
  seq : s.seq = []

/-- A next state: the operation has ended, or is held. -/
def Stepped (C : Config) (c : Context) (h L : Prop) (o : Host.Outcome State Fault Refusal) : Prop :=
  ∃ t, o = .next t ∧ (Ended C h t ∨ Paused C c h L t)

theorem Ended.keep {s t : State} (e : Ended C h s) (k : SameFacts s t) (hq : t.seq = s.seq) (hm : t.mem = s.mem)
    (hc : t.chip = s.chip) : Ended C h t :=
  ⟨e.inv.keep k.toSameFields hq hm hc, fun hx => ⟨(e.sound hx).1.keep k.toSameFields hq, k.host (e.sound hx).2⟩,
    k.cfg.trans e.cfg, hq.trans e.seq⟩

theorem finish_fields (s : State) (r : Result) (hc : s.context = some c) : (s.finish r).cfg = s.cfg
    ∧ (s.finish r).ctx = s.ctx ∧ (s.finish r).seq = [] ∧ (s.finish r).savedIpl = s.savedIpl
    ∧ (s.savedIpl = .low → (s.finish r).ipl = .low) ∧ (s.finish r).context = none ∧ (s.finish r).sendq = s.sendq
    ∧ (s.finish r).wdState = s.wdState ∧ (s.finish r).now = s.now ∧ (s.finish r).pendingClear = s.pendingClear
    ∧ (s.finish r).initialized = s.initialized ∧ (s.finish r).chip = s.chip ∧ (s.finish r).mem = s.mem
    ∧ ((s.finish r).HostRun ↔ s.HostRun) := by
  cases c
  · rw [State.finish_request hc]; simp [State.HostRun]
  · rw [State.finish_interrupt hc]; simp [State.HostRun]

/-- An operation that has run to its end with the invariants leaves an idle block of the invariants (R29, R267). -/
theorem ended_finish {s : State} (hg : Good s) (hb : Base C c (.whole h) s) (hw : Settled (.whole h) s) (r : Result) :
    Ended C h (s.finish r) := by
  obtain ⟨e1, e2, e3, e4, e5, e6, e7, e8, e9, e10, e11, e12, e13, e14⟩ := finish_fields s r hb.context
  have hup : ¬ (s.finish r).inBringUp := by rintro ⟨fr, hfr, -⟩; rw [e3] at hfr; cases hfr
  refine ⟨?_, fun hx => ⟨?_, e14.2 (hb.host hx).2⟩, e1.trans hb.cfg, e3⟩
  · exact {
      mem_wf := by rw [e13]; exact hg.mem_wf
      mem_within := by rw [e13, e1]; exact hg.mem_within
      sendq_bound := by rw [e7, e1, hb.cfg]; exact hb.sendq
      pktcnt_bound := by rw [e12, e1]; exact hg.pktcnt
      idle := fun _ => ⟨e5 hb.saved, e6⟩
      saved := e4.trans hb.saved
      held := fun e => absurd e3 e
      recovering := by rw [e8, State.inRecover, e3]; exact iff_of_false hw.calm (by simp)
      disabled := by rw [e8, e1, e2]; exact hw.disabled
      counted := fun e => absurd (e8.symm.trans e) hw.calm
      unscheduled := by rw [e8, e10]; exact hw.unscheduled
      scheduled := by rw [e10, e2, e9, e1]; exact hw.scheduled
      brought_up := fun hi => by
        rw [e2, e1, hb.cfg]
        rcases hi with hi | hi
        · exact hb.pointer (Or.inl (e11.symm.trans hi))
        · exact absurd hi hup
      known_probed := fun _ => by rw [e2]; exact hb.probed
      unprobed := fun e => by rw [e2, hb.probed] at e; cases e }
  · exact {
      initialized := e11.trans (hb.host hx).1
      settled := hup
      pointer := fun e => by rw [e1, e2]; exact (hw.tail hx (e8.symm.trans e)).1
      tail := fun e => by rw [e12, e1, e2]; exact (hw.tail hx (e8.symm.trans e)).2
      table := by
        unfold State.TableSound
        rw [e12, e2]
        exact hb.table hx
      reception := by rw [e8, e12]; exact hw.off hx }

/-- The invariants of an idle block, as those of the operation that begins in it. -/
theorem Ended.base {s t : State} (e : Ended C h s) (hp : s.ctx.probed = true) (hc : t.cfg = s.cfg) (hx : t.ctx = s.ctx)
    (hipl : t.ipl = .device) (hsv : t.savedIpl = .low) (hctx : t.context = some c) (hq : t.sendq = s.sendq)
    (hin : t.initialized = s.initialized) (hch : t.chip = s.chip) (hr : t.HostRun ↔ s.HostRun) :
    Base C c (.whole h) t where
  cfg := hc.trans e.cfg
  ipl := hipl
  saved := hsv
  context := hctx
  probed := by rw [hx]; exact hp
  sendq := by rw [hq, ← e.cfg]; exact e.inv.sendq_bound
  pointer := fun hi => by
    rw [hx, ← e.cfg]
    rcases hi with hi | hi
    · exact e.inv.brought_up (Or.inl (hin.symm.trans hi))
    · exact hi.elim
  host := fun k => ⟨hin.trans (e.sound k).1.initialized, hr.2 (e.sound k).2⟩
  table := fun k => by
    unfold State.TableSound
    rw [hch, hx]
    exact (e.sound k).1.table

theorem settled_of_inv {s t : State} (hi : s.Inv) (hr : ¬ s.inRecover) (hs : h → s.Sound) (hc : t.cfg = s.cfg)
    (hx : t.ctx = s.ctx) (hw : t.wdState = s.wdState) (hn : t.now = s.now) (hp : t.pendingClear = s.pendingClear)
    (hch : t.chip = s.chip) : Settled (.whole h) t where
  calm := by rw [hw]; exact fun e => hr (hi.recovering.1 e)
  disabled := by rw [hw, hc, hx]; exact hi.disabled
  unscheduled := by rw [hw, hp]; exact hi.unscheduled
  scheduled := by rw [hp, hx, hn, hc]; exact hi.scheduled
  off := fun k => by rw [hw, hch]; exact (hs k).reception
  tail := fun k e => by rw [hc, hx, hch]; exact ⟨(hs k).pointer (hw.symm.trans e), (hs k).tail (hw.symm.trans e)⟩

theorem not_inRecover_of_idle {s : State} (hs : s.seq = []) : ¬ s.inRecover := by simp [State.inRecover, hs]

/-- A command begins in an idle block of the invariants (R29). -/
theorem Ended.beginCommand {s : State} (e : Ended C h s) (hp : s.ctx.probed = true) (op : OpName) :
    Run (Live C .request (.whole h) (· = [⟨op, 0, none⟩])) (s.beginCommand op) :=
  ⟨by simp, ⟨e.inv.mem_wf, e.inv.mem_within, e.inv.pktcnt_bound⟩, rfl,
    e.base hp rfl rfl rfl (e.inv.idle e.seq).1 rfl rfl rfl rfl Iff.rfl,
    settled_of_inv e.inv (not_inRecover_of_idle e.seq) (fun k => (e.sound k).1) rfl rfl rfl rfl rfl rfl⟩

/-- An activation begins in an idle block of the invariants (R265). -/
theorem Ended.beginInterrupt {s : State} (e : Ended C h s) (hp : s.ctx.probed = true) :
    Run (Live C .interrupt (.whole h) (· = [⟨.dispatch, 0, none⟩])) s.beginInterrupt :=
  ⟨by simp, ⟨e.inv.mem_wf, e.inv.mem_within, e.inv.pktcnt_bound⟩, rfl,
    e.base hp rfl rfl rfl e.inv.saved rfl rfl rfl rfl Iff.rfl,
    settled_of_inv e.inv (not_inRecover_of_idle e.seq) (fun k => (e.sound k).1) rfl rfl rfl rfl rfl rfl⟩

/-- A body with its end, from a state of its precondition. -/
theorem stepped_of_meets {α : Type} {P : State → Prop} {body : Op α} {s : State} {r : α → Result}
    (hb : Op.Meets P body (fun _ t => Good t ∧ Base C c (.whole h) t ∧ Settled (.whole h) t) (Paused C c h L))
    (hs : P s) :
    Stepped C c h L (outcomeOf ((do let a ← body; update (·.finish (r a)) : Op Unit) s)) := by
  have := hb s hs
  rw [op_bind]
  cases hx : body s with
  | ok a t =>
    rw [hx] at this
    exact ⟨_, rfl, Or.inl (ended_finish this.1 this.2.1 this.2.2 _)⟩
  | error e t =>
    rw [hx] at this
    cases e
    · exact ⟨t, rfl, Or.inr this⟩
    · exact this.elim

theorem Run.parts {s : State} (k : Run (Live C c X Q) s) : Good s ∧ Base C c X s ∧ Settled X s :=
  ⟨k.good, k.k.base, k.k.settled⟩

/-- A command on a probed card. -/
theorem Ended.runCommand {s : State} (e : Ended C h s) (hp : s.ctx.probed = true) {op : OpName} {body : Op Result}
    (hb : Op.Meets (Run (Live C .request (.whole h) (· = [⟨op, 0, none⟩]))) body
      (fun _ => Run (Live C .request (.whole h) Q)) (Paused C .request h L)) :
    Stepped C .request h L (runCommand op body s) := by
  rw [Machine.runCommand, if_pos e.seq]
  exact stepped_of_meets (r := id) (hb.post fun _ _ k => k.parts) (e.beginCommand hp op)

/-- A command turned away whole (R259, R261). -/
theorem Ended.turnAway {s : State} (e : Ended C h s) (x : Exn) (info : Info) : Ended C h (s.turnAway x info) :=
  e.keep (sameFacts_of (by constructor <;> simp [State.turnAway]) (by simp [State.turnAway]) (by simp [State.turnAway])
    (by simp [State.turnAway])) (by simp [State.turnAway]) (by simp [State.turnAway])
    (by simp [State.turnAway])

theorem Ended.runProbed {s : State} (e : Ended C h s) {op : OpName} {body : Op Result}
    (hb : Op.Meets (Run (Live C .request (.whole h) (· = [⟨op, 0, none⟩]))) body
      (fun _ => Run (Live C .request (.whole h) Q)) (Paused C .request h L)) :
    Stepped C .request h L (runProbed op body s) := by
  cases hp : s.ctx.probed
  · rw [runProbed_unprobed e.seq hp]
    exact ⟨_, rfl, Or.inl (e.turnAway _ _)⟩
  · rw [runProbed_probed hp]
    exact e.runCommand hp hb

theorem Ended.runProbedPacket {s : State} (e : Ended C h s) {op : OpName} {pkt : Packet} {body : Op Result}
    (hb : Op.Meets (Run (Live C .request (.whole h) (· = [⟨op, 0, none⟩]))) body
      (fun _ => Run (Live C .request (.whole h) Q)) (Paused C .request h L)) :
    Stepped C .request h L (runProbedPacket op pkt body s) := by
  cases hp : s.ctx.probed
  · rw [runProbedPacket_unprobed e.seq hp]
    exact ⟨_, rfl, Or.inl ((e.keep (t := s.emit _)
      (sameFacts_of (by constructor <;> simp) rfl rfl rfl) rfl rfl rfl).turnAway _ _)⟩
  · rw [runProbedPacket_probed hp]
    exact e.runCommand hp hb

/-! ### The commands -/

/-- A body whose value is not looked at. -/
theorem Op.Meets.returning {α β : Type} {P H R : State → Prop} {x : Op α} {f : α → β}
    (hx : Op.Meets P x (fun _ => R) H) : Op.Meets P (do let a ← x; return f a) (fun _ => R) H :=
  Op.Meets.bind hx fun _ => Op.meets_pure fun _ k => k

theorem live_regReadBody (r : Reg) : Op.Meets (Run (Live C c X Q)) (regReadBody r) (fun _ => Run (Live C c X Q))
    (Paused C c h L) := by
  refine Op.Meets.bind (meets_access calm_live _) fun _ => Op.meets_getBind fun a _ =>
    Op.Meets.bind (Q := fun _ => Run (Live C c X Q)) ?_ fun _ => Op.meets_pure fun _ k => k
  rintro _ ⟨k, rfl⟩
  exact k.step calm_live (by constructor <;> simp [State.HostRun]) ⟨k.good.1, k.good.2, k.good.3⟩

/-- A direct write, in a run of which nothing of R51 is claimed. -/
theorem live_directWrite (hh : ¬ h) (e : TraceEvent) (f : State → Chip → Chip)
    (hf : ∀ s c, (f s c).pktcnt ≤ c.pktcnt) : Op.Meets (Run (Live C c (.whole h) Q))
      (do access e; update fun s => s.onChip (f s)) (fun _ => Run (Live C c (.whole h) Q)) (Paused C c h L) :=
  Op.Meets.bind (meets_access calm_live e) fun _ _ k => k.onChip _ (hf _ _) (k.k.onChip_unclaimed _ hh hh hh)

theorem Run.inRing {s : State} (k : Run (Live C c X Q) s) (hp : InRing C.toParams s.ctx.rxReadPointer.toNat) :
    Run (InRingLive C c X Q) s := k.mono fun k => ⟨k.mono ⟨id, id, False.elim, id⟩, hp⟩

/-- `READ_BYTES` as a command, with the pointer in the ring. -/
theorem Ended.execReadBytes {s : State} (e : Ended C h s) (hh : ¬ h) (n : Word) :
    Stepped C .request h L (execReadBytes n s) := by
  unfold Machine.execReadBytes
  split
  · exact ⟨_, rfl, Or.inl (e.keep (sameFacts_of (by constructor <;> simp) rfl rfl rfl) rfl rfl rfl)⟩
  next hg =>
    cases hp : s.ctx.probed
    · rw [runProbed_unprobed e.seq hp]
      exact ⟨_, rfl, Or.inl (e.turnAway _ _)⟩
    · rw [runProbed_probed hp, Machine.runCommand, if_pos e.seq]
      have hr : InRing C.toParams s.ctx.rxReadPointer.toNat := by
        rw [← e.cfg]
        exact Classical.not_not.1 fun hr => hg ⟨e.seq, hp, hr⟩
      refine stepped_of_meets (r := id) (Op.Meets.returning ((inRing_readBytesBody (C := C) (c := .request)
        (X := .whole h) (op := .readBytes) (snap := none) (q := []) n.toNat).post fun _ s k => ?_))
        (((e.beginCommand hp .readBytes).mono Live.on).inRing hr)
      obtain ⟨-, hg, ⟨-, hb, hs⟩, -⟩ := k
      exact ⟨hg, { hb with }, ⟨hs.calm, hs.disabled, hs.unscheduled, hs.scheduled, hs.off, fun k => absurd k hh⟩⟩

/-- `INITIALIZE` as a command; its own first guard turns an unprobed card away (R213 step 1). -/
theorem Ended.execInitialise {s : State} (e : Ended C h s) : Stepped C .request h L (execInitialise s) := by
  cases hp : s.ctx.probed
  · unfold Machine.execInitialise
    rw [runCommand_run e.seq]
    simp only [initialiseBody, op_bind, atStep_run, op_get, State.setStep_ctx, State.beginCommand_ctx, hp, if_true,
      raise_run, op_pure]
    refine ⟨_, rfl, Or.inl (e.keep ?_ ?_ ?_ ?_)⟩
    all_goals rw [State.finish_request (by simp)]
    · exact sameFacts_of (by constructor <;> simp [e.inv.saved, e.inv.idle e.seq]) (by simp) (by simp) (by simp)
    all_goals simp [e.seq]
  · exact e.runCommand hp ((live_initialiseBody .bringUp).pre fun _ k => k.mono Live.on)

/-- Every command from an idle block of the invariants: it ends, or is held, in a state of the invariants; only a
`DISPATCH` can be held in its packet loop. -/
theorem Ended.exec {s : State} (e : Ended C h s) (i : Instr) (hh : h → i.hostCall = true) :
    Stepped C .request h (i = .dispatch) (exec i s) := by
  have direct : i.hostCall = false → ¬ h := fun hc k => by rw [hh k] at hc; cases hc
  cases i with
  | regRead r => exact e.runProbed (live_regReadBody r)
  | regWrite r v => exact e.runProbed (live_directWrite (direct rfl) _
      (fun s c => c.writeWord s.cfg.regmap r v) fun _ _ => Chip.writeWord_pktcnt _ _ _ _).returning
  | regSetBits r m => exact e.runProbed (live_directWrite (direct rfl) _
      (fun s c => c.setMask s.cfg.regmap r m) fun _ _ => Chip.setMask_pktcnt _ _ _ _).returning
  | regClearBits r m => exact e.runProbed (live_directWrite (direct rfl) _
      (fun s c => c.clearMask s.cfg.regmap r m) fun _ _ => Chip.clearMask_pktcnt _ _ _ _).returning
  | readBytes n => exact e.execReadBytes (direct rfl) n
  | receiveOne => exact e.runProbed (((live_receiveOneBody (X := .whole h) id fun n hn => .receive n hn).weaken
      (fun _ k => k.mono Live.on) (fun _ _ k => k.mono fun k => k.mono Claims.whole_le_tail) fun _ k => k).returning)
  | enqueueAndKick bytes =>
    exact e.runProbedPacket ((live_enqueueAndKickBody _).pre fun _ k => k.mono Live.on)
  | kick => exact e.runProbed (live_kickBody.pre fun _ k => k.mono Live.on).returning
  | dispatch => exact e.runProbed (live_dispatchBody rfl).returning
  | recover => exact e.runProbed (((live_recoverBody (X := .whole h) .recover id).weaken
      (fun _ k => k.mono Live.on) (fun _ _ k => k.mono fun k => k.mono Claims.whole_le_tail) fun _ k => k).returning)
  | subscribe a => exact e.runProbed (live_subscribeBody a).returning
  | unsubscribe a => exact e.runProbed (live_unsubscribeBody a).returning
  | hash a => exact e.runProbed (Op.meets_getBind fun _ _ => Op.meets_pure fun _ k => k.1)
  | reconcile => exact e.runProbed ((live_reconcileBody (X := .whole h) .reconcile (callable_whole (by simp))).pre
      fun _ k => k.mono Live.on).returning
  | initialise => exact e.execInitialise
  | transmit f p d bytes =>
    exact e.runProbedPacket ((live_transmitBody f p d bytes).pre fun _ k => k.mono Live.on)
  | setMulticast a sub => exact e.runProbed ((live_setMulticastBody a sub).pre fun _ k => k.mono Live.on).returning
  | setFlags up => exact e.runProbed (live_setFlagsBody up)
  | getStatus => exact e.runProbed (Op.meets_getBind fun _ _ => Op.meets_pure fun _ k => k.1)

end Sys2Proof.Machine
end

section
/-! SUPPORT. How a held operation goes on with the invariants, what a move of another agent leaves of them on an idle
block, and from both every step. -/

namespace Sys2Proof.Machine

variable {C : Config} {c : Context} {X : Claims} {Q : List Frame → Prop} {q : List Frame} {h L : Prop}

/-! ### A held operation goes on -/

/-- The invariants while the callers `q` are still to return. -/
structure Rest (C : Config) (c : Context) (X : Claims) (q : List Frame) (s : State) : Prop where
  good : Good s
  live : Live C c X (· = q) s

theorem Rest.run {fr : Frame} {s : State} (k : Rest C c X (fr :: q) s) : Run (Live C c X (· = fr :: q)) s :=
  ⟨by rw [k.live.seq]; exact List.cons_ne_nil _ _, k.good, k.live⟩

/-- The top frame returns (R98). -/
theorem meets_resumeFrames_cons {P H : State → Prop} {fr : Frame} {Y Z : Claims}
    (hfr : Op.Meets P (resumeFrame fr) (fun _ => Run (Live C c Y fun l => l.tail = q)) H)
    (hq : Op.Meets (Rest C c Y q) (resumeFrames q) (fun _ => Rest C c Z []) H) :
    Op.Meets P (resumeFrames (fr :: q)) (fun _ => Rest C c Z []) H :=
  Op.Meets.bind hfr fun _ => Op.Meets.bind (Q := fun _ => Rest C c Y q)
    (Op.meets_update fun s k => ⟨⟨k.good.1, k.good.2, k.good.3⟩, k.k.keep (sameFacts_popFrame s) k.k.seq⟩) fun _ => hq

theorem meets_resumeFrames_nil {H : State → Prop} :
    Op.Meets (Rest C c X []) (resumeFrames []) (fun _ => Rest C c X []) H := Op.meets_pure fun _ k => k

theorem Live.tail {op : OpName} {snap : Option IFlags} {s : State} (k : Live C c X (On op snap q) s) :
    Live C c X (fun l => l.tail = q) s := ⟨by obtain ⟨n, hn⟩ := k.seq; simp [hn], k.base, k.settled⟩

/-- A frame with nothing left to do. -/
theorem meets_resumeFrame_pure {H : State → Prop} {fr : Frame} (hf : resumeFrame fr = pure ()) :
    Op.Meets (Rest C c X (fr :: q)) (resumeFrame fr) (fun _ => Run (Live C c X fun l => l.tail = q)) H := by
  rw [hf]
  exact Op.meets_pure fun _ k => k.run.mono fun k => ⟨by rw [k.seq]; rfl, k.base, k.settled⟩

/-- `DISPATCH` goes on with its packet loop. -/
theorem meets_resume_packets (f : IFlags) :
    Op.Meets (Rest C c (.whole h) [⟨.dispatch, 4, some f⟩]) (resumeFrames [⟨.dispatch, 4, some f⟩])
      (fun _ => Rest C c (.whole h) []) (Paused C c h True) :=
  meets_resumeFrames_cons (Op.Meets.bind ((live_packetLoop trivial f).pre fun _ k => k.run) fun _ =>
    ((live_step 5).pre fun _ k => k.mono Live.on).post fun _ _ k => k.mono Live.tail) meets_resumeFrames_nil

theorem meets_resume_setFlags {H : State → Prop} :
    Op.Meets (Rest C c X [⟨.setFlags, 0, none⟩]) (resumeFrames [⟨.setFlags, 0, none⟩]) (fun _ => Rest C c X []) H :=
  meets_resumeFrames_cons (meets_resumeFrame_pure rfl) meets_resumeFrames_nil

/-- `RECEIVE_ONE` returns without a packet behind its recovery. -/
theorem meets_resume_receive {H : State → Prop} {Z : Claims} {n : Nat} (hn : n = 1 ∨ n = 3 ∨ n = 4)
    (hq : Op.Meets (Rest C c X q) (resumeFrames q) (fun _ => Rest C c Z []) H) :
    Op.Meets (Rest C c X (⟨.receiveOne, n, none⟩ :: q)) (resumeFrames (⟨.receiveOne, n, none⟩ :: q))
      (fun _ => Rest C c Z []) H := by
  refine meets_resumeFrames_cons (meets_resumeFrame_pure ?_) hq
  rcases hn with rfl | rfl | rfl <;> rfl

/-- The bring-up goes on behind its `RECONCILE`. -/
theorem meets_resume_bringUp {H : State → Prop}
    (hq : Op.Meets (Rest C c (.whole False) q) (resumeFrames q) (fun _ => Rest C c (.whole False) []) H) :
    Op.Meets (Rest C c .bringUp (⟨.initialise, 4, none⟩ :: q)) (resumeFrames (⟨.initialise, 4, none⟩ :: q))
      (fun _ => Rest C c (.whole False) []) H :=
  meets_resumeFrames_cons (Op.Meets.bind (live_initialiseAfterReconcile.pre fun _ k => k.run) fun _ =>
    ((live_step 5).pre fun _ k => k.mono Live.on).post fun _ _ k => k.mono Live.tail) hq

/-- Behind the wait of `RECOVER`. -/
theorem meets_resume_recover {Z : Claims} (hq : HeldShape (⟨.recover, 5, none⟩ :: q) c)
    (hr : Op.Meets (Rest C c (.whole h) q) (resumeFrames q) (fun _ => Rest C c Z []) (Paused C c h L)) :
    Op.Meets (Run (Under C c ⟨h, False, False, h⟩ (· = ⟨.recover, 5, none⟩ :: q)))
      (resumeFrames (⟨.recover, 5, none⟩ :: q)) (fun _ => Rest C c Z []) (Paused C c h L) :=
  meets_resumeFrames_cons ((under_recoverFromWait (X := ⟨h, False, False, h⟩) hq id).weaken
    (fun _ k => k.mono fun k => ⟨⟨5, k.seq⟩, k.base, k.waiting⟩)
    (fun _ _ k => k.mono fun k => (k.mono Claims.whole_le_tail).tail) fun _ k => k) hr

/-- Behind the wait of `RECONCILE`. -/
theorem meets_resume_reconcile {Z : Claims} (hq : HeldShape (⟨.reconcile, 1, none⟩ :: q) c) (hx : Callable X q)
    (hr : Op.Meets (Rest C c X q) (resumeFrames q) (fun _ => Rest C c Z []) (Paused C c X.host L)) :
    Op.Meets (Run (Live C c X (· = ⟨.reconcile, 1, none⟩ :: q))) (resumeFrames (⟨.reconcile, 1, none⟩ :: q))
      (fun _ => Rest C c Z []) (Paused C c X.host L) :=
  meets_resumeFrames_cons ((live_reconcileBody hq hx).weaken (fun _ k => k.mono Live.on)
    (fun _ _ k => k.mono Live.tail) fun _ k => k) hr

/-- The invariants of a held operation. -/
theorem State.Inv.base {s : State} (hi : s.Inv) (hs : s.seq ≠ []) (hh : h → s.Sound ∧ s.HostRun)
    (hc : s.context = some c) {R T : Prop} (hR : R → s.inBringUp) : Base s.cfg c ⟨h, R, T, h⟩ s := by
  obtain ⟨hipl, hp, -⟩ := hi.held hs
  exact ⟨rfl, hipl, hi.saved, hc, hp, hi.sendq_bound, fun k => hi.brought_up (k.imp_right hR),
    fun k => ⟨(hh k).1.initialized, (hh k).2⟩, fun k => (hh k).1.table⟩

theorem State.Inv.waiting {s : State} (hi : s.Inv) (hh : h → s.Sound) (hr : s.inRecover) {R T U : Prop} :
    Waiting ⟨h, R, T, U⟩ s := by
  have hw := hi.recovering.2 hr
  have hn : s.wdState ≠ .healthy := by rw [hw]; decide
  have hd : ¬ s.cfg.maxResets < s.ctx.resetCounter := fun hd => by have := hi.disabled.2 hd; rw [hw] at this; cases this
  exact { recovering := hw, counted := hi.counted hw, off := fun k => (hh k).reception hn,
          scheduled := fun d hd => (hi.scheduled d hd).2, below := by omega, unscheduled := hi.unscheduled hn }

/-- A held operation takes its next events, and ends or is held again. -/
theorem resume_stepped {s : State} (hi : s.Inv) (hs : s.seq ≠ []) (hh : h → s.Sound ∧ s.HostRun) :
    ∃ c, Stepped s.cfg c h True (resume s) := by
  obtain ⟨-, -, c, hc, hsh⟩ := hi.held hs
  refine ⟨c, ?_⟩
  unfold resume
  have go : ∀ {P : State → Prop} {Z : Claims}, P s → (Claims.whole h).Le Z →
      Op.Meets P (resumeFrames s.seq) (fun _ => Rest s.cfg c Z []) (Paused s.cfg c h True) →
      Stepped s.cfg c h True
        (outcomeOf ((do resumeFrames s.seq; update (·.finish (resumedResult s.seq)) : Op Unit) s)) :=
    fun hP hl hm => stepped_of_meets (r := fun _ => resumedResult s.seq) (hm.post fun _ _ k =>
      ⟨k.good, k.live.base.mono hl, k.live.settled.mono hl.host hl.tail⟩) hP
  have under : ∀ q, s.seq = ⟨.recover, 5, none⟩ :: q →
      Run (Under s.cfg c ⟨h, False, False, h⟩ (· = ⟨.recover, 5, none⟩ :: q)) s := fun q e =>
    ⟨hs, hi.good, e, hi.base hs hh hc False.elim,
      hi.waiting (fun k => (hh k).1) (by simp [State.inRecover, e])⟩
  have live : ∀ l, s.seq = l → ¬ s.inRecover → Run (Live s.cfg c (.whole h) (· = l)) s := fun l e hr =>
    ⟨hs, hi.good, e, hi.base hs hh hc False.elim,
      settled_of_inv hi hr (fun k => (hh k).1) rfl rfl rfl rfl rfl rfl⟩
  have rising : ∀ l, s.seq = l → ¬ s.inRecover → s.inBringUp →
      ¬ h ∧ Run (Live s.cfg c .bringUp (· = l)) s := fun l e hr hb =>
    ⟨fun k => (hh k).1.settled hb, hs, hi.good, e,
      (hi.base (h := False) hs False.elim hc (R := True) (T := False) fun _ => hb).mono ⟨id, id, id, id⟩,
      (settled_of_inv (h := False) hi hr False.elim rfl rfl rfl rfl rfl rfl).mono id id⟩
  have notRecover : ∀ fr q, s.seq = fr :: q → fr.op ≠ .recover → ¬ s.inRecover := fun fr q e ho hr => by
    simp [State.inRecover, e] at hr
    exact ho hr
  have rises : ∀ fr q, s.seq = fr :: q → (∃ f ∈ q, f.op = .initialise) → s.inBringUp := fun fr q e ⟨f, hf, ho⟩ =>
    ⟨f, by rw [e]; exact List.mem_cons_of_mem _ hf, ho⟩
  have refl : (Claims.whole h).Le (.whole h) := ⟨id, id, id, id⟩
  rcases hsh with ⟨hsh, -⟩ | ⟨f, e⟩
  · generalize e : s.seq = l at hsh
    rw [e] at go
    cases hsh with
    | recover => exact go (under _ e) refl (meets_resume_recover .recover meets_resumeFrames_nil)
    | receive n hn =>
      exact go (under _ e) refl (meets_resume_recover (.receive n hn) (meets_resume_receive hn meets_resumeFrames_nil))
    | packets n f c hn =>
      exact go (under _ e) refl
        (meets_resume_recover (.packets n f c hn) (meets_resume_receive hn (meets_resume_packets f)))
    | reconcile =>
      exact go (live _ e (notRecover _ _ e (by simp))) refl
        (meets_resume_reconcile (X := .whole h) .reconcile (callable_whole (by simp)) meets_resumeFrames_nil)
    | link f c =>
      exact go (live _ e (notRecover _ _ e (by simp))) refl
        (meets_resume_reconcile (X := .whole h) (.link f c) (callable_whole (by simp)) (meets_resumeFrames_cons
          ((live_dispatchAfterReconcile trivial f f).weaken (fun _ k => k.run.mono Live.on)
            (fun _ _ k => k.mono Live.tail) fun _ k => k) meets_resumeFrames_nil))
    | bringUp =>
      obtain ⟨hn, hb⟩ := rising _ e (notRecover _ _ e (by simp)) (rises _ _ e (by simp))
      exact go hb (Claims.whole_le_false hn) ((meets_resume_reconcile (X := .bringUp) .bringUp
        ⟨fun _ => ⟨trivial, id⟩, False.elim⟩ (meets_resume_bringUp meets_resumeFrames_nil)).weaken (fun _ k => k)
        (fun _ _ k => k) fun _ k => k.vacuous hn)
    | flagsUp =>
      obtain ⟨hn, hb⟩ := rising _ e (notRecover _ _ e (by simp)) (rises _ _ e (by simp))
      exact go hb (Claims.whole_le_false hn) ((meets_resume_reconcile (X := .bringUp) .flagsUp
        ⟨fun _ => ⟨trivial, id⟩, False.elim⟩ (meets_resume_bringUp meets_resume_setFlags)).weaken (fun _ k => k)
        (fun _ _ k => k) fun _ k => k.vacuous hn)
  · rw [e] at go ⊢
    have k := live _ e (notRecover _ _ e (by simp))
    exact go (P := Rest s.cfg c (.whole h) _) ⟨k.good, k.k⟩ refl (meets_resume_packets f)

/-! ### The other agents and the idle block -/

/-- A move that neither fires the callback nor resets nor discovers. -/
def EnvMove.plain : EnvMove → Bool
  | .timerFire | .reset _ | .discover _ => false
  | .rxBegin | .rxEnd _ _ _ _ _ | .rxOverflow _ | .rxEndCorrupt _ _ _ | .txComplete _ | .txAbort _ | .linkChange _ _
  | .flowControl _ _ | .timerTick | .present _ => true

/-- Such a move leaves an idle block alone as it does a running one, and asks for no transmission. -/
theorem State.applyMove_plain (s : State) {m : EnvMove} (hm : m.plain = true) :
    SameBlock s (s.applyMove m) ∧ ((s.applyMove m).chip.txrts = true → s.chip.txrts = true) := by
  fun_cases State.applyMove s m <;>
    (try simp only [State.chipRxEnd, State.chipRxOverflow, State.chipRxEndCorrupt, State.chipTxComplete,
      State.chipTxAbort, State.chipLinkChange, State.chipFlowControl, State.deposit]) <;>
    repeat' split
  all_goals first
    | exact absurd hm Bool.false_ne_true
    | exact ⟨SameBlock.refl s, id⟩
    | exact ⟨by constructor <;> simp [Chip.blockOnly, Chip.rxDropped, Chip.rxOverflowed],
        by simp [Chip.rxDropped, Chip.rxOverflowed]⟩

theorem SameBlock.fields {s t : State} (k : SameBlock s t) : SameFields s t :=
  ⟨k.cfg, k.ctx, k.ipl, k.savedIpl, k.context, k.sendq, k.wdState, k.now, k.pendingClear, k.initialized,
    (congrArg Chip.tuning k.chip :)⟩

/-- The state after a launch meets the invariant (R52, R53). -/
theorem launch_inv (cfg : Config) (v : Launch) (hw : v.mem.wf) (hm : v.mem.within cfg.memSize) :
    (State.launch cfg v).Inv where
  mem_wf := hw
  mem_within := hm
  sendq_bound := Nat.zero_le _
  pktcnt_bound := Nat.zero_le _
  idle := fun _ => ⟨rfl, rfl⟩
  saved := rfl
  held := fun e => absurd rfl e
  recovering := by simp [State.launch, State.inRecover]
  disabled := by simp [State.launch]
  counted := fun e => by cases e
  unscheduled := fun _ => rfl
  scheduled := fun d hd => by cases hd
  brought_up := fun hi => by simp [State.launch, State.inBringUp] at hi
  known_probed := fun e => by cases e
  unprobed := fun _ => ⟨rfl, rfl, rfl⟩

/-- Settles O55: every field has the value of R52 and R53, and the memory is the launch's. -/
theorem resetInvariant : Obligations.ResetInvariant :=
  ⟨launch_inv, launch_inv _ _ Memory.nil_wf (by simp [Launch.named, Memory.within])⟩

/-- `QUIET_EXPIRE` fires on a healthy block only, and leaves no count and no callback (R183). -/
theorem Ended.quietExpire {s : State} (e : Ended C h s) : Ended C h s.quietExpire := by
  unfold State.quietExpire
  split
  case isFalse => exact e
  case isTrue hq =>
    obtain ⟨⟨d, hd, -⟩, -, -⟩ := hq
    have hi := e.inv
    have hw : s.wdState = .healthy := Classical.not_not.1 fun hn => by
      rw [hi.unscheduled hn] at hd
      cases hd
    refine ⟨?_, fun hx => ⟨?_, (e.sound hx).2⟩, e.cfg, e.seq⟩
    · exact {
        mem_wf := hi.mem_wf
        mem_within := hi.mem_within
        sendq_bound := hi.sendq_bound
        pktcnt_bound := hi.pktcnt_bound
        idle := hi.idle
        saved := hi.saved
        held := hi.held
        recovering := hi.recovering
        disabled := by simp [hw]
        counted := fun k => by cases hw.symm.trans k
        unscheduled := fun _ => rfl
        scheduled := fun d hd => by cases hd
        brought_up := hi.brought_up
        known_probed := hi.known_probed
        unprobed := hi.unprobed }
    · obtain ⟨h1, h2, h3, h4, h5, h6⟩ := (e.sound hx).1
      exact ⟨h1, h2, h3, h4, h5, h6⟩

/-- Discovery of a card not yet probed (R281). -/
theorem State.Inv.discovered {s : State} (hi : s.Inv) (hs : s.seq = []) (a : MacAddr)
    (k : Bool) (hk : s.ctx.addrKnown = true → k = true) :
    State.Inv { s with ctx := { s.ctx with probed := true, linkAddress := a, addrKnown := k } } where
  mem_wf := hi.mem_wf
  mem_within := hi.mem_within
  sendq_bound := hi.sendq_bound
  pktcnt_bound := hi.pktcnt_bound
  idle := hi.idle
  saved := hi.saved
  held := fun e => absurd hs e
  recovering := hi.recovering
  disabled := hi.disabled
  counted := hi.counted
  unscheduled := hi.unscheduled
  scheduled := hi.scheduled
  brought_up := fun k => ⟨hk (hi.brought_up k).1, (hi.brought_up k).2⟩
  known_probed := fun _ => rfl
  unprobed := fun e => by cases e

theorem Ended.discover {s : State} (e : Ended C h s) (o : Discovery) : Ended C h (s.discover o) := by
  unfold State.discover
  split
  case isFalse => exact e
  case isTrue hp =>
    have hn : ¬ h := fun hx => by
      have := e.inv.known_probed (e.inv.brought_up (Or.inl (e.sound hx).1.initialized)).1
      rw [hp.2] at this
      cases this
    cases o with
    | success => exact ⟨e.inv.discovered hp.1 _ true fun _ => rfl, fun hx => absurd hx hn, e.cfg, e.seq⟩
    | failure => exact e
    | addressUnknown => exact ⟨e.inv.discovered hp.1 _ _ id, fun hx => absurd hx hn, e.cfg, e.seq⟩

/-- Reset (R280), which no run of R302 contains. -/
theorem Ended.resetMove {s : State} (e : Ended C h s) (hn : ¬ h) (v : Launch) : Ended C h (s.resetMove v) := by
  unfold State.resetMove
  rw [if_pos e.seq]
  refine ⟨?_, fun hx => absurd hx hn, e.cfg, rfl⟩
  have hi := launch_inv s.cfg { v with mem := Memory.ofPairs s.cfg.memSize v.mem } (Memory.ofPairs_wf _ _)
    (Memory.ofPairs_within _ _)
  exact hi.keep (by constructor <;> simp) rfl rfl rfl

/-- A move of another agent keeps the invariants of an idle block; those of R51 where R302 allows the move. -/
theorem Ended.applyMove {s : State} (e : Ended C h s) {m : EnvMove} (hm : h → m.hostRun s.cfg.regmap = true) :
    Ended C h (s.applyMove m) := by
  cases hp : m.plain
  · cases m with
    | timerFire => exact e.quietExpire
    | discover o => exact e.discover o
    | reset v => exact e.resetMove (fun hx => by have := hm hx; simp [EnvMove.hostRun] at this) v
    | _ => simp [EnvMove.plain] at hp
  · obtain ⟨k, ht⟩ := s.applyMove_plain hp
    exact ⟨e.inv.keepFacts k.fields k.seq (State.applyMove_good e.inv.good m) ⟨(congrArg Chip.enables k.chip :), ht⟩,
      fun hx => ⟨(e.sound hx).1.keep k.fields k.seq, State.applyMove_hostRun (e.sound hx).2 (hm hx)⟩, k.cfg.trans e.cfg,
      k.seq.trans e.seq⟩

/-! ### Every step -/

/-- A next state of the invariants. -/
def Answered (h : Prop) (o : Host.Outcome State Fault Refusal) : Prop :=
  ∃ t, o = .next t ∧ t.Inv ∧ (h → t.Sound ∧ t.HostRun)

theorem Stepped.answered {o : Host.Outcome State Fault Refusal} (k : Stepped C c h L o) : Answered h o := by
  obtain ⟨t, ht, k⟩ := k
  rcases k with k | k <;> exact ⟨t, ht, k.inv, k.sound⟩

theorem Ended.answered {s : State} (e : Ended C h s) : Answered h (.next s) := ⟨s, rfl, e.inv, e.sound⟩

/-- Before discovery the request line is low (R282). -/
theorem State.Inv.probed_of_irq {s : State} (hi : s.Inv) (hirq : s.chip.irq = true) : s.ctx.probed = true := by
  cases hp : s.ctx.probed
  · rw [Chip.irq, (hi.unprobed hp).1] at hirq
    simp at hirq
  · rfl

/-- An activation (R265). -/
theorem Ended.activate {s : State} (e : Ended C h s) (hirq : s.chip.irq = true) :
    Stepped C .interrupt h True (activate s) :=
  stepped_of_meets (r := fun _ => .unit) ((live_dispatchBody trivial).post fun _ _ k => k.parts)
    (e.beginInterrupt (e.inv.probed_of_irq hirq))

/-- A waiting command is accepted: decoded and run, or turned away (R90, R94). -/
theorem Ended.acceptCommand {s : State} (e : Ended C h s) (words : List Word)
    (hw : h → hostWords s.cfg.regmap words = true) : Answered h (acceptCommand words s) := by
  unfold Machine.acceptCommand
  unfold hostWords at hw
  cases hd : decode s.cfg.regmap words with
  | ok i =>
    rw [hd] at hw
    exact (e.exec i hw).answered
  | error x => exact (e.turnAway _ _).answered

/-- The same block with another port and another agenda, no more than was lined up. -/
theorem Ended.relined {s : State} (e : Ended C h s) {port : List (List Word)} {agenda : List Slot}
    (hr : s.HostRun → State.HostRun { s with port := port, agenda := agenda }) :
    Ended C h { s with port := port, agenda := agenda } :=
  e.keep ⟨by constructor <;> simp, hr⟩ rfl rfl rfl

/-- The idle block's own turn. -/
theorem Ended.blockTurn {s : State} (e : Ended C h s) (pick : Pick) : Answered h (blockTurn pick s) := by
  have active : s.canActivate = true → Answered h (Machine.activate s) := fun k => by
    simp only [State.canActivate, Bool.and_eq_true] at k
    exact (e.activate k.1.1).answered
  have command : ∀ words rest, s.port = words :: rest →
      Answered h (Machine.acceptCommand words { s with port := rest }) := fun words rest hp =>
    (e.relined (port := rest) (agenda := s.agenda) fun k => ⟨fun w hw => k.1 w
      (by rw [hp]; exact List.mem_cons_of_mem _ hw),
      k.2⟩).acceptCommand words fun hx => (e.sound hx).2.1 words (by simp [hp])
  cases hp : s.port with
  | nil =>
    cases ha : s.canActivate
    · cases pick <;> simp only [Machine.blockTurn, ha, hp] <;> exact e.answered
    · cases pick <;> simp only [Machine.blockTurn, ha, hp] <;> exact active ha
  | cons words rest =>
    cases ha : s.canActivate
    · cases pick <;> simp only [Machine.blockTurn, ha, hp] <;> exact command words rest hp
    · cases pick <;> simp only [Machine.blockTurn, ha, hp]
      · exact command words rest hp
      · exact active ha

/-- A step of an idle block. -/
theorem Ended.idleStep {s : State} (e : Ended C h s) : Answered h (idleStep s) := by
  unfold Machine.idleStep
  split
  next => exact e.blockTurn .activation
  next pick rest ha =>
    exact (e.relined (port := s.port) (agenda := rest) fun k => ⟨k.1, fun sl hsl => k.2 sl
      (by simp [ha] at hsl ⊢; tauto)⟩).blockTurn pick
  next m ms pick rest ha =>
    have hm : h → m.hostRun s.cfg.regmap = true := fun hx =>
      (e.sound hx).2.2 ⟨m :: ms, pick⟩ (by simp [ha]) m (by simp)
    refine (Ended.applyMove (e.relined (port := s.port) (agenda := ⟨ms, pick⟩ :: rest) fun k =>
      ⟨k.1, fun sl hsl m' hm' => ?_⟩) hm).answered
    simp only [List.cons_append, List.mem_cons] at hsl
    rcases hsl with rfl | hsl
    · exact k.2 ⟨m :: ms, pick⟩ (by simp [ha]) m' (List.mem_cons_of_mem _ hm')
    · exact k.2 sl (by rw [ha]; exact List.mem_cons_of_mem _ hsl) m' hm'

/-- Every step from a state of the invariants answers one. -/
theorem step_answered {s : State} (hi : s.Inv) (hh : h → s.Sound ∧ s.HostRun) : Answered h (step s) := by
  have k := sameFacts_rearm s
  have hi' : s.rearm.Inv := hi.keep k.toSameFields rfl rfl rfl
  have hh' : h → s.rearm.Sound ∧ s.rearm.HostRun := fun hx => ⟨(hh hx).1.keep k.toSameFields rfl, k.host (hh hx).2⟩
  unfold step
  split
  next fr q hs =>
    obtain ⟨c, k⟩ := resume_stepped hi' (by rw [State.rearm_seq, hs]; exact List.cons_ne_nil _ _) hh'
    exact k.answered
  next hs => exact Ended.idleStep (C := s.cfg) ⟨hi', hh', rfl, hs⟩

/-- Settles O56: a held operation goes on with the invariant (`resume_stepped`), an idle block keeps it through
every move of another agent, every activation and every command (`Ended.idleStep`). -/
theorem stepKeepsInvariant : Obligations.StepKeepsInvariant := by
  intro s hi
  obtain ⟨t, ht, hi', -⟩ := step_answered (h := False) hi False.elim
  exact ⟨t, ht, hi'⟩

/-- Settles O60: the same induction over the operations as for the invariant of every step, with all of R51 claimed. -/
theorem hostRunsKeepR51 : Obligations.HostRunsKeepR51 := by
  intro s t hi hs hr ht
  obtain ⟨u, hu, -, k⟩ := step_answered (h := True) hi fun _ => ⟨hs, hr⟩
  rw [ht] at hu
  cases hu
  exact k trivial

end Sys2Proof.Machine
end

section
/-! SUPPORT. What no operation changes, whatever the other agents do meanwhile and wherever it ends (`Kept`), walked
once through every operation; and from it the frame of a command, the priority level it leaves, and its command
port. -/

namespace Sys2Proof.Machine

/-! ### The frame of an operation -/

/-- What no operation changes; with nothing lined up, nor the clock, the port, and the chip's status (R29, R33, R41). -/
structure Kept (s t : State) : Prop where
  cfg : t.cfg = s.cfg
  ipl : t.ipl = s.ipl
  savedIpl : t.savedIpl = s.savedIpl
  context : t.context = s.context
  probed : t.ctx.probed = s.ctx.probed
  linkAddress : t.ctx.linkAddress = s.ctx.linkAddress
  addrKnown : t.ctx.addrKnown = s.ctx.addrKnown
  again : t.again = s.again
  maadr : (t.chip.maadr0, t.chip.maadr1, t.chip.maadr2) = (s.chip.maadr0, s.chip.maadr1, s.chip.maadr2)
  port : ∃ more, t.port = s.port ++ more
  still : s.agenda = [] → (t.agenda, t.port, t.now) = (s.agenda, s.port, s.now)
    ∧ (t.chip.rxbusy, t.chip.fcidle, t.chip.phydpx, t.chip.phylnk)
      = (s.chip.rxbusy, s.chip.fcidle, s.chip.phydpx, s.chip.phylnk)

theorem Kept.refl (s : State) : Kept s s := by constructor <;> simp

theorem Kept.trans {s t u : State} (h : Kept s t) (k : Kept t u) : Kept s u where
  cfg := k.cfg.trans h.cfg
  ipl := k.ipl.trans h.ipl
  savedIpl := k.savedIpl.trans h.savedIpl
  context := k.context.trans h.context
  probed := k.probed.trans h.probed
  linkAddress := k.linkAddress.trans h.linkAddress
  addrKnown := k.addrKnown.trans h.addrKnown
  again := k.again.trans h.again
  maadr := k.maadr.trans h.maadr
  port := by
    obtain ⟨m, hm⟩ := h.port
    obtain ⟨n, hn⟩ := k.port
    exact ⟨m ++ n, by rw [hn, hm, List.append_assoc]⟩
  still := fun hs => by
    obtain ⟨h1, h2⟩ := h.still hs
    obtain ⟨k1, k2⟩ := k.still ((congrArg Prod.fst h1).trans hs)
    exact ⟨k1.trans h1, k2.trans h2⟩

/-- While an operation runs the port only grows. -/
theorem State.applyMove_port {s : State} (h : s.seq ≠ []) (m : EnvMove) :
    ∃ more, (s.applyMove m).port = s.port ++ more := by
  by_cases hp : ∃ words, m = .present words
  · obtain ⟨words, rfl⟩ := hp
    exact ⟨[words], rfl⟩
  · refine ⟨[], ?_⟩
    rw [List.append_nil]
    fun_cases State.applyMove s m <;>
      (try simp only [State.chipRxEnd, State.chipRxOverflow, State.chipRxEndCorrupt, State.chipTxComplete,
        State.chipTxAbort, State.chipLinkChange, State.chipFlowControl, State.quietExpire, State.resetMove,
        State.discover, State.deposit, h, false_and, if_false]) <;>
      repeat' split
    all_goals first | rfl | exact absurd ⟨_, rfl⟩ hp

theorem State.applyMoves_port {s : State} (h : s.seq ≠ []) (ms : List EnvMove) :
    (∃ more, (s.applyMoves ms).port = s.port ++ more) ∧ (s.applyMoves ms).again = s.again := by
  induction ms generalizing s with
  | nil => exact ⟨⟨[], by simp [State.applyMoves]⟩, rfl⟩
  | cons m ms ih =>
    obtain ⟨a, ha⟩ := State.applyMove_port h m
    obtain ⟨⟨b, hb⟩, hg⟩ := ih (s := s.applyMove m) (by rw [(State.applyMove_running h m).seq]; exact h)
    exact ⟨⟨a ++ b, by rw [← List.append_assoc, ← ha]; exact hb⟩, hg.trans (State.applyMove_agenda s m).2⟩

/-- The other agents' moves before an event of a running operation. -/
theorem kept_tick {s : State} (h : s.seq ≠ []) : Kept s s.tick := by
  have k := State.tick_running h
  have hp : (∃ more, s.tick.port = s.port ++ more) ∧ s.tick.again = s.again := by
    unfold State.tick
    split
    · exact ⟨⟨[], by simp⟩, rfl⟩
    · next rest _ => exact State.applyMoves_port (s := { s with agenda := rest }) h _
  exact ⟨k.cfg, k.ipl, k.savedIpl, k.context, congrArg Ctx.probed k.ctx, congrArg Ctx.linkAddress k.ctx,
    congrArg Ctx.addrKnown k.ctx, hp.2, (congrArg (fun c => (c.maadr0, c.maadr1, c.maadr2)) k.chip :), hp.1,
    fun hs => by rw [State.tick_quiet hs]; exact ⟨rfl, rfl⟩⟩

theorem kept_emit (s : State) (e : TraceEvent) : Kept s (s.emit e) := by constructor <;> simp

/-! ### Writes of the block's registers -/

/-- The registers and bits that no access of the block changes: the chip's status and the address (R41, R46). -/
def Chip.readOnly (c : Chip) : Bool × Bool × Bool × Bool × Word × Word × Word :=
  (c.rxbusy, c.fcidle, c.phydpx, c.phylnk, c.maadr0, c.maadr1, c.maadr2)

theorem Chip.setBit_readOnly (c : Chip) (b : BitName) : (c.setBit b).readOnly = c.readOnly := by cases b <;> rfl

theorem Chip.clearBit_readOnly (c : Chip) (b : BitName) : (c.clearBit b).readOnly = c.readOnly := by cases b <;> rfl

/-- What no step of a fold changes, the fold does not change. -/
theorem Chip.foldl_readOnly {f : Chip → BitName → Chip} (hf : ∀ c b, (f c b).readOnly = c.readOnly) (bs : List BitName)
    (c : Chip) : (bs.foldl f c).readOnly = c.readOnly := by
  induction bs generalizing c with
  | nil => rfl
  | cons b bs ih => exact (ih _).trans (hf c b)

theorem Chip.setBits_readOnly (c : Chip) (bs : List BitName) : (c.setBits bs).readOnly = c.readOnly :=
  Chip.foldl_readOnly Chip.setBit_readOnly bs c

theorem Chip.clearBits_readOnly (c : Chip) (bs : List BitName) : (c.clearBits bs).readOnly = c.readOnly :=
  Chip.foldl_readOnly Chip.clearBit_readOnly bs c

theorem Chip.writeWord_readOnly (m : RegMap) (c : Chip) (r : Reg) (v : Word) :
    (c.writeWord m r v).readOnly = c.readOnly := by
  have fold : ∀ bs : List BitName, (bs.foldl (fun c b => if v.getLsbD (m.index b).val then c.setBit b
      else c.clearBit b) c).readOnly = c.readOnly := fun bs => Chip.foldl_readOnly (fun c b => by
    split
    · exact c.setBit_readOnly b
    · exact c.clearBit_readOnly b) bs c
  fun_cases Chip.writeWord m c r v <;> first | rfl | exact fold _

theorem Chip.setMask_readOnly (m : RegMap) (c : Chip) (r : Reg) (v : Word) :
    (c.setMask m r v).readOnly = c.readOnly := by
  fun_cases Chip.setMask m c r v <;> first | rfl | exact Chip.setBits_readOnly c _

theorem Chip.clearMask_readOnly (m : RegMap) (c : Chip) (r : Reg) (v : Word) :
    (c.clearMask m r v).readOnly = c.readOnly := by
  fun_cases Chip.clearMask m c r v <;> first | rfl | exact Chip.clearBits_readOnly c _

theorem kept_onChip (s : State) {f : Chip → Chip} (hf : (f s.chip).readOnly = s.chip.readOnly) :
    Kept s (s.onChip f) := by
  simp only [Chip.readOnly, Prod.mk.injEq] at hf
  obtain ⟨h1, h2, h3, h4, h5, h6, h7⟩ := hf
  constructor <;> simp [h1, h2, h3, h4, h5, h6, h7]

/-! ### Operations that keep the frame -/

/-- Wherever the operation ends, the frame is kept, and it has popped exactly what it pushed; a held operation has not
popped anything. -/
def Op.Keeps {α : Type} (x : Op α) : Prop :=
  ∀ (s : State) (n : Nat), Op.Meets (fun t => Kept s t ∧ t.seq.length = n + 1) x
    (fun _ t => Kept s t ∧ t.seq.length = n + 1) (fun t => Kept s t ∧ n + 1 ≤ t.seq.length) True

section Keeps

variable {α β : Type} {x : Op α} {f : α → Op β}

theorem keeps_pure (a : α) : (pure a : Op α).Keeps := fun _ _ => Op.meets_pure fun _ k => k

theorem Op.Keeps.bind (hx : x.Keeps) (hf : ∀ a, (f a).Keeps) : (x >>= f).Keeps := fun s n =>
  (hx s n).bind fun a => hf a s n

theorem keeps_getBind {f : State → Op β} (hf : ∀ a, (f a).Keeps) : (get >>= f).Keeps := fun s n =>
  Op.meets_getBind fun a _ => (hf a s n).pre fun _ k => k.1

theorem keeps_ite {c : Prop} [Decidable c] {y : Op α} (hx : x.Keeps) (hy : y.Keeps) : (if c then x else y).Keeps :=
  fun s n => Op.meets_ite (fun _ => hx s n) fun _ => hy s n

theorem keeps_onlyIf {b : Bool} {y : Op Unit} (hy : y.Keeps) : (onlyIf b y).Keeps := fun s n =>
  Op.meets_onlyIf fun _ => hy s n

theorem keeps_throw (e : Stop) : (throw e : Op α).Keeps := fun s n t k => by
  cases e
  · exact ⟨k.1, Nat.le_of_eq k.2.symm⟩
  · exact trivial

theorem keeps_update {g : State → State} (hg : ∀ s, Kept s (g s)) (hl : ∀ s, (g s).seq.length = s.seq.length) :
    (update g).Keeps := fun _ _ => Op.meets_update fun t k => ⟨k.1.trans (hg t), (hl t).trans k.2⟩

theorem keeps_atStep (n : Nat) : (atStep n).Keeps := keeps_update (fun _ => by constructor <;> simp) fun _ => by simp

theorem keeps_access (e : TraceEvent) : (access e).Keeps := fun s n t k => by
  have hne : t.seq ≠ [] := by rw [← List.length_pos_iff]; omega
  exact ⟨(k.1.trans (kept_tick hne)).trans (kept_emit _ e), by
    rw [State.emit_seq, (State.tick_running hne).seq]
    exact k.2⟩

theorem keeps_call {op : OpName} (hx : x.Keeps) : (call op x).Keeps := fun s n => by
  refine Op.meets_call ((hx s (n + 1)).weaken ?_ ?_ fun t k => ⟨k.1, by omega⟩)
  · rintro _ ⟨u, k, rfl⟩
    exact ⟨k.1.trans (by constructor <;> simp), by simp [k.2]⟩
  · intro a t k
    exact ⟨k.1.trans (by constructor <;> simp), by simp [k.2]⟩

theorem keeps_onChip {g : State → Chip → Chip} (hg : ∀ s c, (g s c).readOnly = c.readOnly) :
    (update fun s => s.onChip (g s)).Keeps := keeps_update (fun s => kept_onChip s (hg s _)) fun _ => rfl

end Keeps

/-! ### Every operation keeps the frame -/

section Operations

theorem keeps_regReadBit (r : Reg) (b : BitName) : (regReadBit r b).Keeps :=
  (keeps_access _).bind fun _ => keeps_getBind fun _ => keeps_pure _

theorem keeps_regReadFlags : regReadFlags.Keeps := (keeps_access _).bind fun _ => keeps_getBind fun _ => keeps_pure _

theorem keeps_regWrite (r : Reg) (v : Word) : (regWrite r v).Keeps :=
  (keeps_access _).bind fun _ => keeps_onChip fun _ c => c.writeWord_readOnly _ r v

theorem keeps_regSet (r : Reg) (bs : List BitName) : (regSet r bs).Keeps :=
  keeps_getBind fun _ => (keeps_access _).bind fun _ => keeps_onChip fun _ c => c.setBits_readOnly bs

theorem keeps_regClear (r : Reg) (bs : List BitName) : (regClear r bs).Keeps :=
  keeps_getBind fun _ => (keeps_access _).bind fun _ => keeps_onChip fun _ c => c.clearBits_readOnly bs

theorem keeps_memRead (a n : Nat) : (memRead a n).Keeps :=
  (keeps_access _).bind fun _ => keeps_getBind fun _ => keeps_ite (keeps_pure _) (keeps_throw _)

/-- A new state made of the one just read. -/
theorem keeps_getSet {g : State → State} (hg : ∀ s, Kept s (g s)) (hl : ∀ s, (g s).seq.length = s.seq.length) :
    (do let s ← get; set (g s) : Op Unit).Keeps := fun _ _ => Op.meets_getBind fun a ha t k => by
  obtain ⟨-, rfl⟩ := k
  exact ⟨ha.1.trans (hg _), (hl _).trans ha.2⟩

theorem keeps_memWrite (a : Nat) (bs : List Byte) : (memWrite a bs).Keeps := fun s n =>
  (keeps_access _ s n).bind fun _ => Op.meets_getBind fun u ha => Op.meets_ite (fun _ t k => by
    obtain ⟨-, rfl⟩ := k
    exact ⟨ha.1.trans (by constructor <;> simp), ha.2⟩) fun _ => (keeps_throw _ s n).pre fun _ k => k.1

theorem keeps_raise (x : Exn) (info : Info) : (raise x info).Keeps :=
  keeps_update (fun _ => by constructor <;> simp) fun _ => by simp

theorem keeps_release (c : List Chunk) : (release c).Keeps := keeps_update (fun s => kept_emit s _) fun _ => rfl

theorem keeps_alloc (cls : ChunkClass) : (alloc cls).Keeps := fun s n t k => by
  rw [alloc_run]
  obtain ⟨l, m, h⟩ := t.nextGrant_frame
  rw [h]
  exact ⟨k.1.trans (by constructor <;> simp), k.2⟩

theorem keeps_resolve (dest : BitVec 32) (bs : List Byte) : (resolve dest bs).Keeps := fun s n t k => by
  rw [resolve_run]
  obtain ⟨l, m, h⟩ := t.nextAddress_frame
  rw [h]
  exact ⟨k.1.trans (by constructor <;> simp), k.2⟩

theorem keeps_pollOrHold (r : Reg) (b : BitName) (want : Bool) (n : Nat) : (pollOrHold r b want n).Keeps := by
  induction n with
  | zero => exact keeps_throw _
  | succ n ih => exact (keeps_regReadBit r b).bind fun _ => keeps_ite (keeps_pure _) ih

theorem keeps_pollOrFault (r : Reg) (b : BitName) (want : Bool) (n : Nat) : (pollOrFault r b want n).Keeps := by
  induction n with
  | zero => exact (keeps_raise _ _).bind fun _ => keeps_pure _
  | succ n ih => exact (keeps_regReadBit r b).bind fun _ => keeps_ite (keeps_pure _) ih

theorem keeps_waitUntil (r : Reg) (b : BitName) (want : Bool) : (waitUntil r b want).Keeps :=
  keeps_getBind fun s => by
    cases s.cfg.spinLimit with
    | none => exact (keeps_pollOrHold r b want _).bind fun _ => keeps_pure _
    | some k => exact keeps_pollOrFault r b want k

theorem keeps_drain : drain.Keeps := keeps_getBind fun s => by
  generalize s.pktRounds = n
  induction n with
  | zero => exact keeps_pure _
  | succ n ih =>
    exact (keeps_regReadBit _ _).bind fun _ => keeps_ite ((keeps_regSet _ _).bind fun _ => ih) (keeps_pure _)

/-- An update of the block's own registers outside the frame. -/
theorem keeps_own {g : State → State} (hg : ∀ s, Kept s (g s) ∧ (g s).seq = s.seq) : (update g).Keeps :=
  keeps_update (fun s => (hg s).1) fun s => congrArg List.length (hg s).2

theorem keeps_readWrapped (rounds rest : Nat) : (readWrapped rounds rest).Keeps := by
  induction rounds generalizing rest with
  | zero => exact keeps_pure _
  | succ n ih =>
    exact keeps_ite (keeps_pure _) (keeps_getBind fun _ => (keeps_atStep _).bind fun _ => (keeps_memRead _ _).bind
      fun _ => (ih _).bind fun _ => keeps_pure _)

theorem keeps_setReadPointer (g : State → Nat) : (update fun s => s.setReadPointer (g s)).Keeps :=
  keeps_own fun _ => ⟨by constructor <;> simp, by simp⟩

theorem keeps_readBytesBody (n : Nat) : (readBytesBody n).Keeps :=
  (keeps_atStep _).bind fun _ => keeps_getBind fun _ => (keeps_atStep _).bind fun _ => (keeps_atStep _).bind fun _ =>
    (keeps_memRead _ _).bind fun _ => (keeps_atStep _).bind fun _ => (keeps_atStep _).bind fun _ =>
    (keeps_readWrapped _ _).bind fun _ => (keeps_atStep _).bind fun _ => (keeps_setReadPointer _).bind fun _ =>
    (keeps_atStep _).bind fun _ => keeps_pure _

theorem keeps_resetRing : resetRing.Keeps :=
  keeps_getBind fun _ => (keeps_regWrite _ _).bind fun _ => (keeps_regWrite _ _).bind fun _ => keeps_setReadPointer _

theorem keeps_recoverFromWait : recoverFromWait.Keeps :=
  (keeps_atStep _).bind fun _ => (keeps_waitUntil _ _ _).bind fun _ => keeps_ite ((keeps_atStep _).bind fun _ =>
    keeps_drain.bind fun _ => (keeps_atStep _).bind fun _ => keeps_resetRing.bind fun _ => (keeps_atStep _).bind
    fun _ => (keeps_own fun _ => ⟨by constructor <;> simp, by simp⟩).bind fun _ => (keeps_atStep _).bind fun _ =>
    (keeps_regSet _ _).bind fun _ => (keeps_own fun _ => ⟨by constructor <;> simp, by simp⟩).bind fun _ =>
      keeps_atStep _)
    (keeps_own fun _ => ⟨by constructor <;> simp, by simp⟩)

theorem keeps_recoverBody : recoverBody.Keeps :=
  (keeps_atStep _).bind fun _ => (keeps_regClear _ _).bind fun _ => (keeps_atStep _).bind fun _ =>
    (keeps_own fun _ => ⟨by constructor <;> simp, by simp⟩).bind fun _ => (keeps_atStep _).bind fun _ =>
    (keeps_own fun _ => ⟨by constructor <;> simp, by simp⟩).bind fun _ => (keeps_atStep _).bind fun _ =>
    keeps_getBind fun _ => keeps_ite ((keeps_raise _ _).bind fun _ =>
      keeps_own fun _ => ⟨by constructor <;> simp, by simp⟩) keeps_recoverFromWait

theorem keeps_applyDuplex (full : Bool) : (applyDuplex full).Keeps :=
  keeps_ite (keeps_getBind fun _ => (keeps_regSet _ _).bind fun _ => (keeps_regWrite _ _).bind fun _ =>
    keeps_regSet _ _)
    (keeps_getBind fun _ => (keeps_regClear _ _).bind fun _ => (keeps_regWrite _ _).bind fun _ =>
      (keeps_regClear _ _).bind fun _ => keeps_regClear _ _)

theorem keeps_reconcileBody : reconcileBody.Keeps :=
  (keeps_atStep _).bind fun _ => (keeps_waitUntil _ _ _).bind fun _ => keeps_ite ((keeps_atStep _).bind fun _ =>
    (keeps_regReadBit _ _).bind fun _ => (keeps_atStep _).bind fun _ => (keeps_applyDuplex _).bind fun _ =>
    keeps_atStep _) (keeps_pure _)

theorem keeps_pushTable : pushTable.Keeps :=
  keeps_getBind fun _ => (keeps_regWrite _ _).bind fun _ => (keeps_regWrite _ _).bind fun _ =>
    (keeps_regWrite _ _).bind fun _ => keeps_regWrite _ _

theorem keeps_setRefcount (k : Fin 64) (n : Nat) : (update (·.setRefcount k n)).Keeps :=
  keeps_own fun _ => ⟨by constructor <;> simp [State.setRefcount], by simp [State.setRefcount]⟩

theorem keeps_subscribeBody (a : MacAddr) : (subscribeBody a).Keeps :=
  keeps_getBind fun _ => (keeps_setRefcount _ _).bind fun _ => keeps_pushTable

theorem keeps_unsubscribeBody (a : MacAddr) : (unsubscribeBody a).Keeps :=
  keeps_getBind fun _ => keeps_ite (keeps_pure _) ((keeps_setRefcount _ _).bind fun _ => keeps_pushTable)

theorem keeps_sendHead (pkt : Packet) : (sendHead pkt).Keeps :=
  (keeps_atStep _).bind fun _ => (keeps_own fun _ => ⟨by constructor <;> simp, by simp⟩).bind fun _ =>
    keeps_getBind fun _ => (keeps_atStep _).bind fun _ => keeps_ite ((keeps_release _).bind fun _ => keeps_raise _ _)
    ((keeps_atStep _).bind fun _ => (keeps_memWrite _ _).bind fun _ => (keeps_atStep _).bind fun _ =>
      (keeps_release _).bind fun _ => (keeps_atStep _).bind fun _ => (keeps_regWrite _ _).bind fun _ =>
      (keeps_atStep _).bind fun _ => keeps_regSet _ _)

theorem keeps_kickBody : kickBody.Keeps :=
  (keeps_atStep _).bind fun _ => (keeps_regReadBit _ _).bind fun _ => keeps_ite (keeps_pure _)
    ((keeps_atStep _).bind fun _ => keeps_getBind fun s => by
      cases s.sendq with
      | nil => exact keeps_pure _
      | cons pkt _ => exact keeps_sendHead pkt)

theorem keeps_enqueueAndKickBody (pkt : Packet) : (enqueueAndKickBody pkt).Keeps :=
  (keeps_atStep _).bind fun _ => (keeps_getBind fun _ => keeps_ite ((keeps_release _).bind fun _ =>
    (keeps_raise _ _).bind fun _ => keeps_pure _) ((keeps_own fun _ => ⟨by constructor <;> simp, by simp⟩).bind fun _ =>
    keeps_pure _)).bind fun _ => (keeps_atStep _).bind fun _ => (keeps_call keeps_kickBody).bind fun _ =>
    (keeps_atStep _).bind fun _ => keeps_pure _

theorem keeps_transmitBody (f : Bool) (p : Word) (d : BitVec 32) (bs : List Byte) : (transmitBody f p d bs).Keeps :=
  (keeps_atStep _).bind fun _ => keeps_getBind fun _ => keeps_ite ((keeps_release _).bind fun _ =>
    (keeps_raise _ _).bind fun _ => keeps_pure _) ((keeps_atStep _).bind fun _ => keeps_ite
    ((keeps_atStep _).bind fun _ => keeps_call (keeps_enqueueAndKickBody _)) ((keeps_resolve _ _).bind fun hw => by
      cases hw with
      | none => exact keeps_pure _
      | some hw => exact (keeps_atStep _).bind fun _ => keeps_call (keeps_enqueueAndKickBody _)))

theorem keeps_initialiseAfterReconcile : initialiseAfterReconcile.Keeps :=
  keeps_getBind fun _ => (keeps_regWrite _ _).bind fun _ => (keeps_regSet _ _).bind fun _ =>
    keeps_own fun _ => ⟨by constructor <;> simp, by simp⟩

theorem keeps_bringUp : bringUp.Keeps :=
  (keeps_atStep _).bind fun _ => (keeps_regClear _ _).bind fun _ => keeps_resetRing.bind fun _ =>
    keeps_getBind fun _ => (keeps_regWrite _ _).bind fun _ => keeps_drain.bind fun _ => (keeps_regClear _ _).bind
    fun _ => (keeps_own fun _ => ⟨by constructor <;> simp [State.clearWatchdog], by simp [State.clearWatchdog]⟩).bind
      fun _ =>
    keeps_pushTable.bind fun _ => (keeps_call keeps_reconcileBody).bind fun _ => keeps_initialiseAfterReconcile

theorem keeps_initialiseBody : initialiseBody.Keeps :=
  (keeps_atStep _).bind fun _ => keeps_getBind fun _ => keeps_ite ((keeps_raise _ _).bind fun _ => keeps_pure _)
    ((keeps_atStep _).bind fun _ => keeps_ite ((keeps_raise _ _).bind fun _ => keeps_pure _)
      ((keeps_atStep _).bind fun _ => keeps_ite (keeps_pure _) (keeps_bringUp.bind fun _ => (keeps_atStep _).bind
        fun _ => keeps_pure _)))

theorem keeps_setFlagsBody (up : Bool) : (setFlagsBody up).Keeps :=
  (keeps_own fun _ => ⟨by constructor <;> simp, by simp⟩).bind fun _ => keeps_getBind fun _ => keeps_ite
    ((keeps_call keeps_initialiseBody).bind fun _ => keeps_pure _) (keeps_pure _)

theorem keeps_setMulticastBody (a : MacAddr) (sub : Bool) : (setMulticastBody a sub).Keeps :=
  keeps_ite (keeps_call (keeps_subscribeBody a)) (keeps_call (keeps_unsubscribeBody a))

theorem keeps_failValidation (x : Exn) (info : Nat) : (failValidation x info).Keeps :=
  (keeps_raise _ _).bind fun _ => (keeps_call keeps_recoverBody).bind fun _ => keeps_pure _

theorem keeps_failAllocation (chunks : List Chunk) : (failAllocation chunks).Keeps :=
  (keeps_onlyIf (keeps_release _)).bind fun _ => (keeps_raise _ _).bind fun _ => keeps_pure _

theorem keeps_copyPayload (rounds remaining : Nat) (chunks : List Chunk) :
    (copyPayload rounds remaining chunks).Keeps := by
  induction rounds generalizing remaining chunks with
  | zero => exact keeps_pure _
  | succ n ih =>
    exact keeps_ite (keeps_pure _) (keeps_getBind fun _ => (keeps_alloc _).bind fun _ => keeps_ite
      ((keeps_call (keeps_readBytesBody _)).bind fun _ => ih _ _) (keeps_failAllocation _))

theorem keeps_buildPacket (n : Nat) : (buildPacket n).Keeps :=
  (keeps_atStep _).bind fun _ => keeps_getBind fun _ => (keeps_alloc _).bind fun _ => keeps_ite
    ((keeps_call (keeps_readBytesBody _)).bind fun _ => (keeps_atStep _).bind fun _ => keeps_copyPayload _ _ _)
    (keeps_failAllocation _)

theorem keeps_receiveOneBody : receiveOneBody.Keeps :=
  (keeps_atStep _).bind fun _ => keeps_getBind fun _ => keeps_ite (keeps_failValidation _ _)
    ((keeps_atStep _).bind fun _ => (keeps_call (keeps_readBytesBody _)).bind fun _ => (keeps_atStep _).bind fun _ =>
      keeps_ite (keeps_failValidation _ _) ((keeps_atStep _).bind fun _ => keeps_ite (keeps_failValidation _ _)
        ((keeps_buildPacket _).bind fun _ => Op.Keeps.bind ((keeps_atStep _).bind fun _ => keeps_getBind fun _ =>
          (keeps_regWrite _ _).bind fun _ => keeps_setReadPointer _) fun _ => keeps_pure _)))

theorem keeps_deliverReceived (r : Option Packet) : (deliverReceived r).Keeps := by
  cases r with
  | none => exact keeps_pure _
  | some pkt =>
    exact keeps_getBind fun _ => (keeps_own fun _ => ⟨by constructor <;> simp, by simp⟩).bind fun _ =>
      keeps_own fun s => ⟨kept_emit s _, rfl⟩

theorem keeps_packetLoop : packetLoop.Keeps := keeps_getBind fun s => by
  generalize s.pktRounds = n
  induction n with
  | zero => exact keeps_pure _
  | succ n ih =>
    exact keeps_getBind fun _ => keeps_ite (keeps_throw _) ((keeps_regReadBit _ _).bind fun _ => keeps_ite
      ((keeps_regSet _ _).bind fun _ => (keeps_call keeps_receiveOneBody).bind fun _ =>
        (keeps_deliverReceived _).bind fun _ => ih) (keeps_pure _))

theorem keeps_handleTransmit (f : IFlags) : (handleTransmit f).Keeps :=
  (keeps_atStep _).bind fun _ => (keeps_onlyIf ((keeps_own fun _ => ⟨by constructor <;> simp, by simp⟩).bind fun _ =>
    keeps_regClear _ _)).bind fun _ => (keeps_onlyIf ((keeps_own fun _ => ⟨by constructor <;> simp, by simp⟩).bind
      fun _ =>
    keeps_regClear _ _)).bind fun _ => keeps_getBind fun _ => keeps_onlyIf (keeps_call keeps_kickBody)

theorem keeps_dispatchRest (f : IFlags) : (dispatchRest f).Keeps :=
  (keeps_onlyIf (keeps_handleTransmit f)).bind fun _ => (keeps_onlyIf ((keeps_atStep _).bind fun _ =>
    (keeps_own fun _ => ⟨by constructor <;> simp, by simp⟩).bind fun _ => keeps_regClear _ _)).bind fun _ =>
    (keeps_onlyIf ((keeps_atStep _).bind fun _ => keeps_packetLoop)).bind fun _ => keeps_atStep _

theorem keeps_dispatchAfterReconcile (f : IFlags) : (dispatchAfterReconcile f).Keeps :=
  (keeps_regClear _ _).bind fun _ => keeps_dispatchRest f

theorem keeps_dispatchBody : dispatchBody.Keeps :=
  keeps_regReadFlags.bind fun f => (keeps_update (fun _ => by constructor <;> simp) fun _ => by simp).bind fun _ =>
    keeps_ite ((keeps_atStep _).bind fun _ => (keeps_call keeps_reconcileBody).bind fun _ =>
      keeps_dispatchAfterReconcile f) (keeps_dispatchRest f)

theorem keeps_regReadBody (r : Reg) : (regReadBody r).Keeps := fun s n =>
  (keeps_access _ s n).bind fun _ => Op.meets_getBind fun u ha => Op.Meets.bind
    (Q := fun _ t => Kept s t ∧ t.seq.length = n + 1) (fun t k => by
      obtain ⟨-, rfl⟩ := k
      exact ⟨ha.1.trans (by constructor <;> simp), ha.2⟩) fun _ => Op.meets_pure fun _ k => k

end Operations

end Sys2Proof.Machine
end

section
/-! SUPPORT. The frame of a command and of a resumption, and the statements that are about it alone. -/

namespace Sys2Proof.Machine

/-! ### The frame of a command -/

/-- A command turned away: nothing but the record and the result. -/
def TurnedAway (s t : State) : Prop := ∃ trace result, t = { s with trace := trace, result := result }

/-- A command of an idle block is turned away, or runs an operation that keeps the frame. -/
theorem exec_cases {s t : State} {i : Instr} (hs : s.seq = []) (h : exec i s = .next t) :
    TurnedAway s t ∨ ∃ op body, Op.Keeps body ∧ runCommand op body s = .next t := by
  have probed : ∀ {op : OpName} {body : Op Result}, body.Keeps → runProbed op body s = .next t →
      TurnedAway s t ∨ ∃ op body, Op.Keeps body ∧ runCommand op body s = .next t := by
    intro op body hb h
    cases hp : s.ctx.probed
    · rw [runProbed_unprobed hs hp] at h
      cases h
      exact Or.inl ⟨_, _, rfl⟩
    · rw [runProbed_probed hp] at h
      exact Or.inr ⟨op, body, hb, h⟩
  have packet : ∀ {op : OpName} {pkt : Packet} {body : Op Result}, body.Keeps →
      runProbedPacket op pkt body s = .next t →
      TurnedAway s t ∨ ∃ op body, Op.Keeps body ∧ runCommand op body s = .next t := by
    intro op pkt body hb h
    cases hp : s.ctx.probed
    · rw [runProbedPacket_unprobed hs hp] at h
      cases h
      exact Or.inl ⟨_, _, rfl⟩
    · rw [runProbedPacket_probed hp] at h
      exact Or.inr ⟨op, body, hb, h⟩
  have done : ∀ {x : Op Unit}, x.Keeps → (do x; return Result.unit : Op Result).Keeps := fun hx =>
    hx.bind fun _ => keeps_pure _
  cases i with
  | regRead r => exact probed (keeps_regReadBody r) h
  | regWrite r v => exact probed (done (keeps_regWrite r v)) h
  | regSetBits r m =>
    exact probed (done ((keeps_access _).bind fun _ => keeps_onChip fun _ c => c.setMask_readOnly _ r m)) h
  | regClearBits r m =>
    exact probed (done ((keeps_access _).bind fun _ => keeps_onChip fun _ c => c.clearMask_readOnly _ r m)) h
  | readBytes n =>
    simp only [exec, execReadBytes] at h
    split at h
    · cases h
      exact Or.inl ⟨_, _, rfl⟩
    · exact probed ((keeps_readBytesBody _).bind fun _ => keeps_pure _) h
  | receiveOne => exact probed (keeps_receiveOneBody.bind fun _ => keeps_pure _) h
  | enqueueAndKick bytes => exact packet (keeps_enqueueAndKickBody _) h
  | kick => exact probed (done keeps_kickBody) h
  | dispatch => exact probed (done keeps_dispatchBody) h
  | recover => exact probed (done keeps_recoverBody) h
  | subscribe a => exact probed (done (keeps_subscribeBody a)) h
  | unsubscribe a => exact probed (done (keeps_unsubscribeBody a)) h
  | hash a => exact probed (keeps_getBind fun _ => keeps_pure _) h
  | reconcile => exact probed (done keeps_reconcileBody) h
  | initialise => exact Or.inr ⟨_, _, keeps_initialiseBody, h⟩
  | transmit f p d bs => exact packet (keeps_transmitBody f p d bs) h
  | setMulticast a sub => exact probed (done (keeps_setMulticastBody a sub)) h
  | setFlags up => exact probed (keeps_setFlagsBody up) h
  | getStatus => exact probed (keeps_getBind fun _ => keeps_pure _) h

/-- A command that runs ends as its body ends, or is held in it; either way the body has kept the frame. -/
theorem runCommand_kept {s t : State} {op : OpName} {body : Op Result} (hb : body.Keeps) (hs : s.seq = [])
    (h : runCommand op body s = .next t) :
    (∃ u r, Kept (s.beginCommand op) u ∧ t = u.endCommand r) ∨ (Kept (s.beginCommand op) t ∧ t.seq ≠ []) := by
  have k := hb (s.beginCommand op) 0 (s.beginCommand op) ⟨Kept.refl _, rfl⟩
  rw [runCommand_run hs] at h
  cases hx : body (s.beginCommand op) with
  | ok r u =>
    rw [hx] at k h
    cases h
    exact Or.inl ⟨u, r, k.1, State.finish_request k.1.context⟩
  | error e u =>
    rw [hx] at k h
    cases e
    · cases h
      exact Or.inr ⟨k.1, by rw [← List.length_pos_iff]; exact k.2⟩
    · cases h

/-- What a kept frame leaves with no other agent moving. -/
theorem Kept.sameRest {s t : State} (k : Kept s t) (h : s.agenda = []) : SameRest s t := by
  obtain ⟨h1, h2⟩ := k.still h
  simp only [Prod.mk.injEq] at h1 h2
  exact ⟨k.cfg, k.probed, k.linkAddress, k.addrKnown, h1.2.2, h1.2.1, h1.1, k.again, h2.1, h2.2.1, h2.2.2.1, h2.2.2.2,
    k.maadr⟩

/-- Settles O53: every operation keeps the frame (`Op.Keeps`), and the beginning and the end of a command touch none of
it. -/
theorem everyCommandFrame : Obligations.EveryCommandFrame := by
  rintro s t i ⟨hs, ha, -⟩ h
  rcases exec_cases hs h with ⟨trace, result, rfl⟩ | ⟨op, body, hb, h⟩
  · constructor <;> rfl
  · rcases runCommand_kept hb hs h with ⟨u, r, k, rfl⟩ | ⟨k, -⟩
    · obtain ⟨h1, h2, h3, h4, h5, h6, h7, h8, h9, h10, h11, h12, h13⟩ := k.sameRest ha
      exact ⟨h1, h2, h3, h4, h5, h6, h7, h8, h9, h10, h11, h12, h13⟩
    · obtain ⟨h1, h2, h3, h4, h5, h6, h7, h8, h9, h10, h11, h12, h13⟩ := k.sameRest ha
      exact ⟨h1, h2, h3, h4, h5, h6, h7, h8, h9, h10, h11, h12, h13⟩

/-- Settles O54: the body keeps `ipl`, the saved `ipl` and the context of its beginning, and the end restores the saved
one. -/
theorem priorityRestored : Obligations.PriorityRestored := by
  intro s t i hs hc h
  rcases exec_cases hs h with ⟨trace, result, rfl⟩ | ⟨op, body, hb, h⟩
  · exact ⟨fun _ => ⟨rfl, hc⟩, fun hn => absurd hs hn⟩
  · rcases runCommand_kept hb hs h with ⟨u, r, k, rfl⟩ | ⟨k, hn⟩
    · exact ⟨fun _ => ⟨k.savedIpl, rfl⟩, fun hn => absurd rfl hn⟩
    · exact ⟨fun he => absurd he hn, fun _ => ⟨k.ipl, k.context⟩⟩

/-! ### While an operation runs -/

theorem keeps_resumeFrame (fr : Frame) : (resumeFrame fr).Keeps := by
  fun_cases resumeFrame fr
  · exact keeps_recoverFromWait
  · exact keeps_reconcileBody
  · exact keeps_pure _
  · exact keeps_pure _
  · exact keeps_pure _
  · exact keeps_dispatchAfterReconcile _
  · exact keeps_packetLoop.bind fun _ => keeps_atStep _
  · exact keeps_initialiseAfterReconcile.bind fun _ => keeps_atStep _
  · exact keeps_pure _
  · exact keeps_throw _

/-- The frames of a held operation return with the frame kept. -/
theorem meets_resumeFrames_kept (s : State) (l : List Frame) :
    Op.Meets (fun t => Kept s t ∧ t.seq.length = l.length) (resumeFrames l) (fun _ => Kept s) (Kept s) True := by
  induction l with
  | nil => exact Op.meets_pure fun _ k => k.1
  | cons fr l ih =>
    exact Op.Meets.bind ((keeps_resumeFrame fr s l.length).weaken (fun _ k => k) (fun _ _ k => k) fun _ k => k.1)
      fun _ => Op.Meets.bind (Q := fun _ t => Kept s t ∧ t.seq.length = l.length)
        (Op.meets_update fun t k => ⟨k.1.trans (by constructor <;> simp), by simp [k.2]⟩) fun _ => ih

/-- A step of a running operation takes nothing from the command port. -/
theorem resume_port {s t : State} (h : resume s = .next t) : ∃ more, t.port = s.port ++ more := by
  have k := meets_resumeFrames_kept s s.seq s ⟨Kept.refl s, rfl⟩
  unfold resume at h
  rw [op_bind] at h
  cases hx : resumeFrames s.seq s with
  | ok r u =>
    rw [hx] at h k
    cases h
    have e : (u.finish (resumedResult s.seq)).port = u.port := by
      unfold State.finish
      split <;> rfl
    exact e ▸ k.port
  | error e u =>
    rw [hx] at h k
    cases e
    · cases h
      exact k.port
    · cases h

/-- A command while an operation runs is refused by name (R90). -/
theorem exec_notIdle {s : State} (hs : s.seq ≠ []) (i : Instr) : exec i s = .refused .notIdle := by
  have probed : ∀ op body, runProbed op body s = .refused .notIdle := fun op body => by
    rw [runProbed, if_neg fun h => hs h.1, runCommand_notIdle hs]
  have packet : ∀ op pkt body, runProbedPacket op pkt body s = .refused .notIdle := fun op pkt body => by
    rw [runProbedPacket, if_neg fun h => hs h.1, runCommand_notIdle hs]
  fun_cases exec i s
  case case5 n =>
    rw [execReadBytes, if_neg fun h => hs h.1]
    exact probed _ _
  case case15 => exact runCommand_notIdle hs
  all_goals first | exact probed _ _ | exact packet _ _ _

/-- Settles O7: every meaning asks for `seq = idle`, and a running operation only lets the port grow (`Op.Keeps`). -/
theorem noCommandWhileRunning : Obligations.NoCommandWhileRunning := by
  intro s hs
  refine ⟨exec_notIdle hs, fun t ht => ?_⟩
  unfold step at ht
  split at ht
  · obtain ⟨more, hm⟩ := resume_port ht
    exact ⟨more, hm⟩
  · next h => exact absurd h hs

end Sys2Proof.Machine
end

section
/-! SUPPORT. The statements about one step of an idle block, about reset, and about `REG_WRITE`. -/

namespace Sys2Proof.Machine

/-! ### The step -/

theorem acceptCommand_ok {s : State} {words : List Word} {i : Instr} (h : decode s.cfg.regmap words = .ok i) :
    acceptCommand words s = exec i s := by simp only [acceptCommand, h]

/-- A picked command, and a waiting one where no activation is enabled, is accepted. -/
theorem blockTurn_accept {s : State} {pick : Pick} {words : List Word} {waiting : List (List Word)}
    (hp : s.port = words :: waiting) (h : pick = .command ∨ s.canActivate = false) :
    blockTurn pick s = acceptCommand words { s with port := waiting } := by
  rcases h with rfl | h
  · cases ha : s.canActivate <;> simp only [blockTurn, hp]
  · cases pick <;> simp only [blockTurn, hp, h]

theorem step_idle {s : State} (hs : s.seq = []) : step s = idleStep s.rearm := by simp only [step, hs]

/-- An idle block whose command's slot has come. -/
theorem step_slot {s : State} {words : List Word} {waiting : List (List Word)} {slots : List Slot} {i : Instr}
    (hs : s.seq = []) (hp : s.port = words :: waiting) (hd : decode s.cfg.regmap words = .ok i)
    (ha : s.agenda = ⟨[], .command⟩ :: slots) : step s = exec i { s with port := waiting, agenda := slots } := by
  rw [step_idle hs, State.rearm_some (by rw [ha]; exact List.cons_ne_nil _ _)]
  simp only [idleStep, ha]
  exact (blockTurn_accept (s := { s with agenda := slots }) hp (Or.inl rfl)).trans (acceptCommand_ok hd)

theorem rearm_again {s : State} (h : s.agenda = []) : s.rearm = State.rearm { s with agenda := s.again } := by
  simp only [State.rearm, h, List.isEmpty_nil, if_true, ite_self]

/-- Settles O5: the turn of an idle block, and what `rearm` and `placeCommand` line up for it. -/
theorem stepRunsDecoded : Obligations.StepRunsDecoded := by
  refine ⟨fun s words waiting slots i hs hp hd => ⟨step_slot hs hp hd, fun ⟨ha, hg⟩ hn => ?_⟩, fun s ha => ?_,
    fun s nbits w i hd => step_slot (s := s.withFetchWord nbits w) rfl rfl hd rfl⟩
  · rw [step_idle hs, State.rearm_none hg]
    simp only [idleStep, ha]
    rw [blockTurn_accept hp (Or.inr hn), acceptCommand_ok (by exact hd), ha]
  · unfold step
    rw [rearm_again ha]

/-! ### Reset -/

/-- Settles O14: the launch names every field. -/
theorem resetValues : Obligations.ResetValues := by
  intro cfg v
  refine ⟨rfl, rfl, fun k => ?_, rfl, rfl, rfl, rfl, rfl, rfl, rfl, rfl, rfl, rfl, rfl, rfl, rfl, fun b hb => ?_,
    rfl, rfl,
    rfl, fun r hr => ?_, rfl, rfl, rfl⟩
  · simp [State.launch]
  · fin_cases hb <;> rfl
  · fin_cases hr <;> rfl

/-! ### `REG_WRITE` -/

/-- Writing one named bit of a word (R111). -/
def Chip.writeBit (m : RegMap) (v : Word) (c : Chip) (b : BitName) : Chip :=
  if v.getLsbD (m.index b).val then c.setBit b else c.clearBit b

theorem Chip.bit_storeBit (c : Chip) (v : Bool) (b x : BitName) :
    (c.storeBit v b).bit x = if x = b ∧ b.stored = true then v else c.bit x := by
  cases b <;> cases x <;> rfl

theorem Chip.bit_pktdec (c : Chip) {x : BitName} (hx : x ≠ .iflagPkt) : c.pktdec.bit x = c.bit x := by
  cases x <;> first | rfl | exact absurd rfl hx

theorem Chip.bit_setBit (c : Chip) (b : BitName) {x : BitName} (hx : x ≠ .iflagPkt) :
    (c.setBit b).bit x = if x = b ∧ b.stored = true then true else c.bit x := by
  by_cases hb : b = .ctlPktdec
  · subst hb
    rw [if_neg (by simp [BitName.stored])]
    exact c.bit_pktdec hx
  · rw [← Chip.bit_storeBit c true b x]
    cases b <;> first | rfl | exact absurd rfl hb

theorem Chip.bit_writeBit (m : RegMap) (v : Word) (c : Chip) (b : BitName) {x : BitName} (hx : x ≠ .iflagPkt) :
    (c.writeBit m v b).bit x = if x = b ∧ b.stored = true then v.getLsbD (m.index b).val else c.bit x := by
  unfold Chip.writeBit
  split
  · next h => rw [c.bit_setBit b hx, h]
  · next h => rw [Chip.clearBit, c.bit_storeBit false b x, Bool.eq_false_iff.2 h]

/-- Each written bit that stores has its value, every other bit is as it was. -/
theorem Chip.bit_writeBits (m : RegMap) (v : Word) (bs : List BitName) (c : Chip) {x : BitName} (hx : x ≠ .iflagPkt) :
    (bs.foldl (Chip.writeBit m v) c).bit x
      = if x ∈ bs ∧ x.stored = true then v.getLsbD (m.index x).val else c.bit x := by
  induction bs generalizing c with
  | nil => simp
  | cons b bs ih =>
    rw [List.foldl_cons, ih, Chip.bit_writeBit m v c b hx]
    by_cases hb : x = b
    · subst hb
      by_cases hs : x.stored = true <;> simp [hs]
    · simp [hb]

/-- No write of a named bit changes a whole field. -/
theorem Chip.field_writeBits (m : RegMap) (v : Word) (bs : List BitName) (c : Chip) (q : Reg) :
    (bs.foldl (Chip.writeBit m v) c).field q = c.field q := by
  induction bs generalizing c with
  | nil => rfl
  | cons b bs ih =>
    rw [List.foldl_cons, ih]
    unfold Chip.writeBit
    split <;> cases b <;> cases q <;> rfl

/-- Only `CTL.PKTDEC` lowers the counter, once for each time it is written (R40). -/
theorem Chip.pktcnt_writeBits (m : RegMap) (v : Word) (bs : List BitName) (c : Chip) :
    (bs.foldl (Chip.writeBit m v) c).pktcnt
      = c.pktcnt - (if v.getLsbD (m.index .ctlPktdec).val then bs.count .ctlPktdec else 0) := by
  induction bs generalizing c with
  | nil => simp
  | cons b bs ih =>
    rw [List.foldl_cons, ih, List.count_cons]
    by_cases hb : b = .ctlPktdec
    · subst hb
      unfold Chip.writeBit
      split
      · show c.pktcnt - 1 - _ = _
        simp only [beq_self_eq_true, if_true]
        omega
      · rfl
    · have e : (c.writeBit m v b).pktcnt = c.pktcnt := by
        unfold Chip.writeBit
        split <;> cases b <;> first | rfl | exact absurd rfl hb
      simp [e, hb]

/-- A register of named bits is written bit by bit. -/
theorem Chip.writeWord_bits (m : RegMap) (c : Chip) {r : Reg} (v : Word) (h : r.wholeField = false) :
    c.writeWord m r v = r.bits.foldl (Chip.writeBit m v) c := by
  cases r <;> first | exact absurd h (by decide) | rfl

/-- The named bits after a write (R111): each bit of the register that stores has its value. -/
theorem Chip.bit_writeWord (m : RegMap) (c : Chip) (r : Reg) (v : Word) {b : BitName} (hb : b ≠ .iflagPkt) :
    (c.writeWord m r v).bit b
      = if b ∈ r.bits ∧ b.stored = true then v.getLsbD (m.index b).val else c.bit b := by
  cases hw : r.wholeField
  · rw [c.writeWord_bits m v hw, c.bit_writeBits m v _ hb]
  · have hbits : r.bits = [] := by simpa [Reg.wholeField] using hw
    rw [if_neg fun k => absurd (hbits ▸ k.1) List.not_mem_nil]
    fun_cases Chip.writeWord m c r v <;> first | exact absurd hw (by decide) | (cases b <;> rfl)

/-- The packet counter after a write (R40): lowered by `CTL.PKTDEC` alone. -/
theorem Chip.pktcnt_writeWord (m : RegMap) (c : Chip) (r : Reg) (v : Word) :
    (c.writeWord m r v).pktcnt
      = c.pktcnt - (if r = .ctl ∧ v.getLsbD (m.index .ctlPktdec).val = true then 1 else 0) := by
  cases hw : r.wholeField
  · have hcount : r.bits.count .ctlPktdec = if r = .ctl then 1 else 0 := by cases r <;> rfl
    rw [c.writeWord_bits m v hw, c.pktcnt_writeBits m v, hcount]
    by_cases hc : r = .ctl <;> simp [hc]
  · have hr : r ≠ .ctl := by rintro rfl; cases hw
    rw [if_neg fun k => hr k.1]
    fun_cases Chip.writeWord m c r v <;> first | exact absurd hw (by decide) | rfl

/-- `RXHEAD` after a write (R35, R67): it moves with `RXST` alone. -/
theorem Chip.rxhead_writeWord (m : RegMap) (c : Chip) (r : Reg) (v : Word) :
    (c.writeWord m r v).rxhead = if r = .rxst then v else c.rxhead := by
  fun_cases Chip.writeWord m c r v <;> first | rfl | exact Chip.field_writeBits m v _ c .rxhead

/-- The field of a register after a write (R111): the register's own has the value, if it stores. -/
theorem Chip.field_writeWord (m : RegMap) (c : Chip) (r : Reg) (v : Word) {q : Reg} (hq : q ≠ .rxhead) :
    (c.writeWord m r v).field q = if q = r ∧ r.stored = true then v else c.field q := by
  fun_cases Chip.writeWord m c r v <;> first
    | (cases q <;> first | rfl | exact absurd rfl hq)
    | exact (Chip.field_writeBits m v _ c q).trans (if_neg fun k => absurd k.2 (by decide)).symm

/-- A direct access on a ready block: what the body does, between the beginning and the end of the command. -/
theorem runProbed_ready {s t : State} (h : s.Ready) {op : OpName} {x : Op Unit}
    (hx : x (s.beginCommand op) = .ok () t) (hc : t.context = some .request) :
    runProbed op (do x; return .unit) s = .next (t.endCommand .unit) := by
  obtain ⟨⟨hs, -, -⟩, hp⟩ := h
  rw [runProbed_probed hp, runCommand_run hs, op_bind, hx]
  exact congrArg _ (State.finish_request hc)

/-- `REG_WRITE` on a ready block is one access (R111). -/
theorem exec_regWrite {s : State} (h : s.Ready) (r : Reg) (v : Word) :
    exec (.regWrite r v) s = .next { s.answered .unit with
      chip := s.chip.writeWord s.cfg.regmap r v, trace := .regWrite r v :: s.trace } := by
  have ht : (s.beginCommand .regWrite).tick = s.beginCommand .regWrite := State.tick_quiet h.1.2.1
  refine (runProbed_ready h (regWrite_run _ r v) (by simp [ht])).trans ?_
  rw [ht]
  simp [State.endCommand, State.beginCommand, State.onChip, State.emit, State.answered, h.1.1]

/-- Settles O21: one access (`exec_regWrite`), and what that write does to the fields, the named bits, the counter and
`RXHEAD`. -/
theorem regWriteResult : Obligations.RegWriteResult := by
  intro s r v h
  refine ⟨_, exec_regWrite h r v, fun hs => ?_, fun b hb hs => ?_, Chip.pktcnt_writeWord _ _ r v,
    Chip.rxhead_writeWord _ _ r v, fun q hq hr => ?_, fun b hb hr => ?_⟩
  · have hr : r ≠ .rxhead := by rintro rfl; cases hs
    rw [Chip.field_writeWord _ _ r v hr, if_pos ⟨rfl, hs⟩]
  · have hp : b ≠ .iflagPkt := by rintro rfl; cases hs
    rw [Chip.bit_writeWord _ _ r v hp, if_pos ⟨hb, hs⟩]
  · rw [Chip.field_writeWord _ _ r v hq, if_neg]
    rintro ⟨rfl, hs⟩
    simp [hs] at hr
  · rw [Chip.bit_writeWord _ _ r v hb, if_neg]
    rintro ⟨h1, hs⟩
    simp [h1, hs] at hr

end Sys2Proof.Machine
end

section
/-! SUPPORT. The register rules of `REG_SET_BITS` and `REG_CLEAR_BITS`, in the form that `REG_WRITE` has in the file
before: what a masked write does to a named bit, to a field and to the packet counter. -/

namespace Sys2Proof.Machine

/-! ### Named bits -/

theorem Chip.bit_clearBit (c : Chip) (b x : BitName) :
    (c.clearBit b).bit x = if x = b ∧ b.stored = true then false else c.bit x := c.bit_storeBit false b x

/-- Each set bit that stores reads 1, every other bit is as it was (R112). -/
theorem Chip.bit_setBits (bs : List BitName) (c : Chip) {x : BitName} (hx : x ≠ .iflagPkt) :
    (c.setBits bs).bit x = (c.bit x || (decide (x ∈ bs) && x.stored)) := by
  unfold Chip.setBits
  induction bs generalizing c with
  | nil => simp
  | cons b bs ih =>
    rw [List.foldl_cons, ih, c.bit_setBit b hx]
    by_cases hb : x = b
    · subst hb
      cases hs : x.stored <;> simp
    · simp [hb]

/-- Each cleared bit that stores reads 0, every other bit, `IFLAG.PKT` among them, is as it was (R113). -/
theorem Chip.bit_clearBits (bs : List BitName) (c : Chip) (x : BitName) :
    (c.clearBits bs).bit x = (c.bit x && !(decide (x ∈ bs) && x.stored)) := by
  unfold Chip.clearBits
  induction bs generalizing c with
  | nil => simp
  | cons b bs ih =>
    rw [List.foldl_cons, ih, c.bit_clearBit b]
    by_cases hb : x = b
    · subst hb
      cases hs : x.stored <;> simp
    · simp [hb]

theorem Chip.field_storeBit (c : Chip) (v : Bool) (b : BitName) (q : Reg) : (c.storeBit v b).field q = c.field q := by
  fun_cases Chip.storeBit <;> cases q <;> rfl

theorem Chip.field_setBit (c : Chip) (b : BitName) (q : Reg) : (c.setBit b).field q = c.field q := by
  fun_cases Chip.setBit
  · cases q <;> rfl
  · exact c.field_storeBit true b q

/-- Setting named bits changes no field. -/
theorem Chip.field_setBits (bs : List BitName) (c : Chip) (q : Reg) : (c.setBits bs).field q = c.field q := by
  unfold Chip.setBits
  induction bs generalizing c with
  | nil => rfl
  | cons b bs ih => rw [List.foldl_cons, ih, c.field_setBit b q]

/-- Clearing named bits changes no field. -/
theorem Chip.field_clearBits (bs : List BitName) (c : Chip) (q : Reg) : (c.clearBits bs).field q = c.field q := by
  unfold Chip.clearBits
  induction bs generalizing c with
  | nil => rfl
  | cons b bs ih => rw [List.foldl_cons, ih]; exact c.field_storeBit false b q

theorem Chip.pktcnt_storeBit (c : Chip) (v : Bool) (b : BitName) : (c.storeBit v b).pktcnt = c.pktcnt := by
  fun_cases Chip.storeBit <;> rfl

/-- Setting `CTL.PKTDEC` lowers the counter every time, no other bit moves it (R40, R112). -/
theorem Chip.pktcnt_setBits (bs : List BitName) (c : Chip) :
    (c.setBits bs).pktcnt = c.pktcnt - bs.count .ctlPktdec := by
  unfold Chip.setBits
  induction bs generalizing c with
  | nil => rfl
  | cons b bs ih =>
    rw [List.foldl_cons, ih, List.count_cons]
    fun_cases Chip.setBit
    · show c.pktcnt - 1 - _ = _
      simp only [beq_self_eq_true, if_true]
      omega
    · next h =>
      rw [c.pktcnt_storeBit true b]
      simp [show b ≠ .ctlPktdec from h]

/-- Stores in two named bits commute. -/
theorem Chip.storeBit_comm (c : Chip) (v w : Bool) {b d : BitName} (h : b ≠ d) :
    (c.storeBit v b).storeBit w d = (c.storeBit w d).storeBit v b := by
  fun_cases Chip.storeBit c v b <;> cases d <;> first | exact absurd rfl h | rfl

/-- Clearing named bits acts on nothing (R113). -/
theorem Chip.pktcnt_clearBits (bs : List BitName) (c : Chip) : (c.clearBits bs).pktcnt = c.pktcnt := by
  unfold Chip.clearBits
  induction bs generalizing c with
  | nil => rfl
  | cons b bs ih => rw [List.foldl_cons, ih]; exact c.pktcnt_storeBit false b

/-! ### Registers -/

/-- A register of named bits is set bit by bit. -/
theorem Chip.setMask_bits (m : RegMap) (c : Chip) {r : Reg} (mask : Word) (h : r.wholeField = false) :
    c.setMask m r mask = c.setBits (selectedBits m r mask) := by
  fun_cases Chip.setMask m c r mask <;> first | exact absurd h (by decide) | rfl

/-- A register of named bits is cleared bit by bit. -/
theorem Chip.clearMask_bits (m : RegMap) (c : Chip) {r : Reg} (mask : Word) (h : r.wholeField = false) :
    c.clearMask m r mask = c.clearBits (selectedBits m r mask) := by
  fun_cases Chip.clearMask m c r mask <;> first | exact absurd h (by decide) | rfl

/-- The field of a register after a set under a mask (R112): the register's own, if it stores. -/
theorem Chip.field_setMask (m : RegMap) (c : Chip) (r : Reg) (mask : Word) (q : Reg) :
    (c.setMask m r mask).field q = if q = r ∧ r.stored = true then c.field q ||| mask else c.field q := by
  fun_cases Chip.setMask m c r mask <;>
    first | (cases q <;> rfl) | (rw [Chip.field_setBits, if_neg fun h => absurd h.2 (by decide)])

/-- The field of a register after a clear under a mask (R113): the register's own, if it stores. -/
theorem Chip.field_clearMask (m : RegMap) (c : Chip) (r : Reg) (mask : Word) (q : Reg) :
    (c.clearMask m r mask).field q = if q = r ∧ r.stored = true then c.field q &&& ~~~ mask else c.field q := by
  fun_cases Chip.clearMask m c r mask <;>
    first | (cases q <;> rfl) | (rw [Chip.field_clearBits, if_neg fun h => absurd h.2 (by decide)])

theorem mem_selectedBits {m : RegMap} {r : Reg} {mask : Word} {b : BitName} :
    b ∈ selectedBits m r mask ↔ b ∈ r.bits ∧ mask.getLsbD (m.index b).val = true := by
  simp [selectedBits]

/-- A named bit after a set under a mask (R112): set where it stores and the mask selects it. -/
theorem Chip.bit_setMask (m : RegMap) (c : Chip) (r : Reg) (mask : Word) {b : BitName} (hb : b ≠ .iflagPkt) :
    (c.setMask m r mask).bit b = (c.bit b || (decide (b ∈ selectedBits m r mask) && b.stored)) := by
  cases hr : r.wholeField
  · rw [c.setMask_bits m mask hr, c.bit_setBits _ hb]
  · have hs : b ∉ selectedBits m r mask := fun h => by simp_all [mem_selectedBits, Reg.wholeField]
    simp only [hs, decide_false, Bool.false_and, Bool.or_false]
    fun_cases Chip.setMask m c r mask <;> first | exact absurd hr (by decide) | (cases b <;> rfl)

/-- A named bit after a clear under a mask (R113): cleared where it stores and the mask selects it. -/
theorem Chip.bit_clearMask (m : RegMap) (c : Chip) (r : Reg) (mask : Word) (b : BitName) :
    (c.clearMask m r mask).bit b = (c.bit b && !(decide (b ∈ selectedBits m r mask) && b.stored)) := by
  cases hr : r.wholeField
  · rw [c.clearMask_bits m mask hr, c.bit_clearBits]
  · have hs : b ∉ selectedBits m r mask := fun h => by simp_all [mem_selectedBits, Reg.wholeField]
    simp only [hs, decide_false, Bool.false_and, Bool.not_false, Bool.and_true]
    fun_cases Chip.clearMask m c r mask <;> first | exact absurd hr (by decide) | (cases b <;> rfl)

/-- No masked clear moves the packet counter. -/
theorem Chip.pktcnt_clearMask (m : RegMap) (c : Chip) (r : Reg) (mask : Word) :
    (c.clearMask m r mask).pktcnt = c.pktcnt := by
  fun_cases Chip.clearMask m c r mask <;> first | rfl | exact Chip.pktcnt_clearBits _ c

/-- `CTL.PKTDEC` under the mask lowers the packet counter, no other set does (R40, R112). -/
theorem Chip.pktcnt_setMask (m : RegMap) (c : Chip) (r : Reg) (mask : Word) :
    (c.setMask m r mask).pktcnt
      = c.pktcnt - (if r = .ctl ∧ mask.getLsbD (m.index .ctlPktdec).val = true then 1 else 0) := by
  have count : (selectedBits m r mask).count .ctlPktdec
      = if r = .ctl ∧ mask.getLsbD (m.index .ctlPktdec).val = true then 1 else 0 := by
    by_cases hm : mask.getLsbD (m.index .ctlPktdec).val = true
    · rw [selectedBits, List.count_filter (p := fun b => mask.getLsbD (m.index b).val) hm]
      cases r <;> simp [hm, Reg.bits]
    · rw [if_neg fun k => hm k.2]
      exact List.count_eq_zero.2 fun k => hm (mem_selectedBits.1 k).2
  rw [← count]
  fun_cases Chip.setMask m c r mask <;> first | rfl | exact Chip.pktcnt_setBits _ c

/-- The second of two writes of one register of one field wins. -/
theorem Chip.writeWord_writeWord (m : RegMap) (c : Chip) (v w : Word) {r : Reg} (hr : r.wholeField = true) :
    (c.writeWord m r v).writeWord m r w = c.writeWord m r w := by
  fun_cases Chip.writeWord m c r v <;> first | rfl | exact absurd hr (by decide)

/-- Writes of two registers of one field commute. -/
theorem Chip.writeWord_comm (m : RegMap) (c : Chip) (v w : Word) {r q : Reg} (hr : r.wholeField = true)
    (hq : q.wholeField = true) (h : r ≠ q) :
    (c.writeWord m r v).writeWord m q w = (c.writeWord m q w).writeWord m r v := by
  cases r <;> first
    | exact absurd hr (by decide)
    | (cases q <;> first | rfl | exact absurd hq (by decide) | exact absurd rfl h)

/-- A register of one field reads as its field, whatever the free bits (R110). -/
theorem Chip.readWord_whole (m : RegMap) (c : Chip) (free : Word) {r : Reg} (h : r.wholeField = true) :
    c.readWord m free r = c.field r := by
  fun_cases Chip.readWord m c free r <;> first | rfl | exact absurd h (by decide)

/-- The chip with the given fields, named bits and packet counter. -/
def Chip.ofReads (field : Reg → Word) (bit : BitName → Bool) (pktcnt : Nat) : Chip where
  rxst := field .rxst
  rxtail := field .rxtail
  rxhead := field .rxhead
  flags := ⟨bit .iflagLink, bit .iflagTxdone, bit .iflagTxabt, bit .iflagRxabt⟩
  enables := ⟨bit .ienLink, bit .ienTxdone, bit .ienTxabt, bit .ienRxabt, bit .ienPkt, bit .ienGlobal⟩
  rxen := bit .ctlRxen
  txrts := bit .ctlTxrts
  rxbusy := bit .statRxbusy
  fcidle := bit .statFcidle
  phydpx := bit .statPhydpx
  phylnk := bit .statPhylnk
  pktcnt := pktcnt
  txst := field .txst
  txlen := field .txlen
  fuldpx := bit .maccfgFuldpx
  ipg := field .ipg
  autofc := bit .fcAutofc
  fcassert := bit .fcFcassert
  ht0 := field .ht0
  ht1 := field .ht1
  ht2 := field .ht2
  ht3 := field .ht3
  maadr0 := field .maadr0
  maadr1 := field .maadr1
  maadr2 := field .maadr2

theorem Chip.ofReads_self (c : Chip) : Chip.ofReads c.field c.bit c.pktcnt = c := rfl

/-- The fields, the named bits and the packet counter are all there is of a chip. -/
theorem Chip.eq_of_reads {c d : Chip} (hf : ∀ q, c.field q = d.field q) (hb : ∀ b, c.bit b = d.bit b)
    (hn : c.pktcnt = d.pktcnt) : c = d := by
  rw [← c.ofReads_self, funext hf, funext hb, hn, d.ofReads_self]

/-! ### The request line

`Chip.irq` (R264) reads the flags, the enables and the packet counter; no other bit and no field moves it. -/

/-- The bits whose write can move the request line. -/
def movesLine : BitName → Bool
  | .iflagLink | .iflagTxdone | .iflagTxabt | .iflagRxabt | .ienLink | .ienTxdone | .ienTxabt | .ienRxabt | .ienPkt
  | .ienGlobal | .ctlPktdec => true
  | .iflagPkt | .ctlRxen | .ctlTxrts | .statRxbusy | .statFcidle | .statPhydpx | .statPhylnk | .maccfgFuldpx
  | .fcAutofc | .fcFcassert => false

theorem Chip.irq_setBit (c : Chip) {b : BitName} (h : movesLine b = false) : (c.setBit b).irq = c.irq := by
  cases b <;> first | rfl | exact absurd h (by decide)

theorem Chip.irq_clearBit (c : Chip) {b : BitName} (h : movesLine b = false) : (c.clearBit b).irq = c.irq := by
  cases b <;> first | rfl | exact absurd h (by decide)

/-- A fold whose every step keeps the request line keeps it. -/
theorem Chip.irq_foldl {f : Chip → BitName → Chip} {bs : List BitName} (hf : ∀ b ∈ bs, ∀ c, (f c b).irq = c.irq)
    (c : Chip) : (bs.foldl f c).irq = c.irq := by
  induction bs generalizing c with
  | nil => rfl
  | cons b bs ih =>
    rw [List.foldl_cons, ih fun d hd => hf d (List.mem_cons_of_mem _ hd)]
    exact hf b List.mem_cons_self c

/-- A write that reaches none of those bits leaves the request line alone. -/
theorem Chip.irq_writeWord (m : RegMap) (c : Chip) {r : Reg} (v : Word) (h : ∀ b ∈ r.bits, movesLine b = false) :
    (c.writeWord m r v).irq = c.irq := by
  have bits : (r.bits.foldl (Chip.writeBit m v) c).irq = c.irq := Chip.irq_foldl (fun b hb c => by
    unfold Chip.writeBit
    split
    · exact c.irq_setBit (h b hb)
    · exact c.irq_clearBit (h b hb)) c
  fun_cases Chip.writeWord m c r v <;> first | rfl | exact bits

theorem Chip.irq_setMask (m : RegMap) (c : Chip) {r : Reg} (mask : Word)
    (h : ∀ b ∈ selectedBits m r mask, movesLine b = false) : (c.setMask m r mask).irq = c.irq := by
  have bits : (c.setBits (selectedBits m r mask)).irq = c.irq :=
    Chip.irq_foldl (fun b hb c => c.irq_setBit (h b hb)) c
  fun_cases Chip.setMask m c r mask <;> first | rfl | exact bits

theorem Chip.irq_clearMask (m : RegMap) (c : Chip) {r : Reg} (mask : Word)
    (h : ∀ b ∈ selectedBits m r mask, movesLine b = false) : (c.clearMask m r mask).irq = c.irq := by
  have bits : (c.clearBits (selectedBits m r mask)).irq = c.irq :=
    Chip.irq_foldl (fun b hb c => c.irq_clearBit (h b hb)) c
  fun_cases Chip.clearMask m c r mask <;> first | rfl | exact bits

/-! ### The two commands -/

theorem regSetMask_run (s : State) (r : Reg) (mask : Word) :
    regSetMask r mask s
      = .ok () ((s.tick.emit (.regSet r mask)).onChip (fun c => c.setMask s.tick.cfg.regmap r mask)) := rfl

theorem regClearMask_run (s : State) (r : Reg) (mask : Word) :
    regClearMask r mask s
      = .ok () ((s.tick.emit (.regClear r mask)).onChip (fun c => c.clearMask s.tick.cfg.regmap r mask)) := rfl

/-- `REG_SET_BITS` on a ready block is one access (R112). -/
theorem exec_regSetBits {s : State} (h : s.Ready) (r : Reg) (mask : Word) :
    exec (.regSetBits r mask) s = .next { s.answered .unit with
      chip := s.chip.setMask s.cfg.regmap r mask, trace := .regSet r mask :: s.trace } := by
  have ht : (s.beginCommand .regSetBits).tick = s.beginCommand .regSetBits := State.tick_quiet h.1.2.1
  refine (runProbed_ready h (regSetMask_run _ r mask) (by simp [ht])).trans ?_
  rw [ht]
  simp [State.endCommand, State.beginCommand, State.onChip, State.emit, State.answered, h.1.1]

/-- `REG_CLEAR_BITS` on a ready block is one access (R113). -/
theorem exec_regClearBits {s : State} (h : s.Ready) (r : Reg) (mask : Word) :
    exec (.regClearBits r mask) s = .next { s.answered .unit with
      chip := s.chip.clearMask s.cfg.regmap r mask, trace := .regClear r mask :: s.trace } := by
  have ht : (s.beginCommand .regClearBits).tick = s.beginCommand .regClearBits := State.tick_quiet h.1.2.1
  refine (runProbed_ready h (regClearMask_run _ r mask) (by simp [ht])).trans ?_
  rw [ht]
  simp [State.endCommand, State.beginCommand, State.onChip, State.emit, State.answered, h.1.1]

end Sys2Proof.Machine
end

section
/-! SUPPORT. Operations with no other agent moving, frame by frame: the state in which one returns (`Runs`) or is held
(`Stays`). What an operation never looks at, the trace, the priority level, the context and the result, is left free
(`State.dress`), so that one fact serves a command, an activation and a resumption. -/

namespace Sys2Proof.Machine

/-! ### What no operation looks at -/

/-- The block's registers that only the beginning and the end of a command or an activation touch (R29, R96). -/
structure Guise where
  ipl : Ipl
  savedIpl : Ipl
  context : Option Context
  result : Option Result

/-- The state with other such registers, another sequencer and another trace. -/
def State.dress (s : State) (q : List Frame) (g : Guise) (tr : List TraceEvent) : State :=
  { s with seq := q, trace := tr, ipl := g.ipl, savedIpl := g.savedIpl, context := g.context, result := g.result }

/-- These registers as they are. -/
def State.guise (s : State) : Guise := ⟨s.ipl, s.savedIpl, s.context, s.result⟩

/-- An operation with no other agent moving, from `s` in the top frame: it returns `a` in `u`, its own frame at whatever
step and the frames below as they were; of what it adds to the trace, `out`, newest first, are the output events. -/
def Runs {α : Type} (x : Op α) (s : State) (a : α) (u : State) (out : List TraceEvent) : Prop :=
  s.agenda = [] → u.agenda = [] ∧ ∀ op k snap q g tr, ∃ n entries,
    x (s.dress (⟨op, k, snap⟩ :: q) g tr) = .ok a (u.dress (⟨op, n, snap⟩ :: q) g (entries ++ tr))
      ∧ outputs entries = out

/-- The same where the frame's step does not change either. -/
def Leaves {α : Type} (x : Op α) (s : State) (a : α) (u : State) (out : List TraceEvent) : Prop :=
  s.agenda = [] → u.agenda = [] ∧ ∀ q g tr, ∃ entries, x (s.dress q g tr) = .ok a (u.dress q g (entries ++ tr))
    ∧ outputs entries = out

/-- An operation with no other agent moving, from `s` with the frames `q`: it is held in `u` with the frames `q'`. -/
def Stays {α : Type} (x : Op α) (s : State) (q : List Frame) (u : State) (q' : List Frame) (out : List TraceEvent) :
    Prop :=
  s.agenda = [] → ∀ g tr, ∃ entries, x (s.dress q g tr) = .error .held (u.dress q' g (entries ++ tr))
    ∧ outputs entries = out

section Rules

variable {α β : Type} {s t u v : State} {a : α} {b : β} {q q' : List Frame} {out out' : List TraceEvent}
  {x : Op α} {f : α → Op β}

theorem Runs.to (h : Runs x s a u out) (hu : u = v) : Runs x s a v out := hu ▸ h

theorem Runs.bind (hx : Runs x s a u out) (hf : Runs (f a) u b v out') : Runs (x >>= f) s b v (out' ++ out) :=
  fun hs => by
  obtain ⟨hu, hx⟩ := hx hs
  obtain ⟨hv, hf⟩ := hf hu
  refine ⟨hv, fun op k snap q g tr => ?_⟩
  obtain ⟨n, e, h1, h2⟩ := hx op k snap q g tr
  obtain ⟨m, e', k1, k2⟩ := hf op n snap q g (e ++ tr)
  exact ⟨m, e' ++ e, by rw [op_bind, h1, List.append_assoc]; exact k1, by rw [outputs_append, k2, h2]⟩

/-- The same where the first part says nothing. -/
theorem Runs.then (hx : Runs x s a u []) (hf : Runs (f a) u b v out') : Runs (x >>= f) s b v out' := by
  simpa using hx.bind hf

theorem Runs.bindStays {op : OpName} {k : Nat} {snap : Option IFlags} (hx : Runs x s a u out)
    (hf : ∀ n, Stays (f a) u (⟨op, n, snap⟩ :: q) v q' out') :
    Stays (x >>= f) s (⟨op, k, snap⟩ :: q) v q' (out' ++ out) := fun hs g tr => by
  obtain ⟨hu, hx⟩ := hx hs
  obtain ⟨n, e, h1, h2⟩ := hx op k snap q g tr
  obtain ⟨e', k1, k2⟩ := hf n hu g (e ++ tr)
  exact ⟨e' ++ e, by rw [op_bind, h1, List.append_assoc]; exact k1, by rw [outputs_append, k2, h2]⟩

theorem Runs.thenStays {op : OpName} {k : Nat} {snap : Option IFlags} (hx : Runs x s a u [])
    (hf : ∀ n, Stays (f a) u (⟨op, n, snap⟩ :: q) v q' out') : Stays (x >>= f) s (⟨op, k, snap⟩ :: q) v q' out' := by
  simpa using hx.bindStays hf

/-- What is held stays so in all that was to follow. -/
theorem Stays.bind (hx : Stays x s q u q' out) : Stays (x >>= f) s q u q' out := fun hs g tr => by
  obtain ⟨e, h1, h2⟩ := hx hs g tr
  exact ⟨e, by rw [op_bind, h1], h2⟩

theorem Stays.call {op : OpName} (h : Stays x s (⟨op, 0, none⟩ :: q) u q' out) : Stays (call op x) s q u q' out :=
  fun hs g tr => by
  obtain ⟨e, h1, h2⟩ := h hs g tr
  have h1' : x ((s.dress q g tr).pushFrame op) = _ := h1
  exact ⟨e, by rw [call_run, h1'], h2⟩

theorem Runs.call {op : OpName} (h : Runs x s a u out) : Leaves (call op x) s a u out := fun hs => by
  obtain ⟨hu, h⟩ := h hs
  refine ⟨hu, fun q g tr => ?_⟩
  obtain ⟨n, e, h1, h2⟩ := h op 0 none q g tr
  have h1' : x ((s.dress q g tr).pushFrame op) = _ := h1
  exact ⟨e, by rw [call_run, h1']; rfl, h2⟩

theorem Leaves.to (h : Leaves x s a u out) (hu : u = v) : Leaves x s a v out := hu ▸ h

theorem Leaves.runs (h : Leaves x s a u out) : Runs x s a u out := fun hs =>
  ⟨(h hs).1, fun op k snap q g tr => ⟨k, (h hs).2 (⟨op, k, snap⟩ :: q) g tr⟩⟩

theorem Leaves.bind (hx : Leaves x s a u out) (hf : Runs (f a) u b v out') : Runs (x >>= f) s b v (out' ++ out) :=
  hx.runs.bind hf

theorem Leaves.then (hx : Leaves x s a u []) (hf : Runs (f a) u b v out') : Runs (x >>= f) s b v out' := hx.runs.then hf

theorem Leaves.bindLeaves (hx : Leaves x s a u out) (hf : Leaves (f a) u b v out') :
    Leaves (x >>= f) s b v (out' ++ out) := fun hs => by
  obtain ⟨hu, hx⟩ := hx hs
  obtain ⟨hv, hf⟩ := hf hu
  refine ⟨hv, fun q g tr => ?_⟩
  obtain ⟨e, h1, h2⟩ := hx q g tr
  obtain ⟨e', k1, k2⟩ := hf q g (e ++ tr)
  exact ⟨e' ++ e, by rw [op_bind, h1, List.append_assoc]; exact k1, by rw [outputs_append, k2, h2]⟩

theorem Leaves.thenLeaves (hx : Leaves x s a u []) (hf : Leaves (f a) u b v out') : Leaves (x >>= f) s b v out' := by
  simpa using hx.bindLeaves hf

theorem Leaves.bindStays (hx : Leaves x s a u out) (hf : Stays (f a) u q v q' out') :
    Stays (x >>= f) s q v q' (out' ++ out) := fun hs g tr => by
  obtain ⟨hu, hx⟩ := hx hs
  obtain ⟨e, h1, h2⟩ := hx q g tr
  obtain ⟨e', k1, k2⟩ := hf hu g (e ++ tr)
  exact ⟨e' ++ e, by rw [op_bind, h1, List.append_assoc]; exact k1, by rw [outputs_append, k2, h2]⟩

theorem Leaves.thenStays (hx : Leaves x s a u []) (hf : Stays (f a) u q v q' out') : Stays (x >>= f) s q v q' out' := by
  simpa using hx.bindStays hf

theorem leaves_pure : Leaves (pure a : Op α) s a s [] := fun hs => ⟨hs, fun _ _ _ => ⟨[], rfl, rfl⟩⟩

/-- A read of the state, of which only what no frame holds is used. -/
theorem runs_get {f : State → Op β} (h : Runs (f s) s b v out)
    (hf : ∀ q g tr, f (s.dress q g tr) = f s := by exact fun _ _ _ => rfl) : Runs (get >>= f) s b v out := fun hs => by
  obtain ⟨hv, h⟩ := h hs
  refine ⟨hv, fun op k snap q g tr => ?_⟩
  rw [op_bind, op_get]
  dsimp only
  rw [hf]
  exact h op k snap q g tr

theorem leaves_get {f : State → Op β} (h : Leaves (f s) s b v out)
    (hf : ∀ q g tr, f (s.dress q g tr) = f s := by exact fun _ _ _ => rfl) : Leaves (get >>= f) s b v out :=
  fun hs => by
  obtain ⟨hv, h⟩ := h hs
  refine ⟨hv, fun q g tr => ?_⟩
  rw [op_bind, op_get]
  dsimp only
  rw [hf]
  exact h q g tr

theorem stays_get {f : State → Op β} (h : Stays (f s) s q v q' out)
    (hf : ∀ q g tr, f (s.dress q g tr) = f s := by exact fun _ _ _ => rfl) : Stays (get >>= f) s q v q' out :=
  fun hs g tr => by
  rw [op_bind, op_get]
  dsimp only
  rw [hf]
  exact h hs g tr

theorem leaves_update {k : State → State} (hk : ∀ q g tr, k (s.dress q g tr) = (k s).dress q g tr)
    (ha : (k s).agenda = s.agenda) : Leaves (update k) s () (k s) [] :=
  fun hs => ⟨ha.trans hs, fun q g tr => ⟨[], by rw [update_run, hk]; rfl, rfl⟩⟩

theorem runs_atStep (n : Nat) : Runs (atStep n) s () s [] := fun hs => ⟨hs, fun _ _ _ _ _ _ => ⟨n, [], rfl, rfl⟩⟩

/-- What follows the step at which an operation is held. -/
theorem stays_atStep {op : OpName} {k : Nat} {snap : Option IFlags} (n : Nat) {f : PUnit → Op β}
    (h : Stays (f ()) s (⟨op, n, snap⟩ :: q) u q' out) : Stays (atStep n >>= f) s (⟨op, k, snap⟩ :: q) u q' out :=
  fun hs g tr => h hs g tr

theorem leaves_raise (y : Exn) (info : Info) : Leaves (raise y info) s () (y.count s) [.raised y info] :=
  fun hs => ⟨by cases y <;> exact hs, fun _ _ _ => ⟨[.raised y info], by cases y <;> rfl, rfl⟩⟩

theorem leaves_release (c : List Chunk) : Leaves (release c) s () s [.release c] :=
  fun hs => ⟨hs, fun _ _ _ => ⟨[.release c], rfl, rfl⟩⟩

theorem tick_dress (hs : s.agenda = []) (q : List Frame) (g : Guise) (tr : List TraceEvent) :
    (s.dress q g tr).tick = s.dress q g tr := State.tick_quiet hs

theorem leaves_regReadBit (r : Reg) (y : BitName) : Leaves (regReadBit r y) s (s.chip.bit y) s [] :=
  fun hs => ⟨hs, fun q g tr => ⟨[.regRead r], by rw [regReadBit_run, tick_dress hs]; rfl, rfl⟩⟩

theorem leaves_regWrite (r : Reg) (w : Word) :
    Leaves (regWrite r w) s () (s.onChip fun c => c.writeWord s.cfg.regmap r w) [] :=
  fun hs => ⟨hs, fun q g tr => ⟨[.regWrite r w], by rw [regWrite_run, tick_dress hs]; rfl, rfl⟩⟩

theorem leaves_regSet (r : Reg) (bs : List BitName) : Leaves (regSet r bs) s () (s.onChip (·.setBits bs)) [] :=
  fun hs => ⟨hs, fun q g tr => ⟨[.regSet r (bitsMask s.cfg.regmap bs)], by rw [regSet_run, tick_dress hs]; rfl, rfl⟩⟩

theorem leaves_regClear (r : Reg) (bs : List BitName) : Leaves (regClear r bs) s () (s.onChip (·.clearBits bs)) [] :=
  fun hs => ⟨hs, fun q g tr =>
    ⟨[.regClear r (bitsMask s.cfg.regmap bs)], by rw [regClear_run, tick_dress hs]; rfl, rfl⟩⟩

theorem leaves_waitUntil {r : Reg} {y : BitName} {want : Bool} (hl : s.cfg.spinLimit ≠ some 0)
    (hb : s.chip.bit y = want) : Leaves (waitUntil r y want) s true s [] :=
  fun hs => ⟨hs, fun q g tr => ⟨[.regRead r], waitUntil_met (s := s.dress q g tr) hs hl hb, rfl⟩⟩

theorem stays_waitUntil {r : Reg} {y : BitName} {want : Bool} (hl : s.cfg.spinLimit = none)
    (hb : s.chip.bit y ≠ want) : Stays (waitUntil r y want) s q s q [] := fun hs g tr =>
  ⟨[.regRead r], waitUntil_held (s := s.dress q g tr) hs hl hb, rfl⟩

theorem leaves_drain : Leaves drain s () { s with chip := { s.chip with pktcnt := 0 } } [] :=
  fun hs => ⟨hs, fun q g tr => by
    obtain ⟨e, h, ho⟩ := drain_quiet (s := s.dress q g tr) hs
    exact ⟨e, h, ho⟩⟩

end Rules

/-! ### The operations -/

section Operations

variable {s : State} {q : List Frame}

theorem leaves_setReadPointer (a : Nat) : Leaves (update (·.setReadPointer a)) s () (s.setReadPointer a) [] :=
  leaves_update (fun _ _ _ => rfl) rfl

/-- The ring's registers and the read pointer at their initial values (R187). -/
def State.ringReset (s : State) : State :=
  { s with
    ctx := { s.ctx with rxReadPointer := BitVec.ofNat 16 s.cfg.rxStart }
    chip := { s.chip with
      rxst := BitVec.ofNat 16 s.cfg.rxStart
      rxhead := BitVec.ofNat 16 s.cfg.rxStart
      rxtail := BitVec.ofNat 16 (s.cfg.rxEnd - 2) } }

theorem leaves_resetRing : Leaves resetRing s () s.ringReset [] :=
  Leaves.to (leaves_get ((leaves_regWrite _ _).thenLeaves ((leaves_regWrite _ _).thenLeaves (leaves_setReadPointer _))))
    (by simp only [State.ringReset, State.onChip, Chip.writeWord, State.setReadPointer])

/-- The hash registers show the counts (R197). -/
def State.pushed (s : State) : State :=
  { s with chip := { s.chip with
      ht0 := hashWord s.ctx.multicastRefcount 0
      ht1 := hashWord s.ctx.multicastRefcount 1
      ht2 := hashWord s.ctx.multicastRefcount 2
      ht3 := hashWord s.ctx.multicastRefcount 3 } }

theorem leaves_pushTable : Leaves pushTable s () s.pushed [] :=
  Leaves.to (leaves_get ((leaves_regWrite _ _).thenLeaves ((leaves_regWrite _ _).thenLeaves
    ((leaves_regWrite _ _).thenLeaves (leaves_regWrite _ _)))))
    (by simp only [State.pushed, State.onChip, Chip.writeWord])

/-- The duplex that the chip reports, once it is read (R205 step 3). -/
theorem leaves_applyDuplex : Leaves (applyDuplex s.chip.phydpx) s () { s with chip := s.duplexSettings } [] := by
  cases hd : s.chip.phydpx
  · refine Leaves.to (leaves_get ((leaves_regClear _ _).thenLeaves ((leaves_regWrite _ _).thenLeaves
      ((leaves_regClear _ _).thenLeaves (leaves_regClear _ _))))) ?_
    simp [State.duplexSettings, hd, State.onChip, Chip.clearBits, Chip.clearBit, Chip.storeBit, Chip.writeWord]
  · refine Leaves.to (leaves_get ((leaves_regSet _ _).thenLeaves ((leaves_regWrite _ _).thenLeaves
      (leaves_regSet _ _)))) ?_
    simp [State.duplexSettings, hd, State.onChip, Chip.setBits, Chip.setBit, Chip.storeBit, Chip.writeWord]

/-- `RECONCILE` whose wait is met (R205). -/
theorem runs_reconcileBody (hb : s.chip.fcidle = true) (hl : s.cfg.spinLimit ≠ some 0) :
    Runs reconcileBody s () { s with chip := s.duplexSettings } [] :=
  (runs_atStep 1).then ((leaves_waitUntil (y := .statFcidle) (want := true) hl hb).then ((runs_atStep 2).then
    ((leaves_regReadBit _ _).then ((runs_atStep 3).then (leaves_applyDuplex.then (runs_atStep 4))))))

/-- `RECONCILE` held at its wait (R292). -/
theorem stays_reconcileBody {k : Nat} (hb : s.chip.fcidle = false) (hl : s.cfg.spinLimit = none) :
    Stays reconcileBody s (⟨.reconcile, k, none⟩ :: q) s (⟨.reconcile, 1, none⟩ :: q) [] :=
  stays_atStep 1 (stays_waitUntil (y := .statFcidle) (want := true) hl (by simp [Chip.bit, hb])).bind

theorem stays_reconcile (hb : s.chip.fcidle = false) (hl : s.cfg.spinLimit = none) :
    Stays reconcile s q s (⟨.reconcile, 1, none⟩ :: q) [] := (stays_reconcileBody hb hl).call

theorem leaves_pendingClear (d : State → Option Nat)
    (hd : ∀ q g tr, d (s.dress q g tr) = d s := by exact fun _ _ _ => rfl) :
    Leaves (update fun s => { s with pendingClear := d s }) s () { s with pendingClear := d s } [] :=
  leaves_update (fun q g tr => by simp only [hd]; rfl) rfl

theorem leaves_wdState (w : WdState) :
    Leaves (update fun s => { s with wdState := w }) s () { s with wdState := w } [] :=
  leaves_update (fun _ _ _ => rfl) rfl

/-- `RECOVER` from its wait on, the wait being met (R180 steps 5 to 10). -/
theorem runs_recoverFromWait (hb : s.chip.rxbusy = false) (hl : s.cfg.spinLimit ≠ some 0) :
    Runs recoverFromWait s () s.recoveredFromWait [] :=
  Runs.to ((runs_atStep 5).then ((leaves_waitUntil (y := .statRxbusy) (want := false) hl hb).then ((runs_atStep 6).then
    (leaves_drain.then ((runs_atStep 7).then (leaves_resetRing.then ((runs_atStep 8).then ((leaves_pendingClear _).then
    ((runs_atStep 9).then ((leaves_regSet _ _).then ((leaves_wdState _).then (runs_atStep 10)))))))))))) (by
      simp only [State.onChip, State.ringReset, State.recoveredFromWait, Chip.setBits, List.foldl, Chip.setBit,
        Chip.storeBit])

theorem stays_recoverFromWait {k : Nat} (hb : s.chip.rxbusy = true) (hl : s.cfg.spinLimit = none) :
    Stays recoverFromWait s (⟨.recover, k, none⟩ :: q) s (⟨.recover, 5, none⟩ :: q) [] :=
  stays_atStep 5 (stays_waitUntil (y := .statRxbusy) (want := false) hl (by simp [Chip.bit, hb])).bind

/-- The switch-off and the count of `RECOVER` (R180 steps 1 to 3). -/
def countSteps : Op Unit := do
  atStep 1
  regClear .ctl [.ctlRxen]
  atStep 2
  update (fun s => { s with pendingClear := none })
  atStep 3
  update State.countRecovery
  atStep 4

/-- The choice of `RECOVER` behind them (R180 step 4). -/
def recoverChoice : Op Unit := do
  let s ← get
  if s.cfg.maxResets < s.ctx.resetCounter then
    raise .resetThresholdExceeded (.number s.ctx.resetCounter)
    update (fun s => { s with wdState := .disabled })
  else recoverFromWait

theorem recoverBody_eq : recoverBody = (do countSteps; recoverChoice) := by
  simp only [recoverBody, countSteps, recoverChoice, bind_assoc]

theorem runs_countSteps : Runs countSteps s () s.recovering [] :=
  Runs.to ((runs_atStep 1).then ((leaves_regClear _ _).then ((runs_atStep 2).then ((leaves_pendingClear _).then
    ((runs_atStep 3).then ((leaves_update (k := State.countRecovery) (fun _ _ _ => rfl) rfl).then
      (runs_atStep 4))))))) (by
      simp only [State.onChip, State.countRecovery, State.recovering, Chip.clearBits, List.foldl, Chip.clearBit,
        Chip.storeBit])

theorem recoveredFromWait_recovering (s : State) : s.recovering.recoveredFromWait = s.recovered := by
  simp only [State.recovering, State.recoveredFromWait, State.recovered]

/-- `RECOVER`, its full path (R180). -/
theorem runs_recoverBody (hc : s.ctx.resetCounter < s.cfg.maxResets) (hb : s.chip.rxbusy = false)
    (hl : s.cfg.spinLimit ≠ some 0) : Runs recoverBody s () s.recovered [] := by
  have hn : ¬ s.recovering.cfg.maxResets < s.recovering.ctx.resetCounter := by
    simp only [State.recovering]; omega
  rw [recoverBody_eq]
  refine runs_countSteps.then (runs_get ?_)
  rw [if_neg hn, ← recoveredFromWait_recovering]
  exact runs_recoverFromWait hb hl

/-- `RECOVER` beyond the threshold (R181). -/
theorem runs_recoverBody_disabled (hc : s.cfg.maxResets ≤ s.ctx.resetCounter) :
    Runs recoverBody s () s.disabledByRecover [.raised .resetThresholdExceeded (.number (s.ctx.resetCounter + 1))] := by
  have hn : s.recovering.cfg.maxResets < s.recovering.ctx.resetCounter := by
    simp only [State.recovering]; omega
  rw [recoverBody_eq]
  refine runs_countSteps.then (runs_get ?_)
  rw [if_pos hn]
  exact (leaves_raise .resetThresholdExceeded _).bind (out' := []) (Leaves.to (leaves_wdState .disabled) (by
    simp only [Exn.count, State.recovering, State.disabledByRecover])).runs

/-- `RECOVER` held at its wait (R180 steps 1 to 5, R292). -/
theorem stays_recoverBody {k : Nat} (hc : s.ctx.resetCounter < s.cfg.maxResets) (hb : s.chip.rxbusy = true)
    (hl : s.cfg.spinLimit = none) :
    Stays recoverBody s (⟨.recover, k, none⟩ :: q) s.recovering (⟨.recover, 5, none⟩ :: q) [] := by
  have hn : ¬ s.recovering.cfg.maxResets < s.recovering.ctx.resetCounter := by
    simp only [State.recovering]; omega
  rw [recoverBody_eq]
  refine runs_countSteps.thenStays fun n => ?_
  unfold recoverChoice
  refine stays_get ?_
  rw [if_neg hn]
  exact stays_recoverFromWait hb hl

theorem stays_recover (hc : s.ctx.resetCounter < s.cfg.maxResets) (hb : s.chip.rxbusy = true)
    (hl : s.cfg.spinLimit = none) : Stays recover s q s.recovering (⟨.recover, 5, none⟩ :: q) [] :=
  (stays_recoverBody hc hb hl).call

end Operations

end Sys2Proof.Machine
end

section
/-! SUPPORT. How a command, an activation and a resumption with no other agent moving begin and end; the bring-up. -/

namespace Sys2Proof.Machine

/-! ### Commands and activations -/

/-- The next state of what completes, but for its trace. -/
theorem Completes.next {o : Host.Outcome State Fault Refusal} {s t : State} {out : List TraceEvent}
    (h : Completes o s t out) : ∃ tr, o = .next { t with trace := tr } := by
  obtain ⟨e, u, h1, h2, -⟩ := h
  refine ⟨u.trace, h1.trans (congrArg _ ?_)⟩
  have := congrArg (fun v => ({ v with trace := u.trace } : State)) h2
  exact this

section Begin

variable {s t : State} {q : List Frame} {op : OpName} {body : Op Result} {r : Result} {out : List TraceEvent}

theorem runCommand_ends (hs : s.Alone) (h : Runs body s r t out) : Completes (runCommand op body s) s
    { t with seq := [], ipl := s.ipl, savedIpl := s.ipl, context := none, result := some r } out := by
  obtain ⟨-, h⟩ := h hs.2.1
  obtain ⟨n, e, h1, h2⟩ := h op 0 none [] ⟨.device, s.ipl, some .request, none⟩ s.trace
  have h1' : body (s.beginCommand op) = _ := h1
  refine ⟨e, State.finish r (t.dress [⟨op, n, none⟩] ⟨.device, s.ipl, some .request, none⟩ (e ++ s.trace)), ?_, rfl,
    rfl, h2⟩
  rw [runCommand_run hs.1, h1']

theorem runProbed_ends (hs : s.Ready) (h : Runs body s r t out) : Completes (runProbed op body s) s
    { t with seq := [], ipl := s.ipl, savedIpl := s.ipl, context := none, result := some r } out := by
  rw [runProbed_probed hs.2]
  exact runCommand_ends hs.1 h

/-- A command whose body is held. -/
theorem runCommand_held (hs : s.Alone) (h : Stays body s [⟨op, 0, none⟩] t q out) : Completes (runCommand op body s) s
    { t with seq := q, ipl := .device, savedIpl := s.ipl, context := some .request, result := none } out := by
  obtain ⟨e, h1, h2⟩ := h hs.2.1 ⟨.device, s.ipl, some .request, none⟩ s.trace
  have h1' : body (s.beginCommand op) = _ := h1
  refine ⟨e, t.dress q ⟨.device, s.ipl, some .request, none⟩ (e ++ s.trace), ?_, rfl, rfl, h2⟩
  rw [runCommand_run hs.1, h1']

theorem runProbed_held (hs : s.Ready) (h : Stays body s [⟨op, 0, none⟩] t q out) : Completes (runProbed op body s) s
    { t with seq := q, ipl := .device, savedIpl := s.ipl, context := some .request, result := none } out := by
  rw [runProbed_probed hs.2]
  exact runCommand_held hs.1 h

/-- With nothing lined up and its line high the idle block takes the activation (R265). -/
theorem step_activate (hs : s.Alone) (hi : s.chip.irq = true) (hl : s.ipl = .low) : step s = activate s := by
  have hc : s.canActivate = true := by simp [State.canActivate, hi, hs.1, hl]
  rw [step_idle hs.1, State.rearm_none hs.2.2]
  simp only [idleStep, hs.2.1, blockTurn, hc]

/-- An activation that is held. -/
theorem activate_held (hs : s.Alone) (hi : s.chip.irq = true) (hl : s.ipl = .low)
    (h : Stays dispatchBody s [⟨.dispatch, 0, none⟩] t q out) (hv : t.savedIpl = s.savedIpl ∧ t.result = s.result) :
    Completes (step s) s { t with seq := q, ipl := .device, context := some .interrupt } out := by
  obtain ⟨e, h1, h2⟩ := h hs.2.1 ⟨.device, s.savedIpl, some .interrupt, s.result⟩ s.trace
  have h1' : dispatchBody s.beginInterrupt = _ := h1
  refine ⟨e, t.dress q ⟨.device, s.savedIpl, some .interrupt, s.result⟩ (e ++ s.trace), ?_, ?_, rfl, h2⟩
  · rw [step_activate hs hi hl, activate, op_bind, h1']
    rfl
  rw [← hv.1, ← hv.2]
  rfl

end Begin

/-! ### Resumptions -/

section Resume

variable {s t u v : State} {q : List Frame} {fr : Frame} {c : Context} {out out' : List TraceEvent}

/-- An operation of `t`, in context `c`, has ended in `u` (R29, R267). -/
def State.endedAs (t : State) (c : Context) (u : State) (r : Result) : State :=
  { u with
    seq := []
    ipl := if c = .interrupt then .low else t.savedIpl
    savedIpl := t.savedIpl
    context := none
    result := if c = .interrupt then t.result else some r }

/-- The frames `l` of an operation held in `s` return, in `u`. -/
def Returns (l : List Frame) (s u : State) (out : List TraceEvent) : Prop :=
  s.agenda = [] → ∀ g tr, ∃ q entries, resumeFrames l (s.dress l g tr) = .ok () (u.dress q g (entries ++ tr))
    ∧ outputs entries = out

theorem returns_nil : Returns [] s s [] := fun _ _ _ => ⟨[], [], rfl, rfl⟩

theorem Returns.to (h : Returns q s u out) (hu : u = v) : Returns q s v out := hu ▸ h

theorem Runs.returns (h : Runs (resumeFrame fr) s () u out) (hr : Returns q u v out') :
    Returns (fr :: q) s v (out' ++ out) := fun hs g tr => by
  obtain ⟨hu, h⟩ := h hs
  obtain ⟨n, e, h1, h2⟩ := h fr.op fr.step fr.snapshot q g tr
  obtain ⟨q', e', k1, k2⟩ := hr hu g (e ++ tr)
  refine ⟨q', e' ++ e, ?_, by rw [outputs_append, k2, h2]⟩
  rw [resumeFrames, op_bind, h1, List.append_assoc]
  exact k1

/-- The same where the frame says nothing. -/
theorem Runs.thenReturns (h : Runs (resumeFrame fr) s () u []) (hr : Returns q u v out') :
    Returns (fr :: q) s v out' := by
  simpa using h.returns hr

theorem step_held (ht : t.Still) (hq : t.seq = fr :: q) : step t = resume t := by
  unfold step
  rw [State.rearm_none ht.2, hq]

/-- A held operation whose wait is not met changes nothing but the trace of its polls (R292). -/
theorem step_stays (ht : t.Still) (hq : t.seq = fr :: q) (h : Stays (resumeFrame fr) t (fr :: q) t (fr :: q) []) :
    Completes (step t) t t [] := by
  obtain ⟨e, h1, h2⟩ := h ht.1 t.guise t.trace
  have h1' : resumeFrame fr t = .error .held (t.dress (fr :: q) t.guise (e ++ t.trace)) := by
    rw [← h1]
    congr 1
    rw [← hq]
    rfl
  refine ⟨e, t.dress (fr :: q) t.guise (e ++ t.trace), ?_, ?_, rfl, h2⟩
  · rw [step_held ht hq, resume, hq, resumeFrames, op_bind, op_bind, h1']
    rfl
  · rw [← hq]
    rfl

/-- A held operation ends. -/
theorem step_returns (ht : t.Still) (hq : t.seq = fr :: q) (hc : t.context = some c) (h : Returns (fr :: q) t u out) :
    Completes (step t) t (t.endedAs c u (resumedResult (fr :: q))) out := by
  obtain ⟨q', e, h1, h2⟩ := h ht.1 t.guise t.trace
  have h1' : resumeFrames (fr :: q) t = .ok () (u.dress q' t.guise (e ++ t.trace)) := by
    rw [← h1]
    congr 1
    rw [← hq]
    rfl
  refine ⟨e, State.finish (resumedResult (fr :: q)) (u.dress q' t.guise (e ++ t.trace)), ?_, ?_, ?_, h2⟩
  · rw [step_held ht hq, resume, hq, op_bind, h1']
    rfl
  · cases c
    · rw [State.finish_request (by exact hc)]
      rfl
    · rw [State.finish_interrupt (by exact hc)]
      rfl
  · unfold State.finish
    split <;> rfl

end Resume

/-! ### The bring-up -/

section BringUp

variable {s : State} {q : List Frame} {k : Nat}

/-- The bring-up behind its first step and before its `RECONCILE` (R213 step 4). -/
def prepare : Op Unit := do
  regClear .ctl [.ctlRxen]
  resetRing
  let p := (← get).cfg
  regWrite .txst (BitVec.ofNat 16 p.txStart)
  drain
  regClear .iflag [.iflagLink, .iflagTxdone, .iflagTxabt, .iflagRxabt]
  update State.clearWatchdog
  pushTable

theorem bringUp_eq : bringUp = (do atStep 4; prepare; reconcile; initialiseAfterReconcile) := by
  simp only [bringUp, prepare, bind_assoc]

/-- The block then. -/
def State.prepared (s : State) : State :=
  { s with
    ctx := { s.ctx with rxReadPointer := BitVec.ofNat 16 s.cfg.rxStart, resetCounter := 0 }
    pendingClear := none
    wdState := .healthy
    chip := { s.chip with
      rxen := false
      rxst := BitVec.ofNat 16 s.cfg.rxStart
      rxhead := BitVec.ofNat 16 s.cfg.rxStart
      rxtail := BitVec.ofNat 16 (s.cfg.rxEnd - 2)
      txst := BitVec.ofNat 16 s.cfg.txStart
      pktcnt := 0
      flags := ⟨false, false, false, false⟩
      ht0 := hashWord s.ctx.multicastRefcount 0
      ht1 := hashWord s.ctx.multicastRefcount 1
      ht2 := hashWord s.ctx.multicastRefcount 2
      ht3 := hashWord s.ctx.multicastRefcount 3 } }

theorem leaves_prepare : Leaves prepare s () s.prepared [] :=
  Leaves.to ((leaves_regClear _ _).thenLeaves (leaves_resetRing.thenLeaves (leaves_get ((leaves_regWrite _ _).thenLeaves
    (leaves_drain.thenLeaves ((leaves_regClear _ _).thenLeaves ((leaves_update (k := State.clearWatchdog)
    (fun _ _ _ => rfl) rfl).thenLeaves leaves_pushTable))))))) (by
      simp only [State.onChip, State.ringReset, State.prepared, State.pushed, State.clearWatchdog, Chip.clearBits,
        List.foldl, Chip.clearBit, Chip.storeBit, Chip.writeWord])

/-- Reception and all interrupts on (R213 step 4). -/
def State.enabled (s : State) : State :=
  { s with
    initialized := true
    chip := { s.chip with enables := ⟨true, true, true, true, true, true⟩, rxen := true } }

/-- Writing the mask of all enables sets them (R39). -/
theorem Chip.writeWord_allEnables (m : RegMap) (c : Chip) :
    c.writeWord m .ien (bitsMask m allEnables) = { c with enables := ⟨true, true, true, true, true, true⟩ } := by
  have hb : ∀ b ∈ allEnables, (bitsMask m allEnables).getLsbD (m.index b).val = true := by
    intro b hb
    rw [bitsMask, getLsbD_wordOfBits _ (m.index b).isLt, List.any_map, List.any_eq_true]
    exact ⟨b, hb, by simp⟩
  generalize bitsMask m allEnables = v at hb ⊢
  simp only [allEnables, List.mem_cons, List.not_mem_nil, or_false, forall_eq_or_imp, forall_eq] at hb
  obtain ⟨h1, h2, h3, h4, h5, h6⟩ := hb
  simp only [Chip.writeWord, Reg.bits, List.foldl, h1, h2, h3, h4, h5, h6, if_true, Chip.setBit, Chip.storeBit]

theorem leaves_initialiseAfterReconcile : Leaves initialiseAfterReconcile s () s.enabled [] :=
  Leaves.to (leaves_get ((leaves_regWrite _ _).thenLeaves ((leaves_regSet _ _).thenLeaves
    (leaves_update (k := fun s => { s with initialized := true }) (fun _ _ _ => rfl) rfl)))) (by
      simp only [State.onChip, State.enabled, Chip.writeWord_allEnables, Chip.setBits, List.foldl, Chip.setBit,
        Chip.storeBit])

/-- The block once it is brought up (R213 step 4). -/
def State.broughtUp (s : State) : State := State.enabled { s.prepared with chip := s.prepared.duplexSettings }

theorem runs_bringUp (hb : s.chip.fcidle = true) (hl : s.cfg.spinLimit ≠ some 0) :
    Runs bringUp s () s.broughtUp [] := by
  rw [bringUp_eq]
  exact (runs_atStep 4).then (leaves_prepare.then ((runs_reconcileBody (s := s.prepared) hb hl).call.then
    leaves_initialiseAfterReconcile.runs))

/-- The bring-up held at its `RECONCILE` (R292). -/
theorem stays_bringUp (hb : s.chip.fcidle = false) (hl : s.cfg.spinLimit = none) : Stays bringUp s
    (⟨.initialise, k, none⟩ :: q) s.prepared (⟨.reconcile, 1, none⟩ :: ⟨.initialise, 4, none⟩ :: q) [] := by
  rw [bringUp_eq]
  exact stays_atStep 4 (leaves_prepare.thenStays (stays_reconcile (s := s.prepared) hb hl).bind)

/-- The three tests of `INITIALIZE` in front of the bring-up (R213 steps 1 to 3). -/
theorem stays_initialiseBody (hp : s.ctx.probed = true) (ha : s.ctx.addrKnown = true) (hi : s.initialized = false)
    (hb : s.chip.fcidle = false) (hl : s.cfg.spinLimit = none) : Stays initialiseBody s (⟨.initialise, k, none⟩ :: q)
    s.prepared (⟨.reconcile, 1, none⟩ :: ⟨.initialise, 4, none⟩ :: q) [] := by
  refine stays_atStep 1 (stays_get ?_)
  simp only [hp, ha, hi, Bool.true_eq_false, Bool.false_eq_true, if_false]
  exact stays_atStep 2 (stays_atStep 3 (stays_bringUp hb hl).bind)

theorem runs_initialiseBody (hp : s.ctx.probed = true) (ha : s.ctx.addrKnown = true) (hi : s.initialized = false)
    (hb : s.chip.fcidle = true) (hl : s.cfg.spinLimit ≠ some 0) : Runs initialiseBody s .ok s.broughtUp [] := by
  refine (runs_atStep 1).then (runs_get ?_)
  simp only [hp, ha, hi, Bool.true_eq_false, Bool.false_eq_true, if_false]
  exact (runs_atStep 2).then ((runs_atStep 3).then ((runs_bringUp hb hl).then ((runs_atStep 5).then leaves_pure.runs)))

end BringUp

/-! ### A completed bring-up -/

/-- The values that a bring-up has set establish R51. -/
theorem sound_broughtUp {s t : State} (hc : t.cfg = s.cfg) (hq : t.seq = []) (hi : t.initialized = true)
    (hx : t.ctx = s.broughtUp.ctx) (hw : t.wdState = .healthy) (hch : t.chip = s.broughtUp.chip) : t.Sound where
  initialized := hi
  settled := by rintro ⟨fr, hfr, -⟩; rw [hq] at hfr; cases hfr
  pointer := fun _ => by
    have hr := config_ring s.cfg
    have e : s.broughtUp.ctx.rxReadPointer.toNat = s.cfg.rxStart := toNat_ofNat16 (by omega)
    rw [hc, hx, e]
    exact ⟨hr.2.2.2.1, Nat.le_refl _, hr.1⟩
  tail := fun _ => by
    have hr := config_ring s.cfg
    have e : s.broughtUp.ctx.rxReadPointer.toNat = s.cfg.rxStart := toNat_ofNat16 (by omega)
    have e' : s.broughtUp.chip.rxtail = BitVec.ofNat 16 (s.cfg.rxEnd - 2) := by
      simp only [State.broughtUp, State.enabled, State.duplexSettings]
      split <;> rfl
    rw [hc, hx, hch, e, e', tailFor_rxStart]
    exact toNat_ofNat16 (by omega)
  table := State.tableSound_of_words fun g => by
    rw [hch, hx]
    simp only [State.broughtUp, State.enabled, State.duplexSettings]
    split <;> fin_cases g <;> rfl
  reception := fun e => absurd hw e

/-- Settles O59: the bring-up computed (`runs_initialiseBody`) for `Sound`, the invariant of every command for `Inv`. -/
theorem initialiseEstablishesR51 : Obligations.InitialiseEstablishesR51 := by
  intro s hi hs ha hn hb hl
  obtain ⟨tr, ht⟩ := (runCommand_ends (op := .initialise) hs.1 (runs_initialiseBody hs.2 ha hn hb hl)).next
  obtain ⟨t, ht', k⟩ := Ended.exec (C := s.cfg) (h := False) ⟨hi, False.elim, rfl, hs.1.1⟩ .initialise False.elim
  have e := ht'.symm.trans (show exec .initialise s = _ from ht)
  have hinv : t.Inv := k.elim Ended.inv Paused.inv
  cases e
  exact ⟨_, ht, hinv, sound_broughtUp (s := s) rfl rfl rfl rfl rfl rfl, rfl⟩

end Sys2Proof.Machine
end

section
/-! SUPPORT. `RECEIVE_ONE` and the packet loop of `DISPATCH` with no other agent moving: where they are held, that
they end otherwise, and what they then leave. -/

namespace Sys2Proof.Machine

/-! ### What the ring reader and the allocator leave -/

section Reading

variable {α : Type} {s u : State} {a : α} {out : List TraceEvent}

/-- A quiet operation, called. -/
theorem leaves_call_of_quiet {op : OpName} {body : Op α} (hu : s.agenda = [] → u.agenda = [])
    (h : s.agenda = [] → ∀ q g tr, Quiet body (s.dress (⟨op, 0, none⟩ :: q) g tr) a (u.dress [] g tr) out) :
    Leaves (call op body) s a u out := fun hs => ⟨hu hs, fun q g tr => by
  obtain ⟨v, f, e, h1, h2, h3, h4, h5⟩ := h hs q g tr
  have hv : v = u.dress v.seq g v.trace := congrArg (fun c => c.rejoin v.seq v.trace) h2
  have h1' : body ((s.dress q g tr).pushFrame op) = .ok a v := h1
  refine ⟨e, ?_, h5⟩
  rw [call_run, h1', hv, h3, h4]
  rfl⟩

/-- `READ_BYTES` as it is called (R120). -/
theorem leaves_readBytes {n : Nat} (hp : InRing s.cfg.toParams s.pointer) : Leaves (readBytes n) s
    (s.ringBytes s.pointer n) (s.setReadPointer (ringAddr s.cfg.toParams (s.pointer + n))) [] :=
  leaves_call_of_quiet id fun hs q g tr => quiet_readBytesBody (s := s.dress (⟨.readBytes, 0, none⟩ :: q) g tr) hp hs

theorem leaves_alloc (cls : ChunkClass) : Leaves (alloc cls) s s.nextGrant.1 s.nextGrant.2 [] := fun hs => by
  have hd : ∀ q g tr, (s.dress q g tr).nextGrant = (s.nextGrant.1, s.nextGrant.2.dress q g tr) := fun q g tr => by
    cases h : s.allocAnswers with
    | nil => rw [State.nextGrant_nil h, State.nextGrant_nil (by exact h)]; rfl
    | cons a rest => rw [State.nextGrant_cons h, State.nextGrant_cons (by exact h)]; rfl
  refine ⟨?_, fun q g tr => ⟨[.alloc cls s.nextGrant.1], ?_, rfl⟩⟩
  · obtain ⟨l, n, h⟩ := s.nextGrant_frame
    rw [h]
    exact hs
  · rw [alloc_run, hd]
    rfl

/-- Another read pointer, other answers of the allocator, another count of errors. -/
def State.drawn (s : State) (p : Word) (l : List Bool) (n e : Nat) : State :=
  { s with ctx := { s.ctx with rxReadPointer := p }, allocAnswers := l, freeCount := n, errorsIn := e }

/-- Only these have changed. -/
def Drawn (s u : State) : Prop := ∃ p l n e, u = s.drawn p l n e

theorem Drawn.refl (s : State) : Drawn s s := ⟨s.ctx.rxReadPointer, s.allocAnswers, s.freeCount, s.errorsIn, rfl⟩

theorem Drawn.trans {t : State} (h : Drawn s t) (k : Drawn t u) : Drawn s u := by
  obtain ⟨p, l, n, e, rfl⟩ := h
  obtain ⟨p', l', n', e', rfl⟩ := k
  exact ⟨p', l', n', e', rfl⟩

theorem drawn_nextGrant (s : State) : Drawn s s.nextGrant.2 := by
  obtain ⟨l, n, h⟩ := s.nextGrant_frame
  exact ⟨s.ctx.rxReadPointer, l, n, s.errorsIn, h⟩

theorem drawn_setReadPointer (s : State) (a : Nat) : Drawn s (s.setReadPointer a) :=
  ⟨BitVec.ofNat 16 a, s.allocAnswers, s.freeCount, s.errorsIn, rfl⟩

/-- The read pointer is in the ring. -/
def State.Pointed (s : State) : Prop := InRing s.cfg.toParams s.pointer

theorem State.pointed_setReadPointer (s : State) (a : Int) :
    (s.setReadPointer (ringAddr s.cfg.toParams a)).Pointed := by
  have hr := config_ring s.cfg
  have hi := ringAddr_inRing s.cfg.toParams hr.1 a
  have e : (s.setReadPointer (ringAddr s.cfg.toParams a)).pointer = ringAddr s.cfg.toParams a :=
    toNat_ofNat16 (by have := hi.2; omega)
  show InRing s.cfg.toParams _
  rw [e]
  exact hi

theorem exists_readBytes (n : Nat) (hp : s.Pointed) :
    ∃ bytes u, Leaves (readBytes n) s bytes u [] ∧ Drawn s u ∧ u.Pointed :=
  ⟨_, _, leaves_readBytes hp, drawn_setReadPointer s _, s.pointed_setReadPointer _⟩

theorem exists_alloc (cls : ChunkClass) (hp : s.Pointed) :
    ∃ granted u, Leaves (alloc cls) s granted u [] ∧ Drawn s u ∧ u.Pointed := by
  refine ⟨_, _, leaves_alloc cls, drawn_nextGrant s, ?_⟩
  obtain ⟨l, n, h⟩ := s.nextGrant_frame
  rw [h]
  exact hp

theorem leaves_onlyIf_release (b : Bool) (c : List Chunk) : ∃ out, Leaves (onlyIf b (release c)) s () s out := by
  cases b
  · exact ⟨_, leaves_pure⟩
  · exact ⟨_, leaves_release c⟩

/-- A refused allocation (R131 steps 5 and 6). -/
theorem leaves_failAllocation (chunks : List Chunk) :
    ∃ u out, Leaves (failAllocation chunks) s none u out ∧ Drawn s u := by
  obtain ⟨out, h⟩ := leaves_onlyIf_release (s := s) (!chunks.isEmpty) chunks
  exact ⟨_, _, h.bindLeaves ((leaves_raise .allocFail .none).bindLeaves leaves_pure), s.ctx.rxReadPointer,
    s.allocAnswers,
    s.freeCount, s.errorsIn + 1, rfl⟩

/-- Whatever the allocator answers, the copy ends (R131 step 6). -/
theorem leaves_copyPayload (rounds remaining : Nat) (chunks : List Chunk) (hp : s.Pointed) :
    ∃ r u out, Leaves (copyPayload rounds remaining chunks) s r u out ∧ Drawn s u := by
  induction rounds generalizing s remaining chunks with
  | zero => exact ⟨_, _, _, leaves_pure, Drawn.refl s⟩
  | succ k ih =>
    unfold copyPayload
    by_cases h0 : remaining = 0
    · rw [if_pos h0]
      exact ⟨_, _, _, leaves_pure, Drawn.refl s⟩
    rw [if_neg h0]
    obtain ⟨granted, v, ha, hv, hi⟩ := exists_alloc (chunkClassFor s.cfg.toParams remaining) hp
    cases granted
    · obtain ⟨u, out, h, hd⟩ := leaves_failAllocation (s := v) chunks
      exact ⟨_, u, _, leaves_get (ha.thenLeaves h), hv.trans hd⟩
    · obtain ⟨bytes, w, hr, hw, hi⟩ := exists_readBytes
        (min remaining (chunkCapacity s.cfg.toParams (chunkClassFor s.cfg.toParams remaining))) hi
      obtain ⟨r, u, out, h, hd⟩ := ih _ _ hi
      exact ⟨r, u, out, leaves_get (ha.thenLeaves (hr.thenLeaves h)), (hv.trans hw).trans hd⟩

/-- Steps 5 and 6 of R131 end. -/
theorem runs_buildPacket (len : Nat) (hp : s.Pointed) : ∃ r u out, Runs (buildPacket len) s r u out ∧ Drawn s u := by
  obtain ⟨granted, v, ha, hv, hi⟩ := exists_alloc .small hp
  cases granted
  · obtain ⟨u, out, h, hd⟩ := leaves_failAllocation (s := v) []
    exact ⟨_, u, _, (runs_atStep 5).then (runs_get (ha.then h.runs)), hv.trans hd⟩
  · obtain ⟨bytes, w, hr, hw, hi⟩ := exists_readBytes s.cfg.ethHdrSize hi
    obtain ⟨r, u, out, h, hd⟩ := leaves_copyPayload len len [⟨.small, s.cfg.tagSize, bytes⟩] hi
    exact ⟨r, u, out, (runs_atStep 5).then (runs_get (ha.then (hr.then ((runs_atStep 6).then h.runs)))),
      (hv.trans hw).trans hd⟩

/-- Step 7 of R131. -/
theorem runs_releaseRing (next : Nat) : Runs (releaseRing next) s () (s.releasedTo next) [] :=
  (runs_atStep 7).then (runs_get ((leaves_regWrite _ _).then (leaves_setReadPointer _).runs))

end Reading

/-! ### `RECEIVE_ONE` -/

section Receiving

variable {s : State} {q : List Frame} {k : Nat}

/-- Behind the header (R131 step 2). -/
def State.past (s : State) : State := s.setReadPointer (ringAddr s.cfg.toParams (s.pointer + rbhSize))

/-- A validation failure whose recovery is held. -/
theorem stays_failValidation (x : Exn) (info : Nat) (hc : (x.count s).ctx.resetCounter < (x.count s).cfg.maxResets)
    (hb : (x.count s).chip.rxbusy = true) (hl : (x.count s).cfg.spinLimit = none) : Stays (failValidation x info) s q
    (x.count s).recovering (⟨.recover, 5, none⟩ :: q) [.raised x (.number info)] :=
  (leaves_raise x _).bindStays (out' := []) (stays_recover hc hb hl).bind

/-- `RECEIVE_ONE` behind its header (R131 steps 3 to 7). -/
def receiveChecked (p : Params) (hd : Word × Word) : Op (Option Packet) := do
  atStep 3
  if ¬ RingValid p hd.1.toNat then failValidation .nextOffsetInvalid hd.1.toNat
  else
    atStep 4
    if ¬ ((p.etherMin : Int) ≤ (hd.2.toNat : Int) - crcLen + p.ethHdrSize
        ∧ (hd.2.toNat : Int) - crcLen + p.ethHdrSize ≤ p.etherMax) then
      failValidation .frameLengthInvalid hd.2.toNat
    else
      let result ← buildPacket ((hd.2.toNat : Int) - crcLen).toNat
      releaseRing hd.1.toNat
      return result

theorem receiveOneBody_eq : receiveOneBody = (do
    atStep 1
    let s ← get
    if ¬ RingValid s.cfg.toParams s.pointer then failValidation .ringPointerInvalid s.pointer
    else
      atStep 2
      let h ← readBytes rbhSize
      receiveChecked s.cfg.toParams (headerFields s.cfg.toParams h)) := rfl

theorem stays_receiveOneBody_pointer (hv : ¬ RingValid s.cfg.toParams s.pointer)
    (hc : s.ctx.resetCounter < s.cfg.maxResets) (hb : s.chip.rxbusy = true) (hl : s.cfg.spinLimit = none) :
    Stays receiveOneBody s (⟨.receiveOne, k, none⟩ :: q) { s.recovering with errorsIn := s.errorsIn + 1 }
      (⟨.recover, 5, none⟩ :: ⟨.receiveOne, 1, none⟩ :: q) [.raised .ringPointerInvalid (.number s.pointer)] := by
  rw [receiveOneBody_eq]
  refine stays_atStep 1 (stays_get ?_)
  rw [if_pos hv]
  exact stays_failValidation .ringPointerInvalid _ hc hb hl

/-- With a valid pointer the header is read (R131 step 2). -/
theorem runs_receiveOneBody {r : Option Packet} {u : State} {out : List TraceEvent}
    (hv : RingValid s.cfg.toParams s.pointer) (h : Runs (receiveChecked s.cfg.toParams s.header) s.past r u out) :
    Runs receiveOneBody s r u out := by
  rw [receiveOneBody_eq]
  refine (runs_atStep 1).then (runs_get ?_)
  rw [if_neg (not_not_intro hv)]
  exact (runs_atStep 2).then ((leaves_readBytes hv.2).then h)

theorem stays_receiveOneBody {u : State} {q' : List Frame} {out : List TraceEvent}
    (hv : RingValid s.cfg.toParams s.pointer)
    (h : Stays (receiveChecked s.cfg.toParams s.header) s.past (⟨.receiveOne, 2, none⟩ :: q) u q' out) :
    Stays receiveOneBody s (⟨.receiveOne, k, none⟩ :: q) u q' out := by
  rw [receiveOneBody_eq]
  refine stays_atStep 1 (stays_get ?_)
  rw [if_neg (not_not_intro hv)]
  exact stays_atStep 2 ((leaves_readBytes hv.2).thenStays h)

theorem stays_receiveOneBody_offset (hv : RingValid s.cfg.toParams s.pointer)
    (hn : ¬ RingValid s.cfg.toParams s.header.1.toNat)
    (hc : s.ctx.resetCounter < s.cfg.maxResets) (hb : s.chip.rxbusy = true) (hl : s.cfg.spinLimit = none) :
    Stays receiveOneBody s (⟨.receiveOne, k, none⟩ :: q) { s.past.recovering with errorsIn := s.errorsIn + 1 }
      (⟨.recover, 5, none⟩ :: ⟨.receiveOne, 3, none⟩ :: q)
      [.raised .nextOffsetInvalid (.number s.header.1.toNat)] := by
  refine stays_receiveOneBody hv (stays_atStep 3 ?_)
  rw [if_pos hn]
  exact stays_failValidation .nextOffsetInvalid _ hc hb hl

theorem stays_receiveOneBody_length (hv : RingValid s.cfg.toParams s.pointer)
    (hn : RingValid s.cfg.toParams s.header.1.toNat)
    (hf : s.frameLength + s.cfg.ethHdrSize < s.cfg.etherMin ∨ (s.cfg.etherMax : Int) < s.frameLength + s.cfg.ethHdrSize)
    (hc : s.ctx.resetCounter < s.cfg.maxResets) (hb : s.chip.rxbusy = true) (hl : s.cfg.spinLimit = none) :
    Stays receiveOneBody s (⟨.receiveOne, k, none⟩ :: q) { s.past.recovering with errorsIn := s.errorsIn + 1 }
      (⟨.recover, 5, none⟩ :: ⟨.receiveOne, 4, none⟩ :: q)
      [.raised .frameLengthInvalid (.number s.header.2.toNat)] := by
  refine stays_receiveOneBody hv (stays_atStep 3 ?_)
  rw [if_neg (not_not_intro hn)]
  refine stays_atStep 4 ?_
  rw [if_pos (by unfold State.frameLength at hf; omega)]
  exact stays_failValidation .frameLengthInvalid _ hc hb hl

/-- With a valid header `RECEIVE_ONE` ends, and releases the ring (R139). -/
theorem runs_receiveOneBody_valid (hv : s.HeaderValid) :
    ∃ r l n e out, Runs receiveOneBody s r
      ((s.releasedTo s.header.1.toNat).drawn (BitVec.ofNat 16 s.header.1.toNat) l n e) out := by
  obtain ⟨hp, hn, hf⟩ := hv
  obtain ⟨r, u, out, h, p, l, n, e, rfl⟩ := runs_buildPacket (s := s.past) s.frameLength.toNat
    (s.pointed_setReadPointer _)
  have hr := runs_releaseRing (s := s.past.drawn p l n e) s.header.1.toNat
  refine ⟨r, l, n, e, out, runs_receiveOneBody hp ((runs_atStep 3).then ?_)⟩
  rw [if_neg (not_not_intro hn)]
  refine (runs_atStep 4).then ?_
  unfold State.frameLength at hf
  rw [if_neg (not_not_intro hf)]
  exact h.bind (out' := []) (hr.then leaves_pure.runs)

/-- A recovery that nothing holds ends (R180, R181). -/
theorem leaves_recover (hb : s.chip.rxbusy = false) (hl : s.cfg.spinLimit ≠ some 0) :
    ∃ u out, Leaves recover s () u out ∧ (u = s.recovered ∨ u = s.disabledByRecover) := by
  by_cases hc : s.ctx.resetCounter < s.cfg.maxResets
  · exact ⟨_, _, (runs_recoverBody hc hb hl).call, Or.inl rfl⟩
  · exact ⟨_, _, (runs_recoverBody_disabled (Nat.le_of_not_lt hc)).call, Or.inr rfl⟩

/-- What a `RECEIVE_ONE` and the deliveries behind it leave of the counter and the flags (R169, R186). -/
structure Received (s u : State) : Prop where
  cfg : u.cfg = s.cfg
  again : u.again = s.again
  packetsIn : u.packetsIn = s.packetsIn
  packetsOut : u.packetsOut = s.packetsOut
  flags : u.chip.flags = s.chip.flags
  rxbusy : u.chip.rxbusy = s.chip.rxbusy
  pktcnt : u.chip.pktcnt ≤ s.chip.pktcnt

/-- A validation failure that nothing holds. -/
theorem leaves_failValidation {t : State} (x : Exn) (info : Nat) (hx : Drawn s (x.count t)) (hb : s.chip.rxbusy = false)
    (hl : s.cfg.spinLimit ≠ some 0) :
    ∃ u out, Leaves (failValidation x info) t none u out ∧ Received s u := by
  obtain ⟨p, l, n, e, hx⟩ := hx
  have hr := leaves_raise (s := t) x (.number info)
  rw [hx] at hr
  obtain ⟨u, out, h, hu⟩ := leaves_recover (s := s.drawn p l n e) hb hl
  refine ⟨u, _, hr.bindLeaves (h.bindLeaves leaves_pure), ?_⟩
  rcases hu with rfl | rfl
  · exact ⟨rfl, rfl, rfl, rfl, rfl, rfl, Nat.zero_le _⟩
  · exact ⟨rfl, rfl, rfl, rfl, rfl, rfl, Nat.le_refl _⟩

/-- Where no receive is in flight `RECEIVE_ONE` ends, whatever the ring holds. -/
theorem leaves_receiveOne (hb : s.chip.rxbusy = false) (hl : s.cfg.spinLimit ≠ some 0) :
    ∃ r u out, Leaves receiveOne s r u out ∧ Received s u := by
  suffices h : ∃ r u out, Runs receiveOneBody s r u out ∧ Received s u by
    obtain ⟨r, u, out, h, k⟩ := h
    exact ⟨r, u, out, h.call, k⟩
  by_cases hp : RingValid s.cfg.toParams s.pointer
  case neg =>
    obtain ⟨u, out, h, k⟩ := leaves_failValidation (s := s) (t := s) .ringPointerInvalid s.pointer
      ⟨s.ctx.rxReadPointer, s.allocAnswers, s.freeCount, s.errorsIn + 1, rfl⟩ hb hl
    refine ⟨none, u, out, ?_, k⟩
    rw [receiveOneBody_eq]
    refine (runs_atStep 1).then (runs_get ?_)
    rw [if_pos hp]
    exact h.runs
  by_cases hn : RingValid s.cfg.toParams s.header.1.toNat
  case neg =>
    obtain ⟨u, out, h, k⟩ := leaves_failValidation (s := s) (t := s.past) .nextOffsetInvalid s.header.1.toNat
      ⟨s.past.ctx.rxReadPointer, s.allocAnswers, s.freeCount, s.errorsIn + 1, rfl⟩ hb hl
    refine ⟨none, u, out, runs_receiveOneBody hp ((runs_atStep 3).then ?_), k⟩
    rw [if_pos hn]
    exact h.runs
  by_cases hf : (s.cfg.etherMin : Int) ≤ s.frameLength + s.cfg.ethHdrSize
      ∧ s.frameLength + s.cfg.ethHdrSize ≤ s.cfg.etherMax
  case neg =>
    obtain ⟨u, out, h, k⟩ := leaves_failValidation (s := s) (t := s.past) .frameLengthInvalid s.header.2.toNat
      ⟨s.past.ctx.rxReadPointer, s.allocAnswers, s.freeCount, s.errorsIn + 1, rfl⟩ hb hl
    refine ⟨none, u, out, runs_receiveOneBody hp ((runs_atStep 3).then ?_), k⟩
    rw [if_neg (not_not_intro hn)]
    refine (runs_atStep 4).then ?_
    unfold State.frameLength at hf
    rw [if_pos hf]
    exact h.runs
  obtain ⟨r, l, n, e, out, h⟩ := runs_receiveOneBody_valid ⟨hp, hn, hf⟩
  exact ⟨r, _, out, h, rfl, rfl, rfl, rfl, rfl, rfl, Nat.le_refl _⟩

end Receiving

end Sys2Proof.Machine
end

section
/-! SUPPORT. `DISPATCH` with no other agent moving: the packet loop, the handlers in front of it, and where they are
held. -/

namespace Sys2Proof.Machine

section Loop

variable {s : State} {q : List Frame}

/-! ### The packet loop -/

theorem packetRounds_succ (n : Nat) : packetRounds (n + 1) = (get >>= fun s : State =>
    if s.moreToCome then throw .held else
    regReadBit .iflag .iflagPkt >>= fun pkt => if pkt then
      regSet .ctl [.ctlPktdec] >>= fun _ => receiveOne >>= fun r => deliverReceived r >>= fun _ => packetRounds n
    else return ()) := rfl

/-- Once the counter is 0 the loop is over (R172). -/
theorem leaves_packetRounds_done (n : Nat) (hg : s.again = []) (hp : s.chip.pktcnt = 0) :
    Leaves (packetRounds (n + 1)) s () s [] := by
  have hb : s.chip.bit .iflagPkt = false := by simp [Chip.bit, Chip.pktFlag, hp]
  have hr := leaves_regReadBit (s := s) .iflag .iflagPkt
  rw [hb] at hr
  rw [packetRounds_succ]
  refine leaves_get ?_
  rw [if_neg (by rw [State.moreToCome_none hg]; simp)]
  exact hr.thenLeaves leaves_pure

/-- A packet taken off the counter (R40). -/
def State.taken (s : State) : State := { s with chip := { s.chip with pktcnt := s.chip.pktcnt - 1 } }

theorem leaves_pktdec : Leaves (regSet .ctl [.ctlPktdec]) s () s.taken [] := leaves_regSet _ _

/-- An iteration of the loop (R165 step 4). -/
theorem leaves_packetRounds_next {n : Nat} {r : Option Packet} {u v w : State} {out out' out'' : List TraceEvent}
    (hg : s.again = []) (hp : 0 < s.chip.pktcnt) (h : Leaves receiveOne s.taken r u out)
    (hd : Leaves (deliverReceived r) u () v out') (hn : Leaves (packetRounds n) v () w out'') :
    Leaves (packetRounds (n + 1)) s () w ((out'' ++ out') ++ out) := by
  have hb : s.chip.bit .iflagPkt = true := by simp [Chip.bit, Chip.pktFlag]; omega
  have hr := leaves_regReadBit (s := s) .iflag .iflagPkt
  rw [hb] at hr
  rw [packetRounds_succ]
  refine leaves_get ?_
  rw [if_neg (by rw [State.moreToCome_none hg]; simp)]
  exact hr.thenLeaves (leaves_pktdec.thenLeaves (h.bindLeaves (hd.bindLeaves hn)))

theorem stays_packetRounds {n : Nat} {u : State} {q' : List Frame} {out : List TraceEvent}
    (hg : s.again = []) (hp : 0 < s.chip.pktcnt) (h : Stays receiveOne s.taken q u q' out) :
    Stays (packetRounds (n + 1)) s q u q' out := by
  have hb : s.chip.bit .iflagPkt = true := by simp [Chip.bit, Chip.pktFlag]; omega
  have hr := leaves_regReadBit (s := s) .iflag .iflagPkt
  rw [hb] at hr
  rw [packetRounds_succ]
  refine stays_get ?_
  rw [if_neg (by rw [State.moreToCome_none hg]; simp)]
  exact hr.thenStays (leaves_pktdec.thenStays h.bind)

/-- A delivery is counted (R169). -/
theorem leaves_deliverReceived (r : Option Packet) :
    ∃ d out, d ≤ 1 ∧ Leaves (deliverReceived r) s () { s with packetsIn := s.packetsIn + d } out := by
  cases r with
  | none => exact ⟨0, _, Nat.zero_le _, leaves_pure⟩
  | some pkt =>
    have hu : Leaves (update fun s => { s with packetsIn := s.packetsIn + 1 }) s ()
      { s with packetsIn := s.packetsIn + 1 } [] := leaves_update (fun _ _ _ => rfl) rfl
    have he : ∀ u : State, Leaves (update (·.emit (.deliver (laneOf s.cfg.toParams (frameOf pkt)) pkt))) u () u
      [.deliver (laneOf s.cfg.toParams (frameOf pkt)) pkt] := fun u hu =>
      ⟨hu, fun _ _ _ => ⟨[.deliver (laneOf s.cfg.toParams (frameOf pkt)) pkt], rfl, rfl⟩⟩
    exact ⟨1, _, Nat.le_refl _, leaves_get (hu.thenLeaves (he _))⟩

/-- What the packet loop leaves. -/
structure Looped (s u : State) : Prop where
  cfg : u.cfg = s.cfg
  packetsOut : u.packetsOut = s.packetsOut
  flags : u.chip.flags = s.chip.flags
  pktcnt : u.chip.pktcnt = 0
  low : s.packetsIn ≤ u.packetsIn
  high : u.packetsIn ≤ s.packetsIn + s.chip.pktcnt

/-- Where no receive is in flight the loop ends, the counter then being 0 (R172, R186). -/
theorem leaves_packetRounds {n : Nat} (hg : s.again = []) (hb : s.chip.rxbusy = false) (hl : s.cfg.spinLimit ≠ some 0)
    (hn : s.chip.pktcnt < n) : ∃ u out, Leaves (packetRounds n) s () u out ∧ Looped s u := by
  induction n generalizing s with
  | zero => omega
  | succ n ih =>
    by_cases hp : s.chip.pktcnt = 0
    · exact ⟨s, _, leaves_packetRounds_done n hg hp, rfl, rfl, rfl, hp, Nat.le_refl _, Nat.le_add_right _ _⟩
    obtain ⟨r, u, out, hr, k⟩ := leaves_receiveOne (s := s.taken) hb hl
    obtain ⟨d, out', hd1, hd⟩ := leaves_deliverReceived (s := u) r
    have hpk : u.chip.pktcnt ≤ s.chip.pktcnt - 1 := k.pktcnt
    have hpi : u.packetsIn = s.packetsIn := k.packetsIn
    obtain ⟨v, out'', hv, l⟩ := ih (s := { u with packetsIn := u.packetsIn + d }) (k.again.trans hg) (k.rxbusy.trans hb)
      (by show u.cfg.spinLimit ≠ _; rw [k.cfg]; exact hl) (by show u.chip.pktcnt < n; omega)
    have h1 : u.packetsIn + d ≤ v.packetsIn := l.low
    have h2 : v.packetsIn ≤ u.packetsIn + d + u.chip.pktcnt := l.high
    exact ⟨v, _, leaves_packetRounds_next hg (by omega) hr hd hv, l.cfg.trans k.cfg, l.packetsOut.trans k.packetsOut,
      l.flags.trans k.flags, l.pktcnt, by omega, by omega⟩

theorem State.lt_pktRounds (s : State) : s.chip.pktcnt < s.pktRounds := by unfold State.pktRounds; omega

theorem packetLoop_eq : packetLoop = (get >>= fun s : State => packetRounds s.pktRounds) := rfl

theorem leaves_packetLoop (hg : s.again = []) (hb : s.chip.rxbusy = false) (hl : s.cfg.spinLimit ≠ some 0) :
    ∃ u out, Leaves packetLoop s () u out ∧ Looped s u := by
  obtain ⟨u, out, h, k⟩ := leaves_packetRounds hg hb hl s.lt_pktRounds
  exact ⟨u, out, leaves_get h, k⟩

theorem leaves_packetLoop_done (hg : s.again = []) (hp : s.chip.pktcnt = 0) : Leaves packetLoop s () s [] :=
  leaves_get (leaves_packetRounds_done _ hg hp)

theorem stays_packetLoop {u : State} {q' : List Frame} {out : List TraceEvent}
    (hg : s.again = []) (hp : 0 < s.chip.pktcnt) (h : Stays receiveOne s.taken q u q' out) :
    Stays packetLoop s q u q' out := stays_get (stays_packetRounds hg hp h)

end Loop

/-! ### The handlers -/

section Handlers

variable {s u : State} {q : List Frame} {f : IFlags} {out : List TraceEvent}

/-- Completed and aborted transmits counted and their flags cleared (R167). -/
def State.transmitted (f : IFlags) (s : State) : State :=
  { s with
    packetsOut := s.packetsOut + (if f.txdone then 1 else 0)
    errorsOut := s.errorsOut + (if f.txabt then 1 else 0)
    chip := { s.chip with flags := { s.chip.flags with
      txdone := s.chip.flags.txdone && !f.txdone
      txabt := s.chip.flags.txabt && !f.txabt } } }

/-- A receive-abort counted and its flag cleared (R168). -/
def State.overflowed (f : IFlags) (s : State) : State :=
  { s with
    errorsIn := s.errorsIn + (if f.rxabt then 1 else 0)
    chip := { s.chip with flags := { s.chip.flags with rxabt := s.chip.flags.rxabt && !f.rxabt } } }

theorem leaves_countDone : Leaves (onlyIf f.txdone countDone) s () { s with
    packetsOut := s.packetsOut + (if f.txdone then 1 else 0)
    chip := { s.chip with flags := { s.chip.flags with txdone := s.chip.flags.txdone && !f.txdone } } } [] := by
  cases f.txdone
  · exact Leaves.to leaves_pure (by simp)
  · refine Leaves.to ((leaves_update (k := fun s => { s with packetsOut := s.packetsOut + 1 }) (fun _ _ _ => rfl)
      rfl).thenLeaves (leaves_regClear _ _)) ?_
    simp [State.onChip, Chip.clearBits, Chip.clearBit, Chip.storeBit]

theorem leaves_countAbort : Leaves (onlyIf f.txabt countAbort) s () { s with
    errorsOut := s.errorsOut + (if f.txabt then 1 else 0)
    chip := { s.chip with flags := { s.chip.flags with txabt := s.chip.flags.txabt && !f.txabt } } } [] := by
  cases f.txabt
  · exact Leaves.to leaves_pure (by simp)
  · refine Leaves.to ((leaves_update (k := fun s => { s with errorsOut := s.errorsOut + 1 }) (fun _ _ _ => rfl)
      rfl).thenLeaves (leaves_regClear _ _)) ?_
    simp [State.onChip, Chip.clearBits, Chip.clearBit, Chip.storeBit]

/-- Step 2 of R165, with whatever its end makes of the queue. -/
theorem runs_handleTransmit (h : Leaves (onlyIf (!s.sendq.isEmpty) kick) (s.transmitted f) () u out) :
    Runs (handleTransmit f) s () u out :=
  (runs_atStep 2).then (leaves_countDone.then (leaves_countAbort.then (runs_get h.runs)))

/-- Step 2 of R165 with nothing to send. -/
theorem runs_transmit_still (h : ¬ ((f.txdone || f.txabt) = true ∧ s.sendq ≠ [])) :
    Runs (onlyIf (f.txdone || f.txabt) (handleTransmit f)) s () (s.transmitted f) [] := by
  cases hf : f.txdone || f.txabt
  · simp only [Bool.or_eq_false_iff] at hf
    exact (Leaves.to leaves_pure (by simp [State.transmitted, hf.1, hf.2])).runs
  · have hq : s.sendq = [] := Classical.not_not.1 fun hq => h ⟨hf, hq⟩
    refine runs_handleTransmit ?_
    rw [hq]
    exact leaves_pure

/-- Step 2 of R165 with a packet queued: one `KICK` (R167). -/
theorem runs_transmit_kick (hf : (f.txdone || f.txabt) = true) (hq : s.sendq ≠ [])
    (h : Leaves kick (s.transmitted f) () u out) :
    Runs (onlyIf (f.txdone || f.txabt) (handleTransmit f)) s () u out := by
  rw [hf]
  refine runs_handleTransmit ?_
  have hb : (!s.sendq.isEmpty) = true := by simpa using hq
  rw [hb]
  exact h

theorem runs_overflow : Runs (onlyIf f.rxabt handleOverflow) s () (s.overflowed f) [] := by
  cases hf : f.rxabt
  · exact (Leaves.to leaves_pure (by simp [State.overflowed, hf])).runs
  · refine (runs_atStep 3).then (Runs.to ((leaves_update (k := fun s => { s with errorsIn := s.errorsIn + 1 })
      (fun _ _ _ => rfl) rfl).then (leaves_regClear _ _).runs) ?_)
    simp [State.overflowed, hf, State.onChip, Chip.clearBits, Chip.clearBit, Chip.storeBit]

/-- Steps 2 to 5 of R165 with no packet in the snapshot. -/
theorem runs_dispatchRest (hf : f.pkt = false)
    (h : Runs (onlyIf (f.txdone || f.txabt) (handleTransmit f)) s () u out) :
    Runs (dispatchRest f) s () (u.overflowed f) out := by
  unfold dispatchRest
  rw [hf]
  exact h.bind (out' := []) (runs_overflow.then (leaves_pure.then (runs_atStep 5)))

/-! ### `KICK` -/

theorem leaves_memWrite {a : Nat} {bs : List Byte} (h : a + bs.length ≤ s.cfg.memSize) :
    Leaves (memWrite a bs) s () { s with mem := s.mem.writeBytes a bs } [] := fun hs =>
  ⟨hs, fun q g tr => ⟨[.memWrite a bs], by rw [memWrite_run, tick_dress hs, if_pos (by exact h)]; rfl, rfl⟩⟩

/-- What a `KICK` leaves as it was. -/
structure Kicked (s u : State) : Prop where
  cfg : u.cfg = s.cfg
  again : u.again = s.again
  packetsIn : u.packetsIn = s.packetsIn
  packetsOut : u.packetsOut = s.packetsOut
  flags : u.chip.flags = s.chip.flags
  rxbusy : u.chip.rxbusy = s.chip.rxbusy
  pktcnt : u.chip.pktcnt = s.chip.pktcnt

theorem Kicked.refl (s : State) : Kicked s s := ⟨rfl, rfl, rfl, rfl, rfl, rfl, rfl⟩

/-- Step 4 of R151 and what follows it, for the packet taken off the queue. -/
def sendFrame (p : Config) (pkt : Packet) : Op Unit :=
  if (frameOf pkt).length = 0 ∨ p.txCapacity < (frameOf pkt).length then do
    release pkt
    raise .txTooLong (.number (frameOf pkt).length)
  else do
    atStep 5
    memWrite p.txStart (frameOf pkt)
    atStep 6
    release pkt
    atStep 7
    regWrite .txlen (BitVec.ofNat 16 (frameOf pkt).length)
    atStep 8
    regSet .ctl [.ctlTxrts]

theorem sendHead_eq (pkt : Packet) : sendHead pkt = (do
    atStep 3
    update (fun s => { s with sendq := s.sendq.tail })
    let s ← get
    atStep 4
    sendFrame s.cfg pkt) := rfl

theorem runs_sendFrame (pkt : Packet) : ∃ u out, Runs (sendFrame s.cfg pkt) s () u out ∧ Kicked s u := by
  unfold sendFrame
  by_cases hl : (frameOf pkt).length = 0 ∨ s.cfg.txCapacity < (frameOf pkt).length
  · rw [if_pos hl]
    exact ⟨_, _, (leaves_release pkt).bind (leaves_raise .txTooLong _).runs, rfl, rfl, rfl, rfl, rfl, rfl, rfl⟩
  · have hm := leaves_memWrite (s := s) (a := s.cfg.txStart) (bs := frameOf pkt) (by
      have := config_transmit s.cfg
      omega)
    rw [if_neg hl]
    exact ⟨_, _, (runs_atStep 5).then (hm.then ((runs_atStep 6).then ((leaves_release pkt).bind ((runs_atStep 7).then
      ((leaves_regWrite .txlen _).then ((runs_atStep 8).then (leaves_regSet .ctl [.ctlTxrts]).runs)))))),
      rfl, rfl, rfl, rfl, rfl, rfl, rfl⟩

/-- Steps 3 to 8 of R151 end. -/
theorem runs_sendHead (pkt : Packet) : ∃ u out, Runs (sendHead pkt) s () u out ∧ Kicked s u := by
  have hd : Leaves (update fun s => { s with sendq := s.sendq.tail }) s () { s with sendq := s.sendq.tail } [] :=
    leaves_update (fun _ _ _ => rfl) rfl
  obtain ⟨u, out, h, k⟩ := runs_sendFrame (s := { s with sendq := s.sendq.tail }) pkt
  rw [sendHead_eq]
  exact ⟨u, out, (runs_atStep 3).then (hd.then (runs_get ((runs_atStep 4).then h))),
    k.cfg, k.again, k.packetsIn, k.packetsOut, k.flags, k.rxbusy, k.pktcnt⟩

/-- `KICK` ends (R151). -/
theorem runs_kickBody : ∃ u out, Runs kickBody s () u out ∧ Kicked s u := by
  have hr := leaves_regReadBit (s := s) .ctl .ctlTxrts
  cases hb : s.chip.bit .ctlTxrts
  · rw [hb] at hr
    cases hq : s.sendq with
    | nil =>
      refine ⟨s, [], (runs_atStep 1).then (hr.then ((runs_atStep 2).then (runs_get ?_))), Kicked.refl s⟩
      rw [hq]
      exact leaves_pure.runs
    | cons pkt rest =>
      obtain ⟨u, out, h, k⟩ := runs_sendHead (s := s) pkt
      refine ⟨u, out, (runs_atStep 1).then (hr.then ((runs_atStep 2).then (runs_get ?_))), k⟩
      rw [hq]
      exact h
  · rw [hb] at hr
    exact ⟨s, [], (runs_atStep 1).then (hr.then leaves_pure.runs), Kicked.refl s⟩

/-! ### `DISPATCH` behind its `RECONCILE` -/

/-- Step 2 of R165 ends. -/
theorem runs_transmit : ∃ u out, Runs (onlyIf (f.txdone || f.txabt) (handleTransmit f)) s () u out
    ∧ Kicked (s.transmitted f) u := by
  by_cases h : (f.txdone || f.txabt) = true ∧ s.sendq ≠ []
  · obtain ⟨u, out, hk, k⟩ := runs_kickBody (s := s.transmitted f)
    exact ⟨u, out, runs_transmit_kick h.1 h.2 hk.call, k⟩
  · exact ⟨_, _, runs_transmit_still h, Kicked.refl _⟩

/-- What steps 2 to 5 of R165 leave. -/
structure Dispatched (f : IFlags) (s u : State) : Prop where
  packetsOut : u.packetsOut = (s.transmitted f).packetsOut
  flags : u.chip.flags = ((s.transmitted f).overflowed f).chip.flags
  pktcnt : f.pkt = true → u.chip.pktcnt = 0
  low : s.packetsIn ≤ u.packetsIn
  high : u.packetsIn ≤ s.packetsIn + s.chip.pktcnt

/-- Where no receive is in flight steps 2 to 5 of R165 end. -/
theorem exists_dispatchRest (hg : s.again = []) (hb : s.chip.rxbusy = false) (hl : s.cfg.spinLimit ≠ some 0) :
    ∃ u out, Runs (dispatchRest f) s () u out ∧ Dispatched f s u := by
  obtain ⟨v, out, hv, k⟩ := runs_transmit (f := f) (s := s)
  have flags : (v.overflowed f).chip.flags = ((s.transmitted f).overflowed f).chip.flags := by
    simp only [State.overflowed, k.flags]
  cases hf : f.pkt
  · refine ⟨_, _, runs_dispatchRest hf hv, k.packetsOut, flags, fun h => ?_, Nat.le_of_eq k.packetsIn.symm, ?_⟩
    · rw [hf] at h; cases h
    · exact Nat.le_trans (Nat.le_of_eq k.packetsIn) (Nat.le_add_right _ _)
  · obtain ⟨u, out', hu, l⟩ := leaves_packetLoop (s := v.overflowed f) (k.again.trans hg) (k.rxbusy.trans hb)
      (by show v.cfg.spinLimit ≠ _; rw [k.cfg]; exact hl)
    refine ⟨u, out' ++ out, ?_, l.packetsOut.trans k.packetsOut, l.flags.trans flags, fun _ => l.pktcnt,
      Nat.le_trans (Nat.le_of_eq k.packetsIn.symm) l.low, Nat.le_trans l.high (Nat.le_of_eq ?_)⟩
    rotate_left
    · exact congrArg₂ (· + ·) k.packetsIn k.pktcnt
    · unfold dispatchRest
      rw [hf]
      exact hv.bind (out' := out') (runs_overflow.then (((runs_atStep 4).then hu.runs).bind (out' := [])
        (runs_atStep 5)))

/-- The flags of the link cleared (R166). -/
def State.unlinked (s : State) : State :=
  { s with chip := { s.chip with flags := { s.chip.flags with link := false } } }

theorem leaves_clearLink : Leaves (regClear .iflag [.iflagLink]) s () s.unlinked [] := leaves_regClear _ _

theorem runs_dispatchAfterReconcile (h : Runs (dispatchRest f) s.unlinked () u out) :
    Runs (dispatchAfterReconcile f) s () u out := leaves_clearLink.then h

end Handlers

/-! ### `DISPATCH` from its beginning -/

section Begin

variable {s u : State} {q : List Frame} {out : List TraceEvent}

/-- `DISPATCH` behind its snapshot (R165 steps 1 to 5). -/
def dispatchFrom (f : IFlags) : Op Unit :=
  if f.link then do
    atStep 1
    reconcile
    dispatchAfterReconcile f
  else dispatchRest f

/-- The snapshot (R165 step 0). -/
theorem dispatchBody_run {k : Nat} {snap : Option IFlags} (hs : s.agenda = []) (g : Guise) (tr : List TraceEvent) :
    dispatchBody (s.dress (⟨.dispatch, k, snap⟩ :: q) g tr)
      = dispatchFrom s.chip.iflags (s.dress (⟨.dispatch, k, some s.chip.iflags⟩ :: q) g (.regRead .iflag :: tr)) := by
  have e : dispatchBody = (regReadFlags >>= fun f => update (·.setSnapshot f) >>= fun _ => dispatchFrom f) := rfl
  rw [e, op_bind, regReadFlags_run, tick_dress hs]
  rfl

theorem stays_dispatchBody {k : Nat} {snap : Option IFlags} {q' : List Frame}
    (h : Stays (dispatchFrom s.chip.iflags) s (⟨.dispatch, k, some s.chip.iflags⟩ :: q) u q' out) :
    Stays dispatchBody s (⟨.dispatch, k, snap⟩ :: q) u q' out := fun hs g tr => by
  obtain ⟨e, h1, h2⟩ := h hs g (.regRead .iflag :: tr)
  refine ⟨e ++ [.regRead .iflag], ?_, by rw [outputs_append, h2]; exact List.append_nil _⟩
  rw [dispatchBody_run hs, h1, List.append_assoc]
  rfl

/-- A `DISPATCH` as a command that ends. -/
theorem dispatch_ends (hs : s.Ready) (h : Runs (dispatchFrom s.chip.iflags) s () u out) :
    Completes (exec .dispatch s) s
      { u with seq := [], ipl := s.ipl, savedIpl := s.ipl, context := none, result := some .unit } out := by
  obtain ⟨-, h⟩ := h hs.1.2.1
  obtain ⟨n, e, h1, h2⟩ := h .dispatch 0 (some s.chip.iflags) [] ⟨.device, s.ipl, some .request, none⟩
    (.regRead .iflag :: s.trace)
  have hd : dispatchBody (s.beginCommand .dispatch) = _ :=
    (dispatchBody_run (s := s) (q := []) (k := 0) (snap := none) hs.1.2.1 ⟨.device, s.ipl, some .request, none⟩
      s.trace).trans h1
  refine ⟨e ++ [.regRead .iflag], State.finish .unit (u.dress [⟨.dispatch, n, some s.chip.iflags⟩]
    ⟨.device, s.ipl, some .request, none⟩ (e ++ .regRead .iflag :: s.trace)), ?_, rfl, ?_, ?_⟩
  · rw [exec, execDispatch, runProbed_probed hs.2, runCommand_run hs.1.1, op_bind, hd]
    rfl
  · rw [List.append_assoc]
    rfl
  · rw [outputs_append, h2]
    exact List.append_nil _

/-- Held in its `RECONCILE` (R166, R292). -/
theorem stays_dispatch_link {k : Nat} {snap : Option IFlags} (hf : s.chip.flags.link = true)
    (hb : s.chip.fcidle = false)
    (hl : s.cfg.spinLimit = none) : Stays dispatchBody s (⟨.dispatch, k, snap⟩ :: q) s
      (⟨.reconcile, 1, none⟩ :: ⟨.dispatch, 1, some s.chip.iflags⟩ :: q) [] := by
  have hi : s.chip.iflags.link = true := hf
  refine stays_dispatchBody ?_
  rw [dispatchFrom, if_pos hi]
  exact stays_atStep 1 (stays_reconcile hb hl).bind

/-- Held in the recovery of its packet loop (R172, R292). -/
theorem stays_dispatch_packets {k : Nat} {snap : Option IFlags} (hf : s.chip.flags = ⟨false, false, false, false⟩)
    (hp : 0 < s.chip.pktcnt) (hv : ¬ RingValid s.cfg.toParams s.pointer) (hg : s.again = [])
    (hc : s.ctx.resetCounter < s.cfg.maxResets) (hb : s.chip.rxbusy = true) (hl : s.cfg.spinLimit = none) :
    Stays dispatchBody s (⟨.dispatch, k, snap⟩ :: q) { s.taken.recovering with errorsIn := s.errorsIn + 1 }
      (⟨.recover, 5, none⟩ :: ⟨.receiveOne, 1, none⟩ :: ⟨.dispatch, 4, some s.chip.iflags⟩ :: q)
      [.raised .ringPointerInvalid (.number s.pointer)] := by
  have hi : s.chip.iflags = ⟨false, false, false, false, true⟩ := by
    have hpk : s.chip.pktFlag = true := by simpa [Chip.pktFlag] using hp
    simp only [Chip.iflags, hf, hpk]
  have hr : Stays receiveOne s.taken _ _ _ _ :=
    (stays_receiveOneBody_pointer (s := s.taken) (k := 0) (q := ⟨.dispatch, 4, some s.chip.iflags⟩ :: q) hv hc hb
      hl).call
  refine stays_dispatchBody ?_
  rw [hi] at hr ⊢
  exact leaves_pure.thenStays (leaves_pure.thenStays (Stays.bind (stays_atStep 4 (stays_packetLoop hg hp hr))))

end Begin

end Sys2Proof.Machine
end

section
/-! SUPPORT. The busy-waits without a bound (R292): held, still held, and gone on with. -/

namespace Sys2Proof.Machine

/-! ### Held -/

section Held

variable {s : State} {q : List Frame}

theorem stays_setFlags (hp : s.ctx.probed = true) (ha : s.ctx.addrKnown = true) (hi : s.initialized = false)
    (hb : s.chip.fcidle = false) (hl : s.cfg.spinLimit = none) :
    Stays (setFlagsBody true) s [⟨.setFlags, 0, none⟩] (State.prepared { s with adminUp := true })
      [⟨.reconcile, 1, none⟩, ⟨.initialise, 4, none⟩, ⟨.setFlags, 0, none⟩] [] := by
  have hu : Leaves (update fun s => { s with adminUp := true }) s () { s with adminUp := true } [] :=
    leaves_update (fun _ _ _ => rfl) rfl
  refine hu.thenStays (stays_get ?_)
  rw [if_pos (by simp [hi])]
  exact (stays_initialiseBody (s := { s with adminUp := true }) hp ha hi hb hl).call.bind

/-- A held operation whose wait is not met stays (R292). -/
theorem completes_held {t : State} {callers : List Frame} (ht : t.Still) (hl : t.cfg.spinLimit = none)
    (h : t.seq = ⟨.recover, 5, none⟩ :: callers ∧ t.chip.rxbusy = true
      ∨ t.seq = ⟨.reconcile, 1, none⟩ :: callers ∧ t.chip.fcidle = false) : Completes (step t) t t [] := by
  rcases h with ⟨hq, hb⟩ | ⟨hq, hb⟩
  · exact step_stays ht hq (stays_recoverFromWait hb hl)
  · exact step_stays ht hq (stays_reconcileBody hb hl)

end Held

/-! ### Resumed -/

section Resumed

variable {t u : State} {q : List Frame} {c : Context} {out : List TraceEvent}

theorem returns_recover (hb : t.chip.rxbusy = false) (hl : t.cfg.spinLimit = none)
    (h : Returns q t.recoveredFromWait u out) : Returns (⟨.recover, 5, none⟩ :: q) t u out :=
  Runs.thenReturns (fr := ⟨.recover, 5, none⟩) (runs_recoverFromWait hb (by rw [hl]; simp)) h

theorem returns_reconcile (hb : t.chip.fcidle = true) (hl : t.cfg.spinLimit = none)
    (h : Returns q { t with chip := t.duplexSettings } u out) : Returns (⟨.reconcile, 1, none⟩ :: q) t u out :=
  Runs.thenReturns (fr := ⟨.reconcile, 1, none⟩) (runs_reconcileBody hb (by rw [hl]; simp)) h

/-- `RECEIVE_ONE` has nothing left to do behind its `RECOVER` (R131). -/
theorem returns_receiveOne {n : Nat} (hn : n ∈ [1, 3, 4]) (h : Returns q t u out) :
    Returns (⟨.receiveOne, n, none⟩ :: q) t u out := by
  refine Runs.thenReturns ?_ h
  simp only [List.mem_cons, List.not_mem_nil, or_false] at hn
  rcases hn with rfl | rfl | rfl <;> exact leaves_pure.runs

/-- The packet loop finds nothing behind the drain of the recovery (R172, R186). -/
theorem returns_packets {f : IFlags} (hg : t.again = []) (hp : t.chip.pktcnt = 0) :
    Returns [⟨.dispatch, 4, some f⟩] t t [] :=
  Runs.thenReturns (fr := ⟨.dispatch, 4, some f⟩) ((leaves_packetLoop_done hg hp).then (runs_atStep 5)) returns_nil

theorem returns_initialise (h : Returns q t.enabled u out) : Returns (⟨.initialise, 4, none⟩ :: q) t u out :=
  Runs.thenReturns (fr := ⟨.initialise, 4, none⟩) (leaves_initialiseAfterReconcile.then (runs_atStep 5)) h

theorem returns_setFlags : Returns [⟨.setFlags, 0, none⟩] t t [] :=
  Runs.thenReturns (fr := ⟨.setFlags, 0, none⟩) leaves_pure.runs returns_nil

/-- `DISPATCH` behind its `RECONCILE`, the duplex applied and the link flag cleared (R166). -/
def State.relinked (t : State) : State := State.unlinked { t with chip := t.duplexSettings }

theorem returns_link {f : IFlags} (hb : t.chip.fcidle = true) (hl : t.cfg.spinLimit = none)
    (h : Runs (dispatchRest f) t.relinked () u out) :
    Returns [⟨.reconcile, 1, none⟩, ⟨.dispatch, 1, some f⟩] t u out :=
  returns_reconcile hb hl (Runs.returns (fr := ⟨.dispatch, 1, some f⟩) (out' := [])
    (runs_dispatchAfterReconcile h) returns_nil)

theorem State.duplexSettings_frame (t : State) : t.duplexSettings.flags = t.chip.flags
    ∧ t.duplexSettings.rxbusy = t.chip.rxbusy ∧ t.duplexSettings.pktcnt = t.chip.pktcnt := by
  unfold State.duplexSettings
  split <;> exact ⟨rfl, rfl, rfl⟩

theorem relinked_eq (t : State) :
    t.relinked = { t with chip := { t.duplexSettings with flags := { t.chip.flags with link := false } } } := by
  simp only [State.relinked, State.unlinked, t.duplexSettings_frame.1]

theorem overflowed_eq {f : IFlags} {b : Bool} (h : t.chip.flags.rxabt = b) : t.overflowed f = { t with
    errorsIn := t.errorsIn + (if f.rxabt then 1 else 0)
    chip := { t.chip with flags := { t.chip.flags with rxabt := b && !f.rxabt } } } := by
  rw [← h]
  rfl

theorem transmitted_relinked (t : State) (f : IFlags) : t.relinked.transmitted f = { t with
    packetsOut := t.packetsOut + (if f.txdone then 1 else 0)
    errorsOut := t.errorsOut + (if f.txabt then 1 else 0)
    chip := { t.duplexSettings with flags :=
      ⟨false, t.chip.flags.txdone && !f.txdone, t.chip.flags.txabt && !f.txabt, t.chip.flags.rxabt⟩ } } := by
  simp only [State.transmitted, State.relinked, State.unlinked, t.duplexSettings_frame.1]

/-- Without the flag of the link a `DISPATCH` is its steps 2 to 5 (R165). -/
theorem dispatchFrom_relinked {f : IFlags} (hf : t.chip.iflags = f) :
    dispatchFrom t.relinked.chip.iflags = dispatchRest f := by
  have e : t.relinked.chip.iflags = ⟨false, f.txdone, f.txabt, f.rxabt, f.pkt⟩ := by
    rw [← hf]
    simp only [State.relinked, State.unlinked, Chip.iflags, Chip.pktFlag, t.duplexSettings_frame.1,
      t.duplexSettings_frame.2.2]
  rw [e]
  rfl

end Resumed

/-! ### A `DISPATCH` resumed behind its `RECONCILE` -/

section Link

variable {t u : State} {c : Context} {f : IFlags} {out : List TraceEvent}

/-- The idle block in such a state, with the priority level that a held operation of `t` restores. -/
def State.idleAfter (t u : State) : State := { u with seq := [], ipl := t.savedIpl, context := none }

theorem step_link (ht : t.Still) (hc : t.context = some c) (hl : t.cfg.spinLimit = none) (hb : t.chip.fcidle = true)
    (hq : t.seq = [⟨.reconcile, 1, none⟩, ⟨.dispatch, 1, some f⟩]) (h : Runs (dispatchRest f) t.relinked () u out) :
    Completes (step t) t (t.endedAs c u .unit) out := step_returns ht hq hc (returns_link hb hl h)

/-- With a transmit flag in the snapshot and a packet queued: one `KICK` (R167). -/
theorem step_link_kick (ht : t.Still) (hc : t.context = some c) (hp : t.ctx.probed = true) (hl : t.cfg.spinLimit = none)
    (hb : t.chip.fcidle = true) (hq : t.seq = [⟨.reconcile, 1, none⟩, ⟨.dispatch, 1, some f⟩]) (hf : f.pkt = false)
    (hk : (f.txdone || f.txabt) = true ∧ t.sendq ≠ []) :
    ∃ (u : State) (out : List TraceEvent), Completes (exec .kick (t.idleAfter (t.relinked.transmitted f)))
        (t.idleAfter (t.relinked.transmitted f)) (u.answered .unit) out
      ∧ u.chip.flags = (t.relinked.transmitted f).chip.flags
      ∧ Completes (step t) t (t.endedAs c (u.overflowed f) .unit) out := by
  obtain ⟨u, out, h, k⟩ := runs_kickBody (s := t.relinked.transmitted f)
  have hr : Runs (do kickBody; return Result.unit : Op Result) (t.idleAfter (t.relinked.transmitted f)) .unit u
    ([] ++ out) :=
    Runs.bind (s := t.idleAfter (t.relinked.transmitted f)) h leaves_pure.runs
  exact ⟨{ u with seq := [], ipl := t.savedIpl }, out, runProbed_ends ⟨⟨rfl, ht⟩, hp⟩ hr, k.flags,
    step_link ht hc hl hb hq (runs_dispatchRest hf (runs_transmit_kick hk.1 hk.2 h.call))⟩

/-- With the flags as in the snapshot: what a `DISPATCH` does then. -/
theorem step_link_again (ht : t.Still) (hc : t.context = some c) (hp : t.ctx.probed = true)
    (hl : t.cfg.spinLimit = none) (hb : t.chip.fcidle = true)
    (hq : t.seq = [⟨.reconcile, 1, none⟩, ⟨.dispatch, 1, some f⟩]) (hr : t.chip.rxbusy = false)
    (hf : t.chip.iflags = f) :
    ∃ (u : State) (out : List TraceEvent),
      Completes (exec .dispatch (t.idleAfter t.relinked)) (t.idleAfter t.relinked) (u.answered .unit) out
      ∧ Completes (step t) t (t.endedAs c u .unit) out := by
  obtain ⟨u, out, h, -⟩ := exists_dispatchRest (f := f) (s := t.relinked) ht.2
    (t.duplexSettings_frame.2.1.trans hr) (by show t.cfg.spinLimit ≠ _; rw [hl]; simp)
  refine ⟨{ u with seq := [], ipl := t.savedIpl }, out, dispatch_ends (s := t.idleAfter t.relinked) ⟨⟨rfl, ht⟩, hp⟩ ?_,
    step_link ht hc hl hb hq h⟩
  have e : dispatchFrom (t.idleAfter t.relinked).chip.iflags = dispatchRest f := dispatchFrom_relinked hf
  rw [e]
  exact h

end Link

/-- Settles O30: each wait is reached by computing the operation up to it (`Stays`), and the frames of a held operation
return one by one (`Returns`). -/
theorem busyWaitsHold : Obligations.BusyWaitsHold := by
  intro s hs hl
  have hl0 : s.cfg.spinLimit ≠ some 0 := by rw [hl]; simp
  refine ⟨fun hb hc => ⟨?_, fun hv => ?_, fun hv hn => ?_, fun hv hn hf => ?_, fun hv hf hp => ⟨?_, fun hi hipl => ?_⟩⟩,
    fun hb => ⟨?_, fun hf => ⟨?_, fun hi hipl => ?_⟩, fun ha hi => ⟨⟨s.prepared, ?_, hi, rfl, rfl, rfl⟩,
      State.prepared { s with adminUp := true }, ?_, ?_⟩⟩,
    fun t callers hcfg ht h => completes_held ht (by rw [hcfg]; exact hl) h, fun t c hcfg ht hp hc => ?_⟩
  · exact runProbed_held hs (stays_recoverBody hc hb hl).bind
  · exact runProbed_held hs (stays_receiveOneBody_pointer hv hc hb hl).bind
  · exact runProbed_held hs (stays_receiveOneBody_offset hv hn hc hb hl).bind
  · exact runProbed_held hs (stays_receiveOneBody_length hv hn hf hc hb hl).bind
  · exact runProbed_held hs (stays_dispatch_packets hf hp hv hs.1.2.2 hc hb hl).bind
  · exact activate_held hs.1 hi hipl (stays_dispatch_packets hf hp hv hs.1.2.2 hc hb hl) ⟨rfl, rfl⟩
  · exact runProbed_held hs (stays_reconcileBody hb hl).bind
  · exact runProbed_held hs (stays_dispatch_link hf hb hl).bind
  · exact activate_held hs.1 hi hipl (stays_dispatch_link hf hb hl) ⟨rfl, rfl⟩
  · exact runCommand_held hs.1 (stays_initialiseBody hs.2 ha hi hb hl)
  · exact runCommand_held (s := { s with adminUp := true }) hs.1 (stays_initialiseBody hs.2 ha hi hb hl)
  · exact runProbed_held hs (stays_setFlags hs.2 ha hi hb hl)
  have hl : t.cfg.spinLimit = none := by rw [hcfg]; exact hl
  refine ⟨fun hb => ⟨fun hr hq => ?_, fun n hn => ⟨fun hr hq => ?_, fun f hq => ?_⟩⟩, fun hb => ⟨fun hr hq => ?_,
    fun hr => ⟨fun hq => ?_, fun hq => ?_⟩, fun f hq => ⟨fun hf hk => ?_, fun hf hk => ?_, fun hr hf => ?_,
    fun hr hf => ?_⟩⟩⟩
  · exact step_returns ht hq hc (returns_recover hb hl returns_nil)
  · subst hr
    have e : resumedResult [⟨.recover, 5, none⟩, ⟨.receiveOne, n, none⟩] = .packet none := rfl
    rw [← e]
    exact step_returns ht hq hc (returns_recover hb hl (returns_receiveOne hn returns_nil))
  · exact step_returns ht hq hc (returns_recover hb hl (returns_receiveOne hn (returns_packets ht.2 rfl)))
  · exact step_returns ht hq hc (returns_reconcile hb hl returns_nil)
  · exact step_returns ht hq hc (returns_reconcile hb hl (returns_initialise returns_nil))
  · exact step_returns ht hq hc (returns_reconcile hb hl (returns_initialise returns_setFlags))
  · obtain ⟨u, out, h1, h2, h3⟩ := step_link_kick ht hc hp hl hb hq hf hk
    rw [transmitted_relinked] at h1 h2
    rw [overflowed_eq (congrArg StoredFlags.rxabt h2)] at h3
    exact ⟨u, out, h1, h3⟩
  · have h := step_link ht hc hl hb hq (runs_dispatchRest hf (runs_transmit_still (s := t.relinked) hk))
    rw [transmitted_relinked] at h
    exact h
  · obtain ⟨u, out, h, k⟩ := exists_dispatchRest (f := f) (s := t.relinked) ht.2
      (t.duplexSettings_frame.2.1.trans hr) (by show t.cfg.spinLimit ≠ _; rw [hl]; simp)
    obtain ⟨tr, hu⟩ := (step_link ht hc hl hb hq h).next
    have hflags := k.flags
    have hout := k.packetsOut
    rw [transmitted_relinked] at hflags hout
    exact ⟨_, hu, rfl, rfl, rfl, rfl, k.pktcnt hf, hflags, hout, k.low,
      Nat.le_trans k.high (Nat.le_of_eq (congrArg (t.packetsIn + ·) t.duplexSettings_frame.2.2))⟩
  · have h := step_link_again ht hc hp hl hb hq hr hf
    rw [relinked_eq] at h
    exact h

end Sys2Proof.Machine
end

section
/-! SUPPORT. That a command ends or is held, and the run that (F4) excludes: a `DISPATCH` against a chip that raises
`PKTCNT` once in each step, over a header that names its own address. -/

namespace Sys2Proof.Machine

/-! ### The run that does not end -/

/-- A frame begins, and ends without a byte written, but counted (R231, R234). -/
def restlessSlot : Slot := ⟨[.rxBegin, .rxEndCorrupt [] none 1], .command⟩

/-- At the start of the ring a header for a frame of the least length, whose next is at the same address. -/
def restlessMem : Memory := [(0x601, 0x06), (0x602, 0x32)]

/-- Against these moves, with the ring so and none of its packets counted. -/
structure Restless (s : State) : Prop where
  cfg : s.cfg = Config.tc
  agenda : s.agenda = []
  again : s.again = [restlessSlot]
  mem : s.mem = restlessMem
  pointer : s.ctx.rxReadPointer = 0x600
  rxen : s.chip.rxen = true
  rxbusy : s.chip.rxbusy = false
  pktcnt : s.chip.pktcnt = 0

theorem restless_header {s : State} (hc : s.cfg = Config.tc) (hm : s.mem = restlessMem)
    (hp : s.ctx.rxReadPointer = 0x600) : s.HeaderValid ∧ s.header.1 = 0x600 := by
  unfold State.HeaderValid State.frameLength State.header State.ringBytes State.pointer
  rw [hc, hm, hp]
  decide

/-- The moves of the slot. -/
theorem restless_moves {s : State} (hc : s.cfg = Config.tc) (he : s.chip.rxen = true) (hb : s.chip.rxbusy = false)
    (hp : s.chip.pktcnt = 0) : s.applyMoves restlessSlot.moves = { s with chip := { s.chip with pktcnt := 1 } } := by
  have hchip : ({ s.chip with pktcnt := 1, rxbusy := false } : Chip) = { s.chip with pktcnt := 1 } := by rw [← hb]
  simp [State.applyMoves, restlessSlot, State.applyMove, he, hb, State.onChip, State.chipRxEndCorrupt, hp, hc,
    State.CorruptAllowed, Memory.writePairs, Config.tc, Params.tc]

/-- The loop between two iterations, where more is to come (R172). -/
theorem stays_packetRounds_more {s : State} {q : List Frame} (n : Nat) (ha : s.agenda = []) (hg : s.again ≠ []) :
    Stays (packetRounds (n + 1)) s q s q [] := by
  have hm : s.moreToCome = true := by simpa [State.moreToCome, ha] using hg
  rw [packetRounds_succ]
  refine stays_get ?_
  rw [if_pos hm]
  exact fun _ _ _ => ⟨[], rfl, rfl⟩

/-- The state behind the moves. -/
def State.onePacket (s : State) : State := { s with chip := { s.chip with pktcnt := 1 } }

/-- An iteration takes off the counter what the moves have added, and receives the header that names itself. -/
theorem Restless.iteration {s : State} (h : Restless s) (n : Nat) (q : List Frame) : ∃ u out, Restless u
    ∧ Stays (regSet .ctl [.ctlPktdec] >>= fun _ => receiveOne >>= fun r => deliverReceived r >>= fun _ =>
      packetRounds (n + 1)) s.onePacket q u q out := by
  obtain ⟨hv, hn⟩ := restless_header (s := s.onePacket.taken) h.cfg h.mem h.pointer
  obtain ⟨r, l, m, e, out, hr⟩ := runs_receiveOneBody_valid hv
  rw [hn] at hr
  obtain ⟨d, out', -, hd⟩ := leaves_deliverReceived (s := (s.onePacket.taken.releasedTo 0x600).drawn 0x600 l m e) r
  have hm : (((s.onePacket.taken.releasedTo 0x600).drawn 0x600 l m e).again) ≠ [] := by
    show s.again ≠ []
    rw [h.again]
    exact List.cons_ne_nil _ _
  refine ⟨_, _, ?_, leaves_pktdec.thenStays (Leaves.bindStays hr.call (hd.bindStays
    (stays_packetRounds_more n h.agenda hm)))⟩
  exact ⟨h.cfg, h.agenda, h.again, h.mem, rfl, h.rxen, h.rxbusy, rfl⟩

/-- A step of the loop. -/
theorem Restless.packetRounds {s : State} (h : Restless s) (n : Nat) :
    ∃ u, Restless u ∧ u.seq = s.seq ∧ packetRounds (n + 2) s.rearm = .error .held u := by
  have hrearm : s.rearm = { s with agenda := [restlessSlot] } := by simp [State.rearm, h.agenda, h.again]
  have htick : s.rearm.tick = s.onePacket := by
    have hs : ({ s with agenda := [] } : State) = s := by rw [← h.agenda]
    rw [hrearm]
    simp only [State.tick, hs]
    exact restless_moves h.cfg h.rxen h.rxbusy h.pktcnt
  have hm : ¬ s.rearm.moreToCome = true := by rw [hrearm]; simp [State.moreToCome]
  obtain ⟨u, out, hu, hst⟩ := h.iteration n s.seq
  obtain ⟨e, h1, -⟩ := hst h.agenda s.guise (.regRead .iflag :: s.trace)
  refine ⟨u.dress s.seq s.guise (e ++ .regRead .iflag :: s.trace), ⟨hu.cfg, hu.agenda, hu.again, hu.mem, hu.pointer,
    hu.rxen,
    hu.rxbusy, hu.pktcnt⟩, rfl, ?_⟩
  have hb : s.onePacket.chip.bit .iflagPkt = true := rfl
  rw [packetRounds_succ, op_bind, op_get]
  dsimp only
  rw [if_neg hm, op_bind, regReadBit_run, htick, hb]
  exact h1

/-- A `DISPATCH` in its packet loop, and more to come. -/
def Endless (s : State) : Prop := Restless s ∧ LoopShape s.seq

theorem Endless.step {s : State} (h : Endless s) : ∃ t, step s = .next t ∧ Endless t := by
  obtain ⟨hr, f, hq⟩ := h
  have hp : s.rearm.pktRounds = 255 + 2 := by
    simp [State.pktRounds, State.rearm, hr.agenda, hr.again, hr.pktcnt, hr.cfg, Config.tc, Params.tc]
  obtain ⟨u, hu, hs, h1⟩ := hr.packetRounds 255
  refine ⟨u, ?_, hu, f, hs.trans hq⟩
  have hl : packetLoop s.rearm = .error .held u := by
    rw [packetLoop_eq, op_bind, op_get]
    dsimp only
    rw [hp]
    exact h1
  have e : resumeFrame ⟨.dispatch, 4, some f⟩ = (packetLoop >>= fun _ => atStep 5) := rfl
  unfold Machine.step
  rw [hq]
  dsimp only
  rw [resume, State.rearm_seq, hq, resumeFrames, op_bind, op_bind, e, op_bind, hl]
  rfl

theorem Endless.after {s : State} (h : Endless s) (n : Nat) : ∃ t, s.after n = some t ∧ LoopShape t.seq := by
  induction n generalizing s with
  | zero => exact ⟨s, rfl, h.2⟩
  | succ n ih =>
    obtain ⟨t, ht, k⟩ := h.step
    obtain ⟨u, hu, hl⟩ := ih k
    refine ⟨u, ?_, hl⟩
    rw [State.after, ht]
    exact hu

/-- Such a state: a `DISPATCH` that has come to its loop. -/
def endlessDispatch : State :=
  { State.reset with
    ctx := { State.reset.ctx with probed := true, addrKnown := true, rxReadPointer := 0x600 }
    seq := [⟨.dispatch, 4, some ⟨false, false, false, false, true⟩⟩]
    ipl := .device
    context := some .request
    initialized := true
    chip := { State.reset.chip with rxen := true }
    mem := restlessMem
    again := [restlessSlot] }

theorem endless_dispatch : Endless endlessDispatch :=
  ⟨⟨rfl, rfl, rfl, rfl, rfl, rfl, rfl, rfl⟩, _, rfl⟩

theorem endlessDispatch_inv : endlessDispatch.Inv where
  mem_wf := by decide
  mem_within := by decide
  sendq_bound := Nat.zero_le _
  pktcnt_bound := Nat.zero_le _
  idle := fun e => by cases e
  saved := rfl
  held := fun _ => ⟨rfl, rfl, .request, rfl, Or.inr ⟨_, rfl⟩⟩
  recovering := by simp [endlessDispatch, State.reset, State.launch, State.inRecover]
  disabled := by simp [endlessDispatch, State.reset, State.launch]
  counted := fun e => by cases e
  unscheduled := fun _ => rfl
  scheduled := fun d hd => by cases hd
  brought_up := fun _ => ⟨rfl, by decide⟩
  known_probed := fun _ => rfl
  unprobed := fun e => by cases e

/-- Settles O57: every command ends or is held in a state of the invariant (`Ended.exec`); and the loop against a
chip that deposits once in each step goes on for ever (`Endless.step`). -/
theorem commandEndsOrHolds : Obligations.CommandEndsOrHolds := by
  refine ⟨fun s i hi hs => ?_, endlessDispatch, endlessDispatch_inv, endless_dispatch.after⟩
  obtain ⟨t, ht, k⟩ := Ended.exec (C := s.cfg) (h := False) ⟨hi, False.elim, rfl, hs⟩ i False.elim
  refine ⟨t, ht, ?_⟩
  rcases k with k | k
  · exact Or.inl k.seq
  · rw [k.cfg]
    exact Or.inr k.shape

end Sys2Proof.Machine
end

section
/-! SUPPORT. The statements about `REG_READ`, `REG_SET_BITS` and `REG_CLEAR_BITS`: the word that a read returns, bit by
bit, and the two masked writes by the rules of the file before. -/

namespace Sys2Proof.Machine

/-! ### What a register reads as -/

/-- Within one register two named bits have different places (R13). -/
theorem index_inj (C : Config) {r : Reg} {b d : BitName} (hb : b ∈ r.bits) (hd : d ∈ r.bits)
    (h : (C.regmap.index d).val = (C.regmap.index b).val) : d = b := by
  obtain ⟨⟨-, hnodup, -⟩, -⟩ := C.valid
  have hr : r ∈ Reg.all := by cases r <;> decide
  exact List.inj_on_of_nodup_map (hnodup r hr) hd hb (Fin.ext h)

/-- The named bits of a register, each in its place. -/
theorem getLsbD_namedBits (C : Config) (v : BitName → Bool) {r : Reg} {b : BitName} (hb : b ∈ r.bits) :
    (wordOfBits (r.bits.map fun d => ((C.regmap.index d).val, v d))).getLsbD (C.regmap.index b).val = v b := by
  rw [getLsbD_wordOfBits _ (C.regmap.index b).isLt, List.any_map, Bool.eq_iff_iff, List.any_eq_true]
  constructor
  · rintro ⟨d, hd, h⟩
    simp only [Function.comp, Bool.and_eq_true, beq_iff_eq] at h
    rw [← index_inj C hb hd h.2]
    exact h.1
  · exact fun h => ⟨b, hb, by simpa using h⟩

/-- A place that no named bit of the register has. -/
theorem getLsbD_namedBits_outside (m : RegMap) (v : BitName → Bool) {bs : List BitName} {i : Nat} (hi : i < 16)
    (h : ∀ b ∈ bs, (m.index b).val ≠ i) : (wordOfBits (bs.map fun d => ((m.index d).val, v d))).getLsbD i = false := by
  rw [getLsbD_wordOfBits _ hi, List.any_map, List.any_eq_false]
  intro d hd
  simp [h d hd]

/-- The field of the packet counter, in place (assumption 6). -/
theorem getLsbD_pktcntField (m : RegMap) (n : Nat) {i : Nat} (hi : i < 16) :
    (pktcntField m n).getLsbD i = (decide (m.inPktcnt i) && n.testBit (i - m.statPktcntLow)) := by
  simp only [pktcntField, BitVec.getLsbD_ofNat, hi, decide_true, Bool.true_and, Nat.testBit_shiftLeft,
    Nat.testBit_mod_two_pow]
  by_cases h : m.statPktcntLow ≤ i
  · simp only [h, decide_true, Bool.true_and]
    congr 1
    exact decide_eq_decide.2 (by omega)
  · simp [h]

/-- The packet counter's field meets no named bit (R13). -/
theorem getLsbD_pktcntField_named (C : Config) (n : Nat) {b : BitName} (hb : b ∈ Reg.stat.bits) :
    (pktcntField C.regmap n).getLsbD (C.regmap.index b).val = false := by
  obtain ⟨⟨-, -, -, -, hfield⟩, -⟩ := C.valid
  rw [getLsbD_pktcntField _ _ (C.regmap.index b).isLt, decide_eq_false (hfield b hb), Bool.false_and]

/-- A register of named bits as it is read (R110). -/
theorem Chip.readWord_bits (m : RegMap) (c : Chip) (free : Word) {r : Reg} (h : r.wholeField = false) :
    c.readWord m free r = wordOfBits (r.bits.map fun b => ((m.index b).val, c.bit b))
      ||| (if r = .stat then pktcntField m c.pktcnt else 0) ||| (free &&& ~~~ namedMask m r) := by
  fun_cases Chip.readWord m c free r <;> first | rfl | exact absurd h (by decide)

/-- Each named bit reads as itself (R110): neither the counter's field nor a free bit stands in its place. -/
theorem Chip.getLsbD_readWord (C : Config) (c : Chip) (free : Word) {r : Reg} {b : BitName} (hb : b ∈ r.bits) :
    (c.readWord C.regmap free r).getLsbD (C.regmap.index b).val = c.bit b := by
  have hw : r.wholeField = false := by
    simp only [Reg.wholeField, List.isEmpty_eq_false_iff]
    exact List.ne_nil_of_mem hb
  have hfield : (if r = .stat then pktcntField C.regmap c.pktcnt else 0).getLsbD (C.regmap.index b).val = false := by
    split
    · next h => subst h; exact getLsbD_pktcntField_named C _ hb
    · exact BitVec.getLsbD_zero
  have hmask : (namedMask C.regmap r).getLsbD (C.regmap.index b).val = true := by
    rw [namedMask, BitVec.getLsbD_or, bitsMask, getLsbD_namedBits C (fun _ => true) hb, Bool.true_or]
  rw [c.readWord_bits _ free hw, BitVec.getLsbD_or, BitVec.getLsbD_or, getLsbD_namedBits C c.bit hb, hfield,
    BitVec.getLsbD_and, BitVec.getLsbD_not, hmask]
  simp

/-- The packet counter reads as its lowest bits, in its field (R41; assumption 6). -/
theorem Chip.getLsbD_readWord_pktcnt (C : Config) (c : Chip) (free : Word) {i : Nat}
    (hi : i < C.regmap.statPktcntWidth) :
    (c.readWord C.regmap free .stat).getLsbD (C.regmap.statPktcntLow + i) = c.pktcnt.testBit i := by
  obtain ⟨⟨-, -, -, hwidth, hfield⟩, -⟩ := C.valid
  have hlt : C.regmap.statPktcntLow + i < 16 := by omega
  have hin : C.regmap.inPktcnt (C.regmap.statPktcntLow + i) := ⟨by omega, by omega⟩
  have hbits := getLsbD_namedBits_outside C.regmap c.bit hlt fun b hb e => hfield b hb (e ▸ hin)
  have hones : (2 ^ C.regmap.statPktcntWidth - 1).testBit i = true := by simpa using hi
  have hmask : (namedMask C.regmap .stat).getLsbD (C.regmap.statPktcntLow + i) = true := by
    rw [namedMask, if_pos rfl, BitVec.getLsbD_or, getLsbD_pktcntField _ _ hlt, decide_eq_true hin,
      Nat.add_sub_cancel_left, hones]
    simp
  rw [c.readWord_bits _ free rfl, if_pos rfl, BitVec.getLsbD_or, BitVec.getLsbD_or, hbits,
    getLsbD_pktcntField _ _ hlt, decide_eq_true hin, Nat.add_sub_cancel_left, BitVec.getLsbD_and, BitVec.getLsbD_not,
    hmask]
  simp

/-! ### The commands -/

theorem regReadBody_run (s : State) (r : Reg) : regReadBody r s
    = .ok (.word (s.tick.chip.readWord s.tick.cfg.regmap (Config.freeBits s.tick.freeCount) r))
        { s.tick.emit (.regRead r) with freeCount := s.tick.freeCount + 1 } := rfl

/-- `REG_READ` on a ready block is one access and one free value (R110). -/
theorem exec_regRead {s : State} (h : s.Ready) (r : Reg) :
    exec (.regRead r) s = .next
      { s.answered (.word (s.chip.readWord s.cfg.regmap (Config.freeBits s.freeCount) r)) with
        trace := .regRead r :: s.trace, freeCount := s.freeCount + 1 } := by
  have ht : (s.beginCommand .regRead).tick = s.beginCommand .regRead := State.tick_quiet h.1.2.1
  rw [exec, execRegRead, runProbed_probed h.2, runCommand_run h.1.1, regReadBody_run, ht]
  simp [State.finish, State.endCommand, State.beginCommand, State.emit, State.answered, h.1.1]

/-- Settles O20: one access (`exec_regRead`), and what the word it returns shows of the fields, the named bits and the
packet counter. -/
theorem regReadResult : Obligations.RegReadResult := fun s r h =>
  ⟨_, exec_regRead h r, Chip.readWord_whole _ _ _, fun _ hb => Chip.getLsbD_readWord _ _ _ hb, fun hr i hi => by
    subst hr
    exact Chip.getLsbD_readWord_pktcnt _ _ _ hi⟩

/-- A masked write reaches no bit of another register, and none that stores nothing. -/
theorem selected_and_stored (m : RegMap) {r : Reg} (mask : Word) {b : BitName} (hb : b ∉ r.bits ∨ b.stored = false) :
    (decide (b ∈ selectedBits m r mask) && b.stored) = false := by
  rcases hb with hb | hb
  · rw [decide_eq_false fun k => hb (mem_selectedBits.1 k).1, Bool.false_and]
  · rw [hb, Bool.and_false]

/-- Settles O22: one access (`exec_regSetBits`), and what the set under its mask does to the fields, the named bits and
the counter. -/
theorem regSetBitsResult : Obligations.RegSetBitsResult := by
  intro s r mask h
  refine ⟨_, exec_regSetBits h r mask, fun hs => ?_, fun b hb hs => ?_, Chip.pktcnt_setMask _ _ r mask, ?_,
    fun q hq => ?_, fun b hp hb => ?_⟩
  · rw [Chip.field_setMask, if_pos ⟨rfl, hs⟩]
  · rw [Chip.bit_setMask _ _ _ _ (by rintro rfl; cases hs), hs, Bool.and_true]
    simp [mem_selectedBits, hb]
  · refine (Chip.field_setMask _ s.chip r mask .rxhead).trans (if_neg ?_)
    rintro ⟨rfl, hs⟩
    cases hs
  · refine (Chip.field_setMask _ _ r mask q).trans (if_neg ?_)
    rintro ⟨rfl, hs⟩
    simp [hs] at hq
  · rw [Chip.bit_setMask _ _ _ _ hp, selected_and_stored _ mask hb, Bool.or_false]

/-- Settles O23: one access (`exec_regClearBits`), and what the clear under its mask does to the fields and the named
bits. -/
theorem regClearBitsResult : Obligations.RegClearBitsResult := by
  intro s r mask h
  refine ⟨_, exec_regClearBits h r mask, fun hs => ?_, fun b hb hs => ?_, Chip.pktcnt_clearMask _ _ r mask,
    fun q hq => ?_, fun b hb => ?_⟩
  · rw [Chip.field_clearMask, if_pos ⟨rfl, hs⟩]
  · rw [Chip.bit_clearMask, hs, Bool.and_true]
    simp [mem_selectedBits, hb]
  · refine (Chip.field_clearMask _ _ r mask q).trans (if_neg ?_)
    rintro ⟨rfl, hs⟩
    simp [hs] at hq
  · rw [Chip.bit_clearMask, selected_and_stored _ mask hb, Bool.not_false, Bool.and_true]

end Sys2Proof.Machine
end

section
/-! SUPPORT. The ring as the chip sees it: which bytes are its own, how many are free, and where the bytes of a deposit
come to lie. -/

namespace Sys2Proof.Machine

/-! ### Ring addresses -/

theorem ringSize_pos (C : Config) : (0 : Int) < C.toParams.ringSize := by
  have := config_ring C
  simp only [Params.ringSize]
  omega

/-- A ring address differs from what it is the address of by whole turns of the ring (R68). -/
theorem ringAddr_sub_emod (C : Config) (a b : Int) :
    ((ringAddr C.toParams a : Int) - b) % C.toParams.ringSize = (a - b) % C.toParams.ringSize := by
  have hn := Int.emod_nonneg (a - C.rxStart) (Int.ne_of_gt (ringSize_pos C))
  unfold ringAddr
  push_cast
  rw [Int.toNat_of_nonneg hn,
    show (C.rxStart : Int) + (a - C.rxStart) % C.toParams.ringSize - b
      = (a - C.rxStart) % C.toParams.ringSize + (C.rxStart - b) by omega, Int.emod_add_emod]
  congr 1
  omega

/-- Numbers whole turns apart have the same ring address. -/
theorem ringAddr_congr (p : Params) {a b : Int} (h : (a - b) % p.ringSize = 0) : ringAddr p a = ringAddr p b := by
  have e : (a - p.rxStart) % p.ringSize = (b - p.rxStart) % p.ringSize :=
    Int.emod_eq_emod_iff_emod_sub_eq_zero.2 (by rw [← h]; congr 1; omega)
  rw [ringAddr, ringAddr, e]

/-! ### The free bytes (R235) -/

theorem State.ringFree_le (s : State) : s.ringFree ≤ s.cfg.toParams.ringSize := by
  unfold State.ringFree
  split
  · exact Nat.le_refl _
  · have := Int.emod_lt_of_pos ((s.chip.rxtail.toNat : Int) + 2 - s.chip.rxhead.toNat) (ringSize_pos s.cfg)
    omega

/-- With the write pointer right behind the tail the ring is all free, or all taken. -/
theorem State.ringFree_meeting {s : State}
    (h : s.chip.rxhead.toNat = ringAddr s.cfg.toParams ((s.chip.rxtail.toNat : Int) + 2)) :
    s.ringFree = if s.chip.pktcnt = 0 then s.cfg.toParams.ringSize else 0 := by
  by_cases hp : s.chip.pktcnt = 0
  · rw [State.ringFree, if_pos ⟨h, hp⟩, if_pos hp]
  · have hself := ringAddr_sub_emod s.cfg ((s.chip.rxtail.toNat : Int) + 2) (ringAddr s.cfg.toParams
      ((s.chip.rxtail.toNat : Int) + 2))
    rw [State.ringFree, if_neg fun k => hp k.2, if_neg hp, h, ← hself]
    simp

/-- Elsewhere some bytes are free and some are not, and the free ones end right behind the tail. -/
theorem State.ringFree_apart {s : State} (hi : InRing s.cfg.toParams s.chip.rxhead.toNat)
    (h : s.chip.rxhead.toNat ≠ ringAddr s.cfg.toParams ((s.chip.rxtail.toNat : Int) + 2)) :
    0 < s.ringFree ∧ s.ringFree < s.cfg.toParams.ringSize
      ∧ ringAddr s.cfg.toParams (s.chip.rxhead.toNat + s.ringFree)
        = ringAddr s.cfg.toParams ((s.chip.rxtail.toNat : Int) + 2) := by
  have hpos := ringSize_pos s.cfg
  have hnonneg := Int.emod_nonneg ((s.chip.rxtail.toNat : Int) + 2 - s.chip.rxhead.toNat) (Int.ne_of_gt hpos)
  have hlt := Int.emod_lt_of_pos ((s.chip.rxtail.toNat : Int) + 2 - s.chip.rxhead.toNat) hpos
  have hfree : (s.ringFree : Int)
      = ((s.chip.rxtail.toNat : Int) + 2 - s.chip.rxhead.toNat) % s.cfg.toParams.ringSize := by
    rw [State.ringFree, if_neg fun k => h k.1, Int.toNat_of_nonneg hnonneg]
  have hnz : ((s.chip.rxtail.toNat : Int) + 2 - s.chip.rxhead.toNat) % s.cfg.toParams.ringSize ≠ 0 := fun e =>
    h ((ringAddr_of_inRing _ hi).symm.trans (ringAddr_congr _ e).symm)
  refine ⟨by omega, by omega, ringAddr_congr _ ?_⟩
  rw [hfree, show ∀ x y z : Int, x + y - z = y - (z - x) by omega, ← Int.emod_eq_emod_iff_emod_sub_eq_zero,
    Int.emod_emod]

/-- The chip-owned bytes are the free ones, from the write pointer on (R69). -/
theorem State.chipOwned_iff (s : State) (a : Nat) :
    s.ChipOwned a ↔ ∃ i : Nat, i < s.ringFree ∧ a = ringAddr s.cfg.toParams (s.chip.rxhead.toNat + i) := by
  have hpos := ringSize_pos s.cfg
  constructor
  · rintro ⟨hi, hlt⟩
    have hnonneg := Int.emod_nonneg ((a : Int) - s.chip.rxhead.toNat) (Int.ne_of_gt hpos)
    refine ⟨_, hlt, ?_⟩
    rw [Int.toNat_of_nonneg hnonneg]
    refine (ringAddr_of_inRing _ hi).symm.trans (ringAddr_congr _ ?_)
    rw [show ∀ x y z : Int, x - (y + z) = x - y - z by omega, ← Int.emod_eq_emod_iff_emod_sub_eq_zero, Int.emod_emod]
  · rintro ⟨i, hi, rfl⟩
    refine ⟨ringAddr_inRing _ (config_ring s.cfg).1 _, ?_⟩
    rw [ringAddr_sub_emod, add_sub_cancel_left, ← Int.natCast_emod, Int.toNat_natCast]
    exact Nat.lt_of_le_of_lt (Nat.mod_le _ _) hi

/-! ### A deposit (R232, R70) -/

@[simp] theorem length_chipBytes (p : Params) (w : Word) : (chipBytes p w).length = 2 := by
  unfold chipBytes
  split <;> rfl

@[simp] theorem length_bytesOf32 (v : BitVec 32) : (bytesOf32 v).length = 4 := rfl

/-- The header of a packet in the ring (R9): the next packet's address, the length, the rest of the status. -/
def ringHeader (p : Params) (next len : Word) (rest : BitVec 32) : List Byte :=
  chipBytes p next ++ chipBytes p len ++ bytesOf32 rest

@[simp] theorem length_ringHeader (p : Params) (next len : Word) (rest : BitVec 32) :
    (ringHeader p next len rest).length = rbhSize := by
  simp only [ringHeader, List.length_append, length_chipBytes, length_bytesOf32, rbhSize]

/-- The image is this header, the frame, and what nothing reads: the checksum and the pad byte (R70). -/
theorem packetImage_parts (p : Params) (a : Nat) (hdr payload : List Byte) (rest fcs : BitVec 32) (pad : Byte) :
    ∃ tail, packetImage p a hdr payload rest fcs pad
      = ringHeader p (BitVec.ofNat 16 (ringAddr p (a + depositSize p payload.length)))
          (BitVec.ofNat 16 (payload.length + crcLen)) rest ++ hdr ++ payload ++ tail :=
  ⟨_, by rw [packetImage, List.append_assoc _ (bytesOf32 fcs)]; rfl⟩

theorem length_packetImage {p : Params} {hdr : List Byte} (hh : hdr.length = p.ethHdrSize) (a : Nat)
    (payload : List Byte) (rest fcs : BitVec 32) (pad : Byte) :
    (packetImage p a hdr payload rest fcs pad).length = depositSize p payload.length := by
  have hpad : ∀ n, (if n % 2 = 1 then [pad] else []).length = n % 2 := fun n => by
    rcases Nat.mod_two_eq_zero_or_one n with h | h <;> simp [h]
  simp only [packetImage, depositSize, roundup2, List.length_append, length_chipBytes, length_bytesOf32, hpad, hh]
  simp only [rbhSize, crcLen]
  omega

/-- Bytes that were stored in the ring between others are read back there. -/
theorem State.ringBytes_of_writeRing {t : State} {m : Memory} {a p n : Nat} {pre mid post : List Byte} (hm : m.wf)
    (ht : t.mem = writeRing t.cfg.toParams m a (pre ++ mid ++ post))
    (hlen : (pre ++ mid ++ post).length ≤ t.cfg.toParams.ringSize) (hp : p = a + pre.length) (hn : n = mid.length) :
    t.ringBytes p n = mid := by
  subst hp hn
  refine List.ext_getElem (t.length_ringBytes _ _) fun i h1 h2 => ?_
  have hlt : pre.length + i < (pre ++ mid ++ post).length := by simp only [List.length_append]; omega
  have hread := read_writeRing t.cfg.toParams hm a _ hlen hlt
  rw [← ht, List.getElem_append_left (by simp only [List.length_append]; omega),
    List.getElem_append_right (Nat.le_add_right _ _)] at hread
  simpa [State.ringBytes, ← Int.add_assoc] using hread

/-- A frame of legal size that fits is deposited (R232). -/
theorem State.applyMove_rxEnd_fits {s : State} {hdr payload : List Byte} (rest fcs : BitVec 32) (pad : Byte)
    (hb : s.chip.rxbusy = true) (hh : hdr.length = s.cfg.ethHdrSize)
    (hmin : s.cfg.etherMin ≤ s.cfg.ethHdrSize + payload.length)
    (hmax : s.cfg.ethHdrSize + payload.length ≤ s.cfg.etherMax)
    (hfree : depositSize s.cfg.toParams payload.length ≤ s.ringFree) (hcnt : s.chip.pktcnt < s.cfg.pktcntMax) :
    s.applyMove (.rxEnd hdr payload rest fcs pad) = s.deposit hdr payload rest fcs pad := by
  simp only [State.applyMove, State.chipRxEnd]
  rw [if_pos ⟨hb, hh⟩, if_neg (not_not_intro ⟨hmin, hmax⟩), if_pos ⟨hfree, hcnt⟩]

/-- The packet lies in the ring as R70 lays it out: its own header, the frame's header, the payload. -/
theorem State.ringBytes_deposit {s : State} {hdr payload : List Byte} (rest fcs : BitVec 32) (pad : Byte)
    (hm : s.mem.wf) (hh : hdr.length = s.cfg.ethHdrSize)
    (hfit : depositSize s.cfg.toParams payload.length ≤ s.cfg.toParams.ringSize) :
    let t := s.deposit hdr payload rest fcs pad
    let p := s.chip.rxhead.toNat
    t.ringBytes p rbhSize
        = ringHeader s.cfg.toParams t.chip.rxhead (BitVec.ofNat 16 (payload.length + crcLen)) rest
      ∧ t.ringBytes (p + rbhSize) s.cfg.ethHdrSize = hdr
      ∧ t.ringBytes (p + rbhSize + s.cfg.ethHdrSize) payload.length = payload := by
  intro t p
  obtain ⟨tail, himage⟩ := packetImage_parts s.cfg.toParams p hdr payload rest fcs pad
  have part : ∀ {q n : Nat} {pre mid post : List Byte},
      packetImage s.cfg.toParams p hdr payload rest fcs pad = pre ++ mid ++ post → q = p + pre.length →
      n = mid.length → t.ringBytes q n = mid := fun e hq hn =>
    State.ringBytes_of_writeRing (t := t) hm (congrArg (writeRing s.cfg.toParams s.mem p) e)
      (by rw [← e, length_packetImage hh]; exact hfit) hq hn
  refine ⟨part (pre := []) (post := hdr ++ payload ++ tail) (himage.trans ?_) rfl (length_ringHeader _ _ _ _).symm,
    part (himage.trans (List.append_assoc _ payload tail)) ?_ hh.symm, part himage ?_ rfl⟩
  · simp only [List.append_assoc, List.nil_append]
    rfl
  · rw [length_ringHeader]
  · rw [List.length_append, length_ringHeader, hh, Nat.add_assoc]

/-- Settles O13: the deposit's bytes read back part by part (`State.ringBytes_deposit`), the rest of memory untouched. -/
theorem depositLayout : Obligations.DepositLayout := by
  intro s hdr payload rest fcs pad hm hb hh hmin hmax hfree hcnt _
  dsimp only
  rw [State.applyMove_rxEnd_fits rest fcs pad hb hh hmin hmax hfree hcnt]
  have hfit := Nat.le_trans hfree s.ringFree_le
  obtain ⟨hhead, hframe, hpayload⟩ := State.ringBytes_deposit rest fcs pad hm hh hfit
  obtain ⟨hnext, hlen⟩ := List.append_inj (((State.ringBytes_add _ _ 2 6).symm.trans hhead).trans
    (List.append_assoc _ _ _)) (by rw [State.length_ringBytes, length_chipBytes])
  obtain ⟨hlen, -⟩ := List.append_inj ((State.ringBytes_add _ _ 2 4).symm.trans hlen)
    (by rw [State.length_ringBytes, length_chipBytes])
  refine ⟨hnext, hlen, hframe, hpayload, rfl, fun a ha => ?_⟩
  refine read_writeRing_ne _ _ _ _ fun i hi => ?_
  rw [length_packetImage hh] at hi
  exact_mod_cast ha i hi

end Sys2Proof.Machine
end

section
/-! SUPPORT. The steps of the chip and the clock, one lemma per step, inside and outside its guard. -/

namespace Sys2Proof.Machine

/-! ### Memory after a list of writes -/

theorem Memory.writePairs_append (m : Memory) (ps qs : List (Nat × Byte)) :
    m.writePairs (ps ++ qs) = (m.writePairs ps).writePairs qs := List.foldl_append

/-- The last write to an address is the one that is read. -/
theorem Memory.read_writePairs_last {m : Memory} (h : m.wf) (before after : List (Nat × Byte)) {a : Nat} {b : Byte}
    (ha : a ∉ after.map (·.1)) : (m.writePairs (before ++ (a, b) :: after)).read a = b := by
  have hne : ∀ p ∈ after, p.1 ≠ a := fun p hp e => ha (e ▸ List.mem_map_of_mem hp)
  rw [Memory.writePairs_append]
  show (((m.writePairs before).write a b).writePairs after).read a = b
  rw [Memory.read_writePairs_outside _ hne, Memory.read_write (Memory.writePairs_wf h before), if_pos rfl]

/-! ### Reception -/

section Moves

variable {s : State}

/-- A receive that overflows (R233). -/
def State.rxOverflowed (s : State) : State :=
  { s with chip := { s.chip with rxbusy := false, flags := { s.chip.flags with rxabt := true } } }

/-- With no receive in flight, or with a header of another length, no frame ends (R232). -/
theorem State.applyMove_rxEnd_idle {hdr payload : List Byte} {rest fcs : BitVec 32} {pad : Byte}
    (h : s.chip.rxbusy = false ∨ hdr.length ≠ s.cfg.ethHdrSize) : s.applyMove (.rxEnd hdr payload rest fcs pad) = s :=
  if_neg fun k => h.elim (fun hb => Bool.false_ne_true (hb.symm.trans k.1)) fun hh => hh k.2

/-- A frame of illegal size is dropped silently (R232). -/
theorem State.applyMove_rxEnd_illegal {hdr payload : List Byte} {rest fcs : BitVec 32} {pad : Byte}
    (hb : s.chip.rxbusy = true) (hh : hdr.length = s.cfg.ethHdrSize)
    (h : s.cfg.ethHdrSize + payload.length < s.cfg.etherMin ∨ s.cfg.etherMax < s.cfg.ethHdrSize + payload.length) :
    s.applyMove (.rxEnd hdr payload rest fcs pad) = { s with chip := { s.chip with rxbusy := false } } :=
  (if_pos ⟨hb, hh⟩).trans (if_pos (by omega))

/-- A frame that does not fit, or that the counter has no room for, overflows (R232, R233). -/
theorem State.applyMove_rxEnd_overflow {hdr payload : List Byte} {rest fcs : BitVec 32} {pad : Byte}
    (hb : s.chip.rxbusy = true) (hh : hdr.length = s.cfg.ethHdrSize)
    (hmin : s.cfg.etherMin ≤ s.cfg.ethHdrSize + payload.length)
    (hmax : s.cfg.ethHdrSize + payload.length ≤ s.cfg.etherMax)
    (h : s.ringFree < depositSize s.cfg.toParams payload.length ∨ s.cfg.pktcntMax ≤ s.chip.pktcnt) :
    s.applyMove (.rxEnd hdr payload rest fcs pad) = s.rxOverflowed :=
  (if_pos ⟨hb, hh⟩).trans ((if_neg (not_not_intro ⟨hmin, hmax⟩)).trans (if_neg (by omega)))

/-- The condition of `CHIP_RX_END_CORRUPT` (R234), with the new head as an equation. -/
theorem State.corruptAllowed_iff {writes : List (Nat × Byte)} {head : Option Word} {raise : Nat} :
    s.CorruptAllowed writes head raise ↔ s.chip.rxbusy = true ∧ (∀ w ∈ writes, s.ChipOwned w.1)
      ∧ (∀ h, head = some h → h.toNat % 2 = 0 ∧ s.ChipOwned h.toNat)
      ∧ s.chip.pktcnt + raise ≤ s.cfg.pktcntMax := by
  simp only [State.CorruptAllowed, Option.mem_def]

/-! ### Transmission -/

theorem State.length_wireBytes : s.wireBytes.length = s.chip.txlen.toNat := by simp [State.wireBytes]

/-- A byte that the chip sends from its memory (R236). -/
theorem State.wireBytes_getElem? {i : Nat} (hi : i < s.chip.txlen.toNat) (hm : s.chip.txst.toNat + i < s.cfg.memSize) :
    s.wireBytes[i]? = some (s.mem.read (s.chip.txst.toNat + i)) := by
  simp [State.wireBytes, hi, hm]

/-- A frame inside chip memory is sent as it lies there (R236). -/
theorem State.wireBytes_inside (h : s.chip.txst.toNat + s.chip.txlen.toNat ≤ s.cfg.memSize) :
    s.wireBytes = s.mem.readBytes s.chip.txst.toNat s.chip.txlen.toNat :=
  List.map_congr_left fun i hi => if_pos (by have := List.mem_range.1 hi; omega)

theorem State.applyMove_txComplete (h : s.chip.txrts = true) (both : Bool) : s.applyMove (.txComplete both)
    = { s with
        trace := .wire s.wireBytes :: s.trace
        freeCount := s.freeCount + s.chip.txlen.toNat
        chip := { s.chip with
          txrts := false, flags := { s.chip.flags with txdone := true, txabt := s.chip.flags.txabt || both } } } :=
  if_pos h

theorem State.applyMove_txAbort (h : s.chip.txrts = true) (both : Bool) : s.applyMove (.txAbort both)
    = { s with chip := { s.chip with
        txrts := false, flags := { s.chip.flags with txabt := true, txdone := s.chip.flags.txdone || both } } } :=
  if_pos h

end Moves

/-- Settles O12: each step by its own lemma, the free and the chip-owned bytes by `State.ringFree_meeting`,
`State.ringFree_apart` and `State.chipOwned_iff`. -/
theorem environmentMoves : Obligations.EnvironmentMoves := by
  intro s
  refine ⟨fun he hb => if_pos ⟨he, hb⟩, fun h => if_neg fun k => ?_,
    ⟨fun hdr payload rest fcs pad => ⟨State.applyMove_rxEnd_idle, fun hb hh =>
      ⟨State.applyMove_rxEnd_illegal hb hh, State.applyMove_rxEnd_overflow hb hh⟩⟩,
      fun n => ⟨fun hb h => if_pos ⟨hb, h⟩, fun h => if_neg fun k => ?_⟩⟩,
    fun writes head raise => ⟨fun h => if_neg fun k => h (State.corruptAllowed_iff.1 k), fun h hm =>
      ⟨s.mem.writePairs writes, if_pos (State.corruptAllowed_iff.2 h), fun a ha => ?_, fun before a b after e ha => ?_⟩⟩,
    s.chipOwned_iff, ⟨State.ringFree_meeting, State.ringFree_apart⟩,
    fun h both => ⟨⟨s.wireBytes, State.applyMove_txComplete h both, State.length_wireBytes, fun i hi hm =>
      State.wireBytes_getElem? hi hm⟩, State.applyMove_txAbort h both⟩,
    fun h b => ⟨if_neg (by simp [h]), if_neg (by simp [h])⟩, fun _ _ => rfl, fun _ _ => rfl, rfl⟩
  · simp [k.1, k.2] at h
  · rcases h with h | h
    · exact Bool.false_ne_true (h.symm.trans k.1)
    · exact h k.2
  · exact Memory.read_writePairs_outside _ fun p hp e => ha (e ▸ List.mem_map_of_mem hp)
  · rw [e]
    exact Memory.read_writePairs_last hm before after ha

end Sys2Proof.Machine
end

section
/-! SUPPORT. `KICK` with no other agent moving, access by access, and the frame that it stores on its way to the wire. -/

namespace Sys2Proof.Machine

/-- The mask of one named bit. -/
theorem bitsMask_singleton (m : RegMap) (b : BitName) : bitsMask m [b] = BitVec.twoPow 16 (m.index b).val := by
  simp [bitsMask, wordOfBits]

/-- The transmit region and the ring are apart (R8). -/
theorem config_apart (C : Config) : C.txStart + C.txCapacity ≤ C.rxStart ∨ C.rxEnd ≤ C.txStart := by
  have := C.valid
  simp only [Params.Valid] at this
  tauto

/-- The transmit region holds what fits it, at addresses of sixteen bits (R8). -/
theorem transmit_region (C : Config) {n : Nat} (h0 : 0 < n) (hn : n ≤ C.txCapacity) :
    C.txStart + n ≤ C.memSize ∧ C.txStart < 65536 ∧ n < 65536 := by
  have hring := config_ring C
  have htx := config_transmit C
  have hapart := config_apart C
  have hmem : C.memSize ≤ 65536 := by
    have := C.valid
    simp only [Params.Valid] at this
    tauto
  omega

/-- The chip once a frame of `n` bytes is on its way (R151 steps 7 and 8). -/
def Chip.sending (c : Chip) (n : Nat) : Chip := { c with txlen := BitVec.ofNat 16 n, txrts := true }

/-- The accesses of a `KICK` that sends, behind its read of `CTL`, newest first (R294). -/
def sendTrace (C : Config) (pkt : Packet) : List TraceEvent :=
  [.regSet .ctl (BitVec.twoPow 16 C.regmap.ctlTxrts), .regWrite .txlen (BitVec.ofNat 16 (frameOf pkt).length),
    .release pkt, .memWrite C.txStart (frameOf pkt)]

section Kick

variable {s : State} {pkt : Packet} {queue : List Packet} {fr : Frame} {q : List Frame}

/-- What a `KICK` that sends leaves (R151). -/
def State.kicked (s : State) (pkt : Packet) (queue : List Packet) : State :=
  { s with
    sendq := queue
    mem := s.mem.writeBytes s.cfg.txStart (frameOf pkt)
    chip := s.chip.sending (frameOf pkt).length
    trace := sendTrace s.cfg pkt ++ .regRead .ctl :: s.trace }

/-- The packet taken off the queue is sent (R151 steps 5 to 8). -/
theorem sendFrame_run {C : Config} (hC : s.cfg = C) (ha : s.agenda = []) (hs : s.seq = fr :: q)
    (h0 : 0 < (frameOf pkt).length) (hc : (frameOf pkt).length ≤ C.txCapacity) :
    sendFrame C pkt s = .ok () { s with
      seq := { fr with step := 8 } :: q
      mem := s.mem.writeBytes C.txStart (frameOf pkt)
      chip := s.chip.sending (frameOf pkt).length
      trace := sendTrace C pkt ++ s.trace } := by
  have hm : C.txStart + (frameOf pkt).length ≤ C.memSize := (transmit_region C h0 hc).1
  rw [sendFrame, if_neg (by omega)]
  simp [op_bind, State.tick_quiet, ha, hs, hC, hm, State.onChip, State.emit, State.setStep, Chip.writeWord,
    Chip.setBits, Chip.setBit, Chip.storeBit, Chip.sending, sendTrace, bitsMask_singleton, RegMap.index]

/-- `KICK` with no transmit in flight takes the packet at the head of the queue (R151 steps 1 to 3). -/
theorem kickBody_head (ha : s.agenda = []) (hs : s.seq = fr :: q) (hb : s.chip.txrts = false)
    (hq : s.sendq = pkt :: queue) : kickBody s = sendFrame s.cfg pkt
      { s with seq := { fr with step := 4 } :: q, sendq := queue, trace := .regRead .ctl :: s.trace } := by
  simp [kickBody, sendHead_eq, op_bind, State.tick_quiet, ha, hs, hb, hq, Chip.bit, State.setStep, State.emit]

/-- The body of `KICK` (R151). -/
theorem kickBody_run (ha : s.agenda = []) (hs : s.seq = fr :: q) (hb : s.chip.txrts = false)
    (hq : s.sendq = pkt :: queue) (h0 : 0 < (frameOf pkt).length) (hc : (frameOf pkt).length ≤ s.cfg.txCapacity) :
    kickBody s = .ok () { s.kicked pkt queue with seq := { fr with step := 8 } :: q } := by
  rw [kickBody_head ha hs hb hq]
  exact sendFrame_run (fr := { fr with step := 4 }) rfl ha rfl h0 hc

/-- The command (R151). -/
theorem exec_kick (h : s.Ready) (hb : s.chip.txrts = false)
    (hq : s.sendq = pkt :: queue) (h0 : 0 < (frameOf pkt).length) (hc : (frameOf pkt).length ≤ s.cfg.txCapacity) :
    exec .kick s = .next ((s.kicked pkt queue).answered .unit) := by
  refine (runProbed_ready h (kickBody_run (s := s.beginCommand .kick) (by simpa using h.1.2.1) rfl hb hq h0 hc)
    rfl).trans ?_
  simp [State.endCommand, State.beginCommand, State.kicked, State.answered, h.1.1]

end Kick

/-- Settles O34: the command computed (`exec_kick`), and what its store reads back as. -/
theorem kickSends : Obligations.KickSends := by
  intro s pkt queue h hm hb hq h0 hc
  refine ⟨_, exec_kick h hb hq h0 hc, fun i hi => ?_, fun a ha => Memory.read_writeBytes_outside _ ha⟩
  show some ((s.mem.writeBytes s.cfg.txStart (frameOf pkt)).read _) = _
  rw [Memory.read_writeBytes hm, if_pos (by omega), Nat.add_sub_cancel_left, List.getElem?_eq_getElem hi,
    List.getD_eq_getElem _ _ hi]

/-- Settles O37: the registers that `KICK` leaves name the bytes it has stored, and the chip sends these. -/
theorem frameReachesWire : Obligations.FrameReachesWire := by
  intro s pkt queue h hm hb hq h0 hc hst
  refine ⟨_, exec_kick h hb hq h0 hc, ?_⟩
  obtain ⟨hmem, hstart, hlen⟩ := transmit_region s.cfg h0 hc
  have hwire : ((s.kicked pkt queue).answered .unit).wireBytes = frameOf pkt := by
    have htxst : ((s.kicked pkt queue).answered .unit).chip.txst.toNat = s.cfg.txStart := by
      show s.chip.txst.toNat = _
      rw [hst, toNat_ofNat16 hstart]
    have htxlen : ((s.kicked pkt queue).answered .unit).chip.txlen.toNat = (frameOf pkt).length := toNat_ofNat16 hlen
    rw [State.wireBytes_inside (by rw [htxst, htxlen]; exact hmem), htxst, htxlen]
    exact Memory.readBytes_writeBytes hm _ _
  rw [State.applyMove_txComplete rfl, hwire]
  rfl

end Sys2Proof.Machine
end

section
/-! SUPPORT. `RECEIVE_ONE` with every chunk granted: the packet that it builds out of the ring, and the `DISPATCH` that
delivers the one packet of a ring the chip has deposited it in. -/

namespace Sys2Proof.Machine

/-! ### The end of a command -/

/-- What completes, and its output events. -/
theorem Completes.exists_trace {o : Host.Outcome State Fault Refusal} {s t : State} {out : List TraceEvent}
    (h : Completes o s t out) : ∃ tr, o = .next { t with trace := tr } ∧ outputs tr = out ++ outputs s.trace := by
  obtain ⟨entries, u, h1, h2, h3, h4⟩ := h
  refine ⟨u.trace, h1.trans (congrArg _ ?_), by rw [h3, outputs_append, h4]⟩
  have := congrArg (fun v => ({ v with trace := u.trace } : State)) h2
  exact this

/-! ### The packet in the ring -/

/-- The packet that the header at the read pointer asks for (R131, R136, R138). -/
def State.ringPacket (s : State) : Packet :=
  ⟨.small, s.cfg.tagSize, s.ringBytes (s.pointer + rbhSize) s.cfg.ethHdrSize⟩ ::
    payloadChunks s.cfg.toParams s.frameLength.toNat
      (s.ringBytes (s.pointer + rbhSize + s.cfg.ethHdrSize) s.frameLength.toNat)

/-- Its frame is what lies behind the ring's header. -/
theorem State.frameOf_ringPacket (s : State) : frameOf s.ringPacket
    = s.ringBytes (s.pointer + rbhSize) s.cfg.ethHdrSize
      ++ s.ringBytes (s.pointer + rbhSize + s.cfg.ethHdrSize) s.frameLength.toNat := by
  have h := frameOf_payloadChunks s.cfg (Nat.le_of_eq
    (s.length_ringBytes (s.pointer + rbhSize + s.cfg.ethHdrSize) s.frameLength.toNat))
  simp only [frameOf, State.ringPacket, List.flatMap_cons] at h ⊢
  rw [h]

/-! ### An empty ring, and the bytes of a header -/

/-- What the chip has stored in its byte order, the block reads back (R10, R64). -/
theorem chipWord_chipBytes (p : Params) (w : Word) :
    chipWord p ((chipBytes p w).getD 0 0) ((chipBytes p w).getD 1 0) = w := by
  have hsplit : (w >>> 8).setWidth 8 ++ w.setWidth 8 = w := by
    refine BitVec.eq_of_getLsbD_eq fun i hi => ?_
    rw [BitVec.getLsbD_append]
    by_cases h : i < 8
    · simp [h]
    · have hi8 : i - 8 < 8 := by omega
      simp [h, hi8, Nat.add_sub_cancel' (Nat.le_of_not_lt h)]
  cases hle : p.chipLE <;> simpa [chipWord, chipBytes, hle, be16, le16] using hsplit

theorem headerFields_ringHeader (p : Params) (next len : Word) (rest : BitVec 32) :
    headerFields p (ringHeader p next len rest) = (next, len) := by
  have hn := chipWord_chipBytes p next
  have hl := chipWord_chipBytes p len
  cases hle : p.chipLE <;> simp only [chipBytes, hle] at hn hl <;>
    simpa [headerFields, ringHeader, chipBytes, hle] using ⟨hn, hl⟩

/-- The ring address of an even number is even (R68). -/
theorem ringAddr_even (C : Config) {a : Int} (ha : a % 2 = 0) : ringAddr C.toParams a % 2 = 0 := by
  have hr := config_ring C
  have hn := Int.emod_nonneg (a - C.rxStart) (Int.ne_of_gt (ringSize_pos C))
  have h2 : (a - C.rxStart) % C.toParams.ringSize % 2 = (a - C.rxStart) % 2 :=
    Int.emod_emod_of_dvd _ (by simp only [Params.ringSize]; omega)
  unfold ringAddr
  omega

/-- Two bytes behind the tail that was released for it lies the pointer (R137). -/
theorem ringAddr_tailFor (C : Config) {n : Nat} (hn : RingValid C.toParams n) :
    ringAddr C.toParams ((tailFor C.toParams n : Nat) + 2) = n := by
  obtain ⟨heven, hin⟩ := hn
  have hr := config_ring C
  obtain ⟨hlo, hhi⟩ := hin
  unfold tailFor
  split
  · rw [show ((n - 2 : Nat) : Int) + 2 = n by omega]
    exact ringAddr_of_inRing _ ⟨hlo, hhi⟩
  · have hstart : n = C.rxStart := by omega
    rw [show ((C.rxEnd - 2 : Nat) : Int) + 2 = C.rxStart + C.toParams.ringSize by simp only [Params.ringSize]; omega,
      ringAddr_add_ringSize, hstart]
    exact ringAddr_of_inRing _ ⟨Nat.le_refl _, hr.1⟩

/-- A ring whose tail was released for its write pointer, and whose counter is 0, is all free (R235). -/
theorem State.ringFree_empty {s : State} (hv : RingValid s.cfg.toParams s.chip.rxhead.toNat)
    (ht : s.chip.rxtail.toNat = tailFor s.cfg.toParams s.chip.rxhead.toNat) (hp : s.chip.pktcnt = 0) :
    s.ringFree = s.cfg.toParams.ringSize := by
  rw [State.ringFree_meeting (by rw [ht, ringAddr_tailFor s.cfg hv]), if_pos hp]

/-- A frame of legal size fits the ring (R7), and its length is a number of sixteen bits. -/
theorem depositSize_fits (C : Config) {n : Nat} (h : C.ethHdrSize + n ≤ C.etherMax) :
    depositSize C.toParams n ≤ C.toParams.ringSize ∧ n + crcLen < 65536 := by
  have hring := config_ring C
  have hfit : rbhSize + C.etherMax + crcLen ≤ C.toParams.ringSize := by
    have := C.valid
    simp only [Params.Valid] at this
    tauto
  simp only [depositSize, roundup2, Params.ringSize, rbhSize, crcLen] at hfit ⊢
  omega

theorem depositSize_even (p : Params) (n : Nat) : depositSize p n % 2 = 0 := by
  simp only [depositSize, roundup2]
  omega

/-! ### Every chunk granted -/

section Granted

variable {s : State}

/-- Behind `n` bytes that were read, the next are those `n` further on (R120). -/
theorem State.ringBytes_advanced (s : State) (n k m : Nat) :
    (s.setReadPointer (ringAddr s.cfg.toParams (s.pointer + n))).ringBytes
        ((s.setReadPointer (ringAddr s.cfg.toParams (s.pointer + n))).pointer + k) m
      = s.ringBytes (s.pointer + n + k) m := by
  have hr := config_ring s.cfg
  have hp : (s.setReadPointer (ringAddr s.cfg.toParams (s.pointer + n))).pointer
      = ringAddr s.cfg.toParams (s.pointer + n) :=
    toNat_ofNat16 (by have := (ringAddr_inRing s.cfg.toParams hr.1 (s.pointer + n)).2; omega)
  rw [hp]
  refine s.ringBytes_start (fun i => ?_) m
  push_cast
  rw [Int.add_assoc, ringAddr_ringAddr _ hr.1]
  congr 1
  omega

/-- A granted allocation takes an answer (R219). -/
theorem leaves_alloc_granted (cls : ChunkClass) {rest : List Bool} (h : s.allocAnswers = true :: rest) :
    Leaves (alloc cls) s true { s with allocAnswers := rest } [] := by
  have ha := leaves_alloc (s := s) cls
  rwa [State.nextGrant_cons h] at ha

theorem payloadChunks_nil (p : Params) (n : Nat) : payloadChunks p n [] = [] := by cases n <;> rfl

/-- How many bytes the next chunk takes (R131 step 6). -/
def nextChunkLength (p : Params) (remaining : Nat) : Nat :=
  min remaining (chunkCapacity p (chunkClassFor p remaining))

/-- The first chunk of what lies in the ring, and the others (R136). -/
theorem payloadChunks_ringBytes (s : State) (p : Params) (q rounds : Nat) {n : Nat} (hn : n ≠ 0) :
    payloadChunks p (rounds + 1) (s.ringBytes q n)
      = ⟨chunkClassFor p n, 0, s.ringBytes q (nextChunkLength p n)⟩ ::
        payloadChunks p rounds (s.ringBytes (q + nextChunkLength p n) (n - nextChunkLength p n)) := by
  have hne : s.ringBytes q n ≠ [] := fun e => hn (by rw [← s.length_ringBytes q n, e]; rfl)
  have hsplit := s.ringBytes_add q (nextChunkLength p n) (n - nextChunkLength p n)
  rw [Nat.add_sub_cancel' (show nextChunkLength p n ≤ n from Nat.min_le_left _ _)] at hsplit
  rw [payloadChunks, if_neg hne, s.length_ringBytes]
  dsimp only
  rw [← nextChunkLength, hsplit, List.take_left' (s.length_ringBytes _ _), List.drop_left' (s.length_ringBytes _ _)]

/-- A chunk of `n` bytes has been copied, the allocator's coming answers then being `rest`. -/
def State.copied (rest : List Bool) (n : Nat) (s : State) : State :=
  State.setReadPointer (ringAddr s.cfg.toParams (s.pointer + n)) { s with allocAnswers := rest }

theorem State.ringBytes_copied (s : State) (rest : List Bool) (n m : Nat) :
    (s.copied rest n).ringBytes (s.copied rest n).pointer m = s.ringBytes (s.pointer + n) m :=
  s.ringBytes_advanced n 0 m

theorem exists_answer (h : s.allocAnswers[0]? = some true) : ∃ rest, s.allocAnswers = true :: rest := by
  cases hl : s.allocAnswers with
  | nil => simp [hl] at h
  | cons a rest => exact ⟨rest, by simpa [hl] using h⟩

/-- The answers behind the first. -/
theorem State.copied_answers {rest : List Bool} {n k : Nat} (ha : s.allocAnswers = true :: rest)
    (hg : ∀ i < k, s.allocAnswers[i]? = some true) (i : Nat) (hi : i + 1 < k) :
    (s.copied rest n).allocAnswers[i]? = some true := by
  have h := hg (i + 1) hi
  rwa [ha, List.getElem?_cons_succ] at h

/-- A round of the copy whose chunk is granted (R131 step 6). -/
theorem leaves_copyPayload_next {rounds remaining : Nat} {chunks : List Chunk} {rest : List Bool} {r : Option Packet}
    {u : State} (hp : s.Pointed) (h0 : remaining ≠ 0) (ha : s.allocAnswers = true :: rest)
    (h : Leaves (copyPayload rounds (remaining - nextChunkLength s.cfg.toParams remaining)
        (chunks ++ [⟨chunkClassFor s.cfg.toParams remaining, 0,
          s.ringBytes s.pointer (nextChunkLength s.cfg.toParams remaining)⟩]))
      (s.copied rest (nextChunkLength s.cfg.toParams remaining)) r u []) :
    Leaves (copyPayload (rounds + 1) remaining chunks) s r u [] := by
  rw [copyPayload, if_neg h0]
  exact leaves_get ((leaves_alloc_granted _ ha).thenLeaves
    ((leaves_readBytes (s := { s with allocAnswers := rest }) hp).thenLeaves h))

/-- The copy with every chunk granted (R131 step 6). -/
theorem leaves_copyPayload_granted {rounds remaining : Nat} {chunks : List Chunk} (hp : s.Pointed)
    (hr : remaining ≤ rounds) (hg : ∀ i < remaining, s.allocAnswers[i]? = some true) :
    ∃ p l, Leaves (copyPayload rounds remaining chunks) s
      (some (chunks ++ payloadChunks s.cfg.toParams rounds (s.ringBytes s.pointer remaining)))
      (s.drawn p l s.freeCount s.errorsIn) [] := by
  have done : ∀ (s : State) (chunks : List Chunk), ∃ p l,
      Leaves (pure (some chunks)) s (some chunks) (s.drawn p l s.freeCount s.errorsIn) [] := fun s _ =>
    ⟨s.ctx.rxReadPointer, s.allocAnswers, leaves_pure⟩
  induction rounds generalizing s remaining chunks with
  | zero =>
    rw [payloadChunks, List.append_nil]
    exact done s chunks
  | succ rounds ih =>
    by_cases h0 : remaining = 0
    · subst h0
      rw [copyPayload, if_pos rfl, show s.ringBytes s.pointer 0 = [] from rfl, payloadChunks_nil, List.append_nil]
      exact done s chunks
    have hn : 0 < nextChunkLength s.cfg.toParams remaining :=
      Nat.lt_min.2 ⟨Nat.pos_of_ne_zero h0, capacity_pos s.cfg remaining⟩
    obtain ⟨rest, ha⟩ := exists_answer (hg 0 (Nat.pos_of_ne_zero h0))
    obtain ⟨p, l, h⟩ := ih (s := s.copied rest (nextChunkLength s.cfg.toParams remaining))
      (remaining := remaining - nextChunkLength s.cfg.toParams remaining)
      (chunks := chunks ++ [⟨chunkClassFor s.cfg.toParams remaining, 0,
        s.ringBytes s.pointer (nextChunkLength s.cfg.toParams remaining)⟩])
      (State.pointed_setReadPointer _ _) (by omega) fun i hi => State.copied_answers ha hg i (by omega)
    rw [State.ringBytes_copied, List.append_assoc] at h
    refine ⟨p, l, leaves_copyPayload_next hp h0 ha ?_⟩
    rw [payloadChunks_ringBytes s _ _ _ h0]
    exact h

/-- Steps 5 and 6 of R131 with every chunk granted. -/
theorem runs_buildPacket_granted {n : Nat} (hp : s.Pointed) (hg : ∀ i ≤ n, s.allocAnswers[i]? = some true) :
    ∃ p l, Runs (buildPacket n) s
      (some (⟨.small, s.cfg.tagSize, s.ringBytes s.pointer s.cfg.ethHdrSize⟩ ::
        payloadChunks s.cfg.toParams n (s.ringBytes (s.pointer + s.cfg.ethHdrSize) n)))
      (s.drawn p l s.freeCount s.errorsIn) [] := by
  obtain ⟨rest, ha⟩ := exists_answer (hg 0 (Nat.zero_le _))
  obtain ⟨p, l, h⟩ := leaves_copyPayload_granted (s := s.copied rest s.cfg.ethHdrSize) (remaining := n)
    (chunks := [⟨.small, s.cfg.tagSize, s.ringBytes s.pointer s.cfg.ethHdrSize⟩]) (State.pointed_setReadPointer _ _)
    (Nat.le_refl n) fun i hi => State.copied_answers ha (k := n + 1)
      (fun i hi => hg i (by omega)) i (by omega)
  rw [State.ringBytes_copied] at h
  exact ⟨p, l, (runs_atStep 5).then (runs_get ((leaves_alloc_granted _ ha).then
    ((leaves_readBytes (s := { s with allocAnswers := rest }) hp).then ((runs_atStep 6).then h.runs))))⟩

/-- `RECEIVE_ONE` of a valid header with every chunk granted builds the packet, and releases the ring (R131). -/
theorem runs_receiveOneBody_granted (hv : s.HeaderValid)
    (hg : ∀ i ≤ s.frameLength.toNat, s.allocAnswers[i]? = some true) :
    ∃ l, Runs receiveOneBody s (some s.ringPacket)
      ((s.releasedTo s.header.1.toNat).drawn (BitVec.ofNat 16 s.header.1.toNat) l s.freeCount s.errorsIn) [] := by
  obtain ⟨hp, hn, hf⟩ := hv
  obtain ⟨p, l, h⟩ := runs_buildPacket_granted (s := s.past) (n := s.frameLength.toNat) (s.pointed_setReadPointer _) hg
  have hhdr : s.past.ringBytes s.past.pointer s.cfg.ethHdrSize = _ := s.ringBytes_advanced rbhSize 0 s.cfg.ethHdrSize
  have hpay : s.past.ringBytes (s.past.pointer + s.cfg.ethHdrSize) s.frameLength.toNat = _ :=
    s.ringBytes_advanced rbhSize s.cfg.ethHdrSize s.frameLength.toNat
  rw [show s.past.cfg = s.cfg from rfl, hhdr, hpay] at h
  refine ⟨l, runs_receiveOneBody hp ((runs_atStep 3).then ?_)⟩
  rw [if_neg (not_not_intro hn)]
  refine (runs_atStep 4).then ?_
  unfold State.frameLength at hf
  rw [if_neg (not_not_intro hf)]
  exact h.then ((runs_releaseRing (s := s.past.drawn p l s.freeCount s.errorsIn) _).then leaves_pure.runs)

/-- A packet is delivered on the lane of its type, and counted (R165 step 4, R169). -/
theorem leaves_deliver (pkt : Packet) : Leaves (deliverReceived (some pkt)) s ()
    { s with packetsIn := s.packetsIn + 1 } [.deliver (laneOf s.cfg.toParams (frameOf pkt)) pkt] := by
  have hcount : Leaves (update fun s => { s with packetsIn := s.packetsIn + 1 }) s ()
    { s with packetsIn := s.packetsIn + 1 } [] := leaves_update (fun _ _ _ => rfl) rfl
  exact leaves_get (hcount.thenLeaves fun hu =>
    ⟨hu, fun _ _ _ => ⟨[.deliver (laneOf s.cfg.toParams (frameOf pkt)) pkt], rfl, rfl⟩⟩)

/-- The state once the one packet of the ring, whose header names `next`, has been delivered. -/
def State.delivered (next : Word) (l : List Bool) (s : State) : State :=
  { (s.taken.releasedTo next.toNat).drawn (BitVec.ofNat 16 next.toNat) l s.freeCount s.errorsIn with
    packetsIn := s.packetsIn + 1 }

/-- The ring is then empty again, its read pointer where the write pointer is (R131 step 7, R137, R235). -/
theorem State.delivered_ring {l : List Bool} (hv : RingValid s.cfg.toParams s.chip.rxhead.toNat)
    (hc : s.chip.pktcnt = 1) :
    let t := s.delivered s.chip.rxhead l
    t.chip.rxhead = t.ctx.rxReadPointer ∧ RingValid t.cfg.toParams t.pointer
      ∧ t.chip.rxtail.toNat = tailFor t.cfg.toParams t.pointer ∧ t.chip.pktcnt = 0
      ∧ t.ringFree = t.cfg.toParams.ringSize := by
  intro t
  have hpointer : t.chip.rxhead = t.ctx.rxReadPointer := by
    show s.chip.rxhead = BitVec.ofNat 16 s.chip.rxhead.toNat
    simp
  have htail : t.chip.rxtail.toNat = tailFor t.cfg.toParams t.chip.rxhead.toNat :=
    toNat_ofNat16 (tailFor_lt _ hv.2 (config_ring s.cfg).2.2.1)
  have hpkt : t.chip.pktcnt = 0 := by
    show s.chip.pktcnt - 1 = 0
    omega
  refine ⟨hpointer, ?_, ?_, hpkt, State.ringFree_empty hv htail hpkt⟩
  · rw [State.pointer, ← hpointer]
    exact hv
  · rw [State.pointer, ← hpointer]
    exact htail

/-- The packet loop with one packet, valid and granted (R165 step 4, R172). -/
theorem leaves_packetLoop_one (hg : s.again = []) (hc : s.chip.pktcnt = 1) (hv : s.HeaderValid)
    (ha : ∀ i ≤ s.frameLength.toNat, s.allocAnswers[i]? = some true) :
    ∃ l, Leaves packetLoop s () (s.delivered s.header.1 l)
      [.deliver (laneOf s.cfg.toParams (frameOf s.ringPacket)) s.ringPacket] := by
  obtain ⟨l, h⟩ := runs_receiveOneBody_granted (s := s.taken) hv ha
  have hpkt : (s.delivered s.header.1 l).chip.pktcnt = 0 := by
    show s.chip.pktcnt - 1 = 0
    omega
  obtain ⟨n, hn⟩ : ∃ n, s.pktRounds = n + 1 + 1 := ⟨s.pktRounds - 2, by have := s.lt_pktRounds; omega⟩
  refine ⟨l, leaves_get ?_⟩
  rw [hn]
  exact leaves_packetRounds_next hg (by omega) h.call (leaves_deliver _) (leaves_packetRounds_done n hg hpkt)

/-- A `DISPATCH` whose only condition is one packet, valid and granted (R165). -/
theorem dispatch_one (h : s.Ready) (hf : s.chip.flags = ⟨false, false, false, false⟩) (hc : s.chip.pktcnt = 1)
    (hv : s.HeaderValid) (ha : ∀ i ≤ s.frameLength.toNat, s.allocAnswers[i]? = some true) :
    ∃ l, Completes (exec .dispatch s) s
      { s.delivered s.header.1 l with seq := [], savedIpl := s.ipl, context := none, result := some .unit }
      [.deliver (laneOf s.cfg.toParams (frameOf s.ringPacket)) s.ringPacket] := by
  obtain ⟨l, hl⟩ := leaves_packetLoop_one h.1.2.2 hc hv ha
  have hflags : s.chip.iflags = ⟨false, false, false, false, true⟩ := by
    simp [Chip.iflags, Chip.pktFlag, hf, hc]
  refine ⟨l, dispatch_ends h ?_⟩
  rw [hflags]
  exact leaves_pure.then (leaves_pure.then (((runs_atStep 4).then hl.runs).bind (out' := []) (runs_atStep 5)))

end Granted

/-! ### The deposit into an empty ring -/

section Deposit

variable {s : State} {hdr payload : List Byte} {rest fcs : BitVec 32} {pad : Byte}

/-- Where the write pointer then is (R232). -/
theorem State.rxhead_deposit (hv : RingValid s.cfg.toParams s.chip.rxhead.toNat) :
    RingValid s.cfg.toParams (s.deposit hdr payload rest fcs pad).chip.rxhead.toNat := by
  have hr := config_ring s.cfg
  have hin := ringAddr_inRing s.cfg.toParams hr.1
    (s.chip.rxhead.toNat + depositSize s.cfg.toParams payload.length)
  have hnext : (s.deposit hdr payload rest fcs pad).chip.rxhead.toNat = _ := toNat_ofNat16
    (Nat.lt_trans hin.2 hr.2.2.1)
  have hsize := depositSize_even s.cfg.toParams payload.length
  rw [hnext]
  exact ⟨ringAddr_even s.cfg (by have := hv.1; omega), hin⟩

/-- The header, the length and the frame that `RECEIVE_ONE` finds, with the read pointer where the write pointer was. -/
theorem State.received_deposit (hm : s.mem.wf) (hp : s.chip.rxhead = s.ctx.rxReadPointer)
    (hh : hdr.length = s.cfg.ethHdrSize) (hmax : s.cfg.ethHdrSize + payload.length ≤ s.cfg.etherMax) :
    let t := s.deposit hdr payload rest fcs pad
    t.header.1 = t.chip.rxhead ∧ t.frameLength = payload.length ∧ frameOf t.ringPacket = hdr ++ payload := by
  intro t
  obtain ⟨hfit, hlen⟩ := depositSize_fits s.cfg hmax
  have hpointer : s.chip.rxhead.toNat = t.pointer := congrArg BitVec.toNat hp
  obtain ⟨hhead, hframe, hpayload⟩ := State.ringBytes_deposit rest fcs pad hm hh hfit
  rw [hpointer] at hhead hframe hpayload
  have hheader : t.header = (t.chip.rxhead, BitVec.ofNat 16 (payload.length + crcLen)) :=
    (congrArg (headerFields s.cfg.toParams) hhead).trans (headerFields_ringHeader _ _ _ rest)
  have hlength : t.frameLength = payload.length := by
    rw [State.frameLength, hheader, toNat_ofNat16 hlen]
    omega
  refine ⟨congrArg Prod.fst hheader, hlength, ?_⟩
  rw [State.frameOf_ringPacket, hlength, Int.toNat_natCast]
  exact congrArg₂ (· ++ ·) hframe hpayload

end Deposit

/-- The lane is told by the frame's type (R173). -/
theorem laneOf_append (p : Params) {hdr : List Byte} (payload : List Byte) (h : 14 ≤ hdr.length) :
    laneOf p (hdr ++ payload) = if hdr.getD 12 0 ++ hdr.getD 13 0 = p.etypeIp then .ip
      else if hdr.getD 12 0 ++ hdr.getD 13 0 = p.etypeArp then .arp
      else if hdr.getD 12 0 ++ hdr.getD 13 0 = p.etypeRarp then .rarp else .raw := by
  have get : ∀ i < 14, (hdr ++ payload)[i]? = some (hdr.getD i 0) := fun i hi => by
    rw [List.getElem?_append_left (by omega), List.getElem?_eq_getElem (by omega), List.getD_eq_getElem _ _ (by omega)]
  unfold laneOf
  rw [get 12 (by omega), get 13 (by omega)]
  rfl

/-- The counter and the frame's header have room (R41, R11). -/
theorem config_room (C : Config) : 1 ≤ C.pktcntMax ∧ 14 ≤ C.ethHdrSize := by
  have := C.valid
  simp only [Params.Valid] at this
  tauto

/-- Settles O45: what `RECEIVE_ONE` finds where the chip has deposited (`State.received_deposit`), through the `DISPATCH`
of that one packet (`dispatch_one`). -/
theorem depositIsDelivered : Obligations.DepositIsDelivered := by
  intro s hdr payload rest fcs pad h hm hv hp ht hc hf hb hh hmin hmax hg
  dsimp only
  have hhead : RingValid s.cfg.toParams s.chip.rxhead.toNat := by rw [hp]; exact hv
  have hempty : s.ringFree = s.cfg.toParams.ringSize :=
    State.ringFree_empty hhead (ht.trans (congrArg _ (congrArg BitVec.toNat hp.symm))) hc
  obtain ⟨hcnt, h14⟩ := config_room s.cfg
  rw [State.applyMove_rxEnd_fits rest fcs pad hb hh hmin hmax
    (hempty ▸ (depositSize_fits s.cfg hmax).1) (by omega)]
  obtain ⟨hnext, hlen, hframe⟩ := State.received_deposit (rest := rest) (fcs := fcs) (pad := pad) hm hp hh hmax
  have hhead' := State.rxhead_deposit (hdr := hdr) (payload := payload) (rest := rest) (fcs := fcs) (pad := pad) hhead
  have hvalid : (s.deposit hdr payload rest fcs pad).HeaderValid := by
    refine ⟨hv, hnext ▸ hhead', ?_⟩
    rw [hlen, show (s.deposit hdr payload rest fcs pad).cfg = s.cfg from rfl]
    omega
  have hone : (s.deposit hdr payload rest fcs pad).chip.pktcnt = 1 := congrArg (· + 1) hc
  obtain ⟨l, hl⟩ := dispatch_one (s := s.deposit hdr payload rest fcs pad) h hf hone hvalid
    (by rw [hlen, Int.toNat_natCast]; exact hg)
  rw [hnext, hframe, laneOf_append _ _ (hh ▸ h14)] at hl
  obtain ⟨tr, ht, hout⟩ := hl.exists_trace
  obtain ⟨hptr, hring, htail, hpkt, hfree⟩ := State.delivered_ring (l := l) hhead' hone
  exact ⟨_, _, ht, hframe, hout, rfl, rfl, hptr, hring, htail, hpkt, hfree⟩

end Sys2Proof.Machine
end

section
/-! SUPPORT. Which bytes of chip memory an operation can change, whatever the other agents do meanwhile and wherever it
ends (`Stored`), walked once through every operation: the store of `KICK` is the block's only one. -/

namespace Sys2Proof.Machine

/-! ### What may have been stored -/

/-- The byte is one that a `KICK` may store, where `w` says that the operation can reach one (R8, R61). -/
def MayStore (w : Bool) (C : Config) (a : Nat) : Prop := w = true ∧ C.txStart ≤ a ∧ a < C.txStart + C.txCapacity

/-- Outside the ring only such bytes have changed; and with nothing lined up no other byte at all. -/
structure Stored (w : Bool) (s t : State) : Prop where
  cfg : t.cfg = s.cfg
  outside : ∀ a, ¬ InRing s.cfg.toParams a → ¬ MayStore w s.cfg a → t.mem.read a = s.mem.read a
  still : s.agenda = [] → t.agenda = [] ∧ ∀ a, ¬ MayStore w s.cfg a → t.mem.read a = s.mem.read a

theorem stored_of {w : Bool} {s t : State} (hc : t.cfg = s.cfg) (hm : t.mem = s.mem) (ha : t.agenda = s.agenda) :
    Stored w s t := ⟨hc, fun _ _ _ => by rw [hm], fun h => ⟨ha.trans h, fun _ _ => by rw [hm]⟩⟩

theorem Stored.refl (w : Bool) (s : State) : Stored w s s := stored_of rfl rfl rfl

theorem Stored.trans {w : Bool} {s t u : State} (h : Stored w s t) (k : Stored w t u) : Stored w s u where
  cfg := k.cfg.trans h.cfg
  outside := fun a hr ht => (k.outside a (by rwa [h.cfg]) (by rwa [h.cfg])).trans (h.outside a hr ht)
  still := fun hs => by
    obtain ⟨h1, h2⟩ := h.still hs
    obtain ⟨k1, k2⟩ := k.still h1
    exact ⟨k1, fun a ht => (k2 a (by rwa [h.cfg])).trans (h2 a ht)⟩

/-- While an operation runs, a move of another agent stores in the ring alone (R61). -/
theorem State.applyMove_read {s : State} (h : s.seq ≠ []) (m : EnvMove) {a : Nat} (ha : ¬ InRing s.cfg.toParams a) :
    (s.applyMove m).mem.read a = s.mem.read a := by
  cases m with
  | rxEnd hdr payload rest fcs pad =>
    simp only [State.applyMove, State.chipRxEnd]
    split
    · split
      · rfl
      · split
        · exact read_writeRing_outside _ _ (config_ring s.cfg).1 _ _ ha
        · rfl
    · rfl
  | rxEndCorrupt writes head raise =>
    simp only [State.applyMove, State.chipRxEndCorrupt]
    split
    · next hok => exact Memory.read_writePairs_outside _ fun p hp e => ha (e ▸ (hok.2.1 p hp).1)
    · rfl
  | reset v => rw [State.applyMove, State.resetMove, if_neg h]
  | discover o =>
    rw [State.applyMove]
    unfold State.discover
    rw [if_neg fun k => h k.1]
  | timerFire =>
    simp only [State.applyMove, State.quietExpire]
    split <;> rfl
  | rxBegin | rxOverflow | txComplete | txAbort =>
    simp only [State.applyMove, State.chipRxOverflow, State.chipTxComplete, State.chipTxAbort]
    split <;> rfl
  | linkChange | flowControl | timerTick | present => rfl

theorem State.applyMoves_read {s : State} (h : s.seq ≠ []) (ms : List EnvMove) {a : Nat}
    (ha : ¬ InRing s.cfg.toParams a) : (s.applyMoves ms).mem.read a = s.mem.read a := by
  induction ms generalizing s with
  | nil => rfl
  | cons m ms ih =>
    have k := State.applyMove_running h m
    exact (ih (s := s.applyMove m) (by rw [k.seq]; exact h) (by rw [k.cfg]; exact ha)).trans (State.applyMove_read h m ha)

/-- The other agents' moves before an event of a running operation. -/
theorem stored_tick {w : Bool} {s : State} (h : s.seq ≠ []) : Stored w s s.tick where
  cfg := (State.tick_running h).cfg
  outside := fun a ha _ => by
    unfold State.tick
    split
    · rfl
    · next rest _ => exact State.applyMoves_read (s := { s with agenda := rest }) h _ ha
  still := fun hs => by
    rw [State.tick_quiet hs]
    exact ⟨hs, fun _ _ => rfl⟩

/-! ### Operations by what they store -/

/-- Wherever the operation ends, it has stored as `w` says, and it has popped exactly what it pushed. -/
def Op.Stores {α : Type} (w : Bool) (x : Op α) : Prop :=
  ∀ (s : State) (n : Nat), Op.Meets (fun t => Stored w s t ∧ t.seq.length = n + 1) x
    (fun _ t => Stored w s t ∧ t.seq.length = n + 1) (Stored w s) True

section Stores

variable {α β : Type} {w : Bool} {x : Op α} {f : α → Op β}

theorem stores_pure (a : α) : (pure a : Op α).Stores w := fun _ _ => Op.meets_pure fun _ k => k

theorem Op.Stores.bind (hx : x.Stores w) (hf : ∀ a, (f a).Stores w) : (x >>= f).Stores w := fun s n =>
  (hx s n).bind fun a => hf a s n

theorem stores_getBind {f : State → Op β} (hf : ∀ a, (f a).Stores w) : (get >>= f).Stores w := fun s n =>
  Op.meets_getBind fun a _ => (hf a s n).pre fun _ k => k.1

theorem stores_ite {c : Prop} [Decidable c] {y : Op α} (hx : x.Stores w) (hy : y.Stores w) :
    (if c then x else y).Stores w := fun s n => Op.meets_ite (fun _ => hx s n) fun _ => hy s n

theorem stores_onlyIf {b : Bool} {y : Op Unit} (hy : y.Stores w) : (onlyIf b y).Stores w := fun s n =>
  Op.meets_onlyIf fun _ => hy s n

theorem stores_throw (e : Stop) : (throw e : Op α).Stores w := fun s n t k => by
  cases e
  · exact k.1
  · exact trivial

/-- An update of the state outside the memory and the depth of the sequencer. -/
theorem stores_update {g : State → State}
    (hg : ∀ s, (g s).cfg = s.cfg ∧ (g s).mem = s.mem ∧ (g s).agenda = s.agenda ∧ (g s).seq.length = s.seq.length
      := by exact fun _ => ⟨rfl, rfl, rfl, rfl⟩) :
    (update g).Stores w := fun _ _ => Op.meets_update fun t k => by
  obtain ⟨hc, hm, ha, hl⟩ := hg t
  exact ⟨k.1.trans (stored_of hc hm ha), hl.trans k.2⟩

theorem stores_atStep (n : Nat) : (atStep n).Stores w :=
  stores_update fun _ => ⟨rfl, rfl, rfl, List.length_modifyHead⟩

theorem stores_access (e : TraceEvent) : (access e).Stores w := fun s n t k => by
  have hne : t.seq ≠ [] := by rw [← List.length_pos_iff]; omega
  exact ⟨(k.1.trans (stored_tick hne)).trans (stored_of rfl rfl rfl), by
    rw [State.emit_seq, (State.tick_running hne).seq]
    exact k.2⟩

theorem stores_call {op : OpName} (hx : x.Stores w) : (call op x).Stores w := fun s n => by
  refine Op.meets_call ((hx s (n + 1)).weaken ?_ ?_ fun t k => k)
  · rintro _ ⟨u, k, rfl⟩
    exact ⟨k.1.trans (stored_of rfl rfl rfl), by simp [k.2]⟩
  · intro a t k
    exact ⟨k.1.trans (stored_of rfl rfl rfl), by simp [k.2]⟩

end Stores

/-! ### Every operation -/

section Operations

variable {w : Bool}

theorem stores_regReadBit (r : Reg) (b : BitName) : (regReadBit r b).Stores w :=
  (stores_access _).bind fun _ => stores_getBind fun _ => stores_pure _

theorem stores_regReadFlags : regReadFlags.Stores w :=
  (stores_access _).bind fun _ => stores_getBind fun _ => stores_pure _

theorem stores_onChip (g : State → Chip → Chip) : (update fun s => s.onChip (g s)).Stores w :=
  stores_update

theorem stores_regWrite (r : Reg) (v : Word) : (regWrite r v).Stores w :=
  (stores_access _).bind fun _ => stores_onChip _

theorem stores_regSet (r : Reg) (bs : List BitName) : (regSet r bs).Stores w :=
  stores_getBind fun _ => (stores_access _).bind fun _ => stores_onChip _

theorem stores_regClear (r : Reg) (bs : List BitName) : (regClear r bs).Stores w :=
  stores_getBind fun _ => (stores_access _).bind fun _ => stores_onChip _

theorem stores_memRead (a n : Nat) : (memRead a n).Stores w :=
  (stores_access _).bind fun _ => stores_getBind fun _ => stores_ite (stores_pure _) (stores_throw _)

theorem stores_raise (x : Exn) (info : Info) : (raise x info).Stores w :=
  stores_update fun _ => by cases x <;> exact ⟨rfl, rfl, rfl, rfl⟩

theorem stores_release (c : List Chunk) : (release c).Stores w := stores_update

theorem stores_alloc (cls : ChunkClass) : (alloc cls).Stores w := fun s n t k => by
  rw [alloc_run]
  obtain ⟨l, m, h⟩ := t.nextGrant_frame
  rw [h]
  exact ⟨k.1.trans (stored_of rfl rfl rfl), k.2⟩

theorem stores_resolve (dest : BitVec 32) (bs : List Byte) : (resolve dest bs).Stores w := fun s n t k => by
  rw [resolve_run]
  obtain ⟨l, m, h⟩ := t.nextAddress_frame
  rw [h]
  exact ⟨k.1.trans (stored_of rfl rfl rfl), k.2⟩

theorem stores_waitUntil (r : Reg) (b : BitName) (want : Bool) : (waitUntil r b want).Stores w := by
  have hold : ∀ n, (pollOrHold r b want n).Stores w := fun n => by
    induction n with
    | zero => exact stores_throw _
    | succ n ih => exact (stores_regReadBit r b).bind fun _ => stores_ite (stores_pure _) ih
  have fault : ∀ n, (pollOrFault r b want n).Stores w := fun n => by
    induction n with
    | zero => exact (stores_raise _ _).bind fun _ => stores_pure _
    | succ n ih => exact (stores_regReadBit r b).bind fun _ => stores_ite (stores_pure _) ih
  refine stores_getBind fun s => ?_
  cases s.cfg.spinLimit with
  | none => exact (hold _).bind fun _ => stores_pure _
  | some k => exact fault k

theorem stores_drain : drain.Stores w := stores_getBind fun s => by
  generalize s.pktRounds = n
  induction n with
  | zero => exact stores_pure _
  | succ n ih =>
    exact (stores_regReadBit _ _).bind fun _ => stores_ite ((stores_regSet _ _).bind fun _ => ih) (stores_pure _)

theorem stores_readWrapped (rounds rest : Nat) : (readWrapped rounds rest).Stores w := by
  induction rounds generalizing rest with
  | zero => exact stores_pure _
  | succ n ih =>
    exact stores_ite (stores_pure _) (stores_getBind fun _ => (stores_atStep _).bind fun _ =>
      (stores_memRead _ _).bind fun _ => (ih _).bind fun _ => stores_pure _)

theorem stores_setReadPointer (g : State → Nat) : (update fun s => s.setReadPointer (g s)).Stores w :=
  stores_update

theorem stores_readBytesBody (n : Nat) : (readBytesBody n).Stores w :=
  (stores_atStep _).bind fun _ => stores_getBind fun _ => (stores_atStep _).bind fun _ => (stores_atStep _).bind
    fun _ => (stores_memRead _ _).bind fun _ => (stores_atStep _).bind fun _ => (stores_atStep _).bind fun _ =>
    (stores_readWrapped _ _).bind fun _ => (stores_atStep _).bind fun _ => (stores_setReadPointer _).bind fun _ =>
    (stores_atStep _).bind fun _ => stores_pure _

theorem stores_resetRing : resetRing.Stores w :=
  stores_getBind fun _ => (stores_regWrite _ _).bind fun _ => (stores_regWrite _ _).bind fun _ =>
    stores_setReadPointer _

theorem stores_recoverFromWait : recoverFromWait.Stores w :=
  (stores_atStep _).bind fun _ => (stores_waitUntil _ _ _).bind fun _ => stores_ite ((stores_atStep _).bind fun _ =>
    stores_drain.bind fun _ => (stores_atStep _).bind fun _ => stores_resetRing.bind fun _ => (stores_atStep _).bind
    fun _ => Op.Stores.bind stores_update fun _ => (stores_atStep _).bind fun _ =>
    (stores_regSet _ _).bind fun _ => Op.Stores.bind stores_update fun _ => stores_atStep _)
    stores_update

theorem stores_recoverBody : recoverBody.Stores w :=
  (stores_atStep _).bind fun _ => (stores_regClear _ _).bind fun _ => (stores_atStep _).bind fun _ =>
    Op.Stores.bind stores_update fun _ => (stores_atStep _).bind fun _ =>
    Op.Stores.bind stores_update fun _ => (stores_atStep _).bind fun _ =>
    stores_getBind fun _ => stores_ite ((stores_raise _ _).bind fun _ =>
      stores_update) stores_recoverFromWait

theorem stores_reconcileBody : reconcileBody.Stores w :=
  (stores_atStep _).bind fun _ => (stores_waitUntil _ _ _).bind fun _ => stores_ite ((stores_atStep _).bind fun _ =>
    (stores_regReadBit _ _).bind fun _ => (stores_atStep _).bind fun _ => Op.Stores.bind (stores_ite
      (stores_getBind fun _ => (stores_regSet _ _).bind fun _ => (stores_regWrite _ _).bind fun _ =>
        stores_regSet _ _)
      (stores_getBind fun _ => (stores_regClear _ _).bind fun _ => (stores_regWrite _ _).bind fun _ =>
        (stores_regClear _ _).bind fun _ => stores_regClear _ _)) fun _ => stores_atStep _) (stores_pure _)

theorem stores_pushTable : pushTable.Stores w :=
  stores_getBind fun _ => (stores_regWrite _ _).bind fun _ => (stores_regWrite _ _).bind fun _ =>
    (stores_regWrite _ _).bind fun _ => stores_regWrite _ _

theorem stores_subscribeBody (a : MacAddr) : (subscribeBody a).Stores w :=
  stores_getBind fun _ => Op.Stores.bind stores_update fun _ => stores_pushTable

theorem stores_unsubscribeBody (a : MacAddr) : (unsubscribeBody a).Stores w :=
  stores_getBind fun _ => stores_ite (stores_pure _)
    (Op.Stores.bind stores_update fun _ => stores_pushTable)

theorem stores_initialiseAfterReconcile : initialiseAfterReconcile.Stores w :=
  stores_getBind fun _ => (stores_regWrite _ _).bind fun _ => (stores_regSet _ _).bind fun _ =>
    stores_update

theorem stores_bringUp : bringUp.Stores w :=
  (stores_atStep _).bind fun _ => (stores_regClear _ _).bind fun _ => stores_resetRing.bind fun _ =>
    stores_getBind fun _ => (stores_regWrite _ _).bind fun _ => stores_drain.bind fun _ => (stores_regClear _ _).bind
    fun _ => Op.Stores.bind stores_update fun _ => stores_pushTable.bind fun _ =>
    (stores_call stores_reconcileBody).bind fun _ => stores_initialiseAfterReconcile

theorem stores_initialiseBody : initialiseBody.Stores w :=
  (stores_atStep _).bind fun _ => stores_getBind fun _ => stores_ite ((stores_raise _ _).bind fun _ => stores_pure _)
    ((stores_atStep _).bind fun _ => stores_ite ((stores_raise _ _).bind fun _ => stores_pure _)
      ((stores_atStep _).bind fun _ => stores_ite (stores_pure _) (stores_bringUp.bind fun _ =>
        (stores_atStep _).bind fun _ => stores_pure _)))

theorem stores_setFlagsBody (up : Bool) : (setFlagsBody up).Stores w :=
  Op.Stores.bind stores_update fun _ => stores_getBind fun _ => stores_ite
    ((stores_call stores_initialiseBody).bind fun _ => stores_pure _) (stores_pure _)

theorem stores_failValidation (x : Exn) (info : Nat) : (failValidation x info).Stores w :=
  (stores_raise _ _).bind fun _ => (stores_call stores_recoverBody).bind fun _ => stores_pure _

theorem stores_failAllocation (chunks : List Chunk) : (failAllocation chunks).Stores w :=
  (stores_onlyIf (stores_release _)).bind fun _ => (stores_raise _ _).bind fun _ => stores_pure _

theorem stores_copyPayload (rounds remaining : Nat) (chunks : List Chunk) :
    (copyPayload rounds remaining chunks).Stores w := by
  induction rounds generalizing remaining chunks with
  | zero => exact stores_pure _
  | succ n ih =>
    exact stores_ite (stores_pure _) (stores_getBind fun _ => (stores_alloc _).bind fun _ => stores_ite
      ((stores_call (stores_readBytesBody _)).bind fun _ => ih _ _) (stores_failAllocation _))

theorem stores_buildPacket (n : Nat) : (buildPacket n).Stores w :=
  (stores_atStep _).bind fun _ => stores_getBind fun _ => (stores_alloc _).bind fun _ => stores_ite
    ((stores_call (stores_readBytesBody _)).bind fun _ => (stores_atStep _).bind fun _ => stores_copyPayload _ _ _)
    (stores_failAllocation _)

theorem stores_releaseRing (next : Nat) : (releaseRing next).Stores w :=
  (stores_atStep _).bind fun _ => stores_getBind fun _ => (stores_regWrite _ _).bind fun _ => stores_setReadPointer _

theorem stores_receiveOneBody : receiveOneBody.Stores w :=
  (stores_atStep _).bind fun _ => stores_getBind fun _ => stores_ite (stores_failValidation _ _)
    ((stores_atStep _).bind fun _ => (stores_call (stores_readBytesBody _)).bind fun _ => (stores_atStep _).bind
      fun _ => stores_ite (stores_failValidation _ _) ((stores_atStep _).bind fun _ => stores_ite
        (stores_failValidation _ _) ((stores_buildPacket _).bind fun _ => (stores_releaseRing _).bind fun _ =>
          stores_pure _)))

theorem stores_deliverReceived (r : Option Packet) : (deliverReceived r).Stores w := by
  cases r with
  | none => exact stores_pure _
  | some pkt =>
    exact stores_getBind fun _ => Op.Stores.bind stores_update fun _ =>
      stores_update

theorem stores_packetLoop : packetLoop.Stores w := stores_getBind fun s => by
  generalize s.pktRounds = n
  induction n with
  | zero => exact stores_pure _
  | succ n ih =>
    exact stores_getBind fun _ => stores_ite (stores_throw _) ((stores_regReadBit _ _).bind fun _ => stores_ite
      ((stores_regSet _ _).bind fun _ => (stores_call stores_receiveOneBody).bind fun _ =>
        (stores_deliverReceived _).bind fun _ => ih) (stores_pure _))

theorem stores_regReadBody (r : Reg) : (regReadBody r).Stores w := fun s n =>
  (stores_access _ s n).bind fun _ => Op.meets_getBind fun u ha => Op.Meets.bind
    (Q := fun _ t => Stored w s t ∧ t.seq.length = n + 1) (fun t k => by
      obtain ⟨-, rfl⟩ := k
      exact ⟨ha.1.trans (stored_of rfl rfl rfl), ha.2⟩) fun _ => Op.meets_pure fun _ k => k

/-! ### The operations that can reach `KICK` -/

/-- The one store of the block: a frame that fits, at the transmit origin (R61, R151 step 5). -/
theorem meets_memWrite_frame (s : State) (n : Nat) {bytes : List Byte} (hb : bytes.length ≤ s.cfg.txCapacity) :
    Op.Meets (fun t => Stored true s t ∧ t.seq.length = n + 1) (memWrite s.cfg.txStart bytes)
      (fun _ t => Stored true s t ∧ t.seq.length = n + 1) (Stored true s) True := fun t k => by
  obtain ⟨hk, hl⟩ := stores_access (w := true) (.memWrite s.cfg.txStart bytes) s n t k
  rw [memWrite_run]
  by_cases hfit : s.cfg.txStart + bytes.length ≤ t.tick.cfg.memSize
  · rw [if_pos hfit]
    have hout : ∀ a, ¬ MayStore true s.cfg a → (t.tick.mem.writeBytes s.cfg.txStart bytes).read a = t.tick.mem.read a :=
      fun a ha => Memory.read_writeBytes_outside _ (by simp only [MayStore, true_and] at ha; omega)
    exact ⟨⟨hk.cfg, fun a hr ha => (hout a ha).trans (hk.outside a hr ha), fun hs =>
      ⟨(hk.still hs).1, fun a ha => (hout a ha).trans ((hk.still hs).2 a ha)⟩⟩, hl⟩
  · rw [if_neg hfit]
    exact trivial

theorem stores_sendHead (pkt : Packet) : (sendHead pkt).Stores true := fun s n => by
  have htail : Op.Stores true (do
      atStep 6
      release pkt
      atStep 7
      regWrite .txlen (BitVec.ofNat 16 (frameOf pkt).length)
      atStep 8
      regSet .ctl [.ctlTxrts]) :=
    (stores_atStep _).bind fun _ => (stores_release _).bind fun _ => (stores_atStep _).bind fun _ =>
      (stores_regWrite _ _).bind fun _ => (stores_atStep _).bind fun _ => stores_regSet _ _
  have hpop : Op.Stores true (update fun s => { s with sendq := s.sendq.tail }) := stores_update
  refine (stores_atStep 3 s n).bind fun _ => (hpop s n).bind fun _ => Op.meets_getBind fun a ha => ?_
  rw [ha.1.cfg]
  exact Op.Meets.pre ((stores_atStep 4 s n).bind fun _ => Op.meets_ite
    (fun _ => (stores_release _ s n).bind fun _ => stores_raise _ _ s n)
    fun hlen => (stores_atStep 5 s n).bind fun _ => (meets_memWrite_frame s n (by omega)).bind fun _ => htail s n)
    fun _ k => k.1

theorem stores_kickBody : kickBody.Stores true :=
  (stores_atStep _).bind fun _ => (stores_regReadBit _ _).bind fun _ => stores_ite (stores_pure _)
    ((stores_atStep _).bind fun _ => stores_getBind fun s => by
      cases s.sendq with
      | nil => exact stores_pure _
      | cons pkt rest => exact stores_sendHead pkt)

theorem stores_enqueueAndKickBody (pkt : Packet) : (enqueueAndKickBody pkt).Stores true :=
  (stores_atStep _).bind fun _ => (stores_getBind fun _ => stores_ite ((stores_release _).bind fun _ =>
    (stores_raise _ _).bind fun _ => stores_pure _) (Op.Stores.bind stores_update fun _ => stores_pure _)).bind fun _ =>
    (stores_atStep _).bind fun _ => (stores_call stores_kickBody).bind fun _ => (stores_atStep _).bind fun _ =>
    stores_pure _

theorem stores_transmitBody (f : Bool) (p : Word) (d : BitVec 32) (bs : List Byte) :
    (transmitBody f p d bs).Stores true :=
  (stores_atStep _).bind fun _ => stores_getBind fun _ => stores_ite ((stores_release _).bind fun _ =>
    (stores_raise _ _).bind fun _ => stores_pure _) ((stores_atStep _).bind fun _ => stores_ite
    ((stores_atStep _).bind fun _ => stores_call (stores_enqueueAndKickBody _)) ((stores_resolve _ _).bind fun hw => by
      cases hw with
      | none => exact stores_pure _
      | some hw => exact (stores_atStep _).bind fun _ => stores_call (stores_enqueueAndKickBody _)))

theorem stores_handleTransmit (f : IFlags) : (handleTransmit f).Stores true :=
  (stores_atStep _).bind fun _ => (stores_onlyIf (Op.Stores.bind stores_update fun _ => stores_regClear _ _)).bind
    fun _ => (stores_onlyIf (Op.Stores.bind stores_update fun _ => stores_regClear _ _)).bind fun _ =>
    stores_getBind fun _ => stores_onlyIf (stores_call stores_kickBody)

theorem stores_dispatchRest (f : IFlags) : (dispatchRest f).Stores true :=
  (stores_onlyIf (stores_handleTransmit f)).bind fun _ => (stores_onlyIf ((stores_atStep _).bind fun _ =>
    Op.Stores.bind stores_update fun _ => stores_regClear _ _)).bind fun _ => (stores_onlyIf
    ((stores_atStep _).bind fun _ => stores_packetLoop)).bind fun _ => stores_atStep _

theorem stores_dispatchBody : dispatchBody.Stores true :=
  stores_regReadFlags.bind fun f => (stores_update (g := (·.setSnapshot f)) fun _ =>
    ⟨rfl, rfl, rfl, List.length_modifyHead⟩).bind fun _ =>
    stores_ite ((stores_atStep _).bind fun _ => (stores_call stores_reconcileBody).bind fun _ =>
      (stores_regClear _ _).bind fun _ => stores_dispatchRest f) (stores_dispatchRest f)

end Operations

/-! ### The commands -/

/-- A command that runs has stored what its body has, wherever it ends. -/
theorem runCommand_stored {w : Bool} {op : OpName} {body : Op Result} {s t : State} (hb : body.Stores w)
    (hs : s.seq = []) (h : runCommand op body s = .next t) : Stored w s t := by
  have k := hb s 0 (s.beginCommand op) ⟨stored_of rfl rfl rfl, rfl⟩
  rw [runCommand_run hs] at h
  cases hx : body (s.beginCommand op) with
  | ok r u =>
    rw [hx] at k h
    cases h
    refine k.1.trans ?_
    unfold State.finish
    split <;> exact stored_of rfl rfl rfl
  | error e u =>
    rw [hx] at k h
    cases e
    · cases h
      exact k
    · cases h

/-- A command of an idle block stores only in the transmit region, and there only if it can reach `KICK` (R61, R63). -/
theorem exec_stored {s t : State} {i : Instr} (hs : s.seq = []) (h : exec i s = .next t) : Stored i.mayStore s t := by
  have probed : ∀ {w : Bool} {op : OpName} {body : Op Result}, body.Stores w → runProbed op body s = .next t →
      Stored w s t := fun hb h => by
    cases hp : s.ctx.probed
    · rw [runProbed_unprobed hs hp] at h
      cases h
      exact stored_of rfl rfl rfl
    · rw [runProbed_probed hp] at h
      exact runCommand_stored hb hs h
  have packet : ∀ {op : OpName} {pkt : Packet} {body : Op Result}, body.Stores true →
      runProbedPacket op pkt body s = .next t → Stored true s t := fun hb h => by
    cases hp : s.ctx.probed
    · rw [runProbedPacket_unprobed hs hp] at h
      cases h
      exact stored_of rfl rfl rfl
    · rw [runProbedPacket_probed hp] at h
      exact runCommand_stored hb hs h
  have done : ∀ {w : Bool} {x : Op Unit}, x.Stores w → (do x; return Result.unit : Op Result).Stores w := fun hx =>
    hx.bind fun _ => stores_pure _
  cases i with
  | regRead r => exact probed (stores_regReadBody r) h
  | regWrite r v => exact probed (done (stores_regWrite r v)) h
  | regSetBits r m => exact probed (done ((stores_access _).bind fun _ => stores_onChip _)) h
  | regClearBits r m => exact probed (done ((stores_access _).bind fun _ => stores_onChip _)) h
  | readBytes n =>
    simp only [exec, execReadBytes] at h
    split at h
    · cases h
      exact stored_of rfl rfl rfl
    · exact probed ((stores_readBytesBody _).bind fun _ => stores_pure _) h
  | receiveOne => exact probed (stores_receiveOneBody.bind fun _ => stores_pure _) h
  | enqueueAndKick bytes => exact packet (stores_enqueueAndKickBody _) h
  | kick => exact probed (done stores_kickBody) h
  | dispatch => exact probed (done stores_dispatchBody) h
  | recover => exact probed (done stores_recoverBody) h
  | subscribe a => exact probed (done (stores_subscribeBody a)) h
  | unsubscribe a => exact probed (done (stores_unsubscribeBody a)) h
  | hash a => exact probed (stores_getBind fun _ => stores_pure _) h
  | reconcile => exact probed (done stores_reconcileBody) h
  | initialise => exact runCommand_stored stores_initialiseBody hs h
  | transmit f p d bs => exact packet (stores_transmitBody f p d bs) h
  | setMulticast a sub =>
    exact probed (done (stores_ite (stores_call (stores_subscribeBody a)) (stores_call (stores_unsubscribeBody a)))) h
  | setFlags up => exact probed (stores_setFlagsBody up) h
  | getStatus => exact probed (stores_getBind fun _ => stores_pure _) h

/-- No byte of the ring is one that a `KICK` may store (R8). -/
theorem not_mayStore_of_inRing {C : Config} {w : Bool} {a : Nat} (ha : InRing C.toParams a) : ¬ MayStore w C a := by
  rintro ⟨-, hlo, hhi⟩
  have hapart := config_apart C
  obtain ⟨hlo', hhi'⟩ := ha
  omega

/-- Settles O52: every operation stores as its command says (`exec_stored`), and the transmit region and the ring are
apart. -/
theorem storesOnlyTransmitRegion : Obligations.StoresOnlyTransmitRegion := by
  intro s t i hs h
  obtain ⟨-, hout, hstill⟩ := exec_stored hs h
  have never : i.mayStore = false → ∀ a, ¬ MayStore i.mayStore s.cfg a := fun hi a k => by
    rw [hi] at k
    exact Bool.false_ne_true k.1
  exact ⟨fun a hr ht => hout a hr fun k => ht k.2, fun hi a hr => hout a hr (never hi a),
    fun ha a hr => (hstill ha).2 a (not_mayStore_of_inRing hr), fun hi ha a => (hstill ha).2 a (never hi a)⟩

end Sys2Proof.Machine
end

section
/-! SUPPORT. The statements about the decoder and the encoder (spec/30_encoding.md): the operands that words carry
(registers, addresses, packets), the command word of each row of R93, the two directions of the round trip, and which
words are legal. -/

namespace Sys2Proof

theorem except_map_eq_ok {ε α β : Type} {x : Except ε α} {f : α → β} {b : β} :
    x.map f = .ok b ↔ ∃ a, x = .ok a ∧ f a = b := by
  cases x <;> simp [Except.map]

/-! ### Register operands (R13, R92) -/

theorem Reg.mem_all (r : Reg) : r ∈ Reg.all := by cases r <;> decide

theorem RegMap.number_injective {m : RegMap} (hm : m.Valid) : Function.Injective m.number :=
  fun a b h => List.inj_on_of_nodup_map hm.1 a.mem_all b.mem_all h

theorem RegMap.regOf_number {m : RegMap} (hm : m.Valid) (r : Reg) : m.regOf (m.number r) = some r := by
  cases h : m.regOf (m.number r) with
  | none =>
    unfold RegMap.regOf at h
    exact absurd (beq_self_eq_true _) (List.find?_eq_none.mp h r r.mem_all)
  | some q => exact congrArg some (number_injective hm (eq_of_beq (List.find?_some h :)))

theorem regOperand_number {m : RegMap} (hm : m.Valid) (r : Reg) : regOperand m (m.number r) = .ok r := by
  simp only [regOperand, m.regOf_number hm]

/-- A word that is read as a register is that register's number. -/
theorem number_of_regOperand {m : RegMap} {w : Word} {r : Reg} (h : regOperand m w = .ok r) : m.number r = w := by
  unfold regOperand at h
  split at h
  next q hq =>
    cases h
    exact eq_of_beq (List.find?_some hq :)
  next => cases h

/-! ### Bytes in words (R92, formats A, P and T) -/

/-- The high part of two parts put together. -/
theorem setWidth_ushiftRight_append {v w : Nat} (hi : BitVec v) (lo : BitVec w) :
    ((hi ++ lo) >>> w).setWidth v = hi := by
  refine BitVec.eq_of_getLsbD_eq fun i h => ?_
  simp [BitVec.getLsbD_append, h]

/-- The two parts of a word make it up. -/
theorem append_parts {v w : Nat} (x : BitVec (v + w)) : (x >>> w).setWidth v ++ x.setWidth w = x := by
  refine BitVec.eq_of_getLsbD_eq fun i h => ?_
  by_cases hw : i < w
  · simp [BitVec.getLsbD_append, hw]
  · have hv : i - w < v := by omega
    have hi : w + (i - w) = i := by omega
    simp [BitVec.getLsbD_append, hw, hv, hi]

@[simp] theorem low_joinBytes (lo hi : Byte) : (joinBytes lo hi).setWidth 8 = lo := BitVec.setWidth_append_eq_right

@[simp] theorem high_joinBytes (lo hi : Byte) : (joinBytes lo hi >>> 8).setWidth 8 = hi :=
  setWidth_ushiftRight_append hi lo

@[simp] theorem joinBytes_halves (w : Word) : joinBytes (w.setWidth 8) ((w >>> 8).setWidth 8) = w :=
  append_parts (v := 8) (w := 8) w

@[simp] theorem macOfWords_joinBytes (a : MacAddr) :
    macOfWords (joinBytes a.b0 a.b1) (joinBytes a.b2 a.b3) (joinBytes a.b4 a.b5) = a := by
  simp [macOfWords]

@[simp] theorem words_macOfWords (w1 w2 w3 : Word) : (macOfWords w1 w2 w3).words = [w1, w2, w3] := by
  simp [macOfWords, MacAddr.words]

/-! ### Packets (R92, formats P and T; R94) -/

theorem unpackWords_cons (w : Word) (ws : List Word) :
    unpackWords (w :: ws) = w.setWidth 8 :: (w >>> 8).setWidth 8 :: unpackWords ws := rfl

@[simp] theorem length_unpackWords (ws : List Word) : (unpackWords ws).length = 2 * ws.length := by
  induction ws with
  | nil => rfl
  | cons w ws ih =>
    rw [unpackWords_cons, List.length_cons, List.length_cons, ih, List.length_cons]
    omega

/-- The data words of a packet hold its bytes and, after an odd number of them, one zero byte. -/
theorem unpackWords_packBytes (bs : List Byte) :
    unpackWords (packBytes bs) = bs ++ List.replicate (bs.length % 2) 0 := by
  induction bs using packBytes.induct with
  | case1 => rfl
  | case2 b => simp [packBytes, unpackWords, splitWord]
  | case3 lo hi rest ih => simp [packBytes, unpackWords_cons, ih, Nat.add_mod_right rest.length 2]

/-- The zero byte after an odd number of bytes leaves the data words the same. -/
theorem packBytes_padded (bs : List Byte) : packBytes (bs ++ List.replicate (bs.length % 2) 0) = packBytes bs := by
  induction bs using packBytes.induct with
  | case1 => rfl
  | case2 b => rfl
  | case3 lo hi rest ih => simpa [packBytes, Nat.add_mod_right rest.length 2] using ih

theorem packBytes_unpackWords (ws : List Word) : packBytes (unpackWords ws) = ws := by
  induction ws with
  | nil => rfl
  | cons w ws ih => rw [unpackWords_cons, packBytes, ih, joinBytes_halves]

theorem packetOfWords_packBytes {bytes : List Byte} (h : packetFits bytes = true) :
    packetOfWords (BitVec.ofNat 16 bytes.length) (packBytes bytes) = .ok bytes := by
  simp [packetOfWords, packet_count h, unpackWords_packBytes]

/-- A packet that is read, from as many data words as its byte count says, is the one that those words encode. -/
theorem packBytes_of_packetOfWords {n : Word} {data : List Word} {bytes : List Byte}
    (hlen : data.length = (n.toNat + 1) / 2) (h : packetOfWords n data = .ok bytes) :
    packetFits bytes = true ∧ BitVec.ofNat 16 bytes.length = n ∧ packBytes bytes = data := by
  unfold packetOfWords at h
  split at h
  next hclean =>
    cases h
    have hn : ((unpackWords data).take n.toNat).length = n.toNat := by
      rw [List.length_take, length_unpackWords]
      omega
    have hpad : (unpackWords data).drop n.toNat = List.replicate (n.toNat % 2) 0 := by
      refine List.eq_replicate_iff.mpr ⟨?_, by simpa using hclean⟩
      rw [List.length_drop, length_unpackWords]
      omega
    refine ⟨?_, ?_, ?_⟩
    · simpa only [packetFits, hn, decide_eq_true_eq] using n.isLt
    · rw [hn, BitVec.ofNat_toNat, BitVec.setWidth_eq]
    · calc packBytes ((unpackWords data).take n.toNat)
          = packBytes ((unpackWords data).take n.toNat ++ (unpackWords data).drop n.toNat) := by
            rw [hpad, ← packBytes_padded, hn]
        _ = data := by rw [List.take_append_drop, packBytes_unpackWords]
  next => cases h

/-- A packet of odd length whose last data word has a non-zero high half is refused (R94). -/
theorem packetOfWords_dirtyPadding {n last : Word} {front : List Word} (hn : n.toNat = 2 * front.length + 1)
    (hlast : last.toNat / 256 ≠ 0) : packetOfWords n (front ++ [last]) = .error .dirtyPadding := by
  have hdrop : (unpackWords (front ++ [last])).drop n.toNat = [(last >>> 8).setWidth 8] := by
    rw [show unpackWords (front ++ [last]) = unpackWords front ++ splitWord last by simp [unpackWords], hn,
      ← length_unpackWords, ← List.drop_drop, List.drop_left]
    rfl
  have hhigh : (last >>> 8).setWidth 8 ≠ (0 : Byte) := by
    intro h
    have hzero := congrArg BitVec.toNat h
    simp only [BitVec.toNat_setWidth, BitVec.toNat_ushiftRight, Nat.shiftRight_eq_div_pow, BitVec.ofNat_eq_ofNat,
      BitVec.toNat_ofNat] at hzero
    omega
  simpa [packetOfWords, hdrop] using hhigh

/-! ### Command words (R91, R93) -/

/-- The `FLAG` operand of an instruction; false where it has none. -/
def Instr.flag : Instr → Bool
  | .transmit framed _ _ _ => framed
  | .setMulticast _ sub => sub
  | .setFlags up => up
  | .regRead _ | .regWrite _ _ | .regSetBits _ _ | .regClearBits _ _ | .readBytes _ | .receiveOne | .enqueueAndKick _
  | .kick | .dispatch | .recover | .subscribe _ | .unsubscribe _ | .hash _ | .reconcile | .initialise
  | .getStatus => false

/-- The command word of an operation, `flag` only where it has the operand. -/
def Opcode.commandWord (flag : Bool) : Opcode → Word
  | .regRead => 0x0000
  | .regWrite => 0x0100
  | .regSetBits => 0x0200
  | .regClearBits => 0x0300
  | .readBytes => 0x1000
  | .receiveOne => 0x2000
  | .enqueueAndKick => 0x3000
  | .kick => 0x3100
  | .dispatch => 0x4000
  | .recover => 0x5000
  | .subscribe => 0x6000
  | .unsubscribe => 0x6100
  | .hash => 0x6200
  | .reconcile => 0x7000
  | .initialise => 0x8000
  | .transmit => withFlag 0x8100 flag
  | .setMulticast => withFlag 0x8200 flag
  | .setFlags => withFlag 0x8300 flag
  | .getStatus => 0x8400

theorem encode_eq_cons (m : RegMap) (i : Instr) : ∃ args, encode m i = i.opcode.commandWord i.flag :: args := by
  cases i <;> exact ⟨_, rfl⟩

/-- A row of R93 fixes the whole command word, or all but the flag of an operation that has the operand. -/
theorem mask_of_mem_opcodeRows : ∀ row ∈ opcodeRows,
    row.mask = 0xFFFF ∧ (∀ flag, row.opcode.commandWord flag = row.pattern)
      ∨ row.mask = 0xFFFE ∧ ∀ flag, row.opcode.commandWord flag = withFlag row.pattern flag := by decide

theorem withFlag_flagOf (cw : Word) : withFlag (cw &&& 0xFFFE) (flagOf cw) = cw := by
  have hflag : (if flagOf cw then 1 else 0) = cw &&& 1#16 := by
    rw [flagOf, BitVec.and_one_eq_setWidth_ofBool_getLsbD]
    cases cw.getLsbD 0 <;> rfl
  calc withFlag (cw &&& 0xFFFE) (flagOf cw)
      = cw &&& 0xFFFE ||| cw &&& 1#16 := by rw [withFlag, hflag]
    _ = cw &&& (0xFFFE ||| 1#16) := BitVec.and_or_distrib_left.symm
    _ = cw := BitVec.and_allOnes

/-- A command word that selects a row is the command word of that row's operation. -/
theorem eq_commandWord_of_findRow {cw : Word} {row : OpcodeRow} (h : findRow cw = some row) :
    cw = row.opcode.commandWord (flagOf cw) := by
  have hsel : cw &&& row.mask = row.pattern := eq_of_beq (List.find?_some h :)
  obtain ⟨hmask, hcw⟩ | ⟨hmask, hcw⟩ := mask_of_mem_opcodeRows row (List.mem_of_find?_eq_some h)
  · rw [hcw, ← hsel, hmask]
    exact BitVec.and_allOnes.symm
  · rw [hcw, ← hsel, hmask, withFlag_flagOf]

/-- A command word keeps its flag where its pattern leaves room for it. -/
theorem flagOf_withFlag {pattern : Word} (h : flagOf pattern = false) (flag : Bool) :
    flagOf (withFlag pattern flag) = flag := by
  cases flag
  · simpa [flagOf, withFlag] using h
  · simp [flagOf, withFlag]

/-! ### The decoder -/

theorem decode_of_findRow {m : RegMap} {cw : Word} {args : List Word} {row : OpcodeRow} (hrow : findRow cw = some row)
    (hlen : args.length = operandCount row.format (args.headD 0)) :
    decode m (cw :: args) = decodeOperands m row.opcode cw args := by
  simp only [decode, hrow, hlen, if_true]

/-- What a legal word sequence is: a command word of some row, and as many operand words as its format says. -/
theorem decode_eq_ok {m : RegMap} {ws : List Word} {i : Instr} (h : decode m ws = .ok i) :
    ∃ cw args row, ws = cw :: args ∧ findRow cw = some row ∧ args.length = operandCount row.format (args.headD 0)
      ∧ decodeOperands m row.opcode cw args = .ok i := by
  unfold decode at h
  split at h
  next => cases h
  next cw args =>
    split at h
    next => cases h
    next row hrow =>
      split at h
      next hlen => exact ⟨cw, args, row, rfl, hrow, hlen, h⟩
      next => cases h

theorem encodeMatchesRow (i : Instr) : Laws.EncodeMatchesRow.Statement i := by
  cases i with
  | regRead r => exact Laws.EncodeMatchesRow.regRead r
  | regWrite r v => exact Laws.EncodeMatchesRow.regWrite r v
  | regSetBits r v => exact Laws.EncodeMatchesRow.regSetBits r v
  | regClearBits r v => exact Laws.EncodeMatchesRow.regClearBits r v
  | readBytes n => exact Laws.EncodeMatchesRow.readBytes n
  | receiveOne => exact Laws.EncodeMatchesRow.receiveOne
  | enqueueAndKick bytes => exact Laws.EncodeMatchesRow.enqueueAndKick bytes
  | kick => exact Laws.EncodeMatchesRow.kick
  | dispatch => exact Laws.EncodeMatchesRow.dispatch
  | recover => exact Laws.EncodeMatchesRow.recover
  | subscribe a => exact Laws.EncodeMatchesRow.subscribe a
  | unsubscribe a => exact Laws.EncodeMatchesRow.unsubscribe a
  | hash a => exact Laws.EncodeMatchesRow.hash a
  | reconcile => exact Laws.EncodeMatchesRow.reconcile
  | initialise => exact Laws.EncodeMatchesRow.initialise
  | transmit framed ptype dest bytes => exact Laws.EncodeMatchesRow.transmit framed ptype dest bytes
  | setMulticast a sub => exact Laws.EncodeMatchesRow.setMulticast a sub
  | setFlags up => exact Laws.EncodeMatchesRow.setFlags up
  | getStatus => exact Laws.EncodeMatchesRow.getStatus

/-! ### The round trip -/

theorem decodeOperands_encode {m : RegMap} (hm : m.Valid) {i : Instr} (hi : i.wellFormed = true) {cw : Word}
    {args : List Word} (h : encode m i = cw :: args) : decodeOperands m i.opcode cw args = .ok i := by
  cases i <;> cases h
  case regRead r | regWrite r _ | regSetBits r _ | regClearBits r _ =>
    exact except_map_eq_ok.mpr ⟨r, regOperand_number hm r, rfl⟩
  case enqueueAndKick bytes => exact except_map_eq_ok.mpr ⟨bytes, packetOfWords_packBytes hi, rfl⟩
  case transmit framed ptype dest bytes =>
    have hdest : (dest >>> 16).setWidth 16 ++ dest.setWidth 16 = dest := append_parts (v := 16) (w := 16) dest
    refine except_map_eq_ok.mpr ⟨bytes, packetOfWords_packBytes hi, ?_⟩
    rw [hdest, flagOf_withFlag rfl]
  case subscribe a => exact congrArg (Except.ok ∘ Instr.subscribe) (macOfWords_joinBytes a)
  case unsubscribe a => exact congrArg (Except.ok ∘ Instr.unsubscribe) (macOfWords_joinBytes a)
  case hash a => exact congrArg (Except.ok ∘ Instr.hash) (macOfWords_joinBytes a)
  case setMulticast a sub =>
    exact congrArg₂ (fun b f => Except.ok (Instr.setMulticast b f)) (macOfWords_joinBytes a) (flagOf_withFlag rfl sub)
  case setFlags up => exact congrArg (Except.ok ∘ Instr.setFlags) (flagOf_withFlag rfl up)
  all_goals rfl

/-- Settles O2: the encoding selects the row of the command's operation, and its operand words are read back. -/
theorem decodeEncode : Obligations.DecodeEncode := by
  intro m i hm hi
  obtain ⟨cw, args, row, henc, hrow, hop, hlen⟩ := encodeMatchesRow i m
  rw [henc, decode_of_findRow hrow (hlen hi), hop, decodeOperands_encode hm hi henc]

/-- The operand words of a format, as many as R90 and R95 say. -/
inductive Operands : Format → List Word → Prop
  | n : Operands .n []
  | r1 (reg : Word) : Operands .r1 [reg]
  | r2 (reg v : Word) : Operands .r2 [reg, v]
  | l (length : Word) : Operands .l [length]
  | a (w1 w2 w3 : Word) : Operands .a [w1, w2, w3]
  | p (n : Word) (data : List Word) (hlen : data.length = (n.toNat + 1) / 2) : Operands .p (n :: data)
  | t (n ptype lo hi : Word) (data : List Word) (hlen : data.length = (n.toNat + 1) / 2) :
      Operands .t (n :: ptype :: lo :: hi :: data)

theorem operands_of_length {f : Format} {args : List Word} (h : args.length = operandCount f (args.headD 0)) :
    Operands f args := by
  cases f with
  | n =>
    obtain rfl := List.length_eq_zero_iff.mp h
    exact .n
  | r1 =>
    obtain ⟨reg, rfl⟩ := List.length_eq_one_iff.mp h
    exact .r1 reg
  | r2 =>
    obtain ⟨reg, v, rfl⟩ := List.length_eq_two.mp h
    exact .r2 reg v
  | l =>
    obtain ⟨length, rfl⟩ := List.length_eq_one_iff.mp h
    exact .l length
  | a =>
    obtain ⟨w1, w2, w3, rfl⟩ := List.length_eq_three.mp h
    exact .a w1 w2 w3
  | p =>
    match args, h with
    | n :: data, h => exact .p n data (by simpa [operandCount, Nat.add_comm 1] using h)
  | t =>
    match args, h with
    | n :: ptype :: lo :: hi :: data, h => exact .t n ptype lo hi data (by simpa [operandCount, Nat.add_comm 4] using h)
    | [n], h | [n, _], h | [n, _, _], h =>
      simp only [operandCount, List.length_cons, List.length_nil] at h
      omega

/-- The format of an operation's operands (R93). -/
def Opcode.format : Opcode → Format
  | .regRead => .r1
  | .regWrite | .regSetBits | .regClearBits => .r2
  | .readBytes => .l
  | .enqueueAndKick => .p
  | .subscribe | .unsubscribe | .hash | .setMulticast => .a
  | .transmit => .t
  | .receiveOne | .kick | .dispatch | .recover | .reconcile | .initialise | .setFlags | .getStatus => .n

theorem format_of_mem_opcodeRows : ∀ row ∈ opcodeRows, row.format = row.opcode.format := by decide

/-- The operand words that are read, being as many as the format says, encode the command read from them. -/
theorem encode_of_decodeOperands {m : RegMap} {op : Opcode} {cw : Word} {args : List Word} {i : Instr}
    (ho : Operands op.format args) (h : decodeOperands m op cw args = .ok i) :
    i.wellFormed = true ∧ encode m i = op.commandWord (flagOf cw) :: args := by
  cases op <;> cases ho
  case regRead w | regWrite w _ | regSetBits w _ | regClearBits w _ =>
    obtain ⟨r, hr, rfl⟩ := except_map_eq_ok.mp h
    exact ⟨rfl, by rw [← number_of_regOperand hr]; rfl⟩
  case enqueueAndKick n data hlen =>
    obtain ⟨bytes, hb, rfl⟩ := except_map_eq_ok.mp h
    obtain ⟨hfits, hcount, hdata⟩ := packBytes_of_packetOfWords hlen hb
    exact ⟨hfits, by rw [encode, hcount, hdata]; rfl⟩
  case transmit n ptype lo hi data hlen =>
    obtain ⟨bytes, hb, rfl⟩ := except_map_eq_ok.mp h
    obtain ⟨hfits, hcount, hdata⟩ := packBytes_of_packetOfWords hlen hb
    refine ⟨hfits, ?_⟩
    rw [encode, hcount, hdata, setWidth_ushiftRight_append hi lo, BitVec.setWidth_append_eq_right]
    rfl
  case subscribe | unsubscribe | hash | setMulticast =>
    cases h
    exact ⟨rfl, by rw [encode, words_macOfWords]; rfl⟩
  all_goals
    cases h
    exact ⟨rfl, rfl⟩

/-- Settles O3: a legal sequence has its row's command word and operand words, which the command read from them
encodes to. -/
theorem encodeDecode : Obligations.EncodeDecode := by
  intro m ws i hm h
  obtain ⟨cw, args, row, rfl, hrow, hlen, hop⟩ := decode_eq_ok h
  have hformat := format_of_mem_opcodeRows row (List.mem_of_find?_eq_some hrow)
  obtain ⟨hi, henc⟩ := encode_of_decodeOperands (hformat ▸ operands_of_length hlen) hop
  exact ⟨hi, by rw [henc, ← eq_commandWord_of_findRow hrow]⟩

/-! ### Which words are legal (R91, R94) -/

/-- Every operation, with or without its flag, is that of a well-formed command. -/
theorem exists_wellFormed (op : Opcode) (flag : Bool) :
    ∃ i : Instr, i.wellFormed = true ∧ i.opcode.commandWord i.flag = op.commandWord flag := by
  cases op with
  | regRead => exact ⟨.regRead .rxst, rfl, rfl⟩
  | regWrite => exact ⟨.regWrite .rxst 0, rfl, rfl⟩
  | regSetBits => exact ⟨.regSetBits .rxst 0, rfl, rfl⟩
  | regClearBits => exact ⟨.regClearBits .rxst 0, rfl, rfl⟩
  | readBytes => exact ⟨.readBytes 0, rfl, rfl⟩
  | receiveOne => exact ⟨.receiveOne, rfl, rfl⟩
  | enqueueAndKick => exact ⟨.enqueueAndKick [], rfl, rfl⟩
  | kick => exact ⟨.kick, rfl, rfl⟩
  | dispatch => exact ⟨.dispatch, rfl, rfl⟩
  | recover => exact ⟨.recover, rfl, rfl⟩
  | subscribe => exact ⟨.subscribe default, rfl, rfl⟩
  | unsubscribe => exact ⟨.unsubscribe default, rfl, rfl⟩
  | hash => exact ⟨.hash default, rfl, rfl⟩
  | reconcile => exact ⟨.reconcile, rfl, rfl⟩
  | initialise => exact ⟨.initialise, rfl, rfl⟩
  | transmit => exact ⟨.transmit flag 0 0 [], rfl, rfl⟩
  | setMulticast => exact ⟨.setMulticast default flag, rfl, rfl⟩
  | setFlags => exact ⟨.setFlags flag, rfl, rfl⟩
  | getStatus => exact ⟨.getStatus, rfl, rfl⟩

/-- A command word opens a legal command exactly when it selects a row. -/
theorem exists_decode_iff {m : RegMap} (hm : m.Valid) {cw : Word} :
    (∃ args i, decode m (cw :: args) = .ok i) ↔ ∃ row, findRow cw = some row := by
  constructor
  · rintro ⟨args, i, h⟩
    obtain ⟨cw', args', row, hcons, hrow, -, -⟩ := decode_eq_ok h
    cases hcons
    exact ⟨row, hrow⟩
  · rintro ⟨row, hrow⟩
    obtain ⟨i, hi, hcw⟩ := exists_wellFormed row.opcode (flagOf cw)
    obtain ⟨args, henc⟩ := encode_eq_cons m i
    refine ⟨args, i, ?_⟩
    rw [eq_commandWord_of_findRow hrow, ← hcw, ← henc]
    exact decodeEncode m i hm hi

/-- The operations that each unit has (R93). -/
def unitOps : List (Nat × Nat) :=
  [(0, 0), (0, 1), (0, 2), (0, 3), (1, 0), (2, 0), (3, 0), (3, 1), (4, 0), (5, 0), (6, 0), (6, 1), (6, 2), (7, 0),
    (8, 0), (8, 1), (8, 2), (8, 3), (8, 4)]

/-- The fields of a command word (R91) are those of a row of R93. -/
abbrev LegalFields (unit op flag : Nat) : Prop :=
  (unit, op) ∈ unitOps ∧ (flag = 0 ∨ flag = 1 ∧ unit = 8 ∧ op ∈ [1, 2, 3])

theorem commandWord_fields : ∀ row ∈ opcodeRows, ∀ flag : Bool,
    LegalFields ((row.opcode.commandWord flag).toNat / 4096) ((row.opcode.commandWord flag).toNat / 256 % 16)
      ((row.opcode.commandWord flag).toNat % 256) := by decide

theorem findRow_of_unitOps : ∀ p ∈ unitOps, (findRow (BitVec.ofNat 16 (4096 * p.1 + 256 * p.2))).isSome := by decide

theorem findRow_of_flagOps : ∀ op ∈ [1, 2, 3], (findRow (BitVec.ofNat 16 (4096 * 8 + 256 * op + 1))).isSome := by decide

theorem exists_findRow_iff {cw : Word} : (∃ row, findRow cw = some row) ↔
    ∃ unit op flag : Nat, cw = BitVec.ofNat 16 (4096 * unit + 256 * op + flag) ∧ LegalFields unit op flag := by
  constructor
  · rintro ⟨row, hrow⟩
    have hfields := commandWord_fields row (List.mem_of_find?_eq_some hrow) (flagOf cw)
    rw [← eq_commandWord_of_findRow hrow] at hfields
    refine ⟨_, _, _, BitVec.eq_of_toNat_eq ?_, hfields⟩
    rw [BitVec.toNat_ofNat]
    omega
  · rintro ⟨unit, op, flag, rfl, hop, rfl | ⟨rfl, rfl, hflag⟩⟩
    · exact Option.isSome_iff_exists.mp (findRow_of_unitOps (unit, op) hop)
    · exact Option.isSome_iff_exists.mp (findRow_of_flagOps op hflag)

/-- Words whose operands are refused are no command. -/
theorem decode_ne_ok {m : RegMap} {cw : Word} {args : List Word} {row : OpcodeRow} (hrow : findRow cw = some row)
    (hop : args.length = operandCount row.format (args.headD 0) → ∀ i, decodeOperands m row.opcode cw args ≠ .ok i)
    (i : Instr) : decode m (cw :: args) ≠ .ok i := by
  intro h
  obtain ⟨cw', args', row', hcons, hrow', hlen, hok⟩ := decode_eq_ok h
  cases hcons
  cases hrow.symm.trans hrow'
  exact hop hlen i hok

theorem regOperand_map_ne_ok {m : RegMap} {reg : Word} (hreg : ∀ r, m.number r ≠ reg) {f : Reg → Instr} (i : Instr) :
    (regOperand m reg).map f ≠ .ok i := by
  intro h
  obtain ⟨r, hr, -⟩ := except_map_eq_ok.mp h
  exact hreg r (number_of_regOperand hr)

theorem packetOfWords_map_ne_ok {n last : Word} {front : List Word} (hodd : n.toNat % 2 = 1)
    (hlast : last.toNat / 256 ≠ 0) (hlen : (front ++ [last]).length = (n.toNat + 1) / 2) {f : List Byte → Instr}
    (i : Instr) : (packetOfWords n (front ++ [last])).map f ≠ .ok i := by
  rw [List.length_append, List.length_singleton] at hlen
  rw [packetOfWords_dirtyPadding (by omega) hlast]
  exact fun h => nomatch h

/-- Settles O4: a command word is legal if it selects a row; a register operand and a packet are what R92 says. -/
theorem legalCommandWords : Obligations.LegalCommandWords := by
  intro m hm
  refine ⟨fun cw => (exists_decode_iff hm).trans exists_findRow_iff, fun reg v hreg => ⟨?_, ?_⟩,
    fun n last front hodd hlast => ⟨?_, ?_⟩⟩
  · exact decode_ne_ok (row := ⟨.regRead, .r1, 0x0000, 0xFFFF⟩) (by decide) fun _ => regOperand_map_ne_ok hreg
  · simp only [List.forall_mem_cons, List.not_mem_nil, false_implies, implies_true, and_true]
    exact ⟨decode_ne_ok (row := ⟨.regWrite, .r2, 0x0100, 0xFFFF⟩) (by decide) fun _ => regOperand_map_ne_ok hreg,
      decode_ne_ok (row := ⟨.regSetBits, .r2, 0x0200, 0xFFFF⟩) (by decide) fun _ => regOperand_map_ne_ok hreg,
      decode_ne_ok (row := ⟨.regClearBits, .r2, 0x0300, 0xFFFF⟩) (by decide) fun _ => regOperand_map_ne_ok hreg⟩
  · refine decode_ne_ok (row := ⟨.enqueueAndKick, .p, 0x3000, 0xFFFF⟩) (by decide) fun hlen => ?_
    cases operands_of_length hlen with
    | p _ _ hdata => exact packetOfWords_map_ne_ok hodd hlast hdata
  · intro cw hcw p lo hi
    have hrow : findRow cw = some ⟨.transmit, .t, 0x8100, 0xFFFE⟩ := by
      obtain rfl | rfl := List.mem_pair.mp hcw <;> decide
    refine decode_ne_ok hrow fun hlen => ?_
    cases operands_of_length hlen with
    | t _ _ _ _ _ hdata => exact packetOfWords_map_ne_ok hodd hlast hdata

/-- Settles O1, word by word. -/
theorem decodedWords : Obligations.DecodedWords := by
  unfold Obligations.DecodedWords
  decide

/-- Settles O6: the refusal is `State.turnAway`, and `BadCommand` has no counter. -/
theorem badCommandRefused : Obligations.BadCommandRefused := by
  intro s cw args e h
  simp only [Machine.acceptCommand, h, Machine.badCommand, Machine.State.turnAway]
  rfl

end Sys2Proof
end

section
/-! SUPPORT. The statements about `READ_BYTES` (spec/41_ring_buffer_reader.md): the command on a ready block, inside and
outside the ring, and two reads in a row. -/

namespace Sys2Proof.Machine

/-! ### The read pointer modulo the ring (R68, R120) -/

/-- The source's closed form of a pointer that has wrapped once (R120). -/
theorem ringAddr_wrapped_once (p : Params) {a : Nat} (hlo : p.rxEnd ≤ a) (hhi : a < p.rxEnd + p.ringSize) :
    ringAddr p a = p.rxStart + (a - p.rxEnd) := by
  have hsize : p.ringSize = p.rxEnd - p.rxStart := rfl
  have hback : InRing p (a - p.ringSize) := by omega
  have hsplit : (a : Int) = (a - p.ringSize : Nat) + p.ringSize := by omega
  rw [hsplit, ringAddr_add_ringSize, ringAddr_of_inRing p hback]
  omega

/-- A ring address goes through the 16 bits of the pointer unchanged. -/
theorem State.pointer_setReadPointer_ringAddr (s : State) (a : Int) :
    (s.setReadPointer (ringAddr s.cfg.toParams a)).pointer = ringAddr s.cfg.toParams a := by
  have hr := config_ring s.cfg
  have hi := ringAddr_inRing s.cfg.toParams hr.1 a
  exact toNat_ofNat16 (by omega)

/-! ### The command (R120, R121) -/

/-- `s` once `READ_BYTES n` has completed (R120, R122). -/
def State.afterReadBytes (n : Nat) (s : State) : State :=
  (s.answered (.bytes (s.ringBytes s.pointer n))).setReadPointer (ringAddr s.cfg.toParams (s.pointer + n))

/-- A command that moves the pointer and nothing else. -/
theorem State.endCommand_setReadPointer_beginCommand {s : State} (hs : s.seq = []) (op : OpName) (a : Nat)
    (r : Result) : ((s.beginCommand op).setReadPointer a).endCommand r = (s.answered r).setReadPointer a :=
  congrArg (fun q => { (s.answered r).setReadPointer a with seq := q }) hs.symm

section

variable {s : State} (h : s.Ready)
include h

theorem completes_readBytes (hp : InRing s.cfg.toParams s.pointer) (n : Word) :
    Completes (exec (.readBytes n) s) s (s.afterReadBytes n.toNat) [] := by
  have ⟨⟨hidle, hagenda, _⟩, _⟩ := h
  have hbody : Quiet (readBytesBody n.toNat) (s.beginCommand .readBytes) (s.ringBytes s.pointer n.toNat)
      ((s.beginCommand .readBytes).setReadPointer (ringAddr s.cfg.toParams (s.pointer + n.toNat))) [] :=
    quiet_readBytesBody (s := s.beginCommand .readBytes) hp hagenda
  have hguard : ¬ (s.seq = [] ∧ s.ctx.probed = true ∧ ¬ InRing s.cfg.toParams s.ctx.rxReadPointer.toNat) :=
    fun k => k.2.2 hp
  rw [exec, execReadBytes, if_neg hguard]
  exact (completes_chip h hbody.map rfl).to
    (congrArg State.untraced (State.endCommand_setReadPointer_beginCommand hidle _ _ _)) rfl

theorem exec_readBytes_outsideRing (hp : ¬ InRing s.cfg.toParams s.pointer) (n : Word) :
    exec (.readBytes n) s = .next { s with result := some .refusedOutsideRing } := by
  have ⟨⟨hidle, _⟩, hprobed⟩ := h
  rw [exec, execReadBytes, if_pos ⟨hidle, hprobed, hp⟩]

theorem exec_readBytes (hp : InRing s.cfg.toParams s.pointer) (n : Word) :
    ∃ tr, exec (.readBytes n) s = .next { s.afterReadBytes n.toNat with trace := tr } :=
  (completes_readBytes h hp n).next

end

/-! ### Two reads in a row (R123) -/

theorem State.ringBytes_afterReadBytes (s : State) (a b : Nat) :
    s.ringBytes s.pointer (a + b)
      = s.ringBytes s.pointer a ++ (s.afterReadBytes a).ringBytes (s.afterReadBytes a).pointer b := by
  rw [State.ringBytes_add]
  exact congrArg _ (s.ringBytes_advanced a 0 b).symm

theorem State.ringAddr_pointer_afterReadBytes (s : State) (a b : Nat) :
    ringAddr s.cfg.toParams ((s.afterReadBytes a).pointer + b) = ringAddr s.cfg.toParams (s.pointer + (a + b)) := by
  have hpointer : (s.afterReadBytes a).pointer = ringAddr s.cfg.toParams (s.pointer + a) :=
    s.pointer_setReadPointer_ringAddr _
  rw [hpointer, ringAddr_ringAddr _ (config_ring s.cfg).1, Int.add_assoc]

/-! ### The statements -/

/-- Settles O26: the guard of `READ_BYTES` comes before its body. -/
theorem readBytesOutsideRing : Obligations.ReadBytesOutsideRing :=
  fun _ n h hp => exec_readBytes_outsideRing h hp n

/-- Settles O24: the command computed (`completes_readBytes`), and one wrap of the ring address. -/
theorem readBytesResult : Obligations.ReadBytesResult :=
  fun _ n h hp => ⟨completes_readBytes h hp n, ringAddr_wrapped_once _⟩

/-- Settles O25: the first read leaves a ready block with its pointer in the ring, from which the second reads on. -/
theorem readBytesSplits : Obligations.ReadBytesSplits := by
  intro s a b c h hp hc
  obtain ⟨tr, ht⟩ := exec_readBytes h hp a
  obtain ⟨_, hu⟩ := exec_readBytes (s := { s.afterReadBytes a.toNat with trace := tr }) h
    (State.pointed_setReadPointer (s.answered _) _) b
  obtain ⟨_, hw⟩ := exec_readBytes h hp c
  rw [← hc] at hw
  refine ⟨_, _, _, _, _, ht, rfl, hu, rfl, hw, ?_, ?_⟩
  · exact congrArg (some <| Result.bytes ·) (s.ringBytes_afterReadBytes a.toNat b.toNat)
  · exact congrArg (BitVec.ofNat 16) (s.ringAddr_pointer_afterReadBytes a.toNat b.toNat).symm

end Sys2Proof.Machine
end

section
/-! SUPPORT. The statements about `RECEIVE_ONE` (spec/42_rx_engine.md): what comes of the packet that a valid header asks
for, whatever the allocator answers, and the three checks that fail. -/

namespace Sys2Proof.Machine

/-! ### The allocator's answers in a row (R219) -/

/-- `s` once the allocator has answered `k` more requests. -/
def State.requested (k : Nat) (s : State) : State :=
  { s with allocAnswers := s.allocAnswers.drop k, freeCount := s.freeCount + (k - s.allocAnswers.length) }

/-- The next answer and the state behind it. -/
theorem State.nextGrant_eq (s : State) : s.nextGrant = (s.grant 0, s.requested 1) := by
  cases h : s.allocAnswers with
  | nil => simp [State.nextGrant_nil h, State.grant, State.requested, h]
  | cons a rest => simp [State.nextGrant_cons h, State.grant, State.requested, h]

/-- The answers that come behind the first. -/
theorem State.grant_requested_one (s : State) (i : Nat) : (s.requested 1).grant i = s.grant (i + 1) := by
  cases h : s.allocAnswers with
  | nil => simp [State.grant, State.requested, h, Nat.add_assoc, Nat.add_comm 1 i]
  | cons a rest => simp [State.grant, State.requested, h]

theorem State.requested_requested (s : State) (j k : Nat) : (s.requested j).requested k = s.requested (j + k) := by
  have hfree : j - s.allocAnswers.length + (k - (s.allocAnswers.length - j)) = j + k - s.allocAnswers.length := by omega
  simp only [State.requested, List.drop_drop, List.length_drop, Nat.add_assoc, hfree]

/-! ### What comes of asking for chunks (R139, R140) -/

/-- How the building of a packet ends: the packet or none, the requests made and the drops counted on the way, and the
output events, newest first. -/
structure Yield where
  packet : Option Packet
  requests : Nat
  errors : Nat
  out : List TraceEvent

/-- The chunks in hand are given back; where there are none nothing is (R131 step 5). -/
def givenBack (got : Packet) : List TraceEvent := if got = [] then [] else [.release got]

/-- What comes of asking for the chunks `asked`, with `got` in hand, where the allocator's answers are `grant`. -/
def yieldOf (grant : Nat → Bool) (got : Packet) : Packet → Yield
  | [] => ⟨some got, 0, 0, []⟩
  | c :: asked =>
    if grant 0 then
      let y := yieldOf (fun i => grant (i + 1)) (got ++ [c]) asked
      { y with requests := y.requests + 1 }
    else ⟨none, 1, 1, .raised .allocFail .none :: givenBack got⟩

theorem yieldOf_granted {grant : Nat → Bool} (got asked : Packet) (h : ∀ i < asked.length, grant i = true) :
    yieldOf grant got asked = ⟨some (got ++ asked), asked.length, 0, []⟩ := by
  induction asked generalizing grant got with
  | nil => rw [yieldOf, List.append_nil, List.length_nil]
  | cons c asked ih =>
    rw [yieldOf, if_pos (h 0 (Nat.succ_pos _)), ih (got ++ [c]) fun i hi => h (i + 1) (Nat.succ_lt_succ hi)]
    simp

theorem yieldOf_refused {grant : Nat → Bool} (got asked : Packet) {k : Nat} (hk : k < asked.length)
    (h : ∀ i < k, grant i = true) (hr : grant k = false) :
    yieldOf grant got asked = ⟨none, k + 1, 1, .raised .allocFail .none :: givenBack (got ++ asked.take k)⟩ := by
  induction asked generalizing grant got k with
  | nil => exact absurd hk (Nat.not_lt_zero k)
  | cons c asked ih =>
    cases k with
    | zero => rw [yieldOf, if_neg (by simp [hr]), List.take_zero, List.append_nil]
    | succ k =>
      rw [yieldOf, if_pos (h 0 (Nat.succ_pos k)), ih (got ++ [c]) (Nat.lt_of_succ_lt_succ hk)
        (fun i hi => h (i + 1) (Nat.succ_lt_succ hi)) hr]
      simp

/-- The state in which it ends, the read pointer being `p`. -/
def State.yielded (p : Word) (y : Yield) (s : State) : State :=
  { s.requested y.requests with ctx := { s.ctx with rxReadPointer := p }, errorsIn := s.errorsIn + y.errors }

/-- From `s` the operation asks for the chunks `asked`, with `got` in hand. -/
def Builds (x : Op (Option Packet)) (s : State) (got asked : Packet) : Prop :=
  ∃ p, Runs x s (yieldOf s.grant got asked).packet (s.yielded p (yieldOf s.grant got asked))
    (yieldOf s.grant got asked).out

section Building

variable {s : State} {got asked : Packet} {x : Op (Option Packet)}

/-- No more chunks to ask for. -/
theorem builds_pure : Builds (pure (some got)) s got [] := by
  have hs : s = s.yielded s.ctx.rxReadPointer ⟨some got, 0, 0, []⟩ := by simp [State.yielded, State.requested]
  exact ⟨s.ctx.rxReadPointer, leaves_pure.runs.to hs⟩

theorem builds_atStep (n : Nat) (h : Builds x s got asked) : Builds (atStep n >>= fun _ => x) s got asked :=
  h.imp fun _ h => (runs_atStep n).then h

/-- A read of the state, of which only what no frame holds is used. -/
theorem builds_get {f : State → Op (Option Packet)} (h : Builds (f s) s got asked)
    (hf : ∀ q g tr, f (s.dress q g tr) = f s := by exact fun _ _ _ => rfl) : Builds (get >>= f) s got asked :=
  h.imp fun _ h => runs_get h hf

theorem leaves_onlyIf_givenBack (got : Packet) : Leaves (onlyIf (!got.isEmpty) (release got)) s () s (givenBack got) := by
  cases got with
  | nil => exact leaves_pure
  | cons c got => exact leaves_release (c :: got)

/-- A refused allocation, with what it gives back (R131 steps 5 and 6, R254). -/
theorem leaves_failAllocation_givenBack (got : Packet) : Leaves (failAllocation got) s none
    { s with errorsIn := s.errorsIn + 1 } (.raised .allocFail .none :: givenBack got) :=
  (leaves_onlyIf_givenBack got).bindLeaves (out' := [.raised .allocFail .none])
    ((leaves_raise .allocFail .none).bindLeaves (out' := []) leaves_pure)

theorem leaves_alloc_grant (cls : ChunkClass) : Leaves (alloc cls) s (s.grant 0) (s.requested 1) [] := by
  have h := leaves_alloc (s := s) cls
  rwa [State.nextGrant_eq] at h

/-- `s` once a chunk has been granted and `n` bytes of the ring copied into it. -/
def State.served (n : Nat) (s : State) : State :=
  (s.requested 1).setReadPointer (ringAddr s.cfg.toParams (s.pointer + n))

theorem State.pointed_served (s : State) (n : Nat) : (s.served n).Pointed :=
  (s.requested 1).pointed_setReadPointer _

theorem State.ringBytes_served (s : State) (n m : Nat) :
    (s.served n).ringBytes (s.served n).pointer m = s.ringBytes (s.pointer + n) m :=
  s.ringBytes_advanced n 0 m

theorem State.grant_served (s : State) (n : Nat) : (s.served n).grant = fun i => s.grant (i + 1) :=
  funext s.grant_requested_one

theorem State.yielded_served (s : State) (n : Nat) (p : Word) (y : Yield) :
    (s.served n).yielded p y = s.yielded p { y with requests := y.requests + 1 } := by
  have h := s.requested_requested 1 y.requests
  rw [Nat.add_comm] at h
  exact congrArg (fun t => { t with ctx := { s.ctx with rxReadPointer := p }, errorsIn := s.errorsIn + y.errors }) h

/-- One chunk: asked for, and filled from the ring if it is granted (R131 steps 5 and 6). -/
theorem builds_chunk {cls : ChunkClass} {tag n : Nat} {f : List Byte → Op (Option Packet)} (hp : s.Pointed)
    (h : Builds (f (s.ringBytes s.pointer n)) (s.served n) (got ++ [⟨cls, tag, s.ringBytes s.pointer n⟩]) asked) :
    Builds (alloc cls >>= fun granted => if granted = true then readBytes n >>= f else failAllocation got) s got
      (⟨cls, tag, s.ringBytes s.pointer n⟩ :: asked) := by
  unfold Builds
  rw [yieldOf]
  have ha := leaves_alloc_grant (s := s) cls
  cases hg : s.grant 0 with
  | false =>
    rw [hg] at ha
    exact ⟨s.ctx.rxReadPointer, ha.then (leaves_failAllocation_givenBack got).runs⟩
  | true =>
    rw [hg] at ha
    obtain ⟨p, h⟩ := h
    rw [State.grant_served, State.yielded_served] at h
    exact ⟨p, ha.then ((leaves_readBytes (s := s.requested 1) hp).then h)⟩

/-- The copy of the payload (R131 step 6). -/
theorem builds_copyPayload (hp : s.Pointed) (rounds remaining : Nat) (got : Packet) :
    Builds (copyPayload rounds remaining got) s got
      (payloadChunks s.cfg.toParams rounds (s.ringBytes s.pointer remaining)) := by
  induction rounds generalizing s remaining got with
  | zero => exact builds_pure
  | succ rounds ih =>
    by_cases h0 : remaining = 0
    · rw [copyPayload, if_pos h0, h0]
      exact builds_pure
    rw [copyPayload, if_neg h0, payloadChunks_ringBytes s _ _ _ h0, ← s.ringBytes_served]
    exact builds_get (builds_chunk hp (ih (s.pointed_served _) _ _))

/-- The whole packet (R131 steps 5 and 6). -/
theorem builds_buildPacket (hp : s.Pointed) (n : Nat) : Builds (buildPacket n) s []
    (⟨.small, s.cfg.tagSize, s.ringBytes s.pointer s.cfg.ethHdrSize⟩ ::
      payloadChunks s.cfg.toParams n (s.ringBytes (s.pointer + s.cfg.ethHdrSize) n)) := by
  rw [← s.ringBytes_served]
  exact builds_atStep 5 (builds_get (builds_chunk hp (builds_atStep 6 (builds_copyPayload (s.pointed_served _) _ _ _))))

end Building

/-! ### `RECEIVE_ONE` behind a valid header -/

/-- The packet in the ring is the one that the header asks for. -/
theorem State.asksFor_ringPacket (s : State) : s.AsksFor s.ringPacket where
  first := rfl
  payload := frameOf_payloadChunks s.cfg (Nat.le_of_eq (s.length_ringBytes _ _))
  chunks := payloadChunks_shape s.cfg (Nat.le_of_eq (s.length_ringBytes _ _))

theorem State.length_ringPacket_le (s : State) : s.ringPacket.length ≤ s.frameLength.toNat + 1 := by
  have h := payloadChunks_length_le s.cfg s.frameLength.toNat
    (s.ringBytes (s.pointer + rbhSize + s.cfg.ethHdrSize) s.frameLength.toNat)
  rw [s.length_ringBytes] at h
  exact Nat.succ_le_succ h

section Receiving

variable {s : State}

/-- Behind a valid header the packet is built and the ring released (R131 steps 5 to 7). -/
theorem runs_receiveOneBody_builds (hv : s.HeaderValid) {r : Option Packet} {u : State} {out : List TraceEvent}
    (h : Runs (buildPacket s.frameLength.toNat) s.past r u out) :
    Runs receiveOneBody s r (u.releasedTo s.header.1.toNat) out := by
  obtain ⟨hp, hn, hf⟩ := hv
  refine runs_receiveOneBody hp ((runs_atStep 3).then ?_)
  rw [if_neg (not_not_intro hn)]
  refine (runs_atStep 4).then ?_
  unfold State.frameLength at hf
  rw [if_neg (not_not_intro hf)]
  exact h.bind (out' := []) ((runs_releaseRing _).then leaves_pure.runs)

/-- The packet that is asked for is the one in the ring. -/
theorem builds_buildPacket_past (s : State) : Builds (buildPacket s.frameLength.toNat) s.past [] s.ringPacket := by
  have h := builds_buildPacket (s := s.past) (s.pointed_setReadPointer _) s.frameLength.toNat
  have hhdr : s.past.ringBytes s.past.pointer s.cfg.ethHdrSize = _ := s.ringBytes_advanced rbhSize 0 s.cfg.ethHdrSize
  have hpay : s.past.ringBytes (s.past.pointer + s.cfg.ethHdrSize) s.frameLength.toNat = _ :=
    s.ringBytes_advanced rbhSize s.cfg.ethHdrSize s.frameLength.toNat
  rwa [show s.past.cfg = s.cfg from rfl, hhdr, hpay] at h

/-- `s` once `RECEIVE_ONE` of a valid header has completed with the yield `y`. -/
def State.afterReceive (y : Yield) (s : State) : State :=
  { (s.answered (.packet y.packet)).releasedTo s.header.1.toNat with
    allocAnswers := s.allocAnswers.drop y.requests
    freeCount := s.freeCount + (y.requests - s.allocAnswers.length)
    errorsIn := s.errorsIn + y.errors }

/-- The command whose body ends. -/
theorem completes_receiveOne (h : s.Ready) {r : Option Packet} {u : State} {out : List TraceEvent}
    (hr : Runs receiveOneBody s r u out) : Completes (exec .receiveOne s) s
      { u with seq := [], ipl := s.ipl, savedIpl := s.ipl, context := none, result := some (.packet r) } out :=
  runProbed_ends h (hr.bind (out' := []) leaves_pure.runs)

theorem completes_receiveOne_valid (h : s.Ready) (hv : s.HeaderValid) : Completes (exec .receiveOne s) s
    (s.afterReceive (yieldOf s.grant [] s.ringPacket)) (yieldOf s.grant [] s.ringPacket).out := by
  have ⟨⟨hidle, _⟩, _⟩ := h
  obtain ⟨p, hb⟩ := builds_buildPacket_past s
  refine (completes_receiveOne h (runs_receiveOneBody_builds hv hb)).to ?_ rfl
  exact congrArg (fun q => { s.afterReceive (yieldOf s.grant [] s.ringPacket) with seq := q, trace := [] }) hidle.symm

end Receiving

/-! ### The checks that fail (R251 to R253) -/

section Failing

variable {s : State} {r : Option Packet} {u : State} {out : List TraceEvent}

theorem runs_receiveOneBody_pointer (hp : ¬ RingValid s.cfg.toParams s.pointer)
    (h : Runs (failValidation .ringPointerInvalid s.pointer) s r u out) : Runs receiveOneBody s r u out := by
  rw [receiveOneBody_eq]
  refine (runs_atStep 1).then (runs_get ?_)
  rwa [if_pos hp]

theorem runs_receiveOneBody_offset (hp : RingValid s.cfg.toParams s.pointer)
    (hn : ¬ RingValid s.cfg.toParams s.header.1.toNat)
    (h : Runs (failValidation .nextOffsetInvalid s.header.1.toNat) s.past r u out) : Runs receiveOneBody s r u out := by
  refine runs_receiveOneBody hp ((runs_atStep 3).then ?_)
  rwa [if_pos hn]

theorem runs_receiveOneBody_length (hp : RingValid s.cfg.toParams s.pointer)
    (hn : RingValid s.cfg.toParams s.header.1.toNat)
    (hf : s.frameLength + s.cfg.ethHdrSize < s.cfg.etherMin ∨ (s.cfg.etherMax : Int) < s.frameLength + s.cfg.ethHdrSize)
    (h : Runs (failValidation .frameLengthInvalid s.header.2.toNat) s.past r u out) :
    Runs receiveOneBody s r u out := by
  refine runs_receiveOneBody hp ((runs_atStep 3).then ?_)
  rw [if_neg (not_not_intro hn)]
  refine (runs_atStep 4).then ?_
  unfold State.frameLength at hf
  rwa [if_pos (by omega)]

/-- From `s` the command fails a check with the exception `x` while in the state `t`, and goes through `RECOVER`. -/
def FailsCheck (s t : State) (x : Exn) (info : Nat) : Prop :=
  (s.ctx.resetCounter < s.cfg.maxResets → Completes (exec .receiveOne s) s
    { (t.answered (.packet none)).recovered with errorsIn := s.errorsIn + 1 } [.raised x (.number info)])
  ∧ (s.cfg.maxResets ≤ s.ctx.resetCounter → Completes (exec .receiveOne s) s
    { (t.answered (.packet none)).disabledByRecover with errorsIn := s.errorsIn + 1 }
    [.raised .resetThresholdExceeded (.number (s.ctx.resetCounter + 1)), .raised x (.number info)])

/-- A check that fails with the read pointer at `p` ends in the recovery. -/
theorem failsCheck_of_runs (h : s.Ready) (hb : s.chip.rxbusy = false) (hl : s.cfg.spinLimit ≠ some 0) {x : Exn}
    {info : Nat} {p : Word} {t : State} (ht : t = { s with ctx := { s.ctx with rxReadPointer := p } })
    (hx : x.count t = { t with errorsIn := t.errorsIn + 1 })
    (hr : ∀ u out, Runs (failValidation x info) t none u out → Runs receiveOneBody s none u out) :
    FailsCheck s t x info := by
  have ⟨⟨hidle, _⟩, _⟩ := h
  have hraise := leaves_raise (s := t) x (.number info)
  rw [hx, ht] at hraise
  subst ht
  refine ⟨fun hc => ?_, fun hc => ?_⟩
  · have hrec := (runs_recoverBody (s := { s with ctx := { s.ctx with rxReadPointer := p }, errorsIn := s.errorsIn + 1 })
      hc hb hl).call (op := .recover)
    refine (completes_receiveOne h (hr _ _ (hraise.bind (out' := []) (hrec.then leaves_pure.runs)))).to ?_ rfl
    rw [← hidle]
    rfl
  · have hrec := (runs_recoverBody_disabled
      (s := { s with ctx := { s.ctx with rxReadPointer := p }, errorsIn := s.errorsIn + 1 }) hc).call (op := .recover)
    refine (completes_receiveOne h (hr _ _ (hraise.bind (hrec.bind (out' := []) leaves_pure.runs)))).to ?_ rfl
    rw [← hidle]
    rfl

end Failing

/-! ### The statements -/

/-- Settles O31: every answer up to the length of the packet is the host's and grants (`yieldOf_granted`). -/
theorem receiveOneResult : Obligations.ReceiveOneResult := by
  intro s h hv hg
  have hgrant : ∀ i < s.ringPacket.length, s.grant i = true ∧ i < s.allocAnswers.length := fun i hi => by
    have hi' := hg i (by have := s.length_ringPacket_le; omega)
    exact ⟨by rw [State.grant, List.getD_eq_getElem?_getD, hi', Option.getD_some], (List.getElem?_eq_some_iff.1 hi').1⟩
  have hanswers : s.ringPacket.length - s.allocAnswers.length = 0 :=
    Nat.sub_eq_zero_of_le (Nat.le_of_not_lt fun k => Nat.lt_irrefl _ (hgrant _ k).2)
  have hc := completes_receiveOne_valid h hv
  rw [yieldOf_granted [] _ fun i hi => (hgrant i hi).1, State.afterReceive, hanswers] at hc
  exact ⟨_, hc, s.asksFor_ringPacket.payload, s.asksFor_ringPacket.chunks⟩

/-- Settles O32: the same command (`completes_receiveOne_valid`), with what comes of every request granted
(`yieldOf_granted`) and of the first one refused (`yieldOf_refused`). -/
theorem receiveOneReleasesRing : Obligations.ReceiveOneReleasesRing := by
  intro s h hv
  have hc := completes_receiveOne_valid h hv
  refine ⟨s.ringPacket, s.asksFor_ringPacket, fun hg => ?_, fun k hk hg hr => ?_⟩
  · rw [yieldOf_granted [] _ hg] at hc
    exact hc
  · have hback : givenBack (s.ringPacket.take k) = if k = 0 then [] else [.release (s.ringPacket.take k)] := by
      simp [givenBack, State.ringPacket]
    rw [yieldOf_refused [] _ hk hg hr, List.nil_append, hback] at hc
    exact hc

/-- Settles O33: each check leads to its failure (`runs_receiveOneBody_pointer` and its two neighbours), and each failure
to the recovery (`failsCheck_of_runs`). -/
theorem receiveOneInvalid : Obligations.ReceiveOneInvalid := by
  intro s h hb hl
  refine ⟨fun hp => ?_, fun hp hn => ?_, fun hp hn hf => ?_⟩
  · exact failsCheck_of_runs h hb hl (t := s) rfl rfl fun _ _ => runs_receiveOneBody_pointer hp
  · exact failsCheck_of_runs h hb hl (t := s.past) rfl rfl fun _ _ => runs_receiveOneBody_offset hp hn
  · exact failsCheck_of_runs h hb hl (t := s.past) rfl rfl fun _ _ => runs_receiveOneBody_length hp hn hf

end Sys2Proof.Machine
end

section
/-! SUPPORT. The statements about `KICK` where it sends nothing, `ENQUEUE_AND_KICK`, and the transmit conditions of
`DISPATCH` (spec/43_tx_engine.md). -/

namespace Sys2Proof.Machine

/-- `u`, in which the body of a command of `s` ends, once the block is idle again (R29). -/
def State.idleAgain (u s : State) : State := { u with seq := [], ipl := s.ipl }

theorem State.idleAgain_eq {u s : State} (hs : s.seq = []) (hu : u.seq = s.seq) (hi : u.ipl = s.ipl) :
    u.idleAgain s = u := by
  rw [State.idleAgain, ← hi, ← hs, ← hu]

/-! ### `KICK` where it sends nothing (R151, R152, R258) -/

section Kick

variable {s u : State} {pkt : Packet} {queue : List Packet} {fr : Frame} {q : List Frame} {out : List TraceEvent}

/-- With a transmit in flight, or nothing queued, the one read is all (R151 steps 1 and 2, R152). -/
theorem kickBody_still (ha : s.agenda = []) (hs : s.seq = fr :: q) (h : s.chip.txrts = true ∨ s.sendq = []) :
    ∃ n, kickBody s = .ok () { s with seq := { fr with step := n } :: q, trace := .regRead .ctl :: s.trace } := by
  cases hb : s.chip.txrts with
  | true =>
    exact ⟨1, by simp [kickBody, op_bind, State.tick_quiet, ha, hs, hb, Chip.bit, State.setStep, State.emit]⟩
  | false =>
    have hq : s.sendq = [] := h.resolve_left (by simp [hb])
    exact ⟨2, by simp [kickBody, op_bind, State.tick_quiet, ha, hs, hb, hq, Chip.bit, State.setStep, State.emit]⟩

theorem exec_kick_still (h : s.Ready) (hn : s.chip.txrts = true ∨ s.sendq = []) :
    exec .kick s = .next { s.answered .unit with trace := .regRead .ctl :: s.trace } := by
  have ⟨⟨hidle, hagenda, _⟩, _⟩ := h
  obtain ⟨n, hk⟩ := kickBody_still (s := s.beginCommand .kick) hagenda rfl hn
  refine (runProbed_ready h hk rfl).trans ?_
  simp [State.endCommand, State.beginCommand, State.answered, hidle]

/-- The command whose body ends. -/
theorem completes_kick (h : s.Ready) (hr : Runs kickBody s () u out) :
    Completes (exec .kick s) s ((u.idleAgain s).answered .unit) out :=
  runProbed_ends h (hr.bind (out' := []) leaves_pure.runs)

/-- With no transmit in flight the packet at the head of the queue is taken (R151 steps 1 to 3). -/
theorem runs_kickBody_head (hb : s.chip.txrts = false) (hq : s.sendq = pkt :: queue)
    (h : Runs (sendFrame s.cfg pkt) { s with sendq := queue } () u out) : Runs kickBody s () u out := by
  have hread := leaves_regReadBit (s := s) .ctl .ctlTxrts
  rw [show s.chip.bit .ctlTxrts = false from hb] at hread
  have hdequeue : Leaves (update fun s => { s with sendq := s.sendq.tail }) s () { s with sendq := queue } [] :=
    (leaves_update (fun _ _ _ => rfl) rfl).to (by rw [hq, List.tail_cons])
  have hsend : Runs (sendHead pkt) s () u out :=
    (runs_atStep 3).then (hdequeue.then (runs_get ((runs_atStep 4).then h)))
  refine (runs_atStep 1).then (hread.then ((runs_atStep 2).then (runs_get ?_)))
  rw [hq]
  exact hsend

/-- A frame that does not fit is given back, recorded and counted (R151 step 4, R258). -/
theorem leaves_sendFrame_tooLong (hl : (frameOf pkt).length = 0 ∨ s.cfg.txCapacity < (frameOf pkt).length) :
    Leaves (sendFrame s.cfg pkt) s () { s with errorsOut := s.errorsOut + 1 }
      [.raised .txTooLong (.number (frameOf pkt).length), .release pkt] := by
  rw [sendFrame, if_pos hl]
  exact (leaves_release pkt).bindLeaves (out' := [_]) (leaves_raise .txTooLong _)

end Kick

/-! ### `ENQUEUE_AND_KICK` (R150, R255) -/

section Enqueue

variable {s t u : State} {pkt : Packet} {r : Result} {out out' : List TraceEvent}

theorem leaves_enqueue_room (h : s.sendq.length < s.cfg.sendqMax) :
    Leaves (enqueue pkt) s .ok { s with sendq := s.sendq ++ [pkt] } [] := by
  refine leaves_get ?_
  rw [if_neg (Nat.not_le_of_lt h)]
  exact Leaves.thenLeaves (leaves_update (fun _ _ _ => rfl) rfl) leaves_pure

theorem leaves_enqueue_full (h : s.cfg.sendqMax ≤ s.sendq.length) :
    Leaves (enqueue pkt) s (.err .sendQueueFull) { s with errorsOut := s.errorsOut + 1 }
      [.raised .sendQueueFull .none, .release pkt] := by
  refine leaves_get ?_
  rw [if_pos h]
  exact (leaves_release pkt).bindLeaves (out' := [_])
    ((leaves_raise .sendQueueFull .none).bindLeaves (out' := []) leaves_pure)

/-- Behind its first step the command is a `KICK`, whose accesses come after those of that step (R150). -/
theorem runs_enqueueAndKickBody (he : Leaves (enqueue pkt) s r t out) (hk : Runs kickBody t () u out') :
    Runs (enqueueAndKickBody pkt) s r u (out' ++ out) :=
  (runs_atStep 1).then (he.bind ((runs_atStep 2).then
    (hk.call.bind (out' := []) ((runs_atStep 3).then leaves_pure.runs))))

theorem completes_enqueueAndKick {bytes : List Byte} (h : s.Ready) (he : Leaves (enqueue (flatPacket bytes)) s r t out)
    (hk : Runs kickBody t () u out') :
    Completes (exec (.enqueueAndKick bytes) s) s ((u.idleAgain s).answered r) (out' ++ out) := by
  have hrun : exec (.enqueueAndKick bytes) s = _ := runProbedPacket_probed h.2
  rw [hrun]
  exact runCommand_ends h.1 (runs_enqueueAndKickBody he hk)

end Enqueue

/-! ### The transmit conditions of `DISPATCH` (R167) -/

section Transmit

variable {s u : State} {f : IFlags} {out : List TraceEvent}

theorem overflowed_of_no_rxabt (h : f.rxabt = false) : s.overflowed f = s := by simp [State.overflowed, h]

/-- Both conditions of the snapshot, counted and cleared (R167). -/
theorem transmitted_iflags (s : State) : s.transmitted s.chip.iflags = { s with
    packetsOut := s.packetsOut + (if s.chip.flags.txdone then 1 else 0)
    errorsOut := s.errorsOut + (if s.chip.flags.txabt then 1 else 0)
    chip := { s.chip with flags := { s.chip.flags with txdone := false, txabt := false } } } := by
  dsimp only [State.transmitted, Chip.iflags]
  rw [Bool.and_not_self, Bool.and_not_self]

/-- A `DISPATCH` without the other conditions is its step 2 (R165). -/
theorem dispatch_transmit (h : s.Ready) (hl : s.chip.flags.link = false) (hr : s.chip.flags.rxabt = false)
    (hp : s.chip.pktcnt = 0)
    (ht : Runs (onlyIf (s.chip.iflags.txdone || s.chip.iflags.txabt) (handleTransmit s.chip.iflags)) s () u out) :
    Completes (exec .dispatch s) s ((u.idleAgain s).answered .unit) out := by
  have hlink : s.chip.iflags.link = false := hl
  have hpkt : s.chip.iflags.pkt = false := by simp [Chip.iflags, Chip.pktFlag, hp]
  have hrest := runs_dispatchRest hpkt ht
  rw [overflowed_of_no_rxabt (show s.chip.iflags.rxabt = false from hr)] at hrest
  refine dispatch_ends h ?_
  rw [dispatchFrom, hlink]
  exact hrest

end Transmit

/-! ### The statements -/

/-- Settles O35: the body computed where it only reads (`kickBody_still`), and the packet at the head given back where
its frame does not fit (`leaves_sendFrame_tooLong`). -/
theorem kickSendsNothing : Obligations.KickSendsNothing := by
  intro s h
  refine ⟨exec_kick_still h, fun pkt queue hb hq hl => ?_⟩
  have hk := runs_kickBody_head hb hq (leaves_sendFrame_tooLong (s := { s with sendq := queue }) hl).runs
  have hc := completes_kick h hk
  rw [State.idleAgain_eq h.1.1] at hc
  · exact hc
  all_goals rfl

/-- Settles O36: its first step (`leaves_enqueue_room`, `leaves_enqueue_full`) leaves the state in which the `KICK` of
the second runs (`runs_enqueueAndKickBody`); every `KICK` ends (`runs_kickBody`). -/
theorem enqueueAndKickResult : Obligations.EnqueueAndKickResult := by
  intro s bytes h
  by_cases hc : s.sendq.length < s.cfg.sendqMax
  · obtain ⟨u, out, hk, -⟩ := runs_kickBody (s := { s with sendq := s.sendq ++ [flatPacket bytes] })
    refine ⟨out, u.idleAgain s, fun _ => ⟨completes_kick h hk, ?_⟩, fun hn => absurd hc (Nat.not_lt_of_le hn)⟩
    simpa only [List.append_nil] using completes_enqueueAndKick h (leaves_enqueue_room hc) hk
  · obtain ⟨u, out, hk, -⟩ := runs_kickBody (s := { s with errorsOut := s.errorsOut + 1 })
    exact ⟨out, u.idleAgain s, fun hn => absurd hn hc,
      fun hn => ⟨completes_kick h hk, completes_enqueueAndKick h (leaves_enqueue_full hn) hk⟩⟩

/-- Settles O42: step 2 of `DISPATCH` is all there is (`dispatch_transmit`), with its `KICK` in the state that has
counted and cleared the conditions (`transmitted_iflags`). -/
theorem dispatchTransmit : Obligations.DispatchTransmit := by
  intro s h hl hr hp ht
  have hflag : (s.chip.iflags.txdone || s.chip.iflags.txabt) = true := by simpa [Chip.iflags] using ht
  dsimp only
  rw [← transmitted_iflags]
  refine ⟨fun hq => ?_, fun hq => ?_⟩
  · have hc := dispatch_transmit h hl hr hp (runs_transmit_still fun k => k.2 hq)
    rw [State.idleAgain_eq h.1.1] at hc
    · exact hc
    all_goals rfl
  · obtain ⟨u, out, hk, -⟩ := runs_kickBody (s := s.transmitted s.chip.iflags)
    exact ⟨u.idleAgain s, out, completes_kick h hk,
      dispatch_transmit h hl hr hp (runs_transmit_kick hflag hq hk.call)⟩

end Sys2Proof.Machine
end

section
/-! SUPPORT. `DISPATCH` with the waits satisfied: it completes, the packet counter and the flags at zero
(spec/44_interrupt_dispatcher.md). -/

namespace Sys2Proof.Machine

section Completion

variable {s : State} {f : IFlags}

/-- With the flag of the link `DISPATCH` begins with the `RECONCILE` (R165 step 1). -/
theorem dispatchFrom_linked (h : f.link = true) :
    dispatchFrom f = (do atStep 1; reconcile; dispatchAfterReconcile f) := if_pos h

theorem dispatchFrom_unlinked (h : f.link = false) : dispatchFrom f = dispatchRest f := if_neg (Bool.eq_false_iff.1 h)

/-- Steps 2 to 5 of R165 leave the counter at 0 where the snapshot says whether it was (R172). -/
theorem exists_dispatchRest_empty (hg : s.again = []) (hb : s.chip.rxbusy = false) (hl : s.cfg.spinLimit ≠ some 0)
    (hf : f.pkt = s.chip.pktFlag) :
    ∃ u out, Runs (dispatchRest f) s () u out ∧ Dispatched f s u ∧ u.chip.pktcnt = 0 := by
  cases hp : f.pkt with
  | true =>
    obtain ⟨u, out, h, k⟩ := exists_dispatchRest (f := f) hg hb hl
    exact ⟨u, out, h, k, k.pktcnt hp⟩
  | false =>
    have h0 : s.chip.pktcnt = 0 := by simpa [hp, Chip.pktFlag] using hf.symm
    obtain ⟨v, out, h, k⟩ := runs_transmit (f := f) (s := s)
    have hv : v.chip.pktcnt = 0 := k.pktcnt.trans h0
    have hflags : (v.overflowed f).chip.flags = ((s.transmitted f).overflowed f).chip.flags := by
      simp only [State.overflowed, k.flags]
    exact ⟨v.overflowed f, out, runs_dispatchRest hp h, ⟨k.packetsOut, hflags, fun _ => hv,
      Nat.le_of_eq k.packetsIn.symm, Nat.le_trans (Nat.le_of_eq k.packetsIn) (Nat.le_add_right _ _)⟩, hv⟩

/-- The flags of the snapshot are the ones that are cleared (R167, R168). -/
theorem flags_cleared (s : State) (hl : s.chip.flags.link = false) :
    ((s.transmitted s.chip.iflags).overflowed s.chip.iflags).chip.flags = ⟨false, false, false, false⟩ := by
  simp [State.transmitted, State.overflowed, Chip.iflags, hl]

/-- Behind the snapshot `DISPATCH` ends, its `RECONCILE` with it (R165 steps 1 to 5). -/
theorem exists_dispatchFrom (hg : s.again = []) (hb : s.chip.rxbusy = false) (hi : s.chip.fcidle = true)
    (hl : s.cfg.spinLimit ≠ some 0) :
    ∃ u out, Runs (dispatchFrom s.chip.iflags) s () u out ∧ u.chip.pktcnt = 0
      ∧ u.chip.flags = ⟨false, false, false, false⟩
      ∧ u.packetsOut = s.packetsOut + (if s.chip.flags.txdone then 1 else 0)
      ∧ s.packetsIn ≤ u.packetsIn ∧ u.packetsIn ≤ s.packetsIn + s.chip.pktcnt := by
  cases hlink : s.chip.flags.link with
  | false =>
    obtain ⟨u, out, h, k, hp⟩ := exists_dispatchRest_empty (s := s) (f := s.chip.iflags) hg hb hl rfl
    refine ⟨u, out, ?_, hp, k.flags.trans (flags_cleared s hlink), k.packetsOut, k.low, k.high⟩
    rwa [dispatchFrom_unlinked hlink]
  | true =>
    obtain ⟨hflags, hbusy, hcnt⟩ := s.duplexSettings_frame
    have hpkt : s.relinked.chip.pktcnt = s.chip.pktcnt := hcnt
    obtain ⟨u, out, h, k, hp⟩ := exists_dispatchRest_empty (s := s.relinked) (f := s.chip.iflags) hg
      (hbusy.trans hb) hl (by rw [Chip.pktFlag, hpkt]; rfl)
    have hclear : u.chip.flags = ⟨false, false, false, false⟩ := by
      rw [k.flags, relinked_eq]
      simp [State.transmitted, State.overflowed, Chip.iflags]
    refine ⟨u, out, ?_, hp, hclear, k.packetsOut, k.low, hpkt ▸ k.high⟩
    rw [dispatchFrom_linked hlink]
    exact (runs_atStep 1).then ((runs_reconcileBody hi hl).call.then (runs_dispatchAfterReconcile h))

end Completion

/-- Settles O44: every handler ends (`exists_dispatchFrom`), and the end of a command touches none of this. -/
theorem dispatchCompletes : Obligations.DispatchCompletes := by
  intro s h hb hi hl
  obtain ⟨u, out, hu, hp, hf, hout, hlow, hhigh⟩ := exists_dispatchFrom h.1.2.2 hb hi hl
  obtain ⟨tr, ht⟩ := (dispatch_ends h hu).next
  have hflags : u.chip.iflags = ⟨false, false, false, false, false⟩ := by simp [Chip.iflags, Chip.pktFlag, hf, hp]
  exact ⟨_, ht, rfl, rfl, rfl, rfl, hp, hflags, hout, hlow, hhigh⟩

end Sys2Proof.Machine
end

section
/-! SUPPORT. The busy-waits that run out (R260): the wait by itself, and how each caller goes on behind it. -/

namespace Sys2Proof.Machine

variable {s : State} {k : Nat}

/-! ### `RECONCILE` and its callers -/

section LinkFault

/-- What is recorded where the wait of `RECONCILE` runs out. -/
def linkFault : TraceEvent := .raised .hardwareFault (.flag .statFcidle)

/-- A bounded wait whose bit does not read as wanted, or that may not poll at all, ends in `HardwareFault`
(R292, R260). -/
theorem leaves_waitUntil_fault {r : Reg} {y : BitName} {want : Bool} (hl : s.cfg.spinLimit = some k)
    (hb : s.chip.bit y ≠ want ∨ k = 0) :
    Leaves (waitUntil r y want) s false s [.raised .hardwareFault (.flag y)] := fun hs => ⟨hs, fun q g tr => by
  by_cases hk : k = 0
  · subst hk
    refine ⟨[.raised .hardwareFault (.flag y)], ?_, rfl⟩
    unfold waitUntil
    rw [op_bind, op_get]
    dsimp only
    rw [show (s.dress q g tr).cfg.spinLimit = some 0 from hl]
    rfl
  · refine ⟨.raised .hardwareFault (.flag y) :: List.replicate k (.regRead r),
      waitUntil_fault (s := s.dress q g tr) hs hl (hb.resolve_right hk), ?_⟩
    simp only [outputs, List.filter_cons, TraceEvent.isOutput, List.filter_replicate, Bool.false_eq_true, if_true,
      if_false]⟩

variable (hl : s.cfg.spinLimit = some k) (hb : s.chip.fcidle = false ∨ k = 0)
include hl hb

/-- `RECONCILE` then ends with nothing written (R205, R260). -/
theorem runs_reconcileBody_fault : Runs reconcileBody s () s [linkFault] :=
  (runs_atStep 1).then ((leaves_waitUntil_fault (y := .statFcidle) (want := true) hl
    (hb.imp_left fun h => by simp [Chip.bit, h])).bind (out' := []) leaves_pure.runs)

/-- `DISPATCH` clears the flag of the link behind it (R165 step 1). -/
theorem runs_dispatchFrom_linkFault {f : IFlags} {u : State} {out : List TraceEvent} (hf : f.link = true)
    (h : Runs (dispatchRest f) s.unlinked () u out) : Runs (dispatchFrom f) s () u (out ++ [linkFault]) := by
  rw [dispatchFrom_linked hf]
  exact (runs_atStep 1).then ((runs_reconcileBody_fault hl hb).call.bind (runs_dispatchAfterReconcile h))

theorem completes_dispatch_linkFault (h : s.Ready) (hf : s.chip.flags = ⟨true, false, false, false⟩)
    (hp : s.chip.pktcnt = 0) : Completes (exec .dispatch s) s
      { s.answered .unit with chip := { s.chip with flags := ⟨false, false, false, false⟩ } } [linkFault] := by
  have hflags : s.chip.iflags = ⟨true, false, false, false, false⟩ := by simp [Chip.iflags, Chip.pktFlag, hf, hp]
  have hrest : Runs (dispatchRest ⟨true, false, false, false, false⟩) s.unlinked () s.unlinked [] :=
    leaves_pure.then (leaves_pure.then (leaves_pure.then (runs_atStep 5)))
  have hrun := runs_dispatchFrom_linkFault hl hb rfl hrest
  rw [← hflags] at hrun
  refine (dispatch_ends h hrun).to ?_ rfl
  simp [State.untraced, State.answered, State.unlinked, hf, h.1.1]

/-- The bring-up goes on behind it, without the settings of the duplex (R213 step 4). -/
theorem runs_initialiseBody_fault (hp : s.ctx.probed = true) (ha : s.ctx.addrKnown = true)
    (hi : s.initialized = false) : Runs initialiseBody s .ok s.prepared.enabled [linkFault] := by
  have hbring : Runs bringUp s () s.prepared.enabled [linkFault] := by
    rw [bringUp_eq]
    exact (runs_atStep 4).then (leaves_prepare.then ((runs_reconcileBody_fault (s := s.prepared) hl hb).call.bind
      (out' := []) leaves_initialiseAfterReconcile.runs))
  refine (runs_atStep 1).then (runs_get ?_)
  simp only [hp, ha, hi, Bool.true_eq_false, Bool.false_eq_true, if_false]
  exact (runs_atStep 2).then ((runs_atStep 3).then (hbring.bind (out' := [])
    ((runs_atStep 5).then leaves_pure.runs)))

theorem completes_initialise_fault (h : s.Ready) (ha : s.ctx.addrKnown = true) (hi : s.initialized = false) :
    Completes (exec .initialise s) s ((s.prepared.enabled).answered .ok) [linkFault] := by
  refine (runCommand_ends (op := .initialise) h.1 (runs_initialiseBody_fault hl hb h.2 ha hi)).to ?_ rfl
  simp [State.untraced, State.answered, State.enabled, State.prepared, h.1.1]

/-- `SET_FLAGS` discards the answer of its `INITIALIZE` (R216). -/
theorem completes_setFlags_fault (h : s.Ready) (ha : s.ctx.addrKnown = true) (hi : s.initialized = false) :
    Completes (exec (.setFlags true) s) s
      ((State.prepared { s with adminUp := true }).enabled.answered .unit) [linkFault] := by
  have hup : Leaves (update fun s => { s with adminUp := true }) s () { s with adminUp := true } [] :=
    leaves_update (fun _ _ _ => rfl) rfl
  have hrun : Runs (setFlagsBody true) s .unit (State.prepared { s with adminUp := true }).enabled [linkFault] := by
    refine hup.then (runs_get ?_)
    rw [if_pos (by simp [hi])]
    exact (runs_initialiseBody_fault (s := { s with adminUp := true }) hl hb h.2 ha hi).call.bind (out' := [])
      leaves_pure.runs
  refine (runProbed_ends h hrun).to ?_ rfl
  simp [State.untraced, State.answered, State.enabled, State.prepared, h.1.1]

end LinkFault

/-! ### `RECOVER` and its callers -/

section BusyFault

/-- What is recorded where the wait of `RECOVER` runs out. -/
def busyFault : TraceEvent := .raised .hardwareFault (.flag .statRxbusy)

/-- The block that a `RECOVER` whose wait has run out leaves: disabled, its count beyond the threshold (R260). -/
def State.faulted (s : State) : State :=
  { s.disabledByRecover with
    ctx := { s.ctx with resetCounter := s.cfg.maxResets + 1, lastResetTime := s.now } }

/-- The wait of `RECOVER` runs out. -/
structure State.WaitFails (s : State) : Prop where
  limit : ∃ k, s.cfg.spinLimit = some k ∧ (s.chip.rxbusy = true ∨ k = 0)
  below : s.ctx.resetCounter < s.cfg.maxResets

theorem disableOnFault_recovering (h : s.ctx.resetCounter < s.cfg.maxResets) :
    s.recovering.disableOnFault = s.faulted := by
  have hmax : max (s.ctx.resetCounter + 1) (s.cfg.maxResets + 1) = s.cfg.maxResets + 1 := by omega
  simp only [State.disableOnFault, State.recovering, State.faulted, State.disabledByRecover, hmax]

/-- `RECOVER` then disables the block, and touches no register of the ring (R180, R260). -/
theorem runs_recoverBody_fault (h : s.WaitFails) : Runs recoverBody s () s.faulted [busyFault] := by
  obtain ⟨⟨k, hl, hb⟩, hc⟩ := h
  have hn : ¬ s.recovering.cfg.maxResets < s.recovering.ctx.resetCounter := by
    simp only [State.recovering]; omega
  have hwait : Leaves (waitUntil .stat .statRxbusy false) s.recovering false s.recovering [busyFault] :=
    leaves_waitUntil_fault hl (hb.imp_left fun h => by
      show s.chip.rxbusy ≠ false
      simp [h])
  have hdisable : Leaves (update State.disableOnFault) s.recovering () s.recovering.disableOnFault [] :=
    leaves_update (fun _ _ _ => rfl) rfl
  rw [recoverBody_eq, ← disableOnFault_recovering hc]
  refine runs_countSteps.then (runs_get ?_)
  rw [if_neg hn]
  exact (runs_atStep 5).then (hwait.bind (out' := []) hdisable.runs)

theorem completes_recover_fault (h : s.Ready) (hw : s.WaitFails) :
    Completes (exec .recover s) s (s.answered .unit).faulted [busyFault] := by
  refine (runProbed_ends h ((runs_recoverBody_fault hw).bind (out' := []) leaves_pure.runs)).to ?_ rfl
  simp [State.untraced, State.answered, State.faulted, State.disabledByRecover, h.1.1]

/-- A validation failure whose recovery faults returns no packet (R131, R260). -/
theorem leaves_failValidation_fault {x : Exn} (hx : x.count s = { s with errorsIn := s.errorsIn + 1 }) (info : Nat)
    (hw : s.WaitFails) : Leaves (failValidation x info) s none { s.faulted with errorsIn := s.errorsIn + 1 }
      [busyFault, .raised x (.number info)] := by
  have hraise := leaves_raise (s := s) x (.number info)
  rw [hx] at hraise
  have hrec := runs_recoverBody_fault (s := { s with errorsIn := s.errorsIn + 1 }) ⟨hw.limit, hw.below⟩
  exact hraise.bindLeaves (out' := [busyFault]) (hrec.call.bindLeaves (out' := []) leaves_pure)

/-- A `RECEIVE_ONE` that fails a check in the state `t`, and faults in the recovery. -/
theorem completes_receiveOne_fault {t : State} {p : Word} {x : Exn} {info : Nat} (h : s.Ready) (hw : s.WaitFails)
    (ht : t = { s with ctx := { s.ctx with rxReadPointer := p } })
    (hx : x.count t = { t with errorsIn := t.errorsIn + 1 })
    (hr : ∀ u out, Runs (failValidation x info) t none u out → Runs receiveOneBody s none u out) :
    Completes (exec .receiveOne s) s { (t.answered (.packet none)).faulted with errorsIn := s.errorsIn + 1 }
      [busyFault, .raised x (.number info)] := by
  subst ht
  have hfail := leaves_failValidation_fault hx info ⟨hw.limit, hw.below⟩
  refine (completes_receiveOne h (hr _ _ hfail.runs)).to ?_ rfl
  simp [State.untraced, State.answered, State.faulted, State.disabledByRecover, h.1.1]

/-- The packet loop ends behind a `RECEIVE_ONE` that faults on the last packet counted (R172). -/
theorem leaves_packetLoop_fault (hg : s.again = []) (hp : s.chip.pktcnt = 1)
    (hv : ¬ RingValid s.cfg.toParams s.pointer) (hw : s.WaitFails) :
    Leaves packetLoop s () { s.taken.faulted with errorsIn := s.errorsIn + 1 }
      [busyFault, .raised .ringPointerInvalid (.number s.pointer)] := by
  have hreceive : Leaves receiveOne s.taken _ _ _ := (runs_receiveOneBody_pointer (s := s.taken) hv
    (leaves_failValidation_fault (s := s.taken) rfl _ ⟨hw.limit, hw.below⟩).runs).call
  have hempty : s.taken.chip.pktcnt = 0 := by
    show s.chip.pktcnt - 1 = 0
    omega
  obtain ⟨n, hn⟩ : ∃ n, s.pktRounds = n + 1 + 1 := ⟨s.pktRounds - 2, by have := s.lt_pktRounds; omega⟩
  rw [packetLoop_eq]
  refine leaves_get ?_
  rw [hn]
  exact leaves_packetRounds_next hg (by omega) hreceive leaves_pure (leaves_packetRounds_done n hg hempty)

theorem completes_dispatch_busyFault (h : s.Ready) (hf : s.chip.flags = ⟨false, false, false, false⟩)
    (hp : s.chip.pktcnt = 1) (hv : ¬ RingValid s.cfg.toParams s.pointer) (hw : s.WaitFails) :
    Completes (exec .dispatch s) s { (s.answered .unit).faulted with
        errorsIn := s.errorsIn + 1, chip := { s.chip with rxen := false, pktcnt := 0 } }
      [busyFault, .raised .ringPointerInvalid (.number s.pointer)] := by
  have hflags : s.chip.iflags = ⟨false, false, false, false, true⟩ := by simp [Chip.iflags, Chip.pktFlag, hf, hp]
  have hrun : Runs (dispatchRest ⟨false, false, false, false, true⟩) s () _ _ :=
    leaves_pure.then (leaves_pure.then (((runs_atStep 4).then (leaves_packetLoop_fault h.1.2.2 hp hv hw).runs).bind
      (out' := []) (runs_atStep 5)))
  rw [← hflags, ← dispatchFrom_unlinked (by rw [hflags])] at hrun
  refine (dispatch_ends h hrun).to ?_ rfl
  simp [State.untraced, State.answered, State.faulted, State.disabledByRecover, State.taken, hp, h.1.1]

end BusyFault

/-- Settles O29: each wait computed where it runs out (`leaves_waitUntil_fault`), and each caller behind it. -/
theorem busyWaitsFault : Obligations.BusyWaitsFault := by
  intro s k h hl
  refine ⟨fun hb => ⟨?_, completes_dispatch_linkFault hl hb h, fun ha hi => ⟨?_, ?_⟩⟩, fun hb hc => ?_⟩
  · refine (runProbed_ends h ((runs_reconcileBody_fault hl hb).bind (out' := []) leaves_pure.runs)).to ?_ rfl
    simp [State.untraced, State.answered, h.1.1]
  · exact ⟨_, completes_initialise_fault hl hb h ha hi, rfl, rfl, rfl, rfl⟩
  · exact ⟨_, completes_initialise_fault (s := { s with adminUp := true }) hl hb h ha hi,
      completes_setFlags_fault hl hb h ha hi⟩
  have hw : s.WaitFails := ⟨⟨k, hl, hb⟩, hc⟩
  refine ⟨completes_recover_fault h hw, fun hp => ?_, fun hp hn => ?_, fun hp hn hf => ?_, fun hp hf hone => ?_⟩
  · exact completes_receiveOne_fault h hw (t := s) rfl rfl fun _ _ => runs_receiveOneBody_pointer hp
  · exact completes_receiveOne_fault h hw (t := s.past) rfl rfl fun _ _ => runs_receiveOneBody_offset hp hn
  · exact completes_receiveOne_fault h hw (t := s.past) rfl rfl fun _ _ => runs_receiveOneBody_length hp hn hf
  · exact completes_dispatch_busyFault h hf hone hp hw

end Sys2Proof.Machine
end

section
/-! SUPPORT. Which registers the packet loop of `DISPATCH` clears bits of, with no other agent moving: `CTL` alone,
where `RECOVER` switches reception off. Walked once through every operation that the loop can reach. -/

namespace Sys2Proof.Machine

/-! ### What has been cleared -/

/-- Of these accesses only those to `CTL` clear bits. -/
def OnlyCtlCleared (es : List TraceEvent) : Prop := ∀ r mask, TraceEvent.regClear r mask ∈ es → r = .ctl

theorem OnlyCtlCleared.append {es es' : List TraceEvent} (h : OnlyCtlCleared es) (h' : OnlyCtlCleared es') :
    OnlyCtlCleared (es ++ es') := fun r mask hm => (List.mem_append.1 hm).elim (h r mask) (h' r mask)

theorem onlyCtlCleared_nil : OnlyCtlCleared [] := fun _ _ h => absurd h List.not_mem_nil

/-- No other agent moves, and behind the trace `tr` only `CTL` has been cleared. -/
def CtlCleared (tr : List TraceEvent) (t : State) : Prop :=
  t.agenda = [] ∧ ∃ es, t.trace = es ++ tr ∧ OnlyCtlCleared es

/-- A change that adds `es` to the trace. -/
theorem CtlCleared.add {tr es : List TraceEvent} {t u : State} (h : CtlCleared tr t) (ha : u.agenda = t.agenda)
    (ht : u.trace = es ++ t.trace) (he : OnlyCtlCleared es) : CtlCleared tr u := by
  obtain ⟨hq, es', ht', he'⟩ := h
  exact ⟨ha.trans hq, es ++ es', by rw [ht, ht', List.append_assoc], he.append he'⟩

/-- With no other agent moving the operation clears bits of `CTL` alone. -/
def Op.ClearsCtl {α : Type} (x : Op α) : Prop :=
  ∀ tr, Op.Meets (CtlCleared tr) x (fun _ => CtlCleared tr) (fun _ => True) True

section Rules

variable {α β : Type} {x : Op α} {f : α → Op β}

theorem clearsCtl_pure (a : α) : (pure a : Op α).ClearsCtl := fun _ => Op.meets_pure fun _ k => k

theorem Op.ClearsCtl.bind (hx : x.ClearsCtl) (hf : ∀ a, (f a).ClearsCtl) : (x >>= f).ClearsCtl := fun tr =>
  (hx tr).bind fun a => hf a tr

theorem clearsCtl_getBind {f : State → Op β} (hf : ∀ a, (f a).ClearsCtl) : (get >>= f).ClearsCtl := fun tr =>
  Op.meets_getBind fun a _ => (hf a tr).pre fun _ k => k.1

theorem clearsCtl_ite {c : Prop} [Decidable c] {y : Op α} (hx : x.ClearsCtl) (hy : y.ClearsCtl) :
    (if c then x else y).ClearsCtl := fun tr => Op.meets_ite (fun _ => hx tr) fun _ => hy tr

theorem clearsCtl_onlyIf {b : Bool} {y : Op Unit} (hy : y.ClearsCtl) : (onlyIf b y).ClearsCtl := fun tr =>
  Op.meets_onlyIf fun _ => hy tr

theorem clearsCtl_throw (e : Stop) : (throw e : Op α).ClearsCtl := fun _ _ _ => by cases e <;> exact trivial

/-- An update that leaves the trace alone. -/
theorem clearsCtl_update {g : State → State}
    (hg : ∀ s, (g s).agenda = s.agenda ∧ (g s).trace = s.trace := by exact fun _ => ⟨rfl, rfl⟩) :
    (update g).ClearsCtl := fun _ => Op.meets_update fun t k => k.add (es := []) (hg t).1 (hg t).2 onlyCtlCleared_nil

/-- An update that records one entry. -/
theorem clearsCtl_emit {e : TraceEvent} {g : State → State} (he : OnlyCtlCleared [e])
    (hg : ∀ s, (g s).agenda = s.agenda ∧ (g s).trace = e :: s.trace) : (update g).ClearsCtl := fun _ =>
  Op.meets_update fun t k => k.add (es := [e]) (hg t).1 (hg t).2 he

theorem clearsCtl_access {e : TraceEvent} (he : OnlyCtlCleared [e]) : (access e).ClearsCtl := fun _ t k => by
  rw [access_run, State.tick_quiet k.1]
  exact k.add rfl rfl he

theorem clearsCtl_call {op : OpName} (hx : x.ClearsCtl) : (call op x).ClearsCtl := fun tr =>
  Op.meets_call ((hx tr).weaken (fun _ ⟨_, hs, ht⟩ => ht ▸ hs.add rfl rfl onlyCtlCleared_nil)
    (fun _ _ k => k.add rfl rfl onlyCtlCleared_nil) fun _ k => k)

end Rules

/-! ### Every operation that the packet loop reaches -/

theorem clearsCtl_atStep (n : Nat) : (atStep n).ClearsCtl := clearsCtl_update

theorem clearsCtl_regReadBit (r : Reg) (b : BitName) : (regReadBit r b).ClearsCtl :=
  (clearsCtl_access (by simp [OnlyCtlCleared])).bind fun _ => clearsCtl_getBind fun _ => clearsCtl_pure _

theorem clearsCtl_regWrite (r : Reg) (v : Word) : (regWrite r v).ClearsCtl :=
  (clearsCtl_access (by simp [OnlyCtlCleared])).bind fun _ => clearsCtl_update

theorem clearsCtl_regSet (r : Reg) (bs : List BitName) : (regSet r bs).ClearsCtl :=
  clearsCtl_getBind fun _ => (clearsCtl_access (by simp [OnlyCtlCleared])).bind fun _ => clearsCtl_update

theorem clearsCtl_regClear (bs : List BitName) : (regClear .ctl bs).ClearsCtl :=
  clearsCtl_getBind fun _ => (clearsCtl_access (by simp [OnlyCtlCleared])).bind fun _ => clearsCtl_update

theorem clearsCtl_memRead (a n : Nat) : (memRead a n).ClearsCtl :=
  (clearsCtl_access (by simp [OnlyCtlCleared])).bind fun _ => clearsCtl_getBind fun _ =>
    clearsCtl_ite (clearsCtl_pure _) (clearsCtl_throw _)

theorem clearsCtl_raise (x : Exn) (info : Info) : (raise x info).ClearsCtl :=
  clearsCtl_emit (e := .raised x info) (by simp [OnlyCtlCleared]) fun _ => ⟨by simp, by simp⟩

theorem clearsCtl_release (c : List Chunk) : (release c).ClearsCtl :=
  clearsCtl_emit (e := .release c) (by simp [OnlyCtlCleared]) fun _ => ⟨rfl, rfl⟩

theorem clearsCtl_alloc (cls : ChunkClass) : (alloc cls).ClearsCtl := fun _ t k => by
  obtain ⟨l, n, h⟩ := t.nextGrant_frame
  rw [alloc_run, h]
  exact k.add (es := [.alloc cls t.nextGrant.1]) rfl rfl (by simp [OnlyCtlCleared])

theorem clearsCtl_waitUntil (r : Reg) (b : BitName) (want : Bool) : (waitUntil r b want).ClearsCtl := by
  have hold : ∀ n, (pollOrHold r b want n).ClearsCtl := fun n => by
    induction n with
    | zero => exact clearsCtl_throw _
    | succ n ih => exact (clearsCtl_regReadBit r b).bind fun _ => clearsCtl_ite (clearsCtl_pure _) ih
  have fault : ∀ n, (pollOrFault r b want n).ClearsCtl := fun n => by
    induction n with
    | zero => exact (clearsCtl_raise _ _).bind fun _ => clearsCtl_pure _
    | succ n ih => exact (clearsCtl_regReadBit r b).bind fun _ => clearsCtl_ite (clearsCtl_pure _) ih
  refine clearsCtl_getBind fun s => ?_
  cases s.cfg.spinLimit with
  | none => exact (hold _).bind fun _ => clearsCtl_pure _
  | some k => exact fault k

theorem clearsCtl_drain : drain.ClearsCtl := clearsCtl_getBind fun s => by
  generalize s.pktRounds = n
  induction n with
  | zero => exact clearsCtl_pure _
  | succ n ih =>
    exact (clearsCtl_regReadBit _ _).bind fun _ => clearsCtl_ite ((clearsCtl_regSet _ _).bind fun _ => ih)
      (clearsCtl_pure _)

theorem clearsCtl_resetRing : resetRing.ClearsCtl :=
  clearsCtl_getBind fun _ => (clearsCtl_regWrite _ _).bind fun _ => (clearsCtl_regWrite _ _).bind fun _ =>
    clearsCtl_update

theorem clearsCtl_recoverFromWait : recoverFromWait.ClearsCtl :=
  (clearsCtl_atStep _).bind fun _ => (clearsCtl_waitUntil _ _ _).bind fun _ => clearsCtl_ite
    ((clearsCtl_atStep _).bind fun _ => clearsCtl_drain.bind fun _ => (clearsCtl_atStep _).bind fun _ =>
      clearsCtl_resetRing.bind fun _ => (clearsCtl_atStep _).bind fun _ => (clearsCtl_update).bind fun _ =>
      (clearsCtl_atStep _).bind fun _ => (clearsCtl_regSet _ _).bind fun _ => (clearsCtl_update).bind fun _ =>
      clearsCtl_atStep _)
    clearsCtl_update

theorem clearsCtl_recoverBody : recoverBody.ClearsCtl :=
  (clearsCtl_atStep _).bind fun _ => (clearsCtl_regClear _).bind fun _ => (clearsCtl_atStep _).bind fun _ =>
    (clearsCtl_update).bind fun _ => (clearsCtl_atStep _).bind fun _ => (clearsCtl_update).bind fun _ =>
    (clearsCtl_atStep _).bind fun _ => clearsCtl_getBind fun _ => clearsCtl_ite
      ((clearsCtl_raise _ _).bind fun _ => clearsCtl_update) clearsCtl_recoverFromWait

theorem clearsCtl_readWrapped (rounds rest : Nat) : (readWrapped rounds rest).ClearsCtl := by
  induction rounds generalizing rest with
  | zero => exact clearsCtl_pure _
  | succ n ih =>
    exact clearsCtl_ite (clearsCtl_pure _) (clearsCtl_getBind fun _ => (clearsCtl_atStep _).bind fun _ =>
      (clearsCtl_memRead _ _).bind fun _ => (ih _).bind fun _ => clearsCtl_pure _)

theorem clearsCtl_readBytes (n : Nat) : (readBytes n).ClearsCtl :=
  clearsCtl_call ((clearsCtl_atStep _).bind fun _ => clearsCtl_getBind fun _ => (clearsCtl_atStep _).bind fun _ =>
    (clearsCtl_atStep _).bind fun _ => (clearsCtl_memRead _ _).bind fun _ => (clearsCtl_atStep _).bind fun _ =>
    (clearsCtl_atStep _).bind fun _ => (clearsCtl_readWrapped _ _).bind fun _ => (clearsCtl_atStep _).bind fun _ =>
    (clearsCtl_update).bind fun _ => (clearsCtl_atStep _).bind fun _ => clearsCtl_pure _)

theorem clearsCtl_failValidation (x : Exn) (info : Nat) : (failValidation x info).ClearsCtl :=
  (clearsCtl_raise _ _).bind fun _ => (clearsCtl_call clearsCtl_recoverBody).bind fun _ => clearsCtl_pure _

theorem clearsCtl_failAllocation (chunks : List Chunk) : (failAllocation chunks).ClearsCtl :=
  (clearsCtl_onlyIf (clearsCtl_release _)).bind fun _ => (clearsCtl_raise _ _).bind fun _ => clearsCtl_pure _

theorem clearsCtl_copyPayload (rounds remaining : Nat) (chunks : List Chunk) :
    (copyPayload rounds remaining chunks).ClearsCtl := by
  induction rounds generalizing remaining chunks with
  | zero => exact clearsCtl_pure _
  | succ n ih =>
    exact clearsCtl_ite (clearsCtl_pure _) (clearsCtl_getBind fun _ => (clearsCtl_alloc _).bind fun _ => clearsCtl_ite
      ((clearsCtl_readBytes _).bind fun _ => ih _ _) (clearsCtl_failAllocation _))

theorem clearsCtl_buildPacket (n : Nat) : (buildPacket n).ClearsCtl :=
  (clearsCtl_atStep _).bind fun _ => clearsCtl_getBind fun _ => (clearsCtl_alloc _).bind fun _ => clearsCtl_ite
    ((clearsCtl_readBytes _).bind fun _ => (clearsCtl_atStep _).bind fun _ => clearsCtl_copyPayload _ _ _)
    (clearsCtl_failAllocation _)

theorem clearsCtl_releaseRing (next : Nat) : (releaseRing next).ClearsCtl :=
  (clearsCtl_atStep _).bind fun _ => clearsCtl_getBind fun _ => (clearsCtl_regWrite _ _).bind fun _ => clearsCtl_update

theorem clearsCtl_receiveOne : receiveOne.ClearsCtl :=
  clearsCtl_call ((clearsCtl_atStep _).bind fun _ => clearsCtl_getBind fun _ => clearsCtl_ite
    (clearsCtl_failValidation _ _) ((clearsCtl_atStep _).bind fun _ => (clearsCtl_readBytes _).bind fun _ =>
      (clearsCtl_atStep _).bind fun _ => clearsCtl_ite (clearsCtl_failValidation _ _)
        ((clearsCtl_atStep _).bind fun _ => clearsCtl_ite (clearsCtl_failValidation _ _)
          ((clearsCtl_buildPacket _).bind fun _ => (clearsCtl_releaseRing _).bind fun _ => clearsCtl_pure _))))

theorem clearsCtl_deliverReceived (r : Option Packet) : (deliverReceived r).ClearsCtl := by
  cases r with
  | none => exact clearsCtl_pure _
  | some pkt =>
    exact clearsCtl_getBind fun s => (clearsCtl_update).bind fun _ =>
      clearsCtl_emit (e := .deliver (laneOf s.cfg.toParams (frameOf pkt)) pkt) (by simp [OnlyCtlCleared])
        fun _ => ⟨rfl, rfl⟩

theorem clearsCtl_packetRounds (n : Nat) : (packetRounds n).ClearsCtl := by
  induction n with
  | zero => exact clearsCtl_pure _
  | succ n ih =>
    exact clearsCtl_getBind fun _ => clearsCtl_ite (clearsCtl_throw _) ((clearsCtl_regReadBit _ _).bind fun _ =>
      clearsCtl_ite ((clearsCtl_regSet _ _).bind fun _ => clearsCtl_receiveOne.bind fun _ =>
        (clearsCtl_deliverReceived _).bind fun _ => ih) (clearsCtl_pure _))

end Sys2Proof.Machine
end

section
/-! SUPPORT. `DISPATCH` access by access, with no other agent moving: the handlers in their order, each with its clear
behind its effect (spec/44_interrupt_dispatcher.md). -/

namespace Sys2Proof.Machine

/-! ### What an operation adds to the trace -/

/-- As `Runs`, with all that is added to the trace, newest first, as `L` says. -/
def Logs {α : Type} (x : Op α) (s : State) (a : α) (u : State) (L : List TraceEvent → Prop) : Prop :=
  s.agenda = [] → u.agenda = [] ∧ ∀ op k snap q g tr, ∃ n entries,
    x (s.dress (⟨op, k, snap⟩ :: q) g tr) = .ok a (u.dress (⟨op, n, snap⟩ :: q) g (entries ++ tr)) ∧ L entries

/-- Exactly `es` is added. -/
def Traced {α : Type} (x : Op α) (s : State) (a : α) (u : State) (es : List TraceEvent) : Prop :=
  Logs x s a u (· = es)

section Rules

variable {α β : Type} {s u v : State} {a : α} {b : β} {x : Op α} {f : α → Op β} {L M : List TraceEvent → Prop}
  {es es' out : List TraceEvent}

theorem Logs.imp (h : Logs x s a u L) (hL : ∀ es, L es → M es) : Logs x s a u M := fun hs =>
  ⟨(h hs).1, fun op k snap q g tr => by
    obtain ⟨n, e, h1, h2⟩ := (h hs).2 op k snap q g tr
    exact ⟨n, e, h1, hL e h2⟩⟩

theorem Logs.bind (hx : Logs x s a u L) (hf : Logs (f a) u b v M) :
    Logs (x >>= f) s b v (fun es => ∃ later first, es = later ++ first ∧ M later ∧ L first) := fun hs => by
  obtain ⟨hu, hx⟩ := hx hs
  obtain ⟨hv, hf⟩ := hf hu
  refine ⟨hv, fun op k snap q g tr => ?_⟩
  obtain ⟨n, e, h1, h2⟩ := hx op k snap q g tr
  obtain ⟨m, e', k1, k2⟩ := hf op n snap q g (e ++ tr)
  exact ⟨m, e' ++ e, by rw [op_bind, h1, List.append_assoc]; exact k1, e', e, rfl, k2, h2⟩

theorem Traced.bind (hx : Traced x s a u es) (hf : Traced (f a) u b v es') : Traced (x >>= f) s b v (es' ++ es) :=
  (Logs.bind hx hf).imp (by rintro _ ⟨_, _, rfl, rfl, rfl⟩; rfl)

/-- The same state and the same accesses, spelled otherwise. -/
theorem Traced.to (h : Traced x s a u es) (hu : u = v) (he : es = es') : Traced x s a v es' := he ▸ hu ▸ h

/-- What is said of the accesses that are made. -/
theorem Traced.logs (h : Traced x s a u es) (hL : L es) : Logs x s a u L := Logs.imp h (by rintro _ rfl; exact hL)

theorem Logs.call {op : OpName} (h : Logs x s a u L) : Logs (call op x) s a u L := fun hs => by
  obtain ⟨hu, h⟩ := h hs
  refine ⟨hu, fun op' k snap q g tr => ?_⟩
  obtain ⟨n, e, h1, h2⟩ := h op 0 none (⟨op', k, snap⟩ :: q) g tr
  have h1' : x ((s.dress (⟨op', k, snap⟩ :: q) g tr).pushFrame op) = _ := h1
  exact ⟨k, e, by rw [call_run, h1']; rfl, h2⟩

/-- What follows accesses that are known. -/
theorem Traced.follow (hx : Traced x s a u es) (hf : Logs (f a) u b v M) :
    Logs (x >>= f) s b v (fun all => ∃ later, all = later ++ es ∧ M later) :=
  (Logs.bind hx hf).imp (by rintro _ ⟨later, _, rfl, h, rfl⟩; exact ⟨later, rfl, h⟩)

/-- What follows no access at all. -/
theorem Traced.then (hx : Traced x s a u []) (hf : Logs (f a) u b v M) : Logs (x >>= f) s b v M :=
  (hx.follow hf).imp (by rintro _ ⟨later, rfl, h⟩; rwa [List.append_nil])

/-- A read of the state, of which only what no frame holds is used. -/
theorem logs_get {f : State → Op β} (h : Logs (f s) s b v L)
    (hf : ∀ q g tr, f (s.dress q g tr) = f s := by exact fun _ _ _ => rfl) : Logs (get >>= f) s b v L := fun hs => by
  obtain ⟨hv, h⟩ := h hs
  refine ⟨hv, fun op k snap q g tr => ?_⟩
  rw [op_bind, op_get]
  dsimp only
  rw [hf]
  exact h op k snap q g tr

/-- What runs without clearing bits but of `CTL` adds no other clear. -/
theorem Runs.logs (h : Runs x s a u out) (hx : x.ClearsCtl) : Logs x s a u OnlyCtlCleared := fun hs => by
  obtain ⟨hu, h⟩ := h hs
  refine ⟨hu, fun op k snap q g tr => ?_⟩
  obtain ⟨n, e, h1, -⟩ := h op k snap q g tr
  have hm := hx tr (s.dress (⟨op, k, snap⟩ :: q) g tr) ⟨hs, [], rfl, onlyCtlCleared_nil⟩
  rw [h1] at hm
  obtain ⟨-, e', ht, he⟩ := hm
  have hee : e = e' := List.append_cancel_right ht
  exact ⟨n, e, h1, hee ▸ he⟩

theorem traced_pure : Traced (pure a : Op α) s a s [] := fun hs => ⟨hs, fun _ k _ _ _ _ => ⟨k, [], rfl, rfl⟩⟩

theorem traced_atStep (n : Nat) : Traced (atStep n) s () s [] := fun hs => ⟨hs, fun _ _ _ _ _ _ => ⟨n, [], rfl, rfl⟩⟩

theorem traced_update {k : State → State} (hk : ∀ q g tr, k (s.dress q g tr) = (k s).dress q g tr)
    (ha : (k s).agenda = s.agenda) : Traced (update k) s () (k s) [] :=
  fun hs => ⟨ha.trans hs, fun _ n _ _ _ _ => ⟨n, [], by rw [update_run, hk]; rfl, rfl⟩⟩

theorem traced_raise (y : Exn) (info : Info) : Traced (raise y info) s () (y.count s) [.raised y info] :=
  fun hs => ⟨by cases y <;> exact hs, fun _ n _ _ _ _ => ⟨n, [.raised y info], by cases y <;> rfl, rfl⟩⟩

theorem traced_release (c : List Chunk) : Traced (release c) s () s [.release c] :=
  fun hs => ⟨hs, fun _ n _ _ _ _ => ⟨n, [.release c], rfl, rfl⟩⟩

theorem traced_regReadBit (r : Reg) (y : BitName) : Traced (regReadBit r y) s (s.chip.bit y) s [.regRead r] :=
  fun hs => ⟨hs, fun _ n _ _ _ _ => ⟨n, [.regRead r], by rw [regReadBit_run, tick_dress hs]; rfl, rfl⟩⟩

theorem traced_regWrite (r : Reg) (w : Word) :
    Traced (regWrite r w) s () (s.onChip fun c => c.writeWord s.cfg.regmap r w) [.regWrite r w] :=
  fun hs => ⟨hs, fun _ n _ _ _ _ => ⟨n, [.regWrite r w], by rw [regWrite_run, tick_dress hs]; rfl, rfl⟩⟩

theorem traced_regSet (r : Reg) (y : BitName) : Traced (regSet r [y]) s () (s.onChip (·.setBits [y]))
    [.regSet r (BitVec.twoPow 16 (s.cfg.regmap.index y))] := fun hs => ⟨hs, fun _ n _ _ _ _ =>
  ⟨n, _, by rw [regSet_run, tick_dress hs, bitsMask_singleton]; rfl, rfl⟩⟩

theorem traced_regClear (r : Reg) (y : BitName) : Traced (regClear r [y]) s () (s.onChip (·.clearBits [y]))
    [.regClear r (BitVec.twoPow 16 (s.cfg.regmap.index y))] := fun hs => ⟨hs, fun _ n _ _ _ _ =>
  ⟨n, _, by rw [regClear_run, tick_dress hs, bitsMask_singleton]; rfl, rfl⟩⟩

theorem traced_memWrite {m : Nat} {bs : List Byte} (h : m + bs.length ≤ s.cfg.memSize) :
    Traced (memWrite m bs) s () { s with mem := s.mem.writeBytes m bs } [.memWrite m bs] := fun hs =>
  ⟨hs, fun _ n _ _ _ _ => ⟨n, [.memWrite m bs], by rw [memWrite_run, tick_dress hs, if_pos (by exact h)]; rfl, rfl⟩⟩

theorem traced_waitUntil {r : Reg} {y : BitName} {want : Bool} (hl : s.cfg.spinLimit ≠ some 0)
    (hb : s.chip.bit y = want) : Traced (waitUntil r y want) s true s [.regRead r] :=
  fun hs => ⟨hs, fun op k snap q g tr => ⟨k, [.regRead r],
    waitUntil_met (s := s.dress (⟨op, k, snap⟩ :: q) g tr) hs hl hb, rfl⟩⟩

end Rules

/-! ### `RECONCILE` (R205) -/

section Reconcile

variable {s : State}

/-- The writes of the duplex that the chip reports, newest first (R205 step 3, R297). -/
def State.duplexTrace (s : State) : List TraceEvent :=
  if s.chip.phydpx then
    [.regSet .fc (BitVec.twoPow 16 s.cfg.regmap.fcAutofc), .regWrite .ipg s.cfg.ipgFull,
      .regSet .maccfg (BitVec.twoPow 16 s.cfg.regmap.maccfgFuldpx)]
  else
    [.regClear .fc (BitVec.twoPow 16 s.cfg.regmap.fcFcassert), .regClear .fc (BitVec.twoPow 16 s.cfg.regmap.fcAutofc),
      .regWrite .ipg s.cfg.ipgHalf, .regClear .maccfg (BitVec.twoPow 16 s.cfg.regmap.maccfgFuldpx)]

theorem traced_applyDuplex :
    Traced (applyDuplex s.chip.phydpx) s () { s with chip := s.duplexSettings } s.duplexTrace := by
  unfold State.duplexTrace
  cases hd : s.chip.phydpx
  · refine Traced.to (logs_get ((traced_regClear _ _).bind ((traced_regWrite _ _).bind
      ((traced_regClear _ _).bind (traced_regClear _ _))))) ?_ rfl
    simp [State.duplexSettings, hd, State.onChip, Chip.clearBits, Chip.clearBit, Chip.storeBit, Chip.writeWord]
  · refine Traced.to (logs_get ((traced_regSet _ _).bind ((traced_regWrite _ _).bind (traced_regSet _ _)))) ?_ rfl
    simp [State.duplexSettings, hd, State.onChip, Chip.setBits, Chip.setBit, Chip.storeBit, Chip.writeWord]

/-- The two reads, of the wait and of the duplex, and the writes. -/
theorem traced_reconcileBody (hb : s.chip.fcidle = true) (hl : s.cfg.spinLimit ≠ some 0) :
    Traced reconcileBody s () { s with chip := s.duplexSettings } (s.duplexTrace ++ [.regRead .stat, .regRead .stat]) :=
  Traced.to ((traced_atStep 1).bind ((traced_waitUntil (y := .statFcidle) (want := true) hl hb).bind
    ((traced_atStep 2).bind ((traced_regReadBit _ _).bind ((traced_atStep 3).bind
      (traced_applyDuplex.bind (traced_atStep 4))))))) rfl (by simp)

end Reconcile

/-! ### `KICK` (R151) -/

section Kick

variable {s : State}

/-- An access or a record of a `KICK` behind its read of `CTL`. -/
def KickEvent (C : Config) (e : TraceEvent) : Prop :=
  e = .regSet .ctl (BitVec.twoPow 16 C.regmap.ctlTxrts) ∨ (∃ n, e = .regWrite .txlen n) ∨ (∃ pkt, e = .release pkt)
    ∨ (∃ a bytes, e = .memWrite a bytes) ∨ ∃ n, e = .raised .txTooLong n

/-- All that a `KICK` adds to the trace. -/
def KickTrace (C : Config) (es : List TraceEvent) : Prop :=
  ∃ more, es = more ++ [.regRead .ctl] ∧ ∀ e ∈ more, KickEvent C e

theorem logs_sendFrame (pkt : Packet) :
    ∃ u, Logs (sendFrame s.cfg pkt) s () u (fun es => ∀ e ∈ es, KickEvent s.cfg e) ∧ Kicked s u := by
  unfold sendFrame
  by_cases hl : (frameOf pkt).length = 0 ∨ s.cfg.txCapacity < (frameOf pkt).length
  · rw [if_pos hl]
    refine ⟨_, Traced.logs ((traced_release pkt).bind (traced_raise .txTooLong _)) (by simp [KickEvent]), ?_⟩
    exact ⟨rfl, rfl, rfl, rfl, rfl, rfl, rfl⟩
  · have hm := traced_memWrite (s := s) (m := s.cfg.txStart) (bs := frameOf pkt) (by
      have := config_transmit s.cfg
      omega)
    rw [if_neg hl]
    refine ⟨_, Traced.logs ((traced_atStep 5).bind (hm.bind ((traced_atStep 6).bind ((traced_release pkt).bind
      ((traced_atStep 7).bind ((traced_regWrite .txlen _).bind ((traced_atStep 8).bind
        (traced_regSet .ctl .ctlTxrts))))))))
      (by simp [KickEvent, RegMap.index]), ?_⟩
    exact ⟨rfl, rfl, rfl, rfl, rfl, rfl, rfl⟩

/-- Steps 3 to 8 of R151. -/
theorem logs_sendHead (pkt : Packet) :
    ∃ u, Logs (sendHead pkt) s () u (fun es => ∀ e ∈ es, KickEvent s.cfg e) ∧ Kicked s u := by
  have hd : Traced (update fun s => { s with sendq := s.sendq.tail }) s () { s with sendq := s.sendq.tail } [] :=
    traced_update (fun _ _ _ => rfl) rfl
  obtain ⟨u, h, k⟩ := logs_sendFrame (s := { s with sendq := s.sendq.tail }) pkt
  rw [sendHead_eq]
  exact ⟨u, (traced_atStep 3).then (hd.then (logs_get ((traced_atStep 4).then h))),
    k.cfg, k.again, k.packetsIn, k.packetsOut, k.flags, k.rxbusy, k.pktcnt⟩

/-- `KICK` reads `CTL` first. -/
theorem logs_kickBody : ∃ u, Logs kickBody s () u (KickTrace s.cfg) ∧ Kicked s u := by
  have hr := traced_regReadBit (s := s) .ctl .ctlTxrts
  cases hb : s.chip.bit .ctlTxrts with
  | true =>
    rw [hb] at hr
    have nothing : Logs (pure ()) s () s (fun es => ∀ e ∈ es, KickEvent s.cfg e) :=
      traced_pure.logs fun e he => absurd he List.not_mem_nil
    exact ⟨s, (traced_atStep 1).then (hr.follow nothing), Kicked.refl s⟩
  | false =>
    rw [hb] at hr
    have next : ∃ u, Logs (get >>= fun s : State => match s.sendq with
        | [] => pure ()
        | pkt :: _ => sendHead pkt) s () u (fun es => ∀ e ∈ es, KickEvent s.cfg e) ∧ Kicked s u := by
      cases hq : s.sendq with
      | nil =>
        refine ⟨s, logs_get ?_, Kicked.refl s⟩
        rw [hq]
        exact traced_pure.logs fun e he => absurd he List.not_mem_nil
      | cons pkt queue =>
        obtain ⟨u, h, k⟩ := logs_sendHead (s := s) pkt
        refine ⟨u, logs_get ?_, k⟩
        rw [hq]
        exact h
    obtain ⟨u, h, k⟩ := next
    exact ⟨u, (traced_atStep 1).then (hr.follow ((traced_atStep 2).then h)), k⟩

end Kick

/-! ### The handlers in their order (R171) -/

section Handlers

variable {s : State} {f : IFlags}

/-- The clear of a flag that was set in the snapshot. -/
def State.clearTrace (s : State) (b : Bool) (x : BitName) : List TraceEvent :=
  if b then [.regClear .iflag (BitVec.twoPow 16 (s.cfg.regmap.index x))] else []

/-- The accesses of the `KICK` behind the transmit flags of the snapshot, if it runs (R167). -/
def State.TransmitKicks (s : State) (f : IFlags) (kick : List TraceEvent) : Prop :=
  if (f.txdone || f.txabt) = true ∧ s.sendq ≠ [] then KickTrace s.cfg kick else kick = []

/-- The accesses of the packet loop, if it runs (R172). -/
def State.PacketTrace (s : State) (packets : List TraceEvent) : Prop :=
  if 0 < s.chip.pktcnt then
    ∃ more, packets = more ++ [.regSet .ctl (BitVec.twoPow 16 s.cfg.regmap.ctlPktdec), .regRead .iflag]
      ∧ OnlyCtlCleared more
  else packets = []

/-- Of a state it is only the counter and the configuration that matter. -/
theorem State.PacketTrace.to {u v : State} {es : List TraceEvent} (h : u.PacketTrace es)
    (hp : u.chip.pktcnt = v.chip.pktcnt) (hc : u.cfg = v.cfg) : v.PacketTrace es := by
  rwa [State.PacketTrace, hp, hc] at h

theorem traced_countDone : Traced (onlyIf f.txdone countDone) s () { s with
    packetsOut := s.packetsOut + (if f.txdone then 1 else 0)
    chip := { s.chip with flags := { s.chip.flags with txdone := s.chip.flags.txdone && !f.txdone } } }
    (s.clearTrace f.txdone .iflagTxdone) := by
  cases f.txdone
  · exact traced_pure.to (by simp) rfl
  · have hu : Traced (update fun s => { s with packetsOut := s.packetsOut + 1 }) s ()
      { s with packetsOut := s.packetsOut + 1 } [] := traced_update (fun _ _ _ => rfl) rfl
    refine Traced.to (hu.bind (traced_regClear _ _)) ?_ rfl
    simp [State.onChip, Chip.clearBits, Chip.clearBit, Chip.storeBit]

theorem traced_countAbort : Traced (onlyIf f.txabt countAbort) s () { s with
    errorsOut := s.errorsOut + (if f.txabt then 1 else 0)
    chip := { s.chip with flags := { s.chip.flags with txabt := s.chip.flags.txabt && !f.txabt } } }
    (s.clearTrace f.txabt .iflagTxabt) := by
  cases f.txabt
  · exact traced_pure.to (by simp) rfl
  · have hu : Traced (update fun s => { s with errorsOut := s.errorsOut + 1 }) s ()
      { s with errorsOut := s.errorsOut + 1 } [] := traced_update (fun _ _ _ => rfl) rfl
    refine Traced.to (hu.bind (traced_regClear _ _)) ?_ rfl
    simp [State.onChip, Chip.clearBits, Chip.clearBit, Chip.storeBit]

theorem traced_overflow :
    Traced (onlyIf f.rxabt handleOverflow) s () (s.overflowed f) (s.clearTrace f.rxabt .iflagRxabt) := by
  cases hf : f.rxabt
  · exact traced_pure.to (by simp [State.overflowed, hf]) rfl
  · have hu : Traced (update fun s => { s with errorsIn := s.errorsIn + 1 }) s ()
      { s with errorsIn := s.errorsIn + 1 } [] := traced_update (fun _ _ _ => rfl) rfl
    refine Traced.to ((traced_atStep 3).bind (hu.bind (traced_regClear _ _))) ?_ rfl
    simp [State.overflowed, hf, State.onChip, Chip.clearBits, Chip.clearBit, Chip.storeBit]

/-- The `KICK` at the end of step 2 of R165. -/
theorem logs_transmitKick (hf : (f.txdone || f.txabt) = true) :
    ∃ u, Logs (onlyIf (!s.sendq.isEmpty) kick) s () u (s.TransmitKicks f) ∧ Kicked s u := by
  by_cases hq : s.sendq = []
  · refine ⟨s, ?_, Kicked.refl s⟩
    rw [hq]
    exact traced_pure.logs (by rw [State.TransmitKicks, if_neg fun h => h.2 hq])
  · have hb : (!s.sendq.isEmpty) = true := by simpa using hq
    obtain ⟨u, h, k⟩ := logs_kickBody (s := s)
    refine ⟨u, ?_, k⟩
    rw [hb]
    exact h.call.imp fun es he => by rwa [State.TransmitKicks, if_pos ⟨hf, hq⟩]

/-- Step 2 of R165: both flags, then the `KICK`. -/
theorem logs_transmit : ∃ u, Logs (onlyIf (f.txdone || f.txabt) (handleTransmit f)) s () u (fun es =>
      ∃ kick, es = kick ++ s.clearTrace f.txabt .iflagTxabt ++ s.clearTrace f.txdone .iflagTxdone
        ∧ s.TransmitKicks f kick) ∧ Kicked (s.transmitted f) u := by
  cases hf : f.txdone || f.txabt with
  | false =>
    simp only [Bool.or_eq_false_iff] at hf
    have hs : s = s.transmitted f := by simp [State.transmitted, hf]
    refine ⟨s.transmitted f, (traced_pure.to hs rfl).logs ⟨[], ?_⟩, Kicked.refl _⟩
    simp [State.TransmitKicks, State.clearTrace, hf]
  | true =>
    obtain ⟨u, h, k⟩ := logs_transmitKick (s := s.transmitted f) hf
    refine ⟨u, Logs.imp ((traced_atStep 2).then (traced_countDone.follow (traced_countAbort.follow (logs_get h))))
      ?_, k⟩
    rintro _ ⟨_, rfl, kick, rfl, hk⟩
    exact ⟨kick, rfl, hk⟩

/-- The first iteration of the packet loop reads the flag and takes the packet off the counter (R172). -/
theorem logs_packetRounds_first {n : Nat} {u : State} {L : List TraceEvent → Prop} (hg : s.again = [])
    (hp : 0 < s.chip.pktcnt)
    (h : Logs (receiveOne >>= fun r => deliverReceived r >>= fun _ => packetRounds n) s.taken () u L) :
    Logs (packetRounds (n + 1)) s () u (fun es => ∃ more,
      es = more ++ [.regSet .ctl (BitVec.twoPow 16 s.cfg.regmap.ctlPktdec), .regRead .iflag] ∧ L more) := by
  have hread := traced_regReadBit (s := s) .iflag .iflagPkt
  rw [show s.chip.bit .iflagPkt = true from decide_eq_true hp] at hread
  rw [packetRounds_succ]
  refine logs_get ?_
  rw [if_neg (by rw [State.moreToCome_none hg]; simp)]
  refine Logs.imp (hread.follow ((traced_regSet .ctl .ctlPktdec).follow h)) ?_
  rintro _ ⟨_, rfl, more, rfl, hm⟩
  exact ⟨more, by rw [List.append_assoc]; rfl, hm⟩

/-- The packet loop with a packet counted. -/
theorem logs_packetLoop (hp : 0 < s.chip.pktcnt) (hg : s.again = []) (hb : s.chip.rxbusy = false)
    (hl : s.cfg.spinLimit ≠ some 0) : ∃ u, Logs packetLoop s () u s.PacketTrace := by
  obtain ⟨n, hn⟩ : ∃ n, s.pktRounds = n + 1 := ⟨s.pktRounds - 1, by have := s.lt_pktRounds; omega⟩
  have hrounds := s.lt_pktRounds
  obtain ⟨r, v, out, hr, k⟩ := leaves_receiveOne (s := s.taken) hb hl
  have hcnt : v.chip.pktcnt ≤ s.chip.pktcnt - 1 := k.pktcnt
  obtain ⟨d, out', -, hd⟩ := leaves_deliverReceived (s := v) r
  obtain ⟨u, out'', hu, -⟩ := leaves_packetRounds (s := { v with packetsIn := v.packetsIn + d }) (n := n)
    (k.again.trans hg) (k.rxbusy.trans hb) (by show v.cfg.spinLimit ≠ _; rw [k.cfg]; exact hl)
    (by show v.chip.pktcnt < n; omega)
  have hrest := Runs.logs (hr.bind (hd.bind hu.runs)) (clearsCtl_receiveOne.bind fun r =>
    (clearsCtl_deliverReceived r).bind fun _ => clearsCtl_packetRounds n)
  rw [packetLoop_eq]
  refine ⟨u, logs_get ?_⟩
  rw [hn]
  exact (logs_packetRounds_first hg hp hrest).imp fun es he => by rwa [State.PacketTrace, if_pos hp]

/-- Step 4 of R165, the snapshot saying what the counter says. -/
theorem logs_packets (hf : f.pkt = s.chip.pktFlag) (hg : s.again = []) (hb : s.chip.rxbusy = false)
    (hl : s.cfg.spinLimit ≠ some 0) : ∃ u, Logs (onlyIf f.pkt handlePackets) s () u s.PacketTrace := by
  by_cases hp : 0 < s.chip.pktcnt
  · obtain ⟨u, h⟩ := logs_packetLoop hp hg hb hl
    rw [show f.pkt = true from hf.trans (decide_eq_true hp)]
    exact ⟨u, (traced_atStep 4).then h⟩
  · rw [show f.pkt = false from hf.trans (decide_eq_false hp)]
    exact ⟨s, traced_pure.logs (by rw [State.PacketTrace, if_neg hp])⟩

/-- What steps 2 to 5 of R165 add, newest first. -/
def State.RestTrace (s : State) (f : IFlags) (es : List TraceEvent) : Prop :=
  ∃ packets kick, es = packets ++ s.clearTrace f.rxabt .iflagRxabt
      ++ (kick ++ s.clearTrace f.txabt .iflagTxabt ++ s.clearTrace f.txdone .iflagTxdone)
    ∧ s.TransmitKicks f kick ∧ s.PacketTrace packets

theorem logs_dispatchRest (hf : f.pkt = s.chip.pktFlag) (hg : s.again = []) (hb : s.chip.rxbusy = false)
    (hl : s.cfg.spinLimit ≠ some 0) : ∃ u, Logs (dispatchRest f) s () u (s.RestTrace f) := by
  obtain ⟨v, hv, k⟩ := logs_transmit (s := s) (f := f)
  have hcfg : v.cfg = s.cfg := k.cfg
  have hcnt : v.chip.pktcnt = s.chip.pktcnt := k.pktcnt
  obtain ⟨u, hu⟩ := logs_packets (s := v.overflowed f) (f := f)
    (hf.trans (by rw [Chip.pktFlag, ← hcnt]; rfl)) (k.again.trans hg) (k.rxbusy.trans hb)
    (by show v.cfg.spinLimit ≠ _; rw [hcfg]; exact hl)
  refine ⟨u, Logs.imp (hv.bind (traced_overflow.follow (hu.bind (traced_atStep 5)))) ?_⟩
  rintro _ ⟨_, _, rfl, ⟨_, rfl, _, packets, rfl, rfl, hpackets⟩, kick, rfl, hkick⟩
  refine ⟨packets, kick, ?_, hkick, ?_⟩
  · simp only [State.clearTrace, hcfg, List.nil_append]
  · exact hpackets.to hcnt hcfg

/-- What `DISPATCH` adds behind its snapshot, newest first: the `RECONCILE` and its clear come before the rest. -/
def State.DispatchTrace (s : State) (es : List TraceEvent) : Prop :=
  ∃ rest, es = rest ++ (if s.chip.flags.link then
      .regClear .iflag (BitVec.twoPow 16 s.cfg.regmap.iflagLink) :: (s.duplexTrace ++ [.regRead .stat, .regRead .stat])
    else [])
    ∧ s.RestTrace s.chip.iflags rest

theorem logs_dispatchFrom (hg : s.again = []) (hb : s.chip.rxbusy = false) (hi : s.chip.fcidle = true)
    (hl : s.cfg.spinLimit ≠ some 0) : ∃ u, Logs (dispatchFrom s.chip.iflags) s () u s.DispatchTrace := by
  cases hlink : s.chip.flags.link with
  | false =>
    obtain ⟨u, h⟩ := logs_dispatchRest (s := s) (f := s.chip.iflags) rfl hg hb hl
    rw [dispatchFrom_unlinked hlink]
    exact ⟨u, h.imp fun rest hr => ⟨rest, by rw [hlink]; simp, hr⟩⟩
  | true =>
    obtain ⟨-, hbusy, hcnt⟩ := s.duplexSettings_frame
    have hpkt : s.relinked.chip.pktcnt = s.chip.pktcnt := hcnt
    obtain ⟨u, h⟩ := logs_dispatchRest (s := s.relinked) (f := s.chip.iflags)
      (by rw [Chip.pktFlag, hpkt]; rfl) hg (hbusy.trans hb) hl
    have hrest : ∀ es, s.relinked.RestTrace s.chip.iflags es → s.RestTrace s.chip.iflags es := by
      rintro _ ⟨packets, kick, rfl, hkick, hpackets⟩
      exact ⟨packets, kick, rfl, hkick, hpackets.to hpkt rfl⟩
    have hclear : Traced (regClear .iflag [.iflagLink]) { s with chip := s.duplexSettings } () s.relinked
      [.regClear .iflag (BitVec.twoPow 16 s.cfg.regmap.iflagLink)] := traced_regClear _ _
    rw [dispatchFrom_linked hlink]
    refine ⟨u, Logs.imp ((traced_atStep 1).then ((traced_reconcileBody hi hl).call.bind (hclear.follow h))) ?_⟩
    rintro _ ⟨_, _, rfl, ⟨rest, rfl, hr⟩, rfl⟩
    exact ⟨rest, by rw [hlink, if_pos rfl, List.append_assoc]; rfl, hrest _ hr⟩

/-- A `DISPATCH` as a command that ends, with all its accesses. -/
theorem exec_dispatch_logs {u : State} {L : List TraceEvent → Prop} (h : s.Ready)
    (hd : Logs (dispatchFrom s.chip.iflags) s () u L) : ∃ es, L es ∧ exec .dispatch s = .next { u with
      seq := [], ipl := s.ipl, savedIpl := s.ipl, context := none, result := some .unit
      trace := es ++ .regRead .iflag :: s.trace } := by
  obtain ⟨n, es, h1, hL⟩ := (hd h.1.2.1).2 .dispatch 0 (some s.chip.iflags) [] ⟨.device, s.ipl, some .request, none⟩
    (.regRead .iflag :: s.trace)
  have hbody : dispatchBody (s.beginCommand .dispatch) = _ :=
    (dispatchBody_run (s := s) (q := []) (k := 0) (snap := none) h.1.2.1 ⟨.device, s.ipl, some .request, none⟩
      s.trace).trans h1
  have hrun : exec .dispatch s = _ := runProbed_ready h hbody rfl
  exact ⟨es, hL, hrun⟩

end Handlers

/-! ### One condition alone -/

section Alone

variable {s : State}

/-- With no flag set there is nothing but the snapshot (R174). -/
theorem exec_dispatch_still (h : s.Ready) (hp : s.chip.pktcnt = 0)
    (hf : s.chip.flags = ⟨false, false, false, false⟩) :
    exec .dispatch s = .next { s.answered .unit with trace := .regRead .iflag :: s.trace } := by
  have hflags : s.chip.iflags = ⟨false, false, false, false, false⟩ := by simp [Chip.iflags, Chip.pktFlag, hf, hp]
  have hrest : Traced (dispatchFrom ⟨false, false, false, false, false⟩) s () s [] :=
    traced_pure.then (traced_pure.then (traced_pure.then (traced_atStep 5)))
  rw [← hflags] at hrest
  obtain ⟨_, rfl, hrun⟩ := exec_dispatch_logs h hrest
  rw [hrun]
  simp [State.answered, h.1.1]

/-- Receive-abort is counted and cleared (R168). -/
theorem completes_dispatch_overflow (h : s.Ready) (hp : s.chip.pktcnt = 0)
    (hf : s.chip.flags = ⟨false, false, false, true⟩) : Completes (exec .dispatch s) s { s.answered .unit with
      errorsIn := s.errorsIn + 1, chip := { s.chip with flags := ⟨false, false, false, false⟩ } } [] := by
  have hflags : s.chip.iflags = ⟨false, false, false, true, false⟩ := by simp [Chip.iflags, Chip.pktFlag, hf, hp]
  have hrest : Runs (dispatchFrom ⟨false, false, false, true, false⟩) s () _ [] :=
    runs_dispatchRest rfl (runs_transmit_still (by simp))
  rw [← hflags] at hrest
  refine (dispatch_ends h hrest).to ?_ rfl
  simp [State.untraced, State.answered, State.overflowed, State.transmitted, hflags, hf, h.1.1]

/-- Link-changed runs the `RECONCILE` and is cleared behind it (R166). -/
theorem completes_dispatch_link (h : s.Ready) (hp : s.chip.pktcnt = 0)
    (hf : s.chip.flags = ⟨true, false, false, false⟩) (hi : s.chip.fcidle = true) (hl : s.cfg.spinLimit ≠ some 0) :
    Completes (exec .dispatch s) s { s.answered .unit with
      chip := { s.duplexSettings with flags := ⟨false, false, false, false⟩ } } [] := by
  have hflags : s.chip.iflags = ⟨true, false, false, false, false⟩ := by simp [Chip.iflags, Chip.pktFlag, hf, hp]
  have hrest : Runs (dispatchRest ⟨true, false, false, false, false⟩) s.relinked () s.relinked [] :=
    leaves_pure.then (leaves_pure.then (leaves_pure.then (runs_atStep 5)))
  have hrun : Runs (dispatchFrom ⟨true, false, false, false, false⟩) s () s.relinked [] :=
    (runs_atStep 1).then ((runs_reconcileBody hi hl).call.then (runs_dispatchAfterReconcile hrest))
  rw [← hflags] at hrun
  refine (dispatch_ends h hrun).to ?_ rfl
  rw [relinked_eq]
  simp [State.untraced, State.answered, hf, h.1.1]

end Alone

/-- Settles O43: one condition at a time the handler computed, and for any of them together the accesses in their order
(`logs_dispatchFrom`). -/
theorem dispatchOneCondition : Obligations.DispatchOneCondition := by
  refine ⟨fun s h hp => ⟨exec_dispatch_still h hp, completes_dispatch_overflow h hp, fun hf hi hl =>
    ⟨s.duplexSettings, ?_, completes_dispatch_link h hp hf hi hl⟩⟩, fun s h hb hi hl => ?_⟩
  · refine (runProbed_ends h ((runs_reconcileBody hi hl).bind (out' := []) leaves_pure.runs)).to ?_ rfl
    simp [State.untraced, State.answered, h.1.1]
  · obtain ⟨u, hu⟩ := logs_dispatchFrom h.1.2.2 hb hi hl
    obtain ⟨_, ⟨_, rfl, packets, kick, rfl, hkick, hpackets⟩, hrun⟩ := exec_dispatch_logs h hu
    exact ⟨_, packets, kick, hrun, rfl, hkick, hpackets⟩

end Sys2Proof.Machine
end

section
/-! SUPPORT. The watchdog's own statements: the callback and the full path of `RECOVER`. -/

namespace Sys2Proof.Machine

/-- Settles O10: the two cases of the guard of `QUIET_EXPIRE`. -/
theorem quietExpire : Obligations.QuietExpire := by
  intro s
  refine ⟨fun d hd hn hs hl => ?_, fun h => ?_⟩
  · rw [State.applyMove, State.quietExpire, if_pos ⟨⟨d, hd, hn⟩, hs, hl⟩]
  · rw [State.applyMove, State.quietExpire, if_neg]
    rintro ⟨⟨d, hd, hn⟩, hs, hl⟩
    rcases h with h | ⟨d', hd', hlt⟩ | h | h
    · cases h.symm.trans hd
    · cases hd'.symm.trans hd
      omega
    · exact h hs
    · exact h hl

/-- Settles O27: the full path computed (`runs_recoverBody`), and the beginning and the end of the command. -/
theorem recoverResult : Obligations.RecoverResult := by
  intro s h hc hb hl
  refine (runProbed_ends h ((runs_recoverBody hc hb hl).bind (out' := []) leaves_pure.runs)).to ?_ rfl
  simp [State.untraced, State.answered, State.recovered, h.1.1]

end Sys2Proof.Machine
end

section
/-! SUPPORT. An initialized block whose count is beyond the threshold stays so (`State.Terminal`), whatever the other
agents do short of a reset: walked once through every operation. No bring-up and no full path of `RECOVER` is walked,
since the first asks for a block not initialized and the second for a count within the threshold. -/

namespace Sys2Proof.Machine

/-! ### Beyond the threshold -/

/-- The block is initialized and beyond the threshold, and no reset is lined up (R182, R284). -/
structure State.Terminal (s : State) : Prop where
  initialized : s.initialized = true
  beyond : s.cfg.maxResets < s.ctx.resetCounter
  noReset : s.NoReset

/-- From `s` to `t` the block stays initialized, its count has not gone down, and nothing has been lined up. -/
structure NotRevived (s t : State) : Prop where
  initialized : s.initialized = true → t.initialized = true
  cfg : t.cfg = s.cfg
  count : s.ctx.resetCounter ≤ t.ctx.resetCounter
  agenda : t.agenda = s.agenda
  again : t.again = s.again

section Terminal

variable {s t : State}

/-- What another agent leaves of the block's own state (`SameBlock`). -/
theorem SameBlock.notRevived (k : SameBlock s t) (ha : t.agenda = s.agenda) (hg : t.again = s.again) : NotRevived s t :=
  ⟨fun h => k.initialized.trans h, k.cfg, Nat.le_of_eq (congrArg Ctx.resetCounter k.ctx.symm), ha, hg⟩

theorem State.Terminal.keep (k : s.Terminal)
    (h : NotRevived s t := by exact ⟨id, rfl, Nat.le_refl _, rfl, rfl⟩) : t.Terminal where
  initialized := h.initialized k.initialized
  beyond := by rw [h.cfg]; exact Nat.lt_of_lt_of_le k.beyond h.count
  noReset := by unfold State.NoReset; rw [h.agenda, h.again]; exact k.noReset

/-- With less lined up, or the same again. -/
theorem State.Terminal.relined (k : s.Terminal) (agenda : List Slot)
    (ha : ∀ slot ∈ agenda, ∀ m ∈ slot.moves, ∃ slot' ∈ s.agenda ++ s.again, m ∈ slot'.moves) :
    State.Terminal { s with agenda := agenda } where
  initialized := k.initialized
  beyond := k.beyond
  noReset := fun slot hslot m hm => by
    rcases List.mem_append.1 hslot with hslot | hslot
    · obtain ⟨slot', h', hm'⟩ := ha slot hslot m hm
      exact k.noReset slot' h' m hm'
    · exact k.noReset slot (List.mem_append_right _ hslot) m hm

theorem State.Terminal.rearm (k : s.Terminal) : s.rearm.Terminal :=
  k.relined _ fun slot hslot m hm => ⟨slot, by
    split at hslot
    · exact List.mem_append_right _ hslot
    · exact List.mem_append_left _ hslot, hm⟩

theorem State.applyMoves_agenda (s : State) (ms : List EnvMove) :
    (s.applyMoves ms).agenda = s.agenda ∧ (s.applyMoves ms).again = s.again := by
  induction ms generalizing s with
  | nil => exact ⟨rfl, rfl⟩
  | cons m ms ih =>
    obtain ⟨ha, hg⟩ := s.applyMove_agenda m
    obtain ⟨ha', hg'⟩ := ih (s.applyMove m)
    exact ⟨ha'.trans ha, hg'.trans hg⟩

/-- The other agents' moves before an event of a running operation. -/
theorem State.Terminal.tick (k : s.Terminal) (h : s.seq ≠ []) : s.tick.Terminal := by
  unfold State.tick
  split
  · exact k
  · next slot rest ha =>
    have kept := State.applyMoves_running (s := { s with agenda := rest }) h slot.moves
    obtain ⟨hagenda, hagain⟩ := State.applyMoves_agenda { s with agenda := rest } slot.moves
    exact (k.relined rest fun sl hsl m hm => ⟨sl, by simp [ha, hsl], hm⟩).keep (kept.notRevived hagenda hagain)

/-- On an idle block, too, only a reset brings the count down: no callback is scheduled (R180 step 2). -/
theorem State.Terminal.applyMove (k : s.Terminal) (hp : s.pendingClear = none) {m : EnvMove} (hm : ∀ v, m ≠ .reset v) :
    (s.applyMove m).Terminal := by
  obtain ⟨ha, hg⟩ := s.applyMove_agenda m
  cases hplain : m.plain
  · cases m with
    | timerFire =>
      rwa [State.applyMove, State.quietExpire, if_neg]
      rintro ⟨⟨d, hd, -⟩, -⟩
      cases hp.symm.trans hd
    | discover o =>
      simp only [State.applyMove, State.discover]
      split
      · cases o <;> exact k.keep
      · exact k
    | reset v => exact absurd rfl (hm v)
    | _ => cases hplain
  · obtain ⟨kept, -⟩ := s.applyMove_plain hplain
    exact k.keep (kept.notRevived ha hg)

end Terminal

/-! ### Operations that stay beyond the threshold -/

/-- An operation runs over `n` callers, and the block is beyond the threshold. -/
def TerminalAt (n : Nat) (s : State) : Prop := s.Terminal ∧ s.seq.length = n + 1

/-- Wherever the operation ends, the block stays beyond the threshold, and it has popped exactly what it pushed. -/
def Op.StaysTerminal {α : Type} (x : Op α) : Prop :=
  ∀ n, Op.Meets (TerminalAt n) x (fun _ => TerminalAt n) State.Terminal True

section Rules

variable {α β : Type} {x : Op α} {f : α → Op β}

theorem terminal_pure (a : α) : (pure a : Op α).StaysTerminal := fun _ => Op.meets_pure fun _ k => k

theorem Op.StaysTerminal.bind (hx : x.StaysTerminal) (hf : ∀ a, (f a).StaysTerminal) : (x >>= f).StaysTerminal :=
  fun n => (hx n).bind fun a => hf a n

/-- The state that a `get` returns is beyond the threshold as well. -/
theorem terminal_getBind {f : State → Op β} (hf : ∀ a : State, a.Terminal → (f a).StaysTerminal) :
    (get >>= f).StaysTerminal := fun n => Op.meets_getBind fun a ha => (hf a ha.1 n).pre fun _ k => k.1

theorem terminal_ite {c : Prop} [Decidable c] {y : Op α} (hx : x.StaysTerminal) (hy : y.StaysTerminal) :
    (if c then x else y).StaysTerminal := fun n => Op.meets_ite (fun _ => hx n) fun _ => hy n

theorem terminal_onlyIf {b : Bool} {y : Op Unit} (hy : y.StaysTerminal) : (onlyIf b y).StaysTerminal := fun n =>
  Op.meets_onlyIf fun _ => hy n

theorem terminal_throw (e : Stop) : (throw e : Op α).StaysTerminal := fun _ t k => by
  cases e
  · exact k.1
  · exact trivial

theorem terminal_update {g : State → State}
    (hg : ∀ s, NotRevived s (g s) ∧ (g s).seq.length = s.seq.length
      := by exact fun _ => ⟨⟨id, rfl, Nat.le_refl _, rfl, rfl⟩, rfl⟩) :
    (update g).StaysTerminal := fun _ => Op.meets_update fun s ⟨k, hl⟩ => by
  obtain ⟨h, hseq⟩ := hg s
  exact ⟨k.keep h, hseq.trans hl⟩

theorem terminal_updateBind {g : State → State} {f : PUnit → Op β} (hf : ∀ a, (f a).StaysTerminal)
    (hg : ∀ s, NotRevived s (g s) ∧ (g s).seq.length = s.seq.length
      := by exact fun _ => ⟨⟨id, rfl, Nat.le_refl _, rfl, rfl⟩, rfl⟩) :
    (update g >>= f).StaysTerminal := (terminal_update hg).bind hf

theorem terminal_atStep (n : Nat) : (atStep n).StaysTerminal :=
  terminal_update fun _ => ⟨⟨id, rfl, Nat.le_refl _, rfl, rfl⟩, List.length_modifyHead⟩

theorem terminal_access (e : TraceEvent) : (access e).StaysTerminal := fun n t ⟨k, hl⟩ => by
  have hne : t.seq ≠ [] := by rw [← List.length_pos_iff]; omega
  exact ⟨(k.tick hne).keep, (congrArg List.length (State.tick_running hne).seq).trans hl⟩

theorem terminal_call {op : OpName} (hx : x.StaysTerminal) : (call op x).StaysTerminal := fun n => by
  refine Op.meets_call ((hx (n + 1)).weaken ?_ ?_ fun _ k => k)
  · rintro _ ⟨u, ⟨k, hl⟩, rfl⟩
    exact ⟨k.keep, by simp [hl]⟩
  · rintro a t ⟨k, hl⟩
    exact ⟨k.keep, by simp [hl]⟩

end Rules

/-! ### The shared operations -/

section Shared

theorem terminal_regReadBit (r : Reg) (b : BitName) : (regReadBit r b).StaysTerminal :=
  (terminal_access _).bind fun _ => terminal_getBind fun _ _ => terminal_pure _

theorem terminal_regReadFlags : regReadFlags.StaysTerminal :=
  (terminal_access _).bind fun _ => terminal_getBind fun _ _ => terminal_pure _

theorem terminal_onChip (g : State → Chip → Chip) : (update fun s => s.onChip (g s)).StaysTerminal := terminal_update

theorem terminal_regWrite (r : Reg) (v : Word) : (regWrite r v).StaysTerminal :=
  (terminal_access _).bind fun _ => terminal_onChip _

theorem terminal_regSet (r : Reg) (bs : List BitName) : (regSet r bs).StaysTerminal :=
  terminal_getBind fun _ _ => (terminal_access _).bind fun _ => terminal_onChip _

theorem terminal_regClear (r : Reg) (bs : List BitName) : (regClear r bs).StaysTerminal :=
  terminal_getBind fun _ _ => (terminal_access _).bind fun _ => terminal_onChip _

theorem terminal_memRead (a n : Nat) : (memRead a n).StaysTerminal :=
  (terminal_access _).bind fun _ => terminal_getBind fun _ _ => terminal_ite (terminal_pure _) (terminal_throw _)

/-- A new state made of the one just read. -/
theorem terminal_set {a u : State} {n : Nat} (k : TerminalAt n a) {P : State → Prop}
    (h : NotRevived a u ∧ u.seq.length = a.seq.length := by exact ⟨⟨id, rfl, Nat.le_refl _, rfl, rfl⟩, rfl⟩) :
    Op.Meets P (set u : Op PUnit) (fun _ => TerminalAt n) State.Terminal True := fun _ _ =>
  ⟨k.1.keep h.1, h.2.trans k.2⟩

theorem terminal_memWrite (a : Nat) (bs : List Byte) : (memWrite a bs).StaysTerminal := fun n =>
  (terminal_access _ n).bind fun _ => Op.meets_getBind fun _ k => Op.meets_ite
    (fun _ => terminal_set k)
    fun _ => (terminal_throw _ n).pre fun _ k => k.1

theorem terminal_raise (y : Exn) (info : Info) : (raise y info).StaysTerminal :=
  terminal_update fun _ => ⟨by constructor <;> simp, by simp⟩

theorem terminal_release (c : List Chunk) : (release c).StaysTerminal := terminal_update

theorem terminal_alloc (cls : ChunkClass) : (alloc cls).StaysTerminal := fun n t ⟨k, hl⟩ => by
  obtain ⟨l, m, h⟩ := t.nextGrant_frame
  rw [alloc_run, h]
  exact ⟨k.keep, hl⟩

theorem terminal_resolve (dest : BitVec 32) (bs : List Byte) : (resolve dest bs).StaysTerminal := fun n t ⟨k, hl⟩ => by
  obtain ⟨l, m, h⟩ := t.nextAddress_frame
  rw [resolve_run, h]
  exact ⟨k.keep, hl⟩

theorem terminal_pollOrHold (r : Reg) (b : BitName) (want : Bool) (n : Nat) :
    (pollOrHold r b want n).StaysTerminal := by
  induction n with
  | zero => exact terminal_throw _
  | succ n ih => exact (terminal_regReadBit r b).bind fun _ => terminal_ite (terminal_pure _) ih

theorem terminal_pollOrFault (r : Reg) (b : BitName) (want : Bool) (n : Nat) :
    (pollOrFault r b want n).StaysTerminal := by
  induction n with
  | zero => exact (terminal_raise _ _).bind fun _ => terminal_pure _
  | succ n ih => exact (terminal_regReadBit r b).bind fun _ => terminal_ite (terminal_pure _) ih

theorem terminal_waitUntil (r : Reg) (b : BitName) (want : Bool) : (waitUntil r b want).StaysTerminal :=
  terminal_getBind fun s _ => by
    cases s.cfg.spinLimit with
    | none => exact (terminal_pollOrHold r b want _).bind fun _ => terminal_pure _
    | some k => exact terminal_pollOrFault r b want k

end Shared

/-! ### The watchdog and the bring-up -/

section Watchdog

/-- `RECOVER` counts, finds the count beyond the threshold, and disables: it never comes to its wait (R181). -/
theorem terminal_recoverBody : recoverBody.StaysTerminal :=
  (terminal_atStep _).bind fun _ => (terminal_regClear _ _).bind fun _ => (terminal_atStep _).bind fun _ =>
    terminal_updateBind fun _ => (terminal_atStep _).bind fun _ =>
    (terminal_update (g := State.countRecovery) fun _ => ⟨⟨id, rfl, Nat.le_succ _, rfl, rfl⟩, rfl⟩).bind fun _ =>
    (terminal_atStep _).bind fun _ =>
    terminal_getBind fun a ha => by
      rw [if_pos ha.beyond]
      exact (terminal_raise _ _).bind fun _ => terminal_update

/-- `INITIALIZE` finds the block initialized: it never comes to the bring-up (R213 step 3, R284). -/
theorem terminal_initialiseBody : initialiseBody.StaysTerminal :=
  (terminal_atStep _).bind fun _ => terminal_getBind fun a ha => by
    rw [ha.initialized]
    exact terminal_ite ((terminal_raise _ _).bind fun _ => terminal_pure _) ((terminal_atStep _).bind fun _ =>
      terminal_ite ((terminal_raise _ _).bind fun _ => terminal_pure _) ((terminal_atStep _).bind fun _ =>
        terminal_pure _))

theorem terminal_setFlagsBody (up : Bool) : (setFlagsBody up).StaysTerminal :=
  terminal_updateBind fun _ => terminal_getBind fun _ _ => terminal_ite
    ((terminal_call terminal_initialiseBody).bind fun _ => terminal_pure _) (terminal_pure _)

/-- The rest of a bring-up that was held. -/
theorem terminal_initialiseAfterReconcile : initialiseAfterReconcile.StaysTerminal :=
  terminal_getBind fun _ _ => (terminal_regWrite _ _).bind fun _ => (terminal_regSet _ _).bind fun _ =>
    terminal_update fun _ => ⟨⟨fun _ => rfl, rfl, Nat.le_refl _, rfl, rfl⟩, rfl⟩

end Watchdog

/-! ### The other operations -/

section Operations

theorem terminal_readWrapped (rounds rest : Nat) : (readWrapped rounds rest).StaysTerminal := by
  induction rounds generalizing rest with
  | zero => exact terminal_pure _
  | succ n ih =>
    exact terminal_ite (terminal_pure _) (terminal_getBind fun _ _ => (terminal_atStep _).bind fun _ =>
      (terminal_memRead _ _).bind fun _ => (ih _).bind fun _ => terminal_pure _)

theorem terminal_readBytesBody (n : Nat) : (readBytesBody n).StaysTerminal :=
  (terminal_atStep _).bind fun _ => terminal_getBind fun _ _ => (terminal_atStep _).bind fun _ =>
    (terminal_atStep _).bind fun _ => (terminal_memRead _ _).bind fun _ => (terminal_atStep _).bind fun _ =>
    (terminal_atStep _).bind fun _ => (terminal_readWrapped _ _).bind fun _ => (terminal_atStep _).bind fun _ =>
    terminal_updateBind fun _ => (terminal_atStep _).bind fun _ => terminal_pure _

theorem terminal_applyDuplex (full : Bool) : (applyDuplex full).StaysTerminal :=
  terminal_ite
    (terminal_getBind fun _ _ => (terminal_regSet _ _).bind fun _ => (terminal_regWrite _ _).bind fun _ =>
      terminal_regSet _ _)
    (terminal_getBind fun _ _ => (terminal_regClear _ _).bind fun _ => (terminal_regWrite _ _).bind fun _ =>
      (terminal_regClear _ _).bind fun _ => terminal_regClear _ _)

theorem terminal_reconcileBody : reconcileBody.StaysTerminal :=
  (terminal_atStep _).bind fun _ => (terminal_waitUntil _ _ _).bind fun _ => terminal_ite
    ((terminal_atStep _).bind fun _ => (terminal_regReadBit _ _).bind fun _ => (terminal_atStep _).bind fun _ =>
      (terminal_applyDuplex _).bind fun _ => terminal_atStep _) (terminal_pure _)

theorem terminal_pushTable : pushTable.StaysTerminal :=
  terminal_getBind fun _ _ => (terminal_regWrite _ _).bind fun _ => (terminal_regWrite _ _).bind fun _ =>
    (terminal_regWrite _ _).bind fun _ => terminal_regWrite _ _

theorem terminal_subscribeBody (a : MacAddr) : (subscribeBody a).StaysTerminal :=
  terminal_getBind fun _ _ => terminal_updateBind fun _ => terminal_pushTable

theorem terminal_unsubscribeBody (a : MacAddr) : (unsubscribeBody a).StaysTerminal :=
  terminal_getBind fun _ _ => terminal_ite (terminal_pure _) (terminal_updateBind fun _ => terminal_pushTable)

theorem terminal_setMulticastBody (a : MacAddr) (sub : Bool) : (setMulticastBody a sub).StaysTerminal :=
  terminal_ite (terminal_call (terminal_subscribeBody a)) (terminal_call (terminal_unsubscribeBody a))

theorem terminal_sendHead (pkt : Packet) : (sendHead pkt).StaysTerminal :=
  (terminal_atStep _).bind fun _ => terminal_updateBind fun _ => terminal_getBind fun _ _ =>
    (terminal_atStep _).bind fun _ => terminal_ite ((terminal_release _).bind fun _ => terminal_raise _ _)
    ((terminal_atStep _).bind fun _ => (terminal_memWrite _ _).bind fun _ => (terminal_atStep _).bind fun _ =>
      (terminal_release _).bind fun _ => (terminal_atStep _).bind fun _ => (terminal_regWrite _ _).bind fun _ =>
      (terminal_atStep _).bind fun _ => terminal_regSet _ _)

theorem terminal_kickBody : kickBody.StaysTerminal :=
  (terminal_atStep _).bind fun _ => (terminal_regReadBit _ _).bind fun _ => terminal_ite (terminal_pure _)
    ((terminal_atStep _).bind fun _ => terminal_getBind fun s _ => by
      cases s.sendq with
      | nil => exact terminal_pure _
      | cons pkt _ => exact terminal_sendHead pkt)

theorem terminal_enqueue (pkt : Packet) : (enqueue pkt).StaysTerminal :=
  terminal_getBind fun _ _ => terminal_ite
    ((terminal_release _).bind fun _ => (terminal_raise _ _).bind fun _ => terminal_pure _)
    (terminal_updateBind fun _ => terminal_pure _)

theorem terminal_enqueueAndKickBody (pkt : Packet) : (enqueueAndKickBody pkt).StaysTerminal :=
  (terminal_atStep _).bind fun _ => (terminal_enqueue pkt).bind fun _ => (terminal_atStep _).bind fun _ =>
    (terminal_call terminal_kickBody).bind fun _ => (terminal_atStep _).bind fun _ => terminal_pure _

theorem terminal_transmitBody (f : Bool) (p : Word) (d : BitVec 32) (bs : List Byte) :
    (transmitBody f p d bs).StaysTerminal :=
  (terminal_atStep _).bind fun _ => terminal_getBind fun _ _ => terminal_ite
    ((terminal_release _).bind fun _ => (terminal_raise _ _).bind fun _ => terminal_pure _)
    ((terminal_atStep _).bind fun _ => terminal_ite
      ((terminal_atStep _).bind fun _ => terminal_call (terminal_enqueueAndKickBody _))
      ((terminal_resolve _ _).bind fun hw => by
        cases hw with
        | none => exact terminal_pure _
        | some hw => exact (terminal_atStep _).bind fun _ => terminal_call (terminal_enqueueAndKickBody _)))

theorem terminal_failValidation (y : Exn) (info : Nat) : (failValidation y info).StaysTerminal :=
  (terminal_raise _ _).bind fun _ => (terminal_call terminal_recoverBody).bind fun _ => terminal_pure _

theorem terminal_failAllocation (chunks : List Chunk) : (failAllocation chunks).StaysTerminal :=
  (terminal_onlyIf (terminal_release _)).bind fun _ => (terminal_raise _ _).bind fun _ => terminal_pure _

theorem terminal_copyPayload (rounds remaining : Nat) (chunks : List Chunk) :
    (copyPayload rounds remaining chunks).StaysTerminal := by
  induction rounds generalizing remaining chunks with
  | zero => exact terminal_pure _
  | succ n ih =>
    exact terminal_ite (terminal_pure _) (terminal_getBind fun _ _ => (terminal_alloc _).bind fun _ => terminal_ite
      ((terminal_call (terminal_readBytesBody _)).bind fun _ => ih _ _) (terminal_failAllocation _))

theorem terminal_buildPacket (n : Nat) : (buildPacket n).StaysTerminal :=
  (terminal_atStep _).bind fun _ => terminal_getBind fun _ _ => (terminal_alloc _).bind fun _ => terminal_ite
    ((terminal_call (terminal_readBytesBody _)).bind fun _ => (terminal_atStep _).bind fun _ =>
      terminal_copyPayload _ _ _) (terminal_failAllocation _)

theorem terminal_releaseRing (next : Nat) : (releaseRing next).StaysTerminal :=
  (terminal_atStep _).bind fun _ => terminal_getBind fun _ _ => (terminal_regWrite _ _).bind fun _ => terminal_update

theorem terminal_receiveOneBody : receiveOneBody.StaysTerminal :=
  (terminal_atStep _).bind fun _ => terminal_getBind fun _ _ => terminal_ite (terminal_failValidation _ _)
    ((terminal_atStep _).bind fun _ => (terminal_call (terminal_readBytesBody _)).bind fun _ =>
      (terminal_atStep _).bind fun _ => terminal_ite (terminal_failValidation _ _)
      ((terminal_atStep _).bind fun _ => terminal_ite (terminal_failValidation _ _)
        ((terminal_buildPacket _).bind fun _ => (terminal_releaseRing _).bind fun _ => terminal_pure _)))

theorem terminal_deliverReceived (r : Option Packet) : (deliverReceived r).StaysTerminal := by
  cases r with
  | none => exact terminal_pure _
  | some pkt => exact terminal_getBind fun _ _ => terminal_updateBind fun _ => terminal_update

theorem terminal_packetLoop : packetLoop.StaysTerminal := terminal_getBind fun s _ => by
  generalize s.pktRounds = n
  induction n with
  | zero => exact terminal_pure _
  | succ n ih =>
    exact terminal_getBind fun _ _ => terminal_ite (terminal_throw _) ((terminal_regReadBit _ _).bind fun _ =>
      terminal_ite ((terminal_regSet _ _).bind fun _ => (terminal_call terminal_receiveOneBody).bind fun _ =>
        (terminal_deliverReceived _).bind fun _ => ih) (terminal_pure _))

theorem terminal_handleTransmit (f : IFlags) : (handleTransmit f).StaysTerminal :=
  (terminal_atStep _).bind fun _ =>
    (terminal_onlyIf (terminal_updateBind fun _ => terminal_regClear _ _)).bind fun _ =>
    (terminal_onlyIf (terminal_updateBind fun _ => terminal_regClear _ _)).bind fun _ =>
    terminal_getBind fun _ _ => terminal_onlyIf (terminal_call terminal_kickBody)

theorem terminal_handleOverflow : handleOverflow.StaysTerminal :=
  (terminal_atStep _).bind fun _ => terminal_updateBind fun _ => terminal_regClear _ _

theorem terminal_dispatchRest (f : IFlags) : (dispatchRest f).StaysTerminal :=
  (terminal_onlyIf (terminal_handleTransmit f)).bind fun _ => (terminal_onlyIf terminal_handleOverflow).bind fun _ =>
    (terminal_onlyIf ((terminal_atStep _).bind fun _ => terminal_packetLoop)).bind fun _ => terminal_atStep _

theorem terminal_dispatchAfterReconcile (f : IFlags) : (dispatchAfterReconcile f).StaysTerminal :=
  (terminal_regClear _ _).bind fun _ => terminal_dispatchRest f

theorem terminal_dispatchBody : dispatchBody.StaysTerminal :=
  terminal_regReadFlags.bind fun f =>
    (terminal_update (g := (·.setSnapshot f)) fun _ =>
      ⟨⟨id, rfl, Nat.le_refl _, rfl, rfl⟩, List.length_modifyHead⟩).bind fun _ =>
    terminal_ite ((terminal_atStep _).bind fun _ => (terminal_call terminal_reconcileBody).bind fun _ =>
      terminal_dispatchAfterReconcile f) (terminal_dispatchRest f)

theorem terminal_regReadBody (r : Reg) : (regReadBody r).StaysTerminal := fun n =>
  (terminal_access _ n).bind fun _ => Op.meets_getBind fun _ k => (terminal_set k).bind fun _ => terminal_pure _ n

end Operations

end Sys2Proof.Machine
end

section
/-! SUPPORT. The body of every command, and from the operations to the steps of a block beyond the threshold. -/

namespace Sys2Proof.Machine

/-! ### The body of a command -/

/-- What a command does between its beginning and its end, once it is not turned away. -/
def commandBody : Instr → Op Result
  | .regRead r => regReadBody r
  | .regWrite r v => do regWrite r v; return .unit
  | .regSetBits r mask => do regSetMask r mask; return .unit
  | .regClearBits r mask => do regClearMask r mask; return .unit
  | .readBytes n => do return .bytes (← readBytesBody n.toNat)
  | .receiveOne => do return .packet (← receiveOneBody)
  | .enqueueAndKick bytes => enqueueAndKickBody (flatPacket bytes)
  | .kick => do kickBody; return .unit
  | .dispatch => do dispatchBody; return .unit
  | .recover => do recoverBody; return .unit
  | .subscribe a => do subscribeBody a; return .unit
  | .unsubscribe a => do unsubscribeBody a; return .unit
  | .hash a => do return .bucket (hashOf (← get).cfg.crcVariant a)
  | .reconcile => do reconcileBody; return .unit
  | .initialise => initialiseBody
  | .transmit f p d bs => transmitBody f p d bs
  | .setMulticast a sub => do setMulticastBody a sub; return .unit
  | .setFlags up => setFlagsBody up
  | .getStatus => do return .status (← get).status

/-- A command of an idle block is turned away, or runs its body. -/
theorem exec_runs_body {s t : State} {i : Instr} (hs : s.seq = []) (h : exec i s = .next t) :
    TurnedAway s t ∨ ∃ op, runCommand op (commandBody i) s = .next t := by
  have probed : ∀ {op : OpName} {body : Op Result}, runProbed op body s = .next t →
      TurnedAway s t ∨ ∃ op, runCommand op body s = .next t := fun {op body} h => by
    cases hp : s.ctx.probed
    · rw [runProbed_unprobed hs hp] at h
      cases h
      exact .inl ⟨_, _, rfl⟩
    · exact .inr ⟨op, runProbed_probed hp ▸ h⟩
  have packet : ∀ {op : OpName} {pkt : Packet} {body : Op Result}, runProbedPacket op pkt body s = .next t →
      TurnedAway s t ∨ ∃ op, runCommand op body s = .next t := fun {op pkt body} h => by
    cases hp : s.ctx.probed
    · rw [runProbedPacket_unprobed hs hp] at h
      cases h
      exact .inl ⟨_, _, rfl⟩
    · exact .inr ⟨op, runProbedPacket_probed hp ▸ h⟩
  cases i with
  | readBytes n =>
    simp only [exec, execReadBytes] at h
    split at h
    · cases h
      exact .inl ⟨_, _, rfl⟩
    · exact probed h
  | enqueueAndKick bytes => exact packet h
  | transmit f p d bs => exact packet h
  | initialise => exact .inr ⟨_, h⟩
  | _ => exact probed h

theorem terminal_body (i : Instr) : (commandBody i).StaysTerminal := by
  have returning : ∀ {α : Type} {x : Op α} {f : α → Result}, x.StaysTerminal →
      (do let a ← x; return f a : Op Result).StaysTerminal := fun hx => hx.bind fun _ => terminal_pure _
  have direct : ∀ {e : TraceEvent} {g : State → Chip → Chip},
      (do access e; update fun s => s.onChip (g s) : Op Unit).StaysTerminal :=
    (terminal_access _).bind fun _ => terminal_onChip _
  cases i with
  | regRead r => exact terminal_regReadBody r
  | regWrite r v => exact returning (terminal_regWrite r v)
  | regSetBits r mask => exact returning direct
  | regClearBits r mask => exact returning direct
  | readBytes n => exact returning (terminal_readBytesBody _)
  | receiveOne => exact returning terminal_receiveOneBody
  | enqueueAndKick bytes => exact terminal_enqueueAndKickBody _
  | kick => exact returning terminal_kickBody
  | dispatch => exact returning terminal_dispatchBody
  | recover => exact returning terminal_recoverBody
  | subscribe a => exact returning (terminal_subscribeBody a)
  | unsubscribe a => exact returning (terminal_unsubscribeBody a)
  | hash a => exact terminal_getBind fun _ _ => terminal_pure _
  | reconcile => exact returning terminal_reconcileBody
  | initialise => exact terminal_initialiseBody
  | transmit f p d bs => exact terminal_transmitBody f p d bs
  | setMulticast a sub => exact returning (terminal_setMulticastBody a sub)
  | setFlags up => exact terminal_setFlagsBody up
  | getStatus => exact terminal_getBind fun _ _ => terminal_pure _

/-! ### Commands, activations and resumptions -/

section Steps

variable {s t : State}

theorem State.Terminal.finish (k : s.Terminal) (r : Result) : (s.finish r).Terminal := by
  unfold State.finish
  split <;> exact k.keep

/-- A body with its end, from a state of its precondition. -/
theorem terminal_of_meets {α : Type} {P : State → Prop} {x : Op α} {r : α → Result}
    (hx : Op.Meets P x (fun _ => State.Terminal) State.Terminal True) (hs : P s)
    (h : outcomeOf ((do let a ← x; update (·.finish (r a)) : Op Unit) s) = .next t) : t.Terminal := by
  have k := hx s hs
  rw [op_bind] at h
  cases hrun : x s with
  | ok a u =>
    rw [hrun] at h k
    cases h
    exact k.finish _
  | error e u =>
    rw [hrun] at h k
    cases e
    · cases h
      exact k
    · cases h

theorem State.Terminal.runCommand (k : s.Terminal) {op : OpName} {body : Op Result} (hb : body.StaysTerminal)
    (h : runCommand op body s = .next t) : t.Terminal := by
  unfold Machine.runCommand at h
  split at h
  · exact terminal_of_meets (r := id) ((hb 0).post fun _ _ k => k.1)
      ⟨k.keep (t := s.beginCommand op), rfl⟩ h
  · cases h

/-- A command turned away leaves all of this alone. -/
theorem TurnedAway.terminal (h : TurnedAway s t) (k : s.Terminal) : t.Terminal := by
  obtain ⟨trace, result, rfl⟩ := h
  exact k.keep

theorem State.Terminal.acceptCommand (k : s.Terminal) (hs : s.seq = []) {words : List Word}
    (h : acceptCommand words s = .next t) : t.Terminal := by
  unfold Machine.acceptCommand at h
  split at h
  · rcases exec_runs_body hs h with h | ⟨op, h⟩
    · exact h.terminal k
    · exact k.runCommand (terminal_body _) h
  · cases h
    exact (show TurnedAway s _ from ⟨_, _, rfl⟩).terminal k

theorem State.Terminal.activate (k : s.Terminal) (h : activate s = .next t) : t.Terminal :=
  terminal_of_meets (r := fun _ => .unit) ((terminal_dispatchBody 0).post fun _ _ k => k.1)
    ⟨k.keep (t := s.beginInterrupt), rfl⟩ h

/-- A frame that is not of `RECOVER` goes on beyond the threshold. -/
theorem terminal_resumeFrame {fr : Frame} (hr : fr.op ≠ .recover) : (resumeFrame fr).StaysTerminal := by
  fun_cases resumeFrame fr
  case case1 h => exact absurd h hr
  case case2 => exact terminal_reconcileBody
  case case6 => exact terminal_dispatchAfterReconcile _
  case case7 => exact terminal_packetLoop.bind fun _ => terminal_atStep _
  case case8 => exact terminal_initialiseAfterReconcile.bind fun _ => terminal_atStep _
  case case10 => exact terminal_throw _
  all_goals exact terminal_pure _

theorem terminal_resumeFrames (l : List Frame) (hl : ∀ fr ∈ l, fr.op ≠ .recover) :
    Op.Meets (fun t => t.Terminal ∧ t.seq.length = l.length) (resumeFrames l) (fun _ => State.Terminal) State.Terminal
      True := by
  induction l with
  | nil => exact Op.meets_pure fun _ k => k.1
  | cons fr l ih =>
    refine Op.Meets.bind (terminal_resumeFrame (hl fr (by simp)) l.length) fun _ => Op.Meets.bind
      (Q := fun _ t => t.Terminal ∧ t.seq.length = l.length) (Op.meets_update fun t ⟨k, hlen⟩ => ?_)
      fun _ => ih fun fr' h => hl fr' (List.mem_cons_of_mem _ h)
    exact ⟨k.keep, by simp [hlen]⟩

/-- Only the top frame of a held operation can be a `RECOVER`. -/
theorem HeldShape.op_ne_recover {q : List Frame} {c : Context} (h : HeldShape q c)
    (hr : q.head?.map (·.op) ≠ some .recover) : ∀ fr ∈ q, fr.op ≠ .recover := by
  cases h <;> simp at hr ⊢

/-- A disabled block is held in no `RECOVER` (R182). -/
theorem State.Inv.op_ne_recover (hi : s.Inv) (hw : s.wdState = .disabled) : ∀ fr ∈ s.seq, fr.op ≠ .recover := by
  have hr : ¬ s.inRecover := fun k => by cases hw.symm.trans (hi.recovering.2 k)
  by_cases hs : s.seq = []
  · simp [hs]
  · obtain ⟨-, -, c, -, ⟨hshape, -⟩ | ⟨f, hshape⟩⟩ := hi.held hs
    · exact hshape.op_ne_recover hr
    · simp [hshape]

theorem State.Terminal.resume (k : s.Terminal) (hr : ∀ fr ∈ s.seq, fr.op ≠ .recover) (h : resume s = .next t) :
    t.Terminal :=
  terminal_of_meets (r := fun _ => resumedResult s.seq) (terminal_resumeFrames s.seq hr) ⟨k, rfl⟩ h

/-! ### Every step -/

theorem State.Terminal.blockTurn (k : s.Terminal) (hs : s.seq = []) {pick : Pick} (h : blockTurn pick s = .next t) :
    t.Terminal := by
  unfold Machine.blockTurn at h
  split at h
  · exact k.activate h
  next words rest _ _ => exact (k.keep (t := { s with port := rest })).acceptCommand hs h
  · exact k.activate h
  · cases h
    exact k

theorem State.Terminal.idleStep (k : s.Terminal) (hs : s.seq = []) (hp : s.pendingClear = none)
    (h : idleStep s = .next t) : t.Terminal := by
  unfold Machine.idleStep at h
  split at h
  · exact k.blockTurn hs h
  next pick rest ha =>
    exact (k.relined rest fun slot hslot m hm => ⟨slot, by simp [ha, hslot], hm⟩).blockTurn hs h
  next m ms pick rest ha =>
    cases h
    refine (k.relined (⟨ms, pick⟩ :: rest) fun slot hslot m' hm' => ?_).applyMove hp
      (k.noReset ⟨m :: ms, pick⟩ (by simp [ha]) m (by simp))
    rcases List.mem_cons.1 hslot with rfl | hslot
    · exact ⟨⟨m :: ms, pick⟩, by simp [ha], List.mem_cons_of_mem _ hm'⟩
    · exact ⟨slot, by simp [ha, hslot], hm'⟩

theorem State.Terminal.step (k : s.Terminal) (hi : s.Inv) (hw : s.wdState = .disabled) (h : step s = .next t) :
    t.Terminal := by
  unfold Machine.step at h
  split at h
  · exact k.rearm.resume (hi.op_ne_recover hw) h
  next hs => exact k.rearm.idleStep hs (hi.unscheduled (by rw [hw]; decide)) h

end Steps

/-- Settles O58: the step stays beyond the threshold (`State.Terminal.step`), and by the invariant of every step that is
to be disabled. -/
theorem disabledIsTerminal : Obligations.DisabledIsTerminal := by
  intro s t hi hinit hw hn ht
  obtain ⟨u, hu, hi'⟩ := stepKeepsInvariant s hi
  cases hu.symm.trans ht
  have k : t.Terminal := State.Terminal.step ⟨hinit, hi.disabled.1 hw, hn⟩ hi hw ht
  exact ⟨hi'.disabled.2 k.beyond, k.initialized, k.noReset⟩

end Sys2Proof.Machine
end

section
/-! SUPPORT. The statements about the multicast table (spec/46_multicast_filter.md): `HASH` and its CRC, and the two
commands that change a bucket's count and push the table. Each command is its accesses (`Traced`). -/

namespace Sys2Proof.Machine

/-! ### A command whose accesses are known -/

/-- Such a command, from its beginning to its end (R29). -/
theorem runProbed_traced {s u : State} {op : OpName} {body : Op Result} {r : Result} {es : List TraceEvent}
    (h : s.Ready) (hx : Traced body s r u es) (hq : u.seq = s.seq) (hi : u.ipl = s.ipl) :
    runProbed op body s = .next { u.answered r with trace := es ++ s.trace } := by
  have ⟨⟨hidle, hagenda, _⟩, hprobed⟩ := h
  obtain ⟨n, _, hrun, rfl⟩ := (hx hagenda).2 op 0 none [] ⟨.device, s.ipl, some .request, none⟩ s.trace
  have hbody : body (s.beginCommand op) = _ := hrun
  rw [runProbed_probed hprobed, runCommand_run hidle, hbody, ← State.idleAgain_eq hidle hq hi]
  rfl

/-- A body that answers nothing but that it has ended. -/
theorem Traced.returning {s u : State} {x : Op Unit} {es : List TraceEvent} (hx : Traced x s () u es) :
    Traced (do x; return Result.unit) s Result.unit u es :=
  hx.bind (f := fun _ => pure Result.unit) traced_pure

/-! ### `HASH` (R195) -/

/-- The bucket is all that the command computes; nothing of the state moves. -/
theorem exec_hash {s : State} (h : s.Ready) (a : MacAddr) :
    exec (.hash a) s = .next (s.answered (.bucket (hashOf s.cfg.crcVariant a))) :=
  have hbody : Traced (do return Result.bucket (hashOf (← get).cfg.crcVariant a)) s _ s [] :=
    logs_get traced_pure fun _ _ _ => rfl
  runProbed_traced h hbody rfl rfl

theorem hashOf_of_crc {v : CrcVariant} {a : MacAddr} {crc : BitVec 32} (h : crcVariant v (macBytes a) = crc) :
    hashOf v a = (crc.extractLsb' 23 6).toFin := h ▸ rfl

/-- Bits 28 to 23 of the CRC, as arithmetic. -/
theorem val_hashOf (v : CrcVariant) (a : MacAddr) :
    (hashOf v a).val = (crcVariant v (macBytes a)).toNat / 2 ^ 23 % 64 := by
  simp [hashOf_of_crc rfl, Nat.shiftRight_eq_div_pow]

/-- A word of 32 bits is bit-reversed bit by bit. -/
theorem reverse_eq_of_bits {x y : BitVec 32} (h : ∀ i : Fin 32, x.getMsbD i = y.getLsbD i) : x.reverse = y :=
  BitVec.eq_of_getLsbD_eq fun i hi => (BitVec.getLsbD_reverse ..).trans (h ⟨i, hi⟩)

/-- The constant of the rule's loop is `CRC_POLY` bit-reversed. -/
theorem reverse_crcPoly : crcPoly.reverse = 0xEDB88320 := reverse_eq_of_bits (by decide)

/-- The CRC as the rule's loop writes it. -/
theorem crc32_eq_foldl (bytes : List Byte) :
    crc32 bytes = bytes.foldl (fun crc b => Nat.repeat
        (fun c => if c.getLsbD 0 then (c >>> 1) ^^^ 0xEDB88320 else c >>> 1) 8 (crc ^^^ b.setWidth 32)) 0xFFFFFFFF
      ^^^ 0xFFFFFFFF := by
  rw [← reverse_crcPoly]
  rfl

/-- The CRC of an address gives the rest of its row in GK4. -/
theorem row_of_crc32 {a : MacAddr} {crc other : BitVec 32} (hcrc : crc32 (macBytes a) = crc)
    (hother : ∀ i : Fin 32, (~~~ crc).getMsbD i = other.getLsbD i) :
    crcVariant .frameChecksum (macBytes a) = crc ∧ hashOf .frameChecksum a = (crc.extractLsb' 23 6).toFin
      ∧ crcVariant .controllerHash (macBytes a) = other
      ∧ hashOf .controllerHash a = (other.extractLsb' 23 6).toFin := by
  have hreverse : crcVariant .controllerHash (macBytes a) = other :=
    (congrArg (fun c => (~~~ c).reverse) hcrc).trans (reverse_eq_of_bits hother)
  exact ⟨hcrc, hashOf_of_crc hcrc, hreverse, hashOf_of_crc hreverse⟩

/-- Settles O38: the command computed (`exec_hash`), its CRC written as the rule's loop (`crc32_eq_foldl`), and that
loop run on the nine digits and on the seven addresses, whose CRC gives the row (`row_of_crc32`). -/
theorem hashResult : Obligations.HashResult := by
  refine ⟨fun s a h => ⟨_, exec_hash h a, rfl, val_hashOf _ a⟩, fun bytes => ⟨crc32_eq_foldl bytes, rfl⟩, ?_,
    fun row hrow => ?_⟩
  · refine (crc32_eq_foldl _).trans ?_
    simp [Nat.repeat]
  · fin_cases hrow <;> refine row_of_crc32 ((crc32_eq_foldl _).trans ?_) (by decide) <;> simp [macBytes, Nat.repeat]

/-! ### The table (R197, R199) -/

/-- The four writes of `PushTable` for the counts `r`, newest first. -/
def pushTrace (r : Vector Nat 64) : List TraceEvent :=
  [.regWrite .ht3 (hashWord r 3), .regWrite .ht2 (hashWord r 2), .regWrite .ht1 (hashWord r 1),
    .regWrite .ht0 (hashWord r 0)]

section Table

variable {s : State} {k : Fin 64} {n : Nat}

theorem traced_pushTable : Traced pushTable s () s.pushed (pushTrace s.ctx.multicastRefcount) :=
  logs_get (Traced.to ((traced_regWrite _ _).bind ((traced_regWrite _ _).bind ((traced_regWrite _ _).bind
    (traced_regWrite _ _)))) (by simp only [State.pushed, State.onChip, Chip.writeWord]) rfl) fun _ _ _ => rfl

theorem State.tableSound_pushed (s : State) : s.pushed.TableSound :=
  State.tableSound_of_words fun g => by fin_cases g <;> rfl

/-- Bucket `k` counts `n`, and the table has been pushed. -/
def State.recounted (s : State) (k : Fin 64) (n : Nat) : State :=
  { (s.setRefcount k n).pushed with trace := pushTrace (s.setRefcount k n).ctx.multicastRefcount ++ s.trace }

/-- The change of a count that both commands make. -/
theorem traced_recount (k : Fin 64) (n : Nat) : Traced (do update (·.setRefcount k n); pushTable) s ()
    (s.setRefcount k n).pushed (pushTrace (s.setRefcount k n).ctx.multicastRefcount) :=
  (traced_update (fun _ _ _ => rfl) rfl).then traced_pushTable

theorem State.getElem_recounted (s : State) (k : Fin 64) (n : Nat) (j : Fin 64) :
    (s.recounted k n).ctx.multicastRefcount[j] = if k = j then n else s.ctx.multicastRefcount[j] := by
  show (s.ctx.multicastRefcount.set k n)[j.val] = _
  simp [Vector.getElem_set, Fin.ext_iff]

/-- What a changed and pushed count shows: the four registers, their writes in order, the counts, and each bit. -/
theorem exists_recounted {o : Host.Outcome State Fault Refusal} (ho : o = .next ((s.recounted k n).answered .unit)) :
    ∃ c v, o = .next { s.answered .unit with
        ctx := { s.ctx with multicastRefcount := v }
        chip := { s.chip with ht0 := c.ht0, ht1 := c.ht1, ht2 := c.ht2, ht3 := c.ht3 }
        trace := [.regWrite .ht3 c.ht3, .regWrite .ht2 c.ht2, .regWrite .ht1 c.ht1, .regWrite .ht0 c.ht0] ++ s.trace }
      ∧ v[k] = n
      ∧ (∀ j : Fin 64, j ≠ k → v[j] = s.ctx.multicastRefcount[j])
      ∧ ∀ j : Fin 64, (Chip.hashReg c ⟨j.val / 16, by omega⟩).getLsbD (j.val % 16) = decide (0 < v[j]) :=
  ⟨(s.recounted k n).chip, (s.recounted k n).ctx.multicastRefcount, ho,
    (s.getElem_recounted k n k).trans (if_pos rfl),
    fun j hj => (s.getElem_recounted k n j).trans (if_neg hj.symm),
    (s.setRefcount k n).tableSound_pushed⟩

end Table

/-! ### `SUBSCRIBE` and `UNSUBSCRIBE` (R196, R198) -/

section Commands

variable {s : State}

theorem exec_subscribe (h : s.Ready) (a : MacAddr) : exec (.subscribe a) s = .next ((s.recounted
    (hashOf s.cfg.crcVariant a) (s.ctx.multicastRefcount[hashOf s.cfg.crcVariant a] + 1)).answered .unit) :=
  have hbody : Traced (subscribeBody a) s () _ _ := logs_get (traced_recount _ _) fun _ _ _ => rfl
  runProbed_traced h hbody.returning rfl rfl

/-- A bucket at 0 is left alone (R198). -/
theorem exec_unsubscribe_zero (h : s.Ready) {a : MacAddr}
    (h0 : s.ctx.multicastRefcount[hashOf s.cfg.crcVariant a] = 0) :
    exec (.unsubscribe a) s = .next (s.answered .unit) :=
  have hbody : Traced (unsubscribeBody a) s () s [] :=
    logs_get (by rw [if_pos h0]; exact traced_pure) fun _ _ _ => rfl
  have hrun := runProbed_traced (op := .unsubscribe) h hbody.returning rfl rfl
  hrun

theorem exec_unsubscribe_pos (h : s.Ready) {a : MacAddr}
    (hpos : 0 < s.ctx.multicastRefcount[hashOf s.cfg.crcVariant a]) : exec (.unsubscribe a) s = .next ((s.recounted
      (hashOf s.cfg.crcVariant a) (s.ctx.multicastRefcount[hashOf s.cfg.crcVariant a] - 1)).answered .unit) :=
  have hbody : Traced (unsubscribeBody a) s () _ _ :=
    logs_get (by rw [if_neg (Nat.ne_of_gt hpos)]; exact traced_recount _ _) fun _ _ _ => rfl
  runProbed_traced h hbody.returning rfl rfl

end Commands

/-- Settles O39: the command computed (`exec_subscribe`), and what a changed and pushed count shows
(`exists_recounted`). -/
theorem subscribeResult : Obligations.SubscribeResult := fun _ a h => exists_recounted (exec_subscribe h a)

/-- Settles O40: the two cases of the bucket's count (`exec_unsubscribe_zero`, `exec_unsubscribe_pos`). -/
theorem unsubscribeResult : Obligations.UnsubscribeResult := fun _ _ h =>
  ⟨exec_unsubscribe_zero h, fun hpos => exists_recounted (exec_unsubscribe_pos h hpos)⟩

end Sys2Proof.Machine
end

section
/-! SUPPORT. The statement about `RECONCILE` (spec/47_link_state_manager.md). -/

namespace Sys2Proof.Machine

/-- `RECONCILE` whose wait is met: the settings and the accesses of the duplex it has read (R205). -/
theorem exec_reconcile {s : State} (h : s.Ready) (hb : s.chip.fcidle = true) (hl : s.cfg.spinLimit ≠ some 0) :
    exec .reconcile s = .next { s.answered .unit with
      chip := s.duplexSettings
      trace := s.duplexTrace ++ [.regRead .stat, .regRead .stat] ++ s.trace } :=
  runProbed_traced h (traced_reconcileBody hb hl).returning rfl rfl

/-- Settles O41: the command computed (`exec_reconcile`), for each duplex that the chip can report. -/
theorem reconcileResult : Obligations.ReconcileResult := by
  refine fun s h hb hl => ⟨fun hfull => ?_, fun hhalf => ?_⟩
  · rw [exec_reconcile h hb hl, State.duplexSettings, State.duplexTrace, if_pos hfull, if_pos hfull]
    rfl
  · have hnot : ¬s.chip.phydpx = true := by simp [hhalf]
    rw [exec_reconcile h hb hl, State.duplexSettings, State.duplexTrace, if_neg hnot, if_neg hnot]
    rfl

end Sys2Proof.Machine
end

section
/-! SUPPORT. The statements about the host's calls (spec/48_host_interface.md): the card that is not probed, the
bring-up, and the four commands that end in another operation of the block or answer at once. -/

namespace Sys2Proof.Machine

/-! ### How such a command ends -/

section Ends

variable {s u : State} {op : OpName} {body : Op Result} {r : Result} {out : List TraceEvent}

/-- A command that goes on from where its body ends, and answers (R29). -/
theorem runCommand_answers (h : s.Alone) (hx : Runs body s r u out) (hq : u.seq = s.seq) (hi : u.ipl = s.ipl) :
    Completes (runCommand op body s) s (u.answered r) out :=
  (runCommand_ends h hx).to (congrArg (fun v => (State.answered r v).untraced) (State.idleAgain_eq h.1 hq hi)) rfl

/-- What is known access by access is known of the output events. -/
theorem Traced.runs {α : Type} {x : Op α} {a : α} {es : List TraceEvent} (h : Traced x s a u es) :
    Runs x s a u (outputs es) := fun hs =>
  ⟨(h hs).1, fun op k snap q g tr => by
    obtain ⟨n, e, hrun, rfl⟩ := (h hs).2 op k snap q g tr
    exact ⟨n, e, hrun, rfl⟩⟩

/-- A command whose body is another operation, called, ends as that operation's own command does (R28). -/
theorem exists_next_call {inner : OpName} {x : Op Unit} {es : List TraceEvent} (h : s.Ready) (hx : Traced x s () u es)
    (hq : u.seq = s.seq) (hi : u.ipl = s.ipl) : ∃ t, runProbed op (do call inner x; return .unit) s = .next t
      ∧ runProbed inner (do x; return .unit) s = .next t :=
  have hcall : Traced (call inner x) s () u es := Logs.call hx
  ⟨_, runProbed_traced h hcall.returning hq hi, runProbed_traced h hx.returning hq hi⟩

end Ends

/-! ### The card that is not probed (R250, R261, R281) -/

section Unprobed

variable {s : State} (hs : s.seq = []) (hp : s.ctx.probed = false)
include hs hp

/-- Every command but `INITIALIZE`, whose guard is a step of its own, is turned away before it begins. -/
theorem exec_unprobed {i : Instr} (hi : i ≠ .initialise) : exec i s = .next { s with
    result := some (.err .notProbed)
    trace := .raised .notProbed .none
      :: ((i.packetBytes.map (fun bytes => TraceEvent.release (flatPacket bytes))).toList ++ s.trace) } := by
  cases i with
  | initialise => exact absurd rfl hi
  | enqueueAndKick bytes => exact runProbedPacket_unprobed hs hp
  | transmit framed ptype dest bytes => exact runProbedPacket_unprobed hs hp
  | readBytes n =>
    have hguard : ¬ (s.seq = [] ∧ s.ctx.probed = true ∧ ¬ InRing s.cfg.toParams s.ctx.rxReadPointer.toNat) := by
      simp [hp]
    rw [exec, execReadBytes, if_neg hguard]
    exact runProbed_unprobed hs hp
  | _ => exact runProbed_unprobed hs hp

/-- `INITIALIZE` ends at its first step (R213). -/
theorem completes_initialise_unprobed :
    Completes (exec .initialise s) s (s.answered (.err .notProbed)) [.raised .notProbed .none] := by
  have hbody : Quiet initialiseBody (s.beginCommand .initialise) (.err .notProbed) (s.beginCommand .initialise)
      [.raised .notProbed .none] :=
    (quiet_atStep 1).then fun _ _ => quiet_get.then fun _ _ => quiet_ite_pos hp
      ((quiet_raise .notProbed .none).bind (out' := []) fun _ _ => quiet_pure)
  refine (completes_runCommand hs hbody rfl).to ?_ rfl
  simp [State.untraced, State.endCommand, State.beginCommand, State.answered, hs]

end Unprobed

/-! ### `INITIALIZE` (R213) -/

section Initialise

variable {s : State}

/-- The settings of the duplex, field by field (R205 step 3). -/
theorem State.duplexSettings_eq (s : State) : s.duplexSettings = { s.chip with
    fuldpx := s.chip.phydpx
    ipg := if s.chip.phydpx then s.cfg.ipgFull else s.cfg.ipgHalf
    autofc := s.chip.phydpx
    fcassert := s.chip.phydpx && s.chip.fcassert } := by
  cases hd : s.chip.phydpx <;> simp [State.duplexSettings, hd]

/-- The bring-up leaves the hash registers showing the counts (R199). -/
theorem State.tableSound_broughtUp (hs : s.seq = []) : s.broughtUp.TableSound :=
  (sound_broughtUp (s := s) (t := s.broughtUp) rfl hs rfl rfl rfl rfl).table

/-- Without a known address the second test ends the operation (R257). -/
theorem runs_initialiseBody_unknown (hp : s.ctx.probed = true) (ha : s.ctx.addrKnown = false) :
    Runs initialiseBody s (.err .addressUnknown) s [.raised .addressUnknown .none] := by
  refine (runs_atStep 1).then (runs_get ?_ fun _ _ _ => rfl)
  simp only [hp, ha, Bool.true_eq_false, if_false, if_true]
  exact (runs_atStep 2).then ((leaves_raise .addressUnknown .none).bind (out' := []) leaves_pure.runs)

/-- On a block not yet initialized whose flow control is idle the operation ends, whatever its answer. -/
theorem exists_runs_initialiseBody (hp : s.ctx.probed = true) (hi : s.initialized = false)
    (hb : s.chip.fcidle = true) (hl : s.cfg.spinLimit ≠ some 0) : ∃ r u out, Runs initialiseBody s r u out := by
  cases ha : s.ctx.addrKnown
  · exact ⟨_, _, _, runs_initialiseBody_unknown hp ha⟩
  · exact ⟨_, _, _, runs_initialiseBody hp ha hi hb hl⟩

end Initialise

/-! ### `TRANSMIT` (R214) -/

section Transmit

variable {s u : State} {ptype : Word} {dest : BitVec 32} {bytes : List Byte} {r : Result} {out : List TraceEvent}

/-- The resolver's answer does not depend on what no operation looks at. -/
theorem State.nextAddress_dress (s : State) (q : List Frame) (g : Guise) (tr : List TraceEvent) :
    (s.dress q g tr).nextAddress = (s.nextAddress.1, s.nextAddress.2.dress q g tr) := by
  cases h : s.resolveAnswers with
  | nil => rw [State.nextAddress_nil h, State.nextAddress_nil (by exact h)]; rfl
  | cons a rest => rw [State.nextAddress_cons h, State.nextAddress_cons (by exact h)]; rfl

/-- The resolver's next answer, the host's or a free one (R221). -/
theorem traced_resolve {answer : Option MacAddr} (hn : s.nextAddress = (answer, u)) :
    Traced (resolve dest bytes) s answer u [.resolve dest answer (if answer.isNone then bytes else [])] := fun hs => by
  refine ⟨?_, fun op k snap q g tr => ⟨k, _, ?_, rfl⟩⟩
  · obtain ⟨l, n, hu⟩ := s.nextAddress_frame
    rw [hn] at hu
    exact (congrArg State.agenda hu).trans hs
  · rw [resolve_run, State.nextAddress_dress, hn]
    rfl

/-- `ENQUEUE_AND_KICK` ends (R150). -/
theorem exists_runs_enqueueAndKickBody (s : State) (pkt : Packet) :
    ∃ r u out, Runs (enqueueAndKickBody pkt) s r u out := by
  obtain ⟨r, t, out, he⟩ : ∃ r t out, Leaves (enqueue pkt) s r t out := by
    by_cases hc : s.sendq.length < s.cfg.sendqMax
    · exact ⟨_, _, _, leaves_enqueue_room hc⟩
    · exact ⟨_, _, _, leaves_enqueue_full (Nat.le_of_not_lt hc)⟩
  obtain ⟨u, out', hk, -⟩ := runs_kickBody (s := t)
  exact ⟨r, u, _, runs_enqueueAndKickBody he hk⟩

/-- Both commands that hand over a packet, on a ready block. -/
theorem completes_packet {op : OpName} {pkt : Packet} {body : Op Result} (h : s.Ready) (hx : Runs body s r u out) :
    Completes (runProbedPacket op pkt body s) s ((u.idleAgain s).answered r) out := by
  rw [runProbedPacket_probed h.2]
  exact runCommand_ends h.1 hx

/-- Before bring-up the packet is given back (R214 step 1). -/
theorem runs_transmitBody_uninitialised (isFramed : Bool) (hi : s.initialized = false) :
    Runs (transmitBody isFramed ptype dest bytes) s (.err .notInitialized) s
      [.raised .notInitialized .none, .release (flatPacket bytes)] := by
  refine (runs_atStep 1).then (runs_get ?_ fun _ _ _ => rfl)
  rw [if_pos hi]
  exact (leaves_release _).bind (out' := [_]) ((leaves_raise .notInitialized .none).bind (out' := []) leaves_pure.runs)

variable (hi : s.initialized = true)
include hi

/-- A framed packet goes on as it is. -/
theorem runs_transmitBody_framed (hx : Runs (enqueueAndKickBody (flatPacket bytes)) s r u out) :
    Runs (transmitBody true ptype dest bytes) s r u out := by
  refine (runs_atStep 1).then (runs_get ?_ fun _ _ _ => rfl)
  rw [if_neg (by simp [hi])]
  exact (runs_atStep 2).then ((runs_atStep 3).then hx.call.runs)

/-- An unframed one goes on behind its header (R214 step 2). -/
theorem runs_transmitBody_resolved {hw : MacAddr} {t : State} (hn : s.nextAddress = (some hw, t))
    (hx : Runs (enqueueAndKickBody (flatPacket (framed hw s.ctx.linkAddress ptype bytes))) t r u out) :
    Runs (transmitBody false ptype dest bytes) s r u out := by
  have hanswer : Runs (resolve dest bytes) s (some hw) t [] := (traced_resolve hn).runs
  refine (runs_atStep 1).then (runs_get ?_ fun _ _ _ => rfl)
  rw [if_neg (by simp [hi])]
  exact (runs_atStep 2).then (hanswer.then ((runs_atStep 3).then hx.call.runs))

/-- One that is deferred stays with the resolver. -/
theorem traced_transmitBody_deferred (hn : s.nextAddress = (none, u)) :
    Traced (transmitBody false ptype dest bytes) s .ok u [.resolve dest none bytes] := by
  refine (traced_atStep 1).then (logs_get ?_ fun _ _ _ => rfl)
  rw [if_neg (by simp [hi])]
  exact (traced_atStep 2).then ((traced_resolve hn).bind (es' := []) traced_pure)

/-- The operation ends, whatever the resolver answers. -/
theorem exists_runs_transmitBody : ∃ r u out, Runs (transmitBody false ptype dest bytes) s r u out := by
  cases hn : s.nextAddress with
  | mk answer t =>
    cases answer with
    | none => exact ⟨_, _, _, (traced_transmitBody_deferred hi hn).runs⟩
    | some hw =>
      obtain ⟨r, u, out, hx⟩ := exists_runs_enqueueAndKickBody t
        (flatPacket (framed hw s.ctx.linkAddress ptype bytes))
      exact ⟨r, u, out, runs_transmitBody_resolved hi hn hx⟩

end Transmit

/-! ### `SET_MULTICAST` (R215) -/

section SetMulticast

variable {s : State}

theorem exists_traced_subscribeBody (a : MacAddr) :
    ∃ u es, Traced (subscribeBody a) s () u es ∧ u.seq = s.seq ∧ u.ipl = s.ipl :=
  ⟨_, _, logs_get (traced_recount _ _) fun _ _ _ => rfl, rfl, rfl⟩

theorem exists_traced_unsubscribeBody (a : MacAddr) :
    ∃ u es, Traced (unsubscribeBody a) s () u es ∧ u.seq = s.seq ∧ u.ipl = s.ipl := by
  by_cases h0 : s.ctx.multicastRefcount[hashOf s.cfg.crcVariant a] = 0
  · exact ⟨s, [], logs_get (by rw [if_pos h0]; exact traced_pure) fun _ _ _ => rfl, rfl, rfl⟩
  · have hx : Traced (unsubscribeBody a) s () _ _ :=
      logs_get (by rw [if_neg h0]; exact traced_recount _ _) fun _ _ _ => rfl
    exact ⟨_, _, hx, rfl, rfl⟩

end SetMulticast

/-! ### `SET_FLAGS` (R216) -/

section SetFlags

variable {s u : State} {r : Result} {out : List TraceEvent}

theorem traced_adminUp (up : Bool) :
    Traced (update fun s => { s with adminUp := up }) s () { s with adminUp := up } [] :=
  traced_update (fun _ _ _ => rfl) rfl

/-- Going down, or going up on a block that is initialized, is recorded and no more. -/
theorem exec_setFlags_records (h : s.Ready) {up : Bool} (hu : ¬ (up && !s.initialized) = true) :
    exec (.setFlags up) s = .next { s.answered .unit with adminUp := up } := by
  have hbody : Traced (setFlagsBody up) s .unit { s with adminUp := up } [] := by
    refine (traced_adminUp up).then (logs_get ?_ fun _ _ _ => rfl)
    rw [if_neg hu]
    exact traced_pure
  exact runProbed_traced h hbody rfl rfl

/-- Going up on a block not yet initialized runs an `INITIALIZE` and discards its answer. -/
theorem runs_setFlagsBody_up (hi : s.initialized = false)
    (hx : Runs initialiseBody { s with adminUp := true } r u out) :
    Runs (setFlagsBody true) s .unit u out := by
  refine (traced_adminUp true).runs.then (runs_get ?_ fun _ _ _ => rfl)
  rw [if_pos (by simp [hi])]
  exact hx.call.bind (out' := []) leaves_pure.runs

end SetFlags

/-! ### The statements -/

/-- Settles O46: the bring-up computed (`runs_initialiseBody`), its duplex written field by field
(`State.duplexSettings_eq`), and its hash registers by what they show (`State.tableSound_broughtUp`). -/
theorem initialiseResult : Obligations.InitialiseResult := by
  intro s h ha hi hb hl
  have hrun : Runs initialiseBody s .ok s.broughtUp [] := runs_initialiseBody h.2 ha hi hb hl
  have htable : s.broughtUp.TableSound := State.tableSound_broughtUp h.1.1
  rw [State.broughtUp, State.duplexSettings_eq] at hrun htable
  exact ⟨_, runCommand_answers h.1 hrun rfl rfl, rfl, rfl, rfl, rfl, rfl, rfl, rfl, rfl, htable, rfl, rfl, rfl, rfl,
    rfl, rfl⟩

/-- Settles O48: each form of the packet leads to its `ENQUEUE_AND_KICK`, called, or to the resolver's keeping it, and
every `ENQUEUE_AND_KICK` ends (`exists_runs_enqueueAndKickBody`). -/
theorem transmitResult : Obligations.TransmitResult := by
  intro s ptype dest bytes h hi
  refine ⟨?_, fun hw answers ha => ?_, fun answers ha => ?_, ?_⟩
  · obtain ⟨r, u, out, hx⟩ := exists_runs_enqueueAndKickBody s (flatPacket bytes)
    exact ⟨u.idleAgain s, r, out, completes_packet h hx, completes_packet h (runs_transmitBody_framed hi hx)⟩
  · obtain ⟨r, u, out, hx⟩ := exists_runs_enqueueAndKickBody { s with resolveAnswers := answers }
      (flatPacket (framed hw s.ctx.linkAddress ptype bytes))
    have hrun := runs_transmitBody_resolved (dest := dest) hi (State.nextAddress_cons ha) hx
    exact ⟨u.idleAgain s, r, out, completes_packet (s := { s with resolveAnswers := answers }) h hx,
      completes_packet h hrun⟩
  · have hbody := traced_transmitBody_deferred (ptype := ptype) (dest := dest) (bytes := bytes) hi
      (State.nextAddress_cons ha)
    have hrun := runProbed_traced (op := .transmit) h hbody rfl rfl
    rw [runProbed_probed h.2] at hrun
    exact (runProbedPacket_probed h.2).trans hrun
  · obtain ⟨r, u, out, hx⟩ := exists_runs_transmitBody (ptype := ptype) (dest := dest) (bytes := bytes) hi
    obtain ⟨tr, ht⟩ := (completes_packet (op := .transmit) (pkt := flatPacket bytes) h hx).next
    exact ⟨_, ht, rfl⟩

/-- Settles O49: the command calls the operation that the other command runs (`exists_next_call`). -/
theorem setMulticastResult : Obligations.SetMulticastResult := by
  intro s a sub h
  cases sub with
  | true =>
    obtain ⟨u, es, hx, hq, hi⟩ := exists_traced_subscribeBody (s := s) a
    exact exists_next_call h hx hq hi
  | false =>
    obtain ⟨u, es, hx, hq, hi⟩ := exists_traced_unsubscribeBody (s := s) a
    exact exists_next_call h hx hq hi

/-- Settles O50: the record alone (`exec_setFlags_records`), or the `INITIALIZE` behind it (`runs_setFlagsBody_up`),
which ends (`exists_runs_initialiseBody`). -/
theorem setFlagsResult : Obligations.SetFlagsResult := by
  intro s h
  refine ⟨exec_setFlags_records h (by simp), fun hi => exec_setFlags_records h (by simp [hi]), fun hi hb hl => ?_⟩
  obtain ⟨r, u, out, hx⟩ := exists_runs_initialiseBody (s := { s with adminUp := true }) h.2 hi hb hl
  exact ⟨u.idleAgain s, r, out, runCommand_ends (s := { s with adminUp := true }) h.1 hx,
    runProbed_ends h (runs_setFlagsBody_up hi hx)⟩

/-- Settles O19: the guard of every command (`exec_unprobed`), that of `INITIALIZE`, and that of `TRANSMIT`. -/
theorem notProbedRefused : Obligations.NotProbedRefused := by
  refine ⟨fun s hs hp => ⟨fun i => exec_unprobed hs hp, completes_initialise_unprobed hs hp⟩,
    fun s isFramed ptype dest bytes h hi => ?_⟩
  have hrun : exec (.transmit isFramed ptype dest bytes) s = _ := runProbedPacket_probed h.2
  rw [hrun]
  exact runCommand_answers h.1 (runs_transmitBody_uninitialised isFramed hi) rfl rfl

/-- Settles O51: the command makes no access. -/
theorem getStatusResult : Obligations.GetStatusResult := fun s h =>
  have hbody : Traced (do return Result.status (← get).status) s (.status s.status) s [] :=
    logs_get traced_pure fun _ _ _ => rfl
  runProbed_traced h hbody rfl rfl

end Sys2Proof.Machine
end

section
/-! SUPPORT. The chip's own moves (spec/49_chip_agent.md R231 to R241): what they store does not depend on the sequencer,
and the registers that they share with the block they move one way only. -/

namespace Sys2Proof.Machine

/-- The chip's moves are among those that leave the block alone at any time. -/
theorem EnvMove.plain_of_ofChip {m : EnvMove} (h : m.ofChip = true) : m.plain = true := by
  cases m with
  | timerFire | reset | discover => cases h
  | _ => rfl

/-- What a move of the chip stores does not depend on what the block is running. -/
theorem State.applyMove_mem_withSeq (s : State) (q : List Frame) {m : EnvMove} (h : m.ofChip = true) :
    (State.applyMove { s with seq := q } m).mem = (s.applyMove m).mem := by
  cases m with
  | rxBegin | rxEnd | rxOverflow | rxEndCorrupt | txComplete | txAbort =>
    simp only [State.applyMove, State.chipRxEnd, State.chipRxOverflow, State.chipRxEndCorrupt, State.chipTxComplete,
      State.chipTxAbort, apply_ite State.mem] <;> rfl
  | linkChange | flowControl => rfl
  | timerTick | timerFire | reset | discover | present => cases h

/-- Outside the ring a move of the chip stores nothing, whether an operation runs or not (R241). -/
theorem State.applyMove_read_ofChip (s : State) {m : EnvMove} (h : m.ofChip = true) {a : Nat}
    (ha : ¬ InRing s.cfg.toParams a) : (s.applyMove m).mem.read a = s.mem.read a := by
  have hrun := State.applyMove_read (s := { s with seq := [⟨.kick, 0, none⟩] }) (List.cons_ne_nil _ _) m ha
  rwa [State.applyMove_mem_withSeq s _ h] at hrun

/-- What the chip may do to the registers it shares with the block: raise the writable flags and the counter, and move
`FCASSERT` where `AUTOFC` lets it (R239, R241). -/
structure Chip.Advances (c d : Chip) : Prop where
  link : c.flags.link = true → d.flags.link = true
  txdone : c.flags.txdone = true → d.flags.txdone = true
  txabt : c.flags.txabt = true → d.flags.txabt = true
  rxabt : c.flags.rxabt = true → d.flags.rxabt = true
  pktcnt : c.pktcnt ≤ d.pktcnt
  fcassert : c.autofc = false → d.fcassert = c.fcassert

theorem Chip.Advances.refl (c : Chip) : c.Advances c := ⟨id, id, id, id, Nat.le_refl _, fun _ => rfl⟩

theorem Chip.advances_rxOverflowed (c : Chip) : c.Advances c.rxOverflowed :=
  ⟨id, id, id, fun _ => rfl, Nat.le_refl _, fun _ => rfl⟩

/-- Each step of the chip goes only that way: a receive raises `RXABT` or the counter, a transmit its two flags, a link
change its own, and a flow-control step asks `AUTOFC`. -/
theorem State.applyMove_advances (s : State) {m : EnvMove} (h : m.ofChip = true) :
    s.chip.Advances (s.applyMove m).chip := by
  have same := Chip.Advances.refl s.chip
  cases m with
  | rxBegin =>
    simp only [State.applyMove]
    split
    · exact { same with }
    · exact same
  | rxEnd hdr payload rest fcs pad =>
    simp only [State.applyMove, State.chipRxEnd]
    split
    · split
      · exact { same with }
      · split
        · exact { same with pktcnt := Nat.le_succ _ }
        · exact s.chip.advances_rxOverflowed
    · exact same
  | rxOverflow n =>
    simp only [State.applyMove, State.chipRxOverflow]
    split
    · exact s.chip.advances_rxOverflowed
    · exact same
  | rxEndCorrupt writes head raise =>
    simp only [State.applyMove, State.chipRxEndCorrupt]
    split
    · exact { same with pktcnt := Nat.le_add_right _ _ }
    · exact same
  | txComplete both =>
    simp only [State.applyMove, State.chipTxComplete]
    split
    · exact { same with txdone := fun _ => rfl, txabt := Bool.or_eq_true_iff.2 ∘ Or.inl }
    · exact same
  | txAbort both =>
    simp only [State.applyMove, State.chipTxAbort]
    split
    · exact { same with txabt := fun _ => rfl, txdone := Bool.or_eq_true_iff.2 ∘ Or.inl }
    · exact same
  | linkChange dpx lnk => exact { same with link := fun _ => rfl }
  | flowControl fcidle fcassert => exact { same with fcassert := fun hc => if_neg (Bool.eq_false_iff.1 hc) }
  | timerTick | timerFire | reset | discover | present => cases h

/-- Settles O11: the block's own state and registers by the frame of every move (`State.applyMove_plain`), the shared
registers by `State.applyMove_advances`, memory by `State.applyMove_read_ofChip`. -/
theorem chipNeverDoes : Obligations.ChipNeverDoes := by
  intro s m h t
  obtain ⟨kept, htxrts⟩ := s.applyMove_plain (EnvMove.plain_of_ofChip h)
  obtain ⟨hlink, htxdone, htxabt, hrxabt, hpktcnt, hfcassert⟩ := s.applyMove_advances h
  refine ⟨kept.ctx, kept.sendq, ?_, fun r hr => ?_, fun b hb => ?_, htxrts, ?_, hpktcnt, hfcassert,
    fun a ha => s.applyMove_read_ofChip h ha⟩
  · rw [kept.packetsIn, kept.packetsOut, kept.errorsIn, kept.errorsOut]
  · have hfield : t.chip.blockOnly.field r = s.chip.blockOnly.field r := congrArg (Chip.field · r) kept.chip
    fin_cases hr <;> exact hfield
  · have hbit : t.chip.blockOnly.bit b = s.chip.blockOnly.bit b := congrArg (Chip.bit · b) kept.chip
    fin_cases hb <;> exact hbit
  · simp only [List.forall_mem_cons, Chip.bit]
    exact ⟨hlink, htxdone, htxabt, hrxabt, List.forall_mem_nil _⟩

end Sys2Proof.Machine
end

section
/-! SUPPORT. The statements about exceptions and interrupts (spec/60_exceptions.md): the request line, the activation,
the record of an exception, and two commands that end early with one. -/

namespace Sys2Proof.Machine

/-! ### The request line and the activation (R264, R265, R267) -/

/-- Settles O8: the line is the master enable and one of the five pairs. -/
theorem requestLine : Obligations.RequestLine := by
  intro c
  simp only [Chip.irq, Chip.bit, Bool.and_eq_true, Bool.or_eq_true, List.exists_mem_cons_iff, List.not_mem_nil,
    false_and, exists_false, or_false, or_assoc]

theorem State.canActivate_iff {s : State} :
    s.canActivate = true ↔ s.chip.irq = true ∧ s.seq = [] ∧ s.ipl = .low := by
  simp only [State.canActivate, Bool.and_eq_true, List.isEmpty_iff, beq_iff_eq, and_assoc]

/-- Picked, an enabled activation comes before any waiting command (R265). -/
theorem blockTurn_activation {s : State} (h : s.canActivate = true) : blockTurn .activation s = activate s := by
  simp only [blockTurn, h]

/-- With no activation enabled and no command waiting an idle block has nothing to do (R282). -/
theorem blockTurn_nothing {s : State} (h : s.canActivate = false) (hp : s.port = []) (pick : Pick) :
    blockTurn pick s = .next s := by
  cases pick <;> simp only [blockTurn, h, hp]

/-- An activation whose dispatcher returns: the dispatcher has kept the context, which says how to return (R267). -/
theorem activate_returns {s t : State} (h : dispatchBody s.beginInterrupt = .ok () t) :
    activate s = .next t.endInterrupt := by
  have kept : Kept s.beginInterrupt t := by
    have k := keeps_dispatchBody s.beginInterrupt 0 s.beginInterrupt ⟨Kept.refl _, rfl⟩
    rw [h] at k
    exact k.1
  have hctx : t.context = some .interrupt := kept.context
  rw [activate, op_bind, h, ← State.finish_interrupt (r := .unit) hctx]
  rfl

/-- Settles O9: the turn of an idle block, and the return of its dispatcher (`activate_returns`). -/
theorem activation : Obligations.Activation := by
  intro s hs
  refine ⟨fun hi hl hstill => step_activate ⟨hs, hstill⟩ hi hl, fun hi hl slots ha => ?_,
    fun t _ h => activate_returns h, fun hn hp hstill => ?_⟩
  · rw [step_idle hs, State.rearm_some (by rw [ha]; exact List.cons_ne_nil _ _)]
    simp only [idleStep, ha]
    exact blockTurn_activation (s := { s with agenda := slots }) (State.canActivate_iff.2 ⟨hi, hs, hl⟩)
  · have hc : s.canActivate = false := Bool.eq_false_iff.2 fun hc =>
      have ⟨hi, _, hl⟩ := State.canActivate_iff.1 hc
      hn ⟨hi, hl⟩
    rw [step_idle hs, State.rearm_none hstill.2]
    simp only [idleStep, hstill.1]
    exact blockTurn_nothing hc hp .activation

/-! ### Exceptions (R250, R262, R256, R257) -/

/-- Settles O18: the counter table, row by row. -/
theorem raiseCounts : Obligations.RaiseCounts := by
  intro x info s
  cases x <;> rfl

/-- Settles O28: the short path computed (`runs_recoverBody_disabled`), and the beginning and the end of the command. -/
theorem recoverDisables : Obligations.RecoverDisables := by
  intro s h hc
  refine (runProbed_ends h ((runs_recoverBody_disabled hc).bind (out' := []) leaves_pure.runs)).to ?_ rfl
  simp [State.untraced, State.answered, State.disabledByRecover, h.1.1]

/-- A bring-up that has happened is not repeated (R213 step 3, R284). -/
theorem traced_initialiseBody_again {s : State} (hp : s.ctx.probed = true) (ha : s.ctx.addrKnown = true)
    (hi : s.initialized = true) : Traced initialiseBody s .ok s [] := by
  refine (traced_atStep 1).then (logs_get ?_ fun _ _ _ => rfl)
  simp only [hp, ha, hi, Bool.true_eq_false, if_false, if_true]
  exact (traced_atStep 2).then ((traced_atStep 3).then traced_pure)

/-- Settles O47: the second and the third test of the operation (`runs_initialiseBody_unknown`,
`traced_initialiseBody_again`). -/
theorem initialiseTouchesNothing : Obligations.InitialiseTouchesNothing := by
  refine fun s h => ⟨fun ha => runCommand_answers h.1 (runs_initialiseBody_unknown h.2 ha) rfl rfl, fun ha hi => ?_⟩
  exact (runProbed_probed h.2).symm.trans (runProbed_traced h (traced_initialiseBody_again h.2 ha hi) rfl rfl)

end Sys2Proof.Machine
end

section
/-! SUPPORT. The statements about reset and discovery (spec/70_reset_and_hazards.md R280 to R284). -/

namespace Sys2Proof.Machine

/-- Settles O15: the guard of the move; the trace takes the queued packets one by one. -/
theorem resetMove : Obligations.ResetMove := by
  refine fun s v => ⟨fun hs => if_neg hs, fun hs => ?_⟩
  have hmove : s.applyMove (.reset v) = _ := if_pos hs
  have htrace : s.sendq.foldl (fun t p => TraceEvent.release p :: t) s.trace = _ := List.foldl_flip_cons_eq_append
  rw [hmove, htrace]
  exact ⟨rfl, rfl, rfl, rfl, rfl, rfl, rfl, rfl, rfl, rfl, rfl, rfl, rfl, rfl⟩

/-- Settles O16: each outcome under the guard of the move. -/
theorem deviceDiscovery : Obligations.DeviceDiscovery := fun _ hs hp =>
  ⟨if_pos ⟨hs, hp⟩, if_pos ⟨hs, hp⟩, if_pos ⟨hs, hp⟩⟩

/-- Settles O17: the line is low, the port is empty and nothing is lined up (`activation`). -/
theorem nothingExecutesAfterReset : Obligations.NothingExecutesAfterReset := fun cfg v =>
  have hline : (State.launch cfg v).chip.irq = false := rfl
  have ⟨_, _, _, idle⟩ := activation (State.launch cfg v) rfl
  idle (fun h => Bool.false_ne_true (hline.symm.trans h.1)) rfl ⟨rfl, rfl⟩

end Sys2Proof.Machine
end
